-- ==== Sys2Proof/Word.lean ====
section
/-! DEFINITION. The word types of the device and their plainest arithmetic. -/

namespace Sys2Proof

/-- One lane word of a vector register (R90). -/
abbrev Word := BitVec 32

/-- Two words, low half first in a register pair (R32, R33). -/
abbrev DWord := BitVec 64

/-- One byte of memory. -/
abbrev Byte := BitVec 8

/-- A register number as the D, A, B, C, GR and HR fields hold it. -/
abbrev Reg := BitVec 8

/-- A lane mask: bit l stands for lane l (R90). -/
abbrev Mask := BitVec 32

/-- A program counter value: bits 47:6 the line, bits 2:0 the slot (R63). -/
abbrev Ctr := BitVec 48

end Sys2Proof
end

