-- ==== Sys2Proof/Syntax.lean ====
section
/-! DEFINITION. The instructions of the device and the steps of its units: one constructor for each row of the opcode
table. A register operand is a register number; a pair operand is its low register. -/

namespace Sys2Proof

/-- The register types of the T field (R32), in the order of their codes. -/
inductive RType where
  | s8 | z8 | s16 | z16 | s32 | z32 | s64 | z64 | f16 | bf16 | f32 | f64 | h2 | b2 | s8x4
  deriving DecidableEq, Repr

/-- The rounding modes of the M field (R45), in the order of their codes. -/
inductive RMode where
  | rne | rz | rdn | rpl | rna | sto | dyn
  deriving DecidableEq, Repr

/-- The address spaces (R71, R185), in the order of their codes. -/
inductive Space where
  | g | s | w | a | c
  deriving DecidableEq, Repr

/-- A guard: the register whose bit 0 decides, and GN (R73). -/
structure Guard where
  neg : Bool
  reg : Reg
  deriving DecidableEq, Repr

/-- What every instruction word carries: the guard (R73), the switch marker S (R75) and the hint (R74). -/
structure Hdr where
  guard : Option Guard
  mark : Bool
  hint : Option Reg
  deriving DecidableEq, Repr

/-- A B-form target: signed line displacement and slot (R69, R70). -/
structure Target where
  disp : BitVec 28
  slot : BitVec 3
  deriving DecidableEq, Repr

/-- The shared operands of an M-form instruction (R69, R71): the space, the base pair, the offset, the cache policy and
the frame slot of a checked access. -/
structure MemArg where
  sp : Space
  base : Reg
  off : BitVec 32
  cp : BitVec 2
  chk : Option (BitVec 4)
  deriving DecidableEq, Repr

/-- A shift amount: FN 0 a register, FN 1 E bits 6:0 (R138). -/
inductive ShAmt where
  | reg (r : Reg)
  | imm (n : BitVec 7)
  deriving DecidableEq, Repr

/-- A bit-field spec: FN 0 a register, FN 1 E bits 15:0 (R141). -/
inductive FieldSpec where
  | reg (r : Reg)
  | imm (v : BitVec 16)
  deriving DecidableEq, Repr

/-- The source lane of BCAST: FN 0 E bits 4:0, FN 1 a register (R168). -/
inductive LaneSel where
  | imm (n : BitVec 5)
  | reg (r : Reg)
  deriving DecidableEq, Repr

/-- The amount of CINC and CDEC: FN 0 E bits 11:0, FN 1 a register (R402). -/
inductive Amount where
  | imm (n : BitVec 12)
  | reg (r : Reg)
  deriving DecidableEq, Repr

/-- The condition codes of CMP and CMPI (R142), in the order of FN. -/
inductive Cond where
  | eq | ne | lt | le | gt | ge | un | ord
  deriving DecidableEq, Repr

/-- The operations of WRED and WSCAN (R169), in the order of FN. -/
inductive RedOp where
  | add | min | max | and | or | xor
  deriving DecidableEq, Repr

/-- The operations of ATOM and ATOMN (R240). -/
inductive AtomOp where
  | add | min | max | and | or | xor | swap | inc | dec
  deriving DecidableEq, Repr

/-- The DX block formats (R42), in the order of DXPACK's FN. -/
inductive DxFmt where
  | dx8 | dx6 | dx4
  deriving DecidableEq, Repr

/-- The MX block formats (R40), in the order of MXPACK's FN. -/
inductive MxFmt where
  | mxe4m3 | mxe5m2 | mxe3m2 | mxe2m3 | mxe2m1 | mxs8
  deriving DecidableEq, Repr

/-- The storage formats that PACK and UNPACK accept (R158). -/
inductive PackFmt where
  | f16 | bf16 | e4m3 | e5m2 | e2m1 | s16 | s8 | z8 | s4 | z4
  deriving DecidableEq, Repr

/-- The X fields that every copy mover has (R256): spaces, destination FDT index, the conversion format, and the M and
SAT fields that a converting copy uses. -/
structure CopyArg where
  ssp : Space
  dsp : Space
  dfdt : BitVec 6
  cvf : Option (BitVec 6)
  m : RMode
  sat : Bool
  deriving DecidableEq, Repr

/-- The accumulator type that TLOADC loads (R274), in the order of FN. -/
inductive TileKind where
  | f32 | s32 | f64
  deriving DecidableEq, Repr

/-- The page format of SDPARK (R283), in the order of its codes. -/
inductive ParkFmt where
  | keep | dx6 | dx4 | mxe4m3
  deriving DecidableEq, Repr

/-- The residual of a TDRAIN: its run of three registers and its space 0 a, 1 c, 2 g (R279). -/
structure ResArg where
  run : Reg
  rsp : BitVec 2
  deriving DecidableEq, Repr

/-- The X fields of TDRAIN (R279). -/
structure DrainArg where
  tile : BitVec 3
  toG : Bool
  dfdt : BitVec 6
  res : Option ResArg
  drop : Bool
  relu : Bool
  out : Option Reg
  chk : Option (BitVec 4)
  deriving DecidableEq, Repr

/-- The X fields of MMT (R275). -/
structure MmtArg where
  tile : BitVec 3
  km1 : BitVec 8
  aInW : Bool
  amem : Option (BitVec 3)
  bmem : Option (BitVec 3)
  deriving DecidableEq, Repr

/-- Which barrier completes: a block barrier of the compute waves or of the yokemates, or a group barrier (R405). -/
inductive BarrierId where
  | block (blk : Nat) (yoke : Bool)
  | group (launch idx : Nat)
  deriving DecidableEq, Repr

/-- One constructor for each row of the opcode table. The first part are the instructions, in the table's order; the
second part are the steps of the units and of the outside world. -/
inductive Instr where
  -- control (R81, R170)
  | nop (h : Hdr)
  | br (h : Hdr) (t : Target)
  | jmp (h : Hdr) (t : Target)
  | call (h : Hdr) (d : Reg) (t : Target)
  | calli (h : Hdr) (d a : Reg)
  | ret (h : Hdr) (a : Reg)
  | exit (h : Hdr)
  | yield (h : Hdr)
  | nap (h : Hdr) (count : BitVec 16)
  -- integer and address (R126)
  | mov (h : Hdr) (t : RType) (d a : Reg)
  | movi (h : Hdr) (t : RType) (d : Reg) (imm : BitVec 32)
  | movih (h : Hdr) (d : Reg) (imm : BitVec 32)
  | add (h : Hdr) (t : RType) (sat : Bool) (d a b : Reg)
  | addi (h : Hdr) (t : RType) (sat : Bool) (d a : Reg) (imm : BitVec 32)
  | sub (h : Hdr) (t : RType) (sat : Bool) (d a b : Reg)
  | mul (h : Hdr) (t : RType) (sat : Bool) (d a b : Reg)
  | mulh (h : Hdr) (t : RType) (d a b : Reg)
  | mad (h : Hdr) (t : RType) (sat : Bool) (d a b c : Reg)
  | madw (h : Hdr) (t : RType) (sat : Bool) (d a b c : Reg)
  | div (h : Hdr) (t : RType) (sat : Bool) (d a b : Reg)
  | rem (h : Hdr) (t : RType) (d a b : Reg)
  | neg (h : Hdr) (t : RType) (sat : Bool) (d a : Reg)
  | abs (h : Hdr) (t : RType) (sat : Bool) (d a : Reg)
  | min (h : Hdr) (t : RType) (d a b : Reg)
  | max (h : Hdr) (t : RType) (d a b : Reg)
  | clamp (h : Hdr) (t : RType) (d a b c : Reg)
  | lea (h : Hdr) (t : RType) (d a b : Reg) (sh : BitVec 4)
  -- logic and bits (R126)
  | and (h : Hdr) (t : RType) (d a b : Reg)
  | or (h : Hdr) (t : RType) (d a b : Reg)
  | xor (h : Hdr) (t : RType) (d a b : Reg)
  | not (h : Hdr) (t : RType) (d a : Reg)
  | bool3 (h : Hdr) (t : RType) (d a b c : Reg) (fn : BitVec 8)
  | shl (h : Hdr) (t : RType) (d a : Reg) (n : ShAmt)
  | shr (h : Hdr) (t : RType) (d a : Reg) (n : ShAmt)
  | sar (h : Hdr) (t : RType) (d a : Reg) (n : ShAmt)
  | rot (h : Hdr) (t : RType) (d a : Reg) (n : ShAmt)
  | funsh (h : Hdr) (d a b c : Reg)
  | popc (h : Hdr) (t : RType) (d a : Reg)
  | clz (h : Hdr) (t : RType) (d a : Reg)
  | ctz (h : Hdr) (t : RType) (d a : Reg)
  | bfx (h : Hdr) (t : RType) (d a : Reg) (sp : FieldSpec)
  | bfi (h : Hdr) (t : RType) (d a b : Reg) (sp : FieldSpec)
  -- compare and vote (R126)
  | cmp (h : Hdr) (cc : Cond) (t : RType) (d a b : Reg)
  | cmpi (h : Hdr) (cc : Cond) (t : RType) (d a : Reg) (imm : BitVec 32)
  | sel (h : Hdr) (t : RType) (d a b c : Reg)
  | ballot (h : Hdr) (d a : Reg)
  | vany (h : Hdr) (d a : Reg)
  | vall (h : Hdr) (d a : Reg)
  | veq (h : Hdr) (t : RType) (d a : Reg)
  | active (h : Hdr) (d : Reg)
  | activePath (h : Hdr) (d : Reg)
  | activeLive (h : Hdr) (d : Reg)
  -- float (R149)
  | fadd (h : Hdr) (t : RType) (m : RMode) (sat : Bool) (d a b : Reg)
  | fsub (h : Hdr) (t : RType) (m : RMode) (sat : Bool) (d a b : Reg)
  | fmul (h : Hdr) (t : RType) (m : RMode) (sat : Bool) (d a b : Reg)
  | ffma (h : Hdr) (t : RType) (m : RMode) (sat : Bool) (d a b c : Reg)
  | fdiv (h : Hdr) (t : RType) (m : RMode) (sat : Bool) (d a b : Reg)
  | fsqrt (h : Hdr) (t : RType) (m : RMode) (d a : Reg)
  | fmin (h : Hdr) (t : RType) (d a b : Reg)
  | fmax (h : Hdr) (t : RType) (d a b : Reg)
  | fneg (h : Hdr) (t : RType) (d a : Reg)
  | fabs (h : Hdr) (t : RType) (d a : Reg)
  | frcp (h : Hdr) (t : RType) (m : RMode) (sat : Bool) (d a : Reg)
  | frsq (h : Hdr) (t : RType) (m : RMode) (sat : Bool) (d a : Reg)
  | fexp2 (h : Hdr) (t : RType) (m : RMode) (sat : Bool) (d a : Reg)
  | flog2 (h : Hdr) (t : RType) (m : RMode) (sat : Bool) (d a : Reg)
  | fsin (h : Hdr) (t : RType) (m : RMode) (sat : Bool) (d a : Reg)
  | fcos (h : Hdr) (t : RType) (m : RMode) (sat : Bool) (d a : Reg)
  | ftanh (h : Hdr) (t : RType) (m : RMode) (sat : Bool) (d a : Reg)
  | frnd (h : Hdr) (t : RType) (m : RMode) (d a : Reg)
  | frndExact (h : Hdr) (t : RType) (m : RMode) (d a : Reg)
  | fscale (h : Hdr) (t : RType) (m : RMode) (sat : Bool) (d a b : Reg)
  | fclass (h : Hdr) (t : RType) (d a : Reg)
  | dot2 (h : Hdr) (t : RType) (m : RMode) (sat : Bool) (d a b c : Reg)
  -- convert (R158)
  | cvt (h : Hdr) (td ts : RType) (m : RMode) (sat : Bool) (d a : Reg)
  | pack (h : Hdr) (f : PackFmt) (m : RMode) (sat : Bool) (d a : Reg)
  | unpack (h : Hdr) (f : PackFmt) (d a : Reg)
  | dxpack (h : Hdr) (f : DxFmt) (m : RMode) (d a : Reg)
  | mxpack (h : Hdr) (f : MxFmt) (m : RMode) (d a : Reg)
  | dxunpk (h : Hdr) (f : DxFmt) (d a : Reg)
  | mxunpk (h : Hdr) (f : MxFmt) (d a : Reg)
  | flagsClr (h : Hdr) (mask : BitVec 15)
  | flagsSet (h : Hdr) (mask : BitVec 15)
  | flagsRm (h : Hdr) (mode : BitVec 3)
  | flagsTake (h : Hdr) (d : Reg) (mask : BitVec 15)
  -- cross-lane (R166)
  | shfl (h : Hdr) (t : RType) (d a b : Reg) (fill : Option Reg)
  | shflx (h : Hdr) (t : RType) (d a : Reg) (mask : BitVec 5)
  | shflup (h : Hdr) (t : RType) (d a : Reg) (n : BitVec 5) (fill : Option Reg)
  | shfldn (h : Hdr) (t : RType) (d a : Reg) (n : BitVec 5) (fill : Option Reg)
  | bcast (h : Hdr) (t : RType) (d a : Reg) (src : LaneSel)
  | wred (h : Hdr) (op : RedOp) (t : RType) (m : RMode) (sat : Bool) (d a : Reg)
  | wscan (h : Hdr) (op : RedOp) (t : RType) (m : RMode) (sat : Bool) (d a : Reg)
  -- memory (R228)
  | ld (h : Hdr) (t : RType) (m : RMode) (sat : Bool) (d : Reg) (ma : MemArg) (idx : Option Reg) (fresh : Bool)
  | st (h : Hdr) (t : RType) (m : RMode) (sat : Bool) (d : Reg) (ma : MemArg) (idx : Option Reg)
  | ldb (h : Hdr) (code : Bool) (t : RType) (m : RMode) (sat : Bool) (d : Reg) (ma : MemArg)
  | stb (h : Hdr) (m : RMode) (d : Reg) (ma : MemArg) (scale : Option Reg)
  | zero (h : Hdr) (ma : MemArg)
  | atom (h : Hdr) (op : AtomOp) (t : RType) (d : Reg) (ma : MemArg) (b : Reg)
  | atomn (h : Hdr) (op : AtomOp) (t : RType) (ma : MemArg) (b : Reg)
  | cas (h : Hdr) (t : RType) (d : Reg) (ma : MemArg) (b : Reg)
  | lr (h : Hdr) (t : RType) (d : Reg) (ma : MemArg)
  | sc (h : Hdr) (t : RType) (d : Reg) (ma : MemArg) (b : Reg)
  | phasePub (h : Hdr)
  | phaseAdopt (h : Hdr)
  | phaseBoth (h : Hdr)
  | fence (h : Hdr)
  | pref (h : Hdr) (ma : MemArg)
  | prefL2 (h : Hdr) (ma : MemArg)
  | flush (h : Hdr) (ma : MemArg)
  | sways (h : Hdr) (d a : Reg)
  -- engines (R256, R287)
  | cpy (h : Hdr) (d a : Reg) (x : CopyArg)
  | cpym (h : Hdr) (d a b : Reg) (sig : Option Reg) (x : CopyArg)
  | cpyxGather (h : Hdr) (d a b : Reg) (x : CopyArg)
  | cpyxScatter (h : Hdr) (d a b : Reg) (x : CopyArg)
  | cpys (h : Hdr) (d a c : Reg) (dec : BitVec 12) (x : CopyArg)
  | cpyw (h : Hdr) (d a c : Reg) (x : CopyArg)
  | cpyqTok (h : Hdr) (d a : Reg)
  | cpyqSlots (h : Hdr) (d : Reg) (r : BitVec 3)
  | cpyqFree (h : Hdr) (r : BitVec 3)
  | cpyc (h : Hdr) (a : Reg)
  | cpycAll (h : Hdr)
  | shadow (h : Hdr) (d a : Reg)
  | shadowDrop (h : Hdr) (d a : Reg)
  | publish (h : Hdr) (d a : Reg) (sig : Option Reg)
  | publishKeep (h : Hdr) (d a : Reg) (sig : Option Reg)
  | sdpark (h : Hdr) (d a b : Reg) (p64 : Bool) (f : ParkFmt) (elide : Bool) (sig : Option Reg)
  | sdcall (h : Hdr) (d a b c : Reg) (p64 : Bool)
  | sddrop (h : Hdr) (d a b : Reg) (p64 : Bool)
  | sdstat (h : Hdr) (d a : Reg)
  -- tile (R270-R281)
  | tcfg (h : Hdr) (a : Reg)
  | tzero (h : Hdr) (d : Reg) (tile : BitVec 3)
  | tloadc (h : Hdr) (k : TileKind) (m : RMode) (d a : Reg) (tile : BitVec 3)
  | mmt (h : Hdr) (d a b : Reg) (x : MmtArg)
  | tdrain (h : Hdr) (m : RMode) (sat : Bool) (d a : Reg) (x : DrainArg)
  | tchk (h : Hdr) (d : Reg) (tile : BitVec 3)
  | tstat (h : Hdr) (d : Reg) (tile : BitVec 3)
  | tstatClr (h : Hdr) (d : Reg) (tile : BitVec 3)
  -- queues, remote registers, tasks (R183, R289-R294, R356, R357)
  | qcfg (h : Hdr) (q : BitVec 2) (base : Reg) (dm1 : BitVec 6)
  | qcfgRel (h : Hdr) (q : BitVec 2)
  | qsend (h : Hdr) (d a b : Reg)
  | qsendIdx (h : Hdr) (d a b c : Reg)
  | qsendYoke (h : Hdr) (d b : Reg)
  | qpop (h : Hdr) (d : Reg) (q : BitVec 2)
  | qpopTry (h : Hdr) (d p : Reg) (q : BitVec 2)
  | rsend (h : Hdr) (wide : Bool) (d a b : Reg) (off : BitVec 8)
  | rsendIdx (h : Hdr) (wide : Bool) (d a b c : Reg) (off : BitVec 8)
  | expect (h : Hdr) (d : Reg) (nm1 : BitVec 8)
  | grantReg (h : Hdr) (d a : Reg) (first cm1 : BitVec 8) (send idx : Bool) (pol scope : BitVec 2)
  | grantQ (h : Hdr) (d a : Reg) (slot : BitVec 2) (pol scope : BitVec 2)
  | revoke (h : Hdr) (d a : Reg)
  | revokeAll (h : Hdr) (d : Reg)
  | spawn (h : Hdr) (d a : Reg)
  | launch (h : Hdr) (d a : Reg) (lq : BitVec 3)
  | heapput (h : Hdr) (d a b : Reg) (inst : Option (BitVec 7))
  | heapputOpen (h : Hdr) (d : Reg) (inst : Option (BitVec 7))
  | heapputClose (h : Hdr) (d : Reg) (inst : Option (BitVec 7))
  | heapget (h : Hdr) (d a : Reg) (inst : Option (BitVec 7))
  -- recovery (R374-R394)
  | ensure (h : Hdr) (t : Target) (mask lim : Option Reg)
  | elseby (h : Hdr) (t : Target) (lim : Option Reg)
  | elseerr (h : Hdr)
  | elseerrGo (h : Hdr) (t : Target)
  | accept (h : Hdr)
  | acceptIf (h : Hdr) (a : Reg)
  | reject (h : Hdr) (code : BitVec 8)
  | abandon (h : Hdr) (code : BitVec 8)
  | sitjoin (h : Hdr) (d a b : Reg)
  | sitleave (h : Hdr) (d : Reg)
  -- counters and barriers (R401-R409)
  | cinit (h : Hdr) (d a : Reg)
  | cinitCont (h : Hdr) (d a : Reg) (lq : BitVec 3)
  | cinc (h : Hdr) (d a : Reg) (n : Amount)
  | cdec (h : Hdr) (d a : Reg) (n : Amount)
  | crd (h : Hdr) (d a : Reg)
  | crdF (h : Hdr) (d a : Reg)
  | cwaitLe (h : Hdr) (a b : Reg)
  | cwaitGe (h : Hdr) (a b : Reg)
  | cwaitWt (h : Hdr) (a b : Reg)
  | cwaitWs (h : Hdr) (a b : Reg)
  | bar (h : Hdr)
  | barG (h : Hdr) (slot : BitVec 2)
  | bara (h : Hdr) (d : Reg) (slot : BitVec 3)
  | barw (h : Hdr) (a : Reg) (slot : BitVec 3)
  | winrdT (h : Hdr) (d a : Reg)
  | winrdS (h : Hdr) (d a : Reg)
  -- system (R179-R181, R351, R368-R370, R82)
  | srd (h : Hdr) (wide : Bool) (d : Reg) (num : BitVec 12)
  | swr (h : Hdr) (wide : Bool) (num : BitVec 12) (a : Reg)
  | frame (h : Hdr) (slot : BitVec 4) (a : Reg)
  | bkpt (h : Hdr) (code : BitVec 32)
  | trap (h : Hdr) (code : BitVec 32)
  | rett (h : Hdr)
  | tlbinvVa (h : Hdr) (d a : Reg) (ctx : Option (BitVec 6))
  | tlbinvCtx (h : Hdr) (d a : Reg)
  | tlbinvAll (h : Hdr) (d : Reg)
  | tlbinvFdt (h : Hdr) (d a : Reg)
  | lease (h : Hdr) (d a : Reg) (five : Bool)
  | leaseRel (h : Hdr) (d : Reg)
  | ill (content : BitVec 88)
  -- steps of the waves and the cores
  | takeOwedFault (wave : Nat)
  | variableResultReturn (id : Nat)
  | publishLineMerge (id : Nat)
  | bridgePublishAccept (core die : Nat)
  | remoteArrival (id : Nat)
  | arrivalOutcome (id : Nat)
  | yokePushLand (id : Nat)
  -- steps of the engines
  | copyQueueStart (id : Nat)
  | copyPacket (id slice row packet : Nat)
  | copyComplete (id : Nat)
  | windowPutMerge (id : Nat)
  | windowPutAck (id : Nat)
  | shadowPublishSwap (id : Nat)
  | mmtStep (id : Nat)
  | tdrainRow (id : Nat)
  | tileOpComplete (id : Nat)
  | sdPageParked (id : Nat)
  | sdPageRecalled (id page : Nat)
  | sdPageDropped (id page : Nat)
  | nvmeCompletion (id : Nat) (status : BitVec 16)
  | nvmeTimeout (id : Nat)
  | heapgetServe (inst entry : Nat)
  | heldContinuationAppend (ctx q : Nat)
  -- barriers, recovery, waiting
  | barrierComplete (b : BarrierId)
  | openingBarrierComplete (blk : Nat)
  | acceptBarrierComplete (blk : Nat)
  | rollback (blk : Nat)
  | recoveryLimitExpiry (blk depth : Nat)
  | fairnessSweep (wave : Nat)
  | pendingAgeExchange (core : Nat)
  | napExpiry (wave : Nat)
  | swaysTimeout (core : Nat)
  | swaysComplete (core : Nat)
  -- the scheduler
  | launchAdmit (ctx q : Nat)
  | blockPlace (offer : Nat)
  | priorityAgeTick (offer : Nat)
  | starvationRelief (offer : Nat)
  | staggeredStart (blk : Nat)
  | matrixEngineRamp (core : Nat)
  | poolMove (cluster cls : Nat)
  | poolMoveComplete (cluster : Nat)
  | preempt (offer : Nat)
  | restore (blk : Nat)
  | migration (blk core : Nat)
  | migrationDrain (blk : Nat)
  | blockRetire (blk : Nat)
  | completionQueueRetry (ctx cq : Nat)
  | cqIrqTimeout (ctx cq : Nat)
  -- vaults and power
  | vaultSensorRead (vault : Nat) (temp : Int)
  | chargingIntervalClose (vault : Nat)
  | leaseExpiry (launch : Nat)
  | powerThrottleTick (pkgest : Nat)
  | junctionTrip (temp : Int)
  -- the host and the supervisor
  | hostApertureAccess (fn : Nat) (off : BitVec 64) (write : Option (List (BitVec 8))) (len : Nat)
  | lqTailWrite (ctx q : Nat) (v : BitVec 32)
  | lqCtlWrite (ctx q : Nat) (v : BitVec 32)
  | cqHeadWrite (ctx cq : Nat) (v : BitVec 32)
  | cqCtlWrite (ctx cq : Nat) (v : BitVec 32)
  | eheadWrite (ctx : Nat) (v : BitVec 32)
  | pkglimWrite (v : BitVec 16)
  | opclassTableWrite (entry : Nat) (v : BitVec 64)
  | accountingCounterWrite (off : Nat) (v : BitVec 64)
  | foldDriveNqpWrite (drive : Nat) (v : BitVec 8) (answers : Bool)
  | registerWrite (fn : Nat) (off : Nat) (v : BitVec 64)
  | killContext (ctx : Nat)
  | resetContext (ctx : Nat)
  | migrateBlock (waveH : BitVec 32) (core : Nat)
  | resetHeapInstance (handle : BitVec 7)
  | createFoldSlot (drive ctx : Nat) (nsid : BitVec 32) (slba nlba : BitVec 64)
  | releaseFoldSlot (index : Nat)
  | openWindow (ctx srcdev : Nat) (base size : BitVec 64)
  | closeWindow (index : Nat)
  | foldAdminPassThrough (drive : Nat) (cmd buf : BitVec 64) (len : Nat)
  | attest (nonce : BitVec 256) (dst : BitVec 64)
  | raiseFirmwareSecurityVersion
  | enterOutboundWindowHandle (handle : BitVec 64) (ctx : Nat)
  | deviceReset
  | functionLevelReset (fn : Nat)
  -- the Ezley ports
  | ezleyFlitReceive (port : Nat) (seq : BitVec 16) (good : Bool)
  | ezleyAck (port : Nat) (upTo : BitVec 16) (units : Nat)
  | ezleyReplay (port : Nat) (fromSeq : BitVec 16)
  | ezleyAudit (port : Nat) (returned : BitVec 32)
  | ezleyPortDown (port : Nat)
  | ezleyPortUp (port : Nat)
  | ezleyGroupWake (port k : Nat)
  | ezleyGroupDark (port k : Nat)
  | ezleyGroupLit (port k : Nat)
  | junctionHoldRelease (temp : Int)
  | firmwareStagingUpdate
  deriving DecidableEq, Repr

end Sys2Proof
end

