-- ==== Sys2Proof/WellFormed.lean ====
section
/-! DEFINITION. Which instructions the encoding tables admit: operand types, even pairs, descriptor runs and field
values. Whatever fails here has no instruction word; an encoding of it raises ILLEGAL_INSTRUCTION (R83). -/

namespace Sys2Proof

/-- A 64-bit type, whose operands are pairs (R32). -/
def RType.is64 : RType → Bool
  | .s64 | .z64 | .f64 => true
  | _ => false

/-- A signed integer type (R118); `.s8x4` is signed. -/
def RType.isSigned : RType → Bool
  | .s8 | .s16 | .s32 | .s64 | .s8x4 => true
  | _ => false

/-- Type set N of R118. -/
def RType.inN : RType → Bool
  | .s8 | .z8 | .s16 | .z16 | .s32 | .z32 | .s64 | .z64 => true
  | _ => false

/-- Type set N4 of R118. -/
def RType.inN4 (t : RType) : Bool := t.inN || t == .s8x4

/-- Type set S of R118. -/
def RType.inS (t : RType) : Bool := t.isSigned

/-- Type set W of R118. -/
def RType.inW : RType → Bool
  | .s32 | .z32 | .s64 | .z64 => true
  | _ => false

/-- Type set Z of R118. -/
def RType.inZ : RType → Bool
  | .z32 | .z64 => true
  | _ => false

/-- Type set FS of R146. -/
def RType.inFS : RType → Bool
  | .f16 | .bf16 | .f32 | .f64 => true
  | _ => false

/-- Type set H of R146. -/
def RType.inH : RType → Bool
  | .h2 | .b2 => true
  | _ => false

/-- Type set F of R146. -/
def RType.inF (t : RType) : Bool := t.inFS || t.inH

/-- Type set F4 of R146. -/
def RType.inF4 (t : RType) : Bool := t.inF && t != .f64

/-- Type set K of R118. -/
def RType.inK (t : RType) : Bool := t.inN || t.inFS

/-- The types of MOVI and CMPI (R126). -/
def RType.inImm (t : RType) : Bool := t.inW || t == .f32

/-- An even register number, as a pair needs (R33). -/
def Reg.even (r : Reg) : Bool := r.toNat % 2 == 0

/-- A register under a type: even when the type is 64 bits wide (R33). -/
def Reg.ok (t : RType) (r : Reg) : Bool := !t.is64 || r.even

/-- A run of `n` registers does not pass v255 (R72). -/
def Reg.run (r : Reg) (n : Nat) : Bool := r.toNat + n ≤ 256

/-- An optional run. -/
def optRun (r : Option Reg) (n : Nat) : Bool :=
  match r with
  | none => true
  | some r => r.run n

/-- Forms other than R carry no hint (R69). -/
def Hdr.noHint (h : Hdr) : Bool := h.hint.isNone

/-- A target slot is 0 to 4 (R70). -/
def Target.ok (t : Target) : Bool := t.slot.toNat ≤ 4

/-- The base of an M-form access is an even pair (R228). -/
def MemArg.ok (m : MemArg) : Bool := m.base.even

/-- An M-form instruction that takes neither a cache policy nor a frame check (R228). -/
def MemArg.bare (m : MemArg) : Bool := m.ok && m.cp == 0 && m.chk.isNone

/-- The conversion codes a copy accepts (R256). -/
def cvfOk (c : BitVec 6) : Bool := [1, 2, 3, 4, 5, 6, 10, 11, 23].contains c.toNat

/-- The conversion fields of a copy mover (R256, R258). -/
def CopyArg.ok (x : CopyArg) : Bool :=
  match x.cvf with
  | none => x.m == .rne && !x.sat
  | some c => cvfOk c

/-- Which types each atomic operation accepts (R240). -/
def AtomOp.typeOk : AtomOp → RType → Bool
  | .add, t | .min, t | .max, t | .swap, t => t.inW || t.inFS
  | .and, t | .or, t | .xor, t => t.inW
  | .inc, t | .dec, t => t == .z32

/-- The modes and SAT of WRED and WSCAN (R166, R169). -/
def redOk (op : RedOp) (t : RType) (m : RMode) (sat : Bool) : Bool :=
  (match op with
    | .add | .min | .max => t.inK
    | .and | .or | .xor => t.inN) &&
  (m == .rne || (op == .add && t.inFS)) && (!sat || t.inFS)

/-- The elements in one register of a PACK format (R158). -/
def PackFmt.count : PackFmt → Nat
  | .f16 | .bf16 | .s16 => 2
  | .e4m3 | .e5m2 | .s8 | .z8 => 4
  | .e2m1 | .s4 | .z4 => 8

/-- One special register of R112: its number, whether it is 64 bits wide, and whether SWR may name it. -/
structure SpecialInfo where
  num : Nat
  wide : Bool
  writable : Bool
  deriving DecidableEq, Repr

/-- The special registers of R112. -/
def specials : List SpecialInfo :=
  [⟨0x000, false, false⟩, ⟨0x001, false, false⟩, ⟨0x002, false, false⟩, ⟨0x003, false, false⟩,
   ⟨0x004, false, false⟩, ⟨0x005, false, false⟩, ⟨0x006, false, false⟩, ⟨0x007, false, false⟩,
   ⟨0x008, false, false⟩, ⟨0x009, false, false⟩, ⟨0x00A, false, false⟩, ⟨0x00B, false, false⟩,
   ⟨0x00C, false, false⟩, ⟨0x00D, false, false⟩, ⟨0x00E, false, false⟩, ⟨0x00F, false, false⟩,
   ⟨0x010, false, false⟩, ⟨0x011, true, false⟩, ⟨0x020, false, true⟩, ⟨0x021, false, true⟩,
   ⟨0x030, false, false⟩, ⟨0x031, false, false⟩, ⟨0x032, false, false⟩, ⟨0x033, true, true⟩,
   ⟨0x034, true, true⟩, ⟨0x035, true, true⟩, ⟨0x036, true, true⟩, ⟨0x037, false, true⟩] ++
  [⟨0x038, false, true⟩, ⟨0x039, true, true⟩, ⟨0x03A, true, true⟩, ⟨0x040, false, false⟩,
   ⟨0x041, false, false⟩, ⟨0x042, false, false⟩, ⟨0x050, false, false⟩, ⟨0x051, false, false⟩,
   ⟨0x060, false, false⟩, ⟨0x061, false, false⟩, ⟨0x062, true, false⟩, ⟨0x070, false, false⟩,
   ⟨0x071, false, false⟩, ⟨0x072, true, false⟩, ⟨0x080, false, true⟩]

/-- The row of R112 with this number. -/
def specialInfo (n : Nat) : Option SpecialInfo := specials.find? (fun i => i.num == n)

/-- SRD's type names the register's width (R113, R179). -/
def srdOk (wide : Bool) (n : BitVec 12) : Bool :=
  match specialInfo n.toNat with
  | none => false
  | some i => i.wide == wide

/-- SWR names a register that is not read-only, at its width (R113, R179). -/
def swrOk (wide : Bool) (n : BitVec 12) : Bool :=
  match specialInfo n.toNat with
  | none => false
  | some i => i.wide == wide && i.writable

/-- The drain's fields (R279). -/
def DrainArg.ok (x : DrainArg) : Bool :=
  (!x.toG || x.dfdt == 0) &&
  (match x.res with
    | none => true
    | some r => r.run.run 3 && r.rsp.toNat ≤ 2) &&
  optRun x.out 3

/-- The instructions that the encoding tables admit. A step of a unit has no encoding and is always well formed. -/
def Instr.wf : Instr → Bool
  | .nop _ | .exit _ | .yield _ | .ill _ => true
  | .br h t | .jmp h t => h.noHint && t.ok
  | .call h d t => h.noHint && d.even && t.ok
  | .calli _ d a => d.even && a.even
  | .ret _ a => a.even
  | .nap h _ => h.noHint
  | .mov _ t d a => d.ok t && a.ok t
  | .movi h t d _ => h.noHint && t.inImm && d.ok t
  | .movih h d _ => h.noHint && d.even
  | .add _ t _ d a b | .sub _ t _ d a b => t.inN4 && d.ok t && a.ok t && b.ok t
  | .addi h t _ d a _ => h.noHint && t.inW && d.ok t && a.ok t
  | .mul _ t _ d a b => t.inN && d.ok t && a.ok t && b.ok t
  | .mulh _ t d a b => t.inW && d.ok t && a.ok t && b.ok t
  | .mad _ t _ d a b c => t.inN && d.ok t && a.ok t && b.ok t && c.ok t
  | .madw _ t _ d _ _ c => (t == .s32 || t == .z32) && d.even && c.even
  | .div _ t _ d a b => t.inW && d.ok t && a.ok t && b.ok t
  | .rem _ t d a b => t.inW && d.ok t && a.ok t && b.ok t
  | .neg _ t _ d a => t.inN4 && d.ok t && a.ok t
  | .abs _ t _ d a => t.inS && d.ok t && a.ok t
  | .min _ t d a b | .max _ t d a b => t.inN4 && d.ok t && a.ok t && b.ok t
  | .clamp _ t d a b c => t.inN4 && d.ok t && a.ok t && b.ok t && c.ok t
  | .lea _ t d a b _ => t.inW && d.even && a.even && b.ok t
  | .and _ t d a b | .or _ t d a b | .xor _ t d a b => t.inW && d.ok t && a.ok t && b.ok t
  | .not _ t d a => t.inW && d.ok t && a.ok t
  | .bool3 _ t d a b c _ => t.inW && d.ok t && a.ok t && b.ok t && c.ok t
  | .shl _ t d a _ | .shr _ t d a _ | .sar _ t d a _ | .rot _ t d a _ => t.inW && d.ok t && a.ok t
  | .funsh _ _ _ _ _ => true
  | .popc _ t _ a | .clz _ t _ a | .ctz _ t _ a => t.inZ && a.ok t
  | .bfx _ t d a _ => t.inW && d.ok t && a.ok t
  | .bfi _ t d a b _ => t.inW && d.ok t && a.ok t && b.ok t
  | .cmp _ cc t _ a b => t.inK && (t.inFS || (cc != .un && cc != .ord)) && a.ok t && b.ok t
  | .cmpi h cc t _ a _ => h.noHint && t.inImm && (t == .f32 || (cc != .un && cc != .ord)) && a.ok t
  | .sel _ t d a b _ => d.ok t && a.ok t && b.ok t
  | .ballot _ _ _ | .vany _ _ _ | .vall _ _ _ => true
  | .veq _ t _ a => t.inZ && a.ok t
  | .active _ _ | .activePath _ _ | .activeLive _ _ => true
  | .fadd _ t _ _ d a b | .fsub _ t _ _ d a b | .fmul _ t _ _ d a b | .fdiv _ t _ _ d a b =>
      t.inF && d.ok t && a.ok t && b.ok t
  | .ffma _ t _ _ d a b c => t.inF && d.ok t && a.ok t && b.ok t && c.ok t
  | .fsqrt _ t _ d a => t.inF && d.ok t && a.ok t
  | .fmin _ t d a b | .fmax _ t d a b => t.inF && d.ok t && a.ok t && b.ok t
  | .fneg _ t d a | .fabs _ t d a => t.inF && d.ok t && a.ok t
  | .frcp _ t _ _ d a => t.inF && d.ok t && a.ok t
  | .frsq _ t _ _ _ _ | .fexp2 _ t _ _ _ _ | .flog2 _ t _ _ _ _ | .fsin _ t _ _ _ _ | .fcos _ t _ _ _ _
  | .ftanh _ t _ _ _ _ => t.inF4
  | .frnd _ t _ d a | .frndExact _ t _ d a => t.inF && d.ok t && a.ok t
  | .fscale _ t _ _ d a _ => t.inF && d.ok t && a.ok t
  | .fclass _ t _ a => t.inF && a.ok t
  | .dot2 _ t _ _ _ _ _ _ => t.inH
  | .cvt _ td ts _ _ d a => td.inK && ts.inK && d.ok td && a.ok ts
  | .pack _ f _ _ _ a => a.run f.count
  | .unpack _ f d _ => d.run f.count
  | .dxpack _ _ _ _ _ | .mxpack _ _ _ _ _ | .dxunpk _ _ _ _ | .mxunpk _ _ _ _ => true
  | .flagsClr _ m | .flagsSet _ m | .flagsTake _ _ m => !m.getLsbD 7
  | .flagsRm _ m => m.toNat ≤ 5
  | .shfl _ t d a _ f => d.ok t && a.ok t && f.all (Reg.ok t)
  | .shflx _ t d a _ => d.ok t && a.ok t
  | .shflup _ t d a _ f | .shfldn _ t d a _ f => d.ok t && a.ok t && f.all (Reg.ok t)
  | .bcast _ t d a _ => d.ok t && a.ok t
  | .wred _ op t m sat d a | .wscan _ op t m sat d a => redOk op t m sat && d.ok t && a.ok t
  | .ld h t _ _ d ma idx fresh =>
      h.noHint && d.ok t && ma.ok && (!fresh || (idx.isNone && ma.sp == .g && ma.cp == 0))
  | .st h t _ _ d ma _ => h.noHint && d.ok t && ma.ok
  | .ldb h code t _ _ d ma => h.noHint && ma.ok && d.ok t && (if code then t == .z32 else t.inK)
  | .stb h _ _ ma _ => h.noHint && ma.ok
  | .zero h ma => h.noHint && ma.ok && ma.chk.isNone
  | .atom h op t d ma b => h.noHint && op.typeOk t && d.ok t && b.ok t && ma.ok && ma.cp == 0
  | .atomn h op t ma b => h.noHint && op.typeOk t && b.ok t && ma.ok && ma.cp == 0
  | .cas h t d ma b =>
      h.noHint && t.inW && d.ok t && b.ok t && b.run (if t.is64 then 4 else 2) && ma.ok && ma.cp == 0
  | .lr h t d ma => h.noHint && t.inW && d.ok t && ma.ok && ma.cp == 0
  | .sc h t _ ma b => h.noHint && t.inW && b.ok t && ma.ok && ma.cp == 0
  | .phasePub _ | .phaseAdopt _ | .phaseBoth _ | .fence _ => true
  | .pref h ma | .prefL2 h ma => h.noHint && ma.ok && ma.chk.isNone
  | .flush h ma => h.noHint && ma.bare
  | .sways _ _ _ => true
  | .cpy h _ a x => h.noHint && a.run 8 && x.ok
  | .cpym h _ a _ sig x => h.noHint && a.run 8 && optRun sig 2 && x.ok
  | .cpyxGather h _ a _ x | .cpyxScatter h _ a _ x => h.noHint && a.run 8 && x.ok
  | .cpys h _ a c dec x => h.noHint && a.run 8 && c.run 2 && dec != 0 && x.ok
  | .cpyw h _ a c x => h.noHint && a.run 8 && c.run 2 && x.dsp == .g && x.ok
  | .cpyqTok _ _ _ | .cpyqSlots _ _ _ | .cpyqFree _ _ | .cpyc _ _ | .cpycAll _ => true
  | .shadow h _ a | .shadowDrop h _ a => h.noHint && a.run 3
  | .publish h _ a sig | .publishKeep h _ a sig => h.noHint && a.run 2 && optRun sig 2
  | .sdpark h _ a b _ _ _ sig => h.noHint && a.run 3 && b.run 2 && optRun sig 2
  | .sdcall h _ a b c _ => h.noHint && a.run 3 && b.run 2 && c.run 2
  | .sddrop h _ a b _ => h.noHint && a.run 3 && b.run 2
  | .sdstat _ _ a => a.even
  | .tcfg h a => h.noHint && a.run 4
  | .tzero h _ _ => h.noHint
  | .tloadc h k m _ a _ => h.noHint && a.run 2 && (k != .s32 || m == .rne)
  | .mmt h _ a b _ => h.noHint && a.run 2 && b.run 2
  | .tdrain h _ _ _ a x => h.noHint && a.run 5 && x.ok
  | .tchk _ _ _ | .tstat _ _ _ | .tstatClr _ _ _ => true
  | .qcfg _ _ base dm1 => base.run (dm1.toNat + 1)
  | .qcfgRel _ _ => true
  | .qsend _ _ a _ | .qsendIdx _ _ a _ _ => a.even
  | .qsendYoke _ _ _ | .qpop _ _ _ | .qpopTry _ _ _ _ => true
  | .rsend _ wide _ a b _ | .rsendIdx _ wide _ a b _ _ => a.even && (!wide || b.even)
  | .expect _ d n => d.run (n.toNat + 1)
  | .grantReg _ d _ first cm1 send idx pol scope =>
      d.even && first.toNat + cm1.toNat + 1 ≤ 256 && (send || idx) && pol != 3 && scope != 3
  | .grantQ _ d _ _ pol scope => d.even && pol != 3 && scope != 3
  | .revoke _ _ a => a.even
  | .revokeAll _ _ => true
  | .spawn h _ a => h.noHint && a.run 10
  | .launch h _ a _ => h.noHint && a.run 2
  | .heapput _ _ _ _ _ | .heapputOpen _ _ _ | .heapputClose _ _ _ => true
  | .heapget h _ _ _ => h.noHint
  | .ensure h t _ _ => h.noHint && t.ok
  | .elseby h t _ => h.noHint && t.ok
  | .elseerr h => h.noHint
  | .elseerrGo h t => h.noHint && t.ok
  | .accept _ | .acceptIf _ _ | .reject _ _ | .abandon _ _ | .sitjoin _ _ _ _ | .sitleave _ _ => true
  | .cinit h _ a | .cinitCont h _ a _ => h.noHint && a.run 5
  | .cinc _ _ a n | .cdec _ _ a n =>
      a.even && (match n with
        | .imm v => v != 0
        | .reg _ => true)
  | .crd _ _ a | .crdF _ _ a => a.even
  | .cwaitLe _ a _ | .cwaitGe _ a _ => a.even
  | .cwaitWt _ a b | .cwaitWs _ a b => a.even && b.even
  | .bar _ | .barG _ _ => true
  | .bara _ _ s | .barw _ _ s => s.toNat ≤ 4
  | .winrdT _ d a | .winrdS _ d a => d.even && a.even
  | .srd _ wide d n => srdOk wide n && (!wide || d.even)
  | .swr _ wide n a => swrOk wide n && (!wide || a.even)
  | .frame _ _ a => a.run 4
  | .bkpt h _ | .trap h _ => h.noHint
  | .rett _ => true
  | .tlbinvVa _ _ a _ => a.even
  | .tlbinvCtx _ _ _ | .tlbinvAll _ _ | .tlbinvFdt _ _ _ => true
  | .lease _ _ _ _ | .leaseRel _ _ => true
  | .takeOwedFault _ | .variableResultReturn _ | .publishLineMerge _ | .bridgePublishAccept _ _ | .remoteArrival _
  | .arrivalOutcome _ | .yokePushLand _ | .copyQueueStart _ | .copyPacket _ _ _ _ | .copyComplete _
  | .windowPutMerge _ | .windowPutAck _ | .shadowPublishSwap _ | .mmtStep _ | .tdrainRow _ | .tileOpComplete _
  | .sdPageParked _ | .sdPageRecalled _ _ | .sdPageDropped _ _ | .nvmeCompletion _ _ | .nvmeTimeout _
  | .heapgetServe _ _ | .heldContinuationAppend _ _ | .barrierComplete _ | .openingBarrierComplete _
  | .acceptBarrierComplete _ | .rollback _ | .recoveryLimitExpiry _ _ | .fairnessSweep _ | .pendingAgeExchange _
  | .napExpiry _ | .swaysTimeout _ | .swaysComplete _ | .launchAdmit _ _ | .blockPlace _ | .priorityAgeTick _
  | .starvationRelief _ | .staggeredStart _ | .matrixEngineRamp _ | .poolMove _ _ | .poolMoveComplete _
  | .preempt _ | .restore _ | .migration _ _ | .migrationDrain _ | .blockRetire _ | .completionQueueRetry _ _
  | .cqIrqTimeout _ _ | .vaultSensorRead _ _ | .chargingIntervalClose _ | .leaseExpiry _ | .powerThrottleTick _
  | .junctionTrip _ | .hostApertureAccess _ _ _ _ | .lqTailWrite _ _ _ | .lqCtlWrite _ _ _ | .cqHeadWrite _ _ _
  | .cqCtlWrite _ _ _ | .eheadWrite _ _ | .pkglimWrite _ | .opclassTableWrite _ _ | .accountingCounterWrite _ _
  | .foldDriveNqpWrite _ _ _ | .registerWrite _ _ _ | .killContext _ | .resetContext _ | .migrateBlock _ _
  | .resetHeapInstance _ | .createFoldSlot _ _ _ _ _ | .releaseFoldSlot _ | .openWindow _ _ _ _ | .closeWindow _
  | .foldAdminPassThrough _ _ _ _ | .attest _ _ | .raiseFirmwareSecurityVersion | .enterOutboundWindowHandle _ _
  | .deviceReset | .functionLevelReset _ | .ezleyFlitReceive _ _ _ | .ezleyAck _ _ _ | .ezleyReplay _ _
  | .ezleyAudit _ _ | .ezleyPortDown _ | .ezleyPortUp _ | .ezleyGroupWake _ _ | .ezleyGroupDark _ _
  | .ezleyGroupLit _ _ | .junctionHoldRelease _ | .firmwareStagingUpdate => true

end Sys2Proof
end

