-- ==== Sys2Proof/Decode.lean ====
section
/-! DEFINITION. The instruction word: its fields (R68 to R73), the decoder, which is total on any 96 bits and rejects by
name, and the encoder. Both follow the encoding tables R126, R149, R158, R166, R170, R228, R287, R294, R371, R393, R413. -/

namespace Sys2Proof

/-- Why 96 bits are no instruction; each raises ILLEGAL_INSTRUCTION (R83). -/
inductive Reject where
  /-- The bytes are fewer than twelve. -/
  | length
  /-- The major opcode is unassigned. -/
  | opcode
  /-- FN is not assigned for the opcode, or the space code is 5 to 7. -/
  | function
  /-- T or M names no type or mode the entry lists, or an operand field has a value the entry does not allow. -/
  | operand
  /-- A field that the entry does not use is nonzero (R68). -/
  | unused
  deriving DecidableEq, Repr

/-- The fields of an instruction word (the table before R68). -/
structure Fields where
  opc : BitVec 8
  fn : BitVec 4
  s : Bool
  gv : Bool
  gn : Bool
  hv : Bool
  gr : BitVec 8
  d : BitVec 8
  a : BitVec 8
  b : BitVec 8
  c : BitVec 8
  t : BitVec 4
  m : BitVec 3
  sat : Bool
  x : BitVec 32
  deriving DecidableEq, Repr

/-- The fields of a 96-bit word. -/
def Fields.ofWord (w : BitVec 96) : Fields where
  opc := w.extractLsb' 0 8
  fn := w.extractLsb' 8 4
  s := w.getLsbD 12
  gv := w.getLsbD 13
  gn := w.getLsbD 14
  hv := w.getLsbD 15
  gr := w.extractLsb' 16 8
  d := w.extractLsb' 24 8
  a := w.extractLsb' 32 8
  b := w.extractLsb' 40 8
  c := w.extractLsb' 48 8
  t := w.extractLsb' 56 4
  m := w.extractLsb' 60 3
  sat := w.getLsbD 63
  x := w.extractLsb' 64 32

/-- The 96-bit word with these fields. -/
def Fields.word (f : Fields) : BitVec 96 :=
  f.x ++ (BitVec.ofBool f.sat ++ f.m ++ f.t ++ f.c ++ f.b ++ f.a) ++
  (f.d ++ f.gr ++ (BitVec.ofBool f.hv ++ BitVec.ofBool f.gn ++ BitVec.ofBool f.gv ++ BitVec.ofBool f.s) ++ f.fn ++ f.opc)

/-- Code of a register type (R32). -/
def RType.code : RType → BitVec 4
  | .s8 => 0 | .z8 => 1 | .s16 => 2 | .z16 => 3 | .s32 => 4 | .z32 => 5 | .s64 => 6 | .z64 => 7
  | .f16 => 8 | .bf16 => 9 | .f32 => 10 | .f64 => 11 | .h2 => 12 | .b2 => 13 | .s8x4 => 14

/-- The register type with a code; 15 names none (R83). -/
def RType.ofCode (c : BitVec 4) : Option RType :=
  match c.toNat with
  | 0 => some .s8 | 1 => some .z8 | 2 => some .s16 | 3 => some .z16 | 4 => some .s32 | 5 => some .z32
  | 6 => some .s64 | 7 => some .z64 | 8 => some .f16 | 9 => some .bf16 | 10 => some .f32 | 11 => some .f64
  | 12 => some .h2 | 13 => some .b2 | 14 => some .s8x4 | _ => none

/-- Code of a rounding mode (R45). -/
def RMode.code : RMode → BitVec 3
  | .rne => 0 | .rz => 1 | .rdn => 2 | .rpl => 3 | .rna => 4 | .sto => 5 | .dyn => 6

/-- The rounding mode with a code; 7 names none (R83). -/
def RMode.ofCode (c : BitVec 3) : Option RMode :=
  match c.toNat with
  | 0 => some .rne | 1 => some .rz | 2 => some .rdn | 3 => some .rpl | 4 => some .rna | 5 => some .sto
  | 6 => some .dyn | _ => none

/-- Code of a space (R71). -/
def Space.code : Space → BitVec 3
  | .g => 0 | .s => 1 | .w => 2 | .a => 3 | .c => 4

/-- The space with a code; 5 to 7 name none (R71). -/
def Space.ofCode (c : BitVec 3) : Option Space :=
  match c.toNat with
  | 0 => some .g | 1 => some .s | 2 => some .w | 3 => some .a | 4 => some .c | _ => none

/-- Code of a condition (R142). -/
def Cond.code : Cond → BitVec 4
  | .eq => 0 | .ne => 1 | .lt => 2 | .le => 3 | .gt => 4 | .ge => 5 | .un => 6 | .ord => 7

/-- The condition with an FN value (R142). -/
def Cond.ofCode (c : BitVec 4) : Option Cond :=
  match c.toNat with
  | 0 => some .eq | 1 => some .ne | 2 => some .lt | 3 => some .le | 4 => some .gt | 5 => some .ge | 6 => some .un
  | 7 => some .ord | _ => none

/-- Code of a wave reduction (R169). -/
def RedOp.code : RedOp → BitVec 4
  | .add => 0 | .min => 1 | .max => 2 | .and => 3 | .or => 4 | .xor => 5

/-- The wave reduction with an FN value (R169). -/
def RedOp.ofCode (c : BitVec 4) : Option RedOp :=
  match c.toNat with
  | 0 => some .add | 1 => some .min | 2 => some .max | 3 => some .and | 4 => some .or | 5 => some .xor | _ => none

/-- FN bit 3 and M of an atomic operation (R240). -/
def AtomOp.code : AtomOp → Bool × BitVec 3
  | .add => (false, 0) | .min => (false, 1) | .max => (false, 2) | .and => (false, 3) | .or => (false, 4)
  | .xor => (false, 5) | .swap => (false, 6) | .inc => (true, 0) | .dec => (true, 1)

/-- The atomic operation of FN bit 3 and M (R240). -/
def AtomOp.ofCode (hi : Bool) (m : BitVec 3) : Option AtomOp :=
  match hi, m.toNat with
  | false, 0 => some .add | false, 1 => some .min | false, 2 => some .max | false, 3 => some .and
  | false, 4 => some .or | false, 5 => some .xor | false, 6 => some .swap | true, 0 => some .inc
  | true, 1 => some .dec | _, _ => none

/-- FN of a DX format (R158). -/
def DxFmt.code : DxFmt → BitVec 4
  | .dx8 => 0 | .dx6 => 1 | .dx4 => 2

/-- The DX format with an FN value (R158). -/
def DxFmt.ofCode (c : BitVec 4) : Option DxFmt :=
  match c.toNat with
  | 0 => some .dx8 | 1 => some .dx6 | 2 => some .dx4 | _ => none

/-- FN of an MX format (R158). -/
def MxFmt.code : MxFmt → BitVec 4
  | .mxe4m3 => 0 | .mxe5m2 => 1 | .mxe3m2 => 2 | .mxe2m3 => 3 | .mxe2m1 => 4 | .mxs8 => 5

/-- The MX format with an FN value (R158). -/
def MxFmt.ofCode (c : BitVec 4) : Option MxFmt :=
  match c.toNat with
  | 0 => some .mxe4m3 | 1 => some .mxe5m2 | 2 => some .mxe3m2 | 3 => some .mxe2m3 | 4 => some .mxe2m1
  | 5 => some .mxs8 | _ => none

/-- Storage code of a PACK format (R158). -/
def PackFmt.code : PackFmt → BitVec 6
  | .f16 => 3 | .bf16 => 4 | .e4m3 => 5 | .e5m2 => 6 | .e2m1 => 9 | .s16 => 23 | .s8 => 10 | .z8 => 11 | .s4 => 12
  | .z4 => 13

/-- The PACK format with a storage code (R158). -/
def PackFmt.ofCode (c : BitVec 6) : Option PackFmt :=
  match c.toNat with
  | 3 => some .f16 | 4 => some .bf16 | 5 => some .e4m3 | 6 => some .e5m2 | 9 => some .e2m1 | 23 => some .s16
  | 10 => some .s8 | 11 => some .z8 | 12 => some .s4 | 13 => some .z4 | _ => none

/-- The register type of a PACK run (R158). -/
def PackFmt.runType : PackFmt → RType
  | .f16 | .bf16 | .e4m3 | .e5m2 | .e2m1 => .f32
  | .s16 | .s8 | .z8 | .s4 | .z4 => .s32

/-- FN of TLOADC (R274). -/
def TileKind.code : TileKind → BitVec 4
  | .f32 => 0 | .s32 => 1 | .f64 => 2

/-- The accumulator type of TLOADC's FN (R274). -/
def TileKind.ofCode (c : BitVec 4) : Option TileKind :=
  match c.toNat with
  | 0 => some .f32 | 1 => some .s32 | 2 => some .f64 | _ => none

/-- Code of a page format (R283). -/
def ParkFmt.code : ParkFmt → BitVec 2
  | .keep => 0 | .dx6 => 1 | .dx4 => 2 | .mxe4m3 => 3

/-- The page format with a code (R283). -/
def ParkFmt.ofCode (c : BitVec 2) : ParkFmt :=
  match c.toNat with
  | 0 => .keep | 1 => .dx6 | 2 => .dx4 | _ => .mxe4m3

/-- The register of an optional operand, zero when it is absent. -/
def optReg (r : Option Reg) : Reg := r.getD 0

/-- E, bits 31:8 of X in R form (R69). -/
def Fields.e (f : Fields) : BitVec 24 := f.x.extractLsb' 8 24

/-- The guard that GV, GN and GR say (R73). -/
def Fields.guard (f : Fields) : Option Guard := if f.gv then some ⟨f.gn, f.gr⟩ else none

/-- The header of an R-form word (R69, R74). -/
def Fields.hdr (f : Fields) : Hdr := ⟨f.guard, f.s, if f.hv then some (f.x.extractLsb' 0 8) else none⟩

/-- The header of a word of another form (R69). -/
def Fields.hdr0 (f : Fields) : Hdr := ⟨f.guard, f.s, none⟩

/-- The fields that a header and an opcode give; every other field zero. -/
def Fields.zero (h : Hdr) (opc : BitVec 8) : Fields :=
  { opc, fn := 0, s := h.mark, gv := h.guard.isSome, gn := (h.guard.map Guard.neg).getD false, hv := h.hint.isSome,
    gr := (h.guard.map Guard.reg).getD 0, d := 0, a := 0, b := 0, c := 0, t := 0, m := 0, sat := false, x := 0 }

/-- An R-form word with the extension `e` (R69). -/
def Fields.r (h : Hdr) (opc : BitVec 8) (e : BitVec 24 := 0) : Fields :=
  { Fields.zero h opc with x := e ++ h.hint.getD 0 }

/-- The target of a B-form word (R69). -/
def Fields.target (f : Fields) : Target := ⟨f.x.extractLsb' 3 28, f.x.extractLsb' 0 3⟩

/-- X of a B-form word (R69). -/
def Target.x (t : Target) : BitVec 32 := (0 : BitVec 1) ++ t.disp ++ t.slot

/-- A B-form word. -/
def Fields.br (h : Hdr) (opc : BitVec 8) (t : Target) : Fields := { Fields.zero h opc with x := t.x }

/-- The memory operands of an M-form word in space `sp` (R71). -/
def Fields.mem (f : Fields) (sp : Space) : MemArg :=
  ⟨sp, f.a, f.x, f.c.extractLsb' 6 2, if f.c.getLsbD 4 then some (f.c.extractLsb' 0 4) else none⟩

/-- C of an M-form word (R71). -/
def MemArg.c (ma : MemArg) (fresh : Bool) : BitVec 8 :=
  ma.cp ++ BitVec.ofBool fresh ++ BitVec.ofBool ma.chk.isSome ++ ma.chk.getD 0

/-- An M-form word: FN bit 3, D and B beside the memory operands (R228). -/
def Fields.m' (h : Hdr) (opc : BitVec 8) (hi : Bool) (ma : MemArg) (fresh : Bool := false) : Fields :=
  { Fields.zero h opc with fn := BitVec.ofBool hi ++ ma.sp.code, a := ma.base, c := ma.c fresh, x := ma.off }

/-- The shift amount of R138. -/
def Fields.shAmt (f : Fields) : Option ShAmt :=
  match f.fn.toNat with
  | 0 => some (.reg f.b)
  | 1 => some (.imm (f.e.extractLsb' 0 7))
  | _ => none

/-- FN, B and E of a shift amount (R138). -/
def Fields.sh (h : Hdr) (opc : BitVec 8) (t : RType) (d a : Reg) : ShAmt → Fields
  | .reg r => { Fields.r h opc with d, a, b := r, t := t.code }
  | .imm n => { Fields.r h opc ((0 : BitVec 17) ++ n) with fn := 1, d, a, t := t.code }

/-- The X field of a copy mover (R256). -/
def CopyArg.x (x : CopyArg) (dec : BitVec 12) (sig : Bool) : BitVec 32 :=
  dec ++ BitVec.ofBool sig ++ x.cvf.getD 0 ++ BitVec.ofBool x.cvf.isSome ++ x.dfdt ++ x.dsp.code ++ x.ssp.code

/-- The copy fields of X (R256). -/
def Fields.copyArg (f : Fields) : Option CopyArg := do
  let ssp ← Space.ofCode (f.x.extractLsb' 0 3)
  let dsp ← Space.ofCode (f.x.extractLsb' 3 3)
  let m ← RMode.ofCode f.m
  pure ⟨ssp, dsp, f.x.extractLsb' 6 6, if f.x.getLsbD 12 then some (f.x.extractLsb' 13 6) else none, m, f.sat⟩

/-- A copy mover's word (R256, R287). -/
def Fields.copy (h : Hdr) (opc fn : BitVec 8) (d a : Reg) (x : CopyArg) (dec : BitVec 12 := 0) (sig : Bool := false) :
    Fields :=
  { Fields.zero h opc with fn := fn.setWidth 4, d, a, m := x.m.code, sat := x.sat, x := x.x dec sig }

/-- The X fields of MMT (R275). -/
def Fields.mmtArg (f : Fields) : MmtArg :=
  ⟨f.x.extractLsb' 0 3, f.x.extractLsb' 3 8, f.x.getLsbD 11,
   if f.x.getLsbD 15 then some (f.x.extractLsb' 12 3) else none,
   if f.x.getLsbD 19 then some (f.x.extractLsb' 16 3) else none⟩

/-- X of MMT (R275). -/
def MmtArg.x (x : MmtArg) : BitVec 32 :=
  (0 : BitVec 12) ++ BitVec.ofBool x.bmem.isSome ++ x.bmem.getD 0 ++ BitVec.ofBool x.amem.isSome ++ x.amem.getD 0 ++
  BitVec.ofBool x.aInW ++ x.km1 ++ x.tile

/-- The X fields of TDRAIN (R279). -/
def Fields.drainArg (f : Fields) : DrainArg where
  tile := f.x.extractLsb' 0 3
  toG := f.x.getLsbD 3
  dfdt := f.x.extractLsb' 4 6
  res := if f.x.getLsbD 12 then some ⟨f.b, f.x.extractLsb' 10 2⟩ else none
  drop := f.x.getLsbD 13
  relu := f.x.getLsbD 14
  out := if f.x.getLsbD 15 then some f.c else none
  chk := if f.x.getLsbD 16 then some (f.x.extractLsb' 17 4) else none

/-- X of TDRAIN (R279). -/
def DrainArg.x (x : DrainArg) : BitVec 32 :=
  (0 : BitVec 11) ++ x.chk.getD 0 ++ BitVec.ofBool x.chk.isSome ++ BitVec.ofBool x.out.isSome ++
  BitVec.ofBool x.relu ++ BitVec.ofBool x.drop ++ BitVec.ofBool x.res.isSome ++
  (x.res.map ResArg.rsp).getD 0 ++ x.dfdt ++ BitVec.ofBool x.toG ++ x.tile

/-- An instance operand: bit 7 selects bits 6:0 (R308). -/
def instOf (b : BitVec 8) : Option (BitVec 7) := if b.getLsbD 7 then some (b.extractLsb' 0 7) else none

/-- The bits of an instance operand (R308). -/
def instBits (i : Option (BitVec 7)) : BitVec 8 := BitVec.ofBool i.isSome ++ i.getD 0

/-- An instruction of the control, integer and logic classes, opcodes 00 to 3E (R79, R126, R170). -/
def buildLow (f : Fields) : Except Reject Instr :=
  let h := f.hdr
  let h0 := f.hdr0
  let ty (k : RType → Instr) : Except Reject Instr :=
    match RType.ofCode f.t with
    | some t => .ok (k t)
    | none => .error .operand
  let sh (k : RType → ShAmt → Instr) : Except Reject Instr :=
    match f.shAmt with
    | some n => ty fun t => k t n
    | none => .error .function
  match f.opc.toNat with
  | 0x00 => .ok (.nop h)
  | 0x01 => .ok (.br h0 f.target)
  | 0x02 => .ok (.jmp h0 f.target)
  | 0x03 => .ok (.call h0 f.d f.target)
  | 0x04 => .ok (.calli h f.d f.a)
  | 0x05 => .ok (.ret h f.a)
  | 0x06 => .ok (.exit h)
  | 0x07 => .ok (.yield h)
  | 0x08 => .ok (.nap h0 (f.x.extractLsb' 0 16))
  | 0x10 => ty fun t => .mov h t f.d f.a
  | 0x11 => ty fun t => .movi h0 t f.d f.x
  | 0x12 => .ok (.movih h0 f.d f.x)
  | 0x13 => ty fun t => .add h t f.sat f.d f.a f.b
  | 0x14 => ty fun t => .addi h0 t f.sat f.d f.a f.x
  | 0x15 => ty fun t => .sub h t f.sat f.d f.a f.b
  | 0x16 => ty fun t => .mul h t f.sat f.d f.a f.b
  | 0x17 => ty fun t => .mulh h t f.d f.a f.b
  | 0x18 => ty fun t => .mad h t f.sat f.d f.a f.b f.c
  | 0x19 => ty fun t => .madw h t f.sat f.d f.a f.b f.c
  | 0x1A => ty fun t => .div h t f.sat f.d f.a f.b
  | 0x1B => ty fun t => .rem h t f.d f.a f.b
  | 0x1C => ty fun t => .neg h t f.sat f.d f.a
  | 0x1D => ty fun t => .abs h t f.sat f.d f.a
  | 0x1E => ty fun t => .min h t f.d f.a f.b
  | 0x1F => ty fun t => .max h t f.d f.a f.b
  | 0x20 => ty fun t => .clamp h t f.d f.a f.b f.c
  | 0x21 => ty fun t => .lea h t f.d f.a f.b (f.e.extractLsb' 0 4)
  | 0x30 => ty fun t => .and h t f.d f.a f.b
  | 0x31 => ty fun t => .or h t f.d f.a f.b
  | 0x32 => ty fun t => .xor h t f.d f.a f.b
  | 0x33 => ty fun t => .not h t f.d f.a
  | 0x34 => ty fun t => .bool3 h t f.d f.a f.b f.c (f.e.extractLsb' 0 8)
  | 0x35 => sh fun t n => .shl h t f.d f.a n
  | 0x36 => sh fun t n => .shr h t f.d f.a n
  | 0x37 => sh fun t n => .sar h t f.d f.a n
  | 0x38 => sh fun t n => .rot h t f.d f.a n
  | 0x39 => .ok (.funsh h f.d f.a f.b f.c)
  | 0x3A => ty fun t => .popc h t f.d f.a
  | 0x3B => ty fun t => .clz h t f.d f.a
  | 0x3C => ty fun t => .ctz h t f.d f.a
  | 0x3D =>
    match f.fn.toNat with
    | 0 => ty fun t => .bfx h t f.d f.a (.reg f.b)
    | 1 => ty fun t => .bfx h t f.d f.a (.imm (f.e.extractLsb' 0 16))
    | _ => .error .function
  | 0x3E =>
    match f.fn.toNat with
    | 0 => ty fun t => .bfi h t f.d f.a f.b (.reg f.c)
    | 1 => ty fun t => .bfi h t f.d f.a f.b (.imm (f.e.extractLsb' 0 16))
    | _ => .error .function
  | _ => .error .opcode

/-- An instruction of the compare, float, convert and cross-lane classes, opcodes 40 to 76 (R126, R149, R158, R166). -/
def buildMid (f : Fields) : Except Reject Instr :=
  let h := f.hdr
  let h0 := f.hdr0
  let ty (k : RType → Instr) : Except Reject Instr :=
    match RType.ofCode f.t with
    | some t => .ok (k t)
    | none => .error .operand
  let tm (k : RType → RMode → Instr) : Except Reject Instr :=
    match RType.ofCode f.t, RMode.ofCode f.m with
    | some t, some m => .ok (k t m)
    | _, _ => .error .operand
  let fill : Option Reg := if f.fn == 1 then some f.c else none
  match f.opc.toNat with
  | 0x40 =>
    match Cond.ofCode f.fn with
    | some cc => ty fun t => .cmp h cc t f.d f.a f.b
    | none => .error .function
  | 0x41 =>
    match Cond.ofCode f.fn with
    | some cc => ty fun t => .cmpi h0 cc t f.d f.a f.x
    | none => .error .function
  | 0x42 => ty fun t => .sel h t f.d f.a f.b f.c
  | 0x43 => .ok (.ballot h f.d f.a)
  | 0x44 => .ok (.vany h f.d f.a)
  | 0x45 => .ok (.vall h f.d f.a)
  | 0x46 => ty fun t => .veq h t f.d f.a
  | 0x47 =>
    match f.fn.toNat with
    | 0 => .ok (.active h f.d)
    | 1 => .ok (.activePath h f.d)
    | 2 => .ok (.activeLive h f.d)
    | _ => .error .function
  | 0x50 => tm fun t m => .fadd h t m f.sat f.d f.a f.b
  | 0x51 => tm fun t m => .fsub h t m f.sat f.d f.a f.b
  | 0x52 => tm fun t m => .fmul h t m f.sat f.d f.a f.b
  | 0x53 => tm fun t m => .ffma h t m f.sat f.d f.a f.b f.c
  | 0x54 => ty fun t => .fmin h t f.d f.a f.b
  | 0x55 => ty fun t => .fmax h t f.d f.a f.b
  | 0x56 => ty fun t => .fneg h t f.d f.a
  | 0x57 => ty fun t => .fabs h t f.d f.a
  | 0x58 => tm fun t m => .fdiv h t m f.sat f.d f.a f.b
  | 0x59 => tm fun t m => .fsqrt h t m f.d f.a
  | 0x5A => tm fun t m => .frcp h t m f.sat f.d f.a
  | 0x5B => tm fun t m => .frsq h t m f.sat f.d f.a
  | 0x5C => tm fun t m => .fexp2 h t m f.sat f.d f.a
  | 0x5D => tm fun t m => .flog2 h t m f.sat f.d f.a
  | 0x5E => tm fun t m => .fsin h t m f.sat f.d f.a
  | 0x5F => tm fun t m => .fcos h t m f.sat f.d f.a
  | 0x60 => tm fun t m => .ftanh h t m f.sat f.d f.a
  | 0x61 =>
    match f.fn.toNat with
    | 0 => tm fun t m => .frnd h t m f.d f.a
    | 1 => tm fun t m => .frndExact h t m f.d f.a
    | _ => .error .function
  | 0x62 => tm fun t m => .fscale h t m f.sat f.d f.a f.b
  | 0x63 => ty fun t => .fclass h t f.d f.a
  | 0x64 => tm fun t m => .dot2 h t m f.sat f.d f.a f.b f.c
  | 0x68 =>
    match RType.ofCode (f.e.extractLsb' 0 4) with
    | some ts => tm fun td m => .cvt h td ts m f.sat f.d f.a
    | none => .error .operand
  | 0x69 =>
    match PackFmt.ofCode (f.e.extractLsb' 0 6), RMode.ofCode f.m with
    | some p, some m => .ok (.pack h p m f.sat f.d f.a)
    | _, _ => .error .operand
  | 0x6A =>
    match PackFmt.ofCode (f.e.extractLsb' 0 6) with
    | some p => .ok (.unpack h p f.d f.a)
    | none => .error .operand
  | 0x6B =>
    match DxFmt.ofCode f.fn, RMode.ofCode f.m with
    | some x, some m => .ok (.dxpack h x m f.d f.a)
    | _, _ => .error .function
  | 0x6C =>
    match DxFmt.ofCode f.fn with
    | some x => .ok (.dxunpk h x f.d f.a)
    | none => .error .function
  | 0x6D =>
    match MxFmt.ofCode f.fn, RMode.ofCode f.m with
    | some x, some m => .ok (.mxpack h x m f.d f.a)
    | _, _ => .error .function
  | 0x6E =>
    match MxFmt.ofCode f.fn with
    | some x => .ok (.mxunpk h x f.d f.a)
    | none => .error .function
  | 0x6F =>
    match f.fn.toNat with
    | 0 => .ok (.flagsClr h (f.e.extractLsb' 0 15))
    | 1 => .ok (.flagsSet h (f.e.extractLsb' 0 15))
    | 2 => .ok (.flagsRm h (f.e.extractLsb' 0 3))
    | 3 => .ok (.flagsTake h f.d (f.e.extractLsb' 0 15))
    | _ => .error .function
  | 0x70 => ty fun t => .shfl h t f.d f.a f.b fill
  | 0x71 => ty fun t => .shflx h t f.d f.a (f.e.extractLsb' 0 5)
  | 0x72 => ty fun t => .shflup h t f.d f.a (f.e.extractLsb' 0 5) fill
  | 0x73 => ty fun t => .shfldn h t f.d f.a (f.e.extractLsb' 0 5) fill
  | 0x74 =>
    match f.fn.toNat with
    | 0 => ty fun t => .bcast h t f.d f.a (.imm (f.e.extractLsb' 0 5))
    | 1 => ty fun t => .bcast h t f.d f.a (.reg f.b)
    | _ => .error .function
  | 0x75 =>
    match RedOp.ofCode f.fn with
    | some op => tm fun t m => .wred h op t m f.sat f.d f.a
    | none => .error .function
  | 0x76 =>
    match RedOp.ofCode f.fn with
    | some op => tm fun t m => .wscan h op t m f.sat f.d f.a
    | none => .error .function
  | _ => .error .opcode

/-- An instruction of the memory and engine classes, opcodes 80 to B6 (R228, R287). -/
def buildEng (f : Fields) : Except Reject Instr :=
  let h := f.hdr
  let h0 := f.hdr0
  let hi := f.fn.getLsbD 3
  let idx : Option Reg := if hi then some f.b else none
  let mem (k : MemArg → Except Reject Instr) : Except Reject Instr :=
    match Space.ofCode (f.fn.extractLsb' 0 3) with
    | some sp => k (f.mem sp)
    | none => .error .function
  let tmem (k : RType → MemArg → Instr) : Except Reject Instr :=
    mem fun ma => match RType.ofCode f.t with
      | some t => .ok (k t ma)
      | none => .error .operand
  let tmm (k : RType → RMode → MemArg → Instr) : Except Reject Instr :=
    mem fun ma => match RType.ofCode f.t, RMode.ofCode f.m with
      | some t, some m => .ok (k t m ma)
      | _, _ => .error .operand
  let cp (k : CopyArg → Instr) : Except Reject Instr :=
    match f.copyArg with
    | some x => .ok (k x)
    | none => .error .operand
  match f.opc.toNat with
  | 0x80 => tmm fun t m ma => .ld h0 t m f.sat f.d ma idx (f.c.getLsbD 5)
  | 0x81 => tmm fun t m ma => .st h0 t m f.sat f.d ma idx
  | 0x82 => tmm fun t m ma => .ldb h0 hi t m f.sat f.d ma
  | 0x83 => tmm fun _ m ma => .stb h0 m f.d ma idx
  | 0x84 =>
    match AtomOp.ofCode hi f.m with
    | some op => tmem fun t ma => .atom h0 op t f.d ma f.b
    | none => .error .function
  | 0x85 =>
    match AtomOp.ofCode hi f.m with
    | some op => tmem fun t ma => .atomn h0 op t ma f.b
    | none => .error .function
  | 0x86 => tmem fun t ma => .cas h0 t f.d ma f.b
  | 0x87 => tmem fun t ma => .lr h0 t f.d ma
  | 0x88 => tmem fun t ma => .sc h0 t f.d ma f.b
  | 0x89 =>
    match f.fn.toNat with
    | 0 => .ok (.phasePub h)
    | 1 => .ok (.phaseAdopt h)
    | 2 => .ok (.phaseBoth h)
    | _ => .error .function
  | 0x8A => .ok (.fence h)
  | 0x8B => mem fun ma => .ok (if hi then .prefL2 h0 ma else .pref h0 ma)
  | 0x8C => mem fun ma => .ok (.flush h0 ma)
  | 0x8D => .ok (.sways h f.d f.a)
  | 0x8E => mem fun ma => .ok (.zero h0 ma)
  | 0xA0 => cp fun x => .cpy h0 f.d f.a x
  | 0xA1 => cp fun x => .cpym h0 f.d f.a f.b (if f.x.getLsbD 19 then some f.c else none) x
  | 0xA2 =>
    match f.fn.toNat with
    | 0 => cp fun x => .cpyxGather h0 f.d f.a f.b x
    | 1 => cp fun x => .cpyxScatter h0 f.d f.a f.b x
    | _ => .error .function
  | 0xA3 => cp fun x => .cpys h0 f.d f.a f.c (f.x.extractLsb' 20 12) x
  | 0xA4 => cp fun x => .cpyw h0 f.d f.a f.c x
  | 0xA5 =>
    match f.fn.toNat with
    | 0 => .ok (.shadow h0 f.d f.a)
    | 1 => .ok (.shadowDrop h0 f.d f.a)
    | _ => .error .function
  | 0xA6 =>
    let sig : Option Reg := if f.x.getLsbD 0 then some f.c else none
    match f.fn.toNat with
    | 0 => .ok (.publish h0 f.d f.a sig)
    | 1 => .ok (.publishKeep h0 f.d f.a sig)
    | _ => .error .function
  | 0xA7 =>
    match f.fn.toNat with
    | 0 => .ok (.cpyqTok h f.d f.a)
    | 1 => .ok (.cpyqSlots h f.d (f.e.extractLsb' 0 3))
    | 2 => .ok (.cpyqFree h (f.e.extractLsb' 0 3))
    | _ => .error .function
  | 0xA8 =>
    match f.fn.toNat with
    | 0 => .ok (.cpyc h f.a)
    | 1 => .ok (.cpycAll h)
    | _ => .error .function
  | 0xA9 =>
    .ok (.sdpark h0 f.d f.a f.b (f.x.getLsbD 4) (ParkFmt.ofCode (f.x.extractLsb' 0 2)) (f.x.getLsbD 2)
      (if f.x.getLsbD 3 then some f.c else none))
  | 0xAA => .ok (.sdcall h0 f.d f.a f.b f.c (f.x.getLsbD 4))
  | 0xAB => .ok (.sddrop h0 f.d f.a f.b (f.x.getLsbD 4))
  | 0xAC => .ok (.sdstat h f.d f.a)
  | 0xB0 => .ok (.tcfg h0 f.a)
  | 0xB1 => .ok (.tzero h0 f.d (f.x.extractLsb' 0 3))
  | 0xB2 =>
    match TileKind.ofCode f.fn, RMode.ofCode f.m with
    | some k, some m => .ok (.tloadc h0 k m f.d f.a (f.x.extractLsb' 0 3))
    | _, _ => .error .function
  | 0xB3 => .ok (.mmt h0 f.d f.a f.b f.mmtArg)
  | 0xB4 =>
    match RMode.ofCode f.m with
    | some m => .ok (.tdrain h0 m f.sat f.d f.a f.drainArg)
    | none => .error .operand
  | 0xB5 => .ok (.tchk h f.d (f.e.extractLsb' 0 3))
  | 0xB6 =>
    match f.fn.toNat with
    | 0 => .ok (.tstat h f.d (f.e.extractLsb' 0 3))
    | 1 => .ok (.tstatClr h f.d (f.e.extractLsb' 0 3))
    | _ => .error .function
  | _ => .error .opcode

/-- An instruction of the queue, recovery, counter and system classes, opcodes C0 to F7 (R294, R371, R393, R413, R179
to R183). -/
def buildSys (f : Fields) : Except Reject Instr :=
  let h := f.hdr
  let h0 := f.hdr0
  let e := f.e
  let wide (k : Bool → Instr) : Except Reject Instr :=
    match RType.ofCode f.t with
    | some .z32 => .ok (k false)
    | some .z64 => .ok (k true)
    | _ => .error .operand
  match f.opc.toNat with
  | 0xC0 =>
    match f.fn.toNat with
    | 0 => .ok (.qcfg h (e.extractLsb' 0 2) (e.extractLsb' 16 8) (e.extractLsb' 8 6))
    | 1 => .ok (.qcfgRel h (e.extractLsb' 0 2))
    | _ => .error .function
  | 0xC1 =>
    match f.fn.toNat with
    | 0 => .ok (.qsend h f.d f.a f.b)
    | 1 => .ok (.qsendIdx h f.d f.a f.b f.c)
    | 2 => .ok (.qsendYoke h f.d f.b)
    | _ => .error .function
  | 0xC2 =>
    match f.fn.toNat with
    | 0 => .ok (.qpop h f.d (e.extractLsb' 0 2))
    | 1 => .ok (.qpopTry h f.d (e.extractLsb' 8 8) (e.extractLsb' 0 2))
    | _ => .error .function
  | 0xC3 =>
    match f.fn.toNat with
    | 0 => wide fun w => .rsend h w f.d f.a f.b (e.extractLsb' 0 8)
    | 1 => wide fun w => .rsendIdx h w f.d f.a f.b f.c (e.extractLsb' 0 8)
    | _ => .error .function
  | 0xC4 => .ok (.expect h f.d (e.extractLsb' 0 8))
  | 0xC5 =>
    match f.fn.toNat with
    | 0 => .ok (.grantReg h f.d f.a (e.extractLsb' 0 8) (e.extractLsb' 8 8) (e.getLsbD 16) (e.getLsbD 17)
        (e.extractLsb' 19 2) (e.extractLsb' 21 2))
    | 1 => .ok (.grantQ h f.d f.a (e.extractLsb' 0 2) (e.extractLsb' 19 2) (e.extractLsb' 21 2))
    | _ => .error .function
  | 0xC6 =>
    match f.fn.toNat with
    | 0 => .ok (.revoke h f.d f.a)
    | 1 => .ok (.revokeAll h f.d)
    | _ => .error .function
  | 0xC7 => .ok (.spawn h0 f.d f.a)
  | 0xC8 => .ok (.launch h0 f.d f.a (f.x.extractLsb' 0 3))
  | 0xC9 =>
    match f.fn.toNat with
    | 0 => .ok (.heapput h f.d f.a f.b (instOf (e.extractLsb' 0 8)))
    | 1 => .ok (.heapputOpen h f.d (instOf (e.extractLsb' 0 8)))
    | 2 => .ok (.heapputClose h f.d (instOf (e.extractLsb' 0 8)))
    | _ => .error .function
  | 0xCA => .ok (.heapget h0 f.d f.a (instOf (f.x.extractLsb' 0 8)))
  | 0xD8 =>
    if f.fn.toNat ≤ 3 then
      .ok (.ensure h0 f.target (if f.fn.getLsbD 0 then some f.a else none) (if f.fn.getLsbD 1 then some f.b else none))
    else .error .function
  | 0xD9 =>
    match f.fn.toNat with
    | 0 => .ok (.elseby h0 f.target none)
    | 1 => .ok (.elseby h0 f.target (some f.b))
    | _ => .error .function
  | 0xDA =>
    match f.fn.toNat with
    | 0 => .ok (.elseerr h0)
    | 1 => .ok (.elseerrGo h0 f.target)
    | _ => .error .function
  | 0xDB =>
    match f.fn.toNat with
    | 0 => .ok (.accept h)
    | 1 => .ok (.acceptIf h f.a)
    | _ => .error .function
  | 0xDC => .ok (.reject h (e.extractLsb' 0 8))
  | 0xDD => .ok (.abandon h (e.extractLsb' 0 8))
  | 0xDE => .ok (.sitjoin h f.d f.a f.b)
  | 0xDF => .ok (.sitleave h f.d)
  | 0xE0 =>
    .ok (if f.x.getLsbD 3 then .cinitCont h0 f.d f.a (f.x.extractLsb' 0 3) else .cinit h0 f.d f.a)
  | 0xE1 =>
    match f.fn.toNat with
    | 0 => .ok (.cinc h f.d f.a (.imm (e.extractLsb' 0 12)))
    | 1 => .ok (.cinc h f.d f.a (.reg f.b))
    | _ => .error .function
  | 0xE2 =>
    match f.fn.toNat with
    | 0 => .ok (.cdec h f.d f.a (.imm (e.extractLsb' 0 12)))
    | 1 => .ok (.cdec h f.d f.a (.reg f.b))
    | _ => .error .function
  | 0xE3 =>
    match f.fn.toNat with
    | 0 => .ok (.crd h f.d f.a)
    | 1 => .ok (.crdF h f.d f.a)
    | _ => .error .function
  | 0xE4 =>
    match f.fn.toNat with
    | 0 => .ok (.cwaitLe h f.a f.b)
    | 1 => .ok (.cwaitGe h f.a f.b)
    | 2 => .ok (.cwaitWt h f.a f.b)
    | 3 => .ok (.cwaitWs h f.a f.b)
    | _ => .error .function
  | 0xE5 =>
    match f.fn.toNat with
    | 0 => .ok (.bar h)
    | 1 => .ok (.barG h (e.extractLsb' 0 2))
    | _ => .error .function
  | 0xE6 => .ok (.bara h f.d (e.extractLsb' 0 3))
  | 0xE7 => .ok (.barw h f.a (e.extractLsb' 0 3))
  | 0xE8 =>
    match f.fn.toNat with
    | 0 => .ok (.winrdT h f.d f.a)
    | 1 => .ok (.winrdS h f.d f.a)
    | _ => .error .function
  | 0xF0 => wide fun w => .srd h w f.d (e.extractLsb' 0 12)
  | 0xF1 => wide fun w => .swr h w (e.extractLsb' 0 12) f.a
  | 0xF2 => .ok (.trap h0 f.x)
  | 0xF3 => .ok (.rett h)
  | 0xF4 =>
    match f.fn.toNat with
    | 0 => .ok (.tlbinvVa h f.d f.a (if e.getLsbD 8 then some (e.extractLsb' 0 6) else none))
    | 1 => .ok (.tlbinvCtx h f.d f.a)
    | 2 => .ok (.tlbinvAll h f.d)
    | 3 => .ok (.tlbinvFdt h f.d f.a)
    | _ => .error .function
  | 0xF5 => .ok (.frame h (e.extractLsb' 0 4) f.a)
  | 0xF6 =>
    match f.fn.toNat with
    | 0 =>
      match (e.extractLsb' 0 3 : BitVec 3).toNat with
      | 4 => .ok (.lease h f.d f.a false)
      | 5 => .ok (.lease h f.d f.a true)
      | _ => .error .operand
    | 1 => .ok (.leaseRel h f.d)
    | _ => .error .function
  | 0xF7 => .ok (.bkpt h0 f.x)
  | 0xFF => .ok (.ill (f.word.extractLsb' 8 88))
  | _ => .error .opcode

/-- The instruction that the fields name, its operands as yet unchecked. -/
def build (f : Fields) : Except Reject Instr :=
  if f.opc.toNat < 0x40 then buildLow f
  else if f.opc.toNat < 0x80 then buildMid f
  else if f.opc.toNat < 0xC0 then buildEng f
  else buildSys f

/-- An R-form word with three register operands under a type. -/
def Fields.r3 (h : Hdr) (opc : BitVec 8) (t : RType) (d a : Reg) (b : Reg := 0) (c : Reg := 0) (sat : Bool := false)
    (m : RMode := .rne) : Fields :=
  { Fields.r h opc with d, a, b, c, t := t.code, sat, m := m.code }

/-- An R-form word without type or mode. -/
def Fields.p3 (h : Hdr) (opc : BitVec 8) (fn : BitVec 4) (d a : Reg) (b : Reg := 0) (c : Reg := 0)
    (e : BitVec 24 := 0) : Fields :=
  { Fields.r h opc e with fn, d, a, b, c }

/-- A T-form or I-form word without type or mode. -/
def Fields.t3 (h : Hdr) (opc : BitVec 8) (fn : BitVec 4) (d a : Reg) (b : Reg := 0) (c : Reg := 0)
    (x : BitVec 32 := 0) : Fields :=
  { Fields.zero h opc with fn, d, a, b, c, x }

/-- The fields of CINC and CDEC (R402). -/
def Fields.amount (h : Hdr) (opc : BitVec 8) (d a : Reg) : Amount → Fields
  | .imm n => Fields.p3 h opc 0 d a 0 0 ((0 : BitVec 12) ++ n)
  | .reg b => Fields.p3 h opc 1 d a b

/-- The encoder's fields of each instruction; a step of a unit has none. -/
def Instr.fields : Instr → Option Fields
  | .nop h => some (.r h 0x00)
  | .br h t => some (.br h 0x01 t)
  | .jmp h t => some (.br h 0x02 t)
  | .call h d t => some { Fields.br h 0x03 t with d }
  | .calli h d a => some (.p3 h 0x04 0 d a)
  | .ret h a => some (.p3 h 0x05 0 0 a)
  | .exit h => some (.r h 0x06)
  | .yield h => some (.r h 0x07)
  | .nap h n => some (.t3 h 0x08 0 0 0 0 0 ((0 : BitVec 16) ++ n))
  | .mov h t d a => some (.r3 h 0x10 t d a)
  | .movi h t d imm => some { Fields.t3 h 0x11 0 d 0 0 0 imm with t := t.code }
  | .movih h d imm => some { Fields.t3 h 0x12 0 d 0 0 0 imm with t := RType.z64.code }
  | .add h t sat d a b => some (.r3 h 0x13 t d a b 0 sat)
  | .addi h t sat d a imm => some { Fields.t3 h 0x14 0 d a 0 0 imm with t := t.code, sat }
  | .sub h t sat d a b => some (.r3 h 0x15 t d a b 0 sat)
  | .mul h t sat d a b => some (.r3 h 0x16 t d a b 0 sat)
  | .mulh h t d a b => some (.r3 h 0x17 t d a b)
  | .mad h t sat d a b c => some (.r3 h 0x18 t d a b c sat)
  | .madw h t sat d a b c => some (.r3 h 0x19 t d a b c sat)
  | .div h t sat d a b => some (.r3 h 0x1A t d a b 0 sat)
  | .rem h t d a b => some (.r3 h 0x1B t d a b)
  | .neg h t sat d a => some (.r3 h 0x1C t d a 0 0 sat)
  | .abs h t sat d a => some (.r3 h 0x1D t d a 0 0 sat)
  | .min h t d a b => some (.r3 h 0x1E t d a b)
  | .max h t d a b => some (.r3 h 0x1F t d a b)
  | .clamp h t d a b c => some (.r3 h 0x20 t d a b c)
  | .lea h t d a b n => some { Fields.r h 0x21 ((0 : BitVec 20) ++ n) with d, a, b, t := t.code }
  | .and h t d a b => some (.r3 h 0x30 t d a b)
  | .or h t d a b => some (.r3 h 0x31 t d a b)
  | .xor h t d a b => some (.r3 h 0x32 t d a b)
  | .not h t d a => some (.r3 h 0x33 t d a)
  | .bool3 h t d a b c n => some { Fields.r h 0x34 ((0 : BitVec 16) ++ n) with d, a, b, c, t := t.code }
  | .shl h t d a n => some (.sh h 0x35 t d a n)
  | .shr h t d a n => some (.sh h 0x36 t d a n)
  | .sar h t d a n => some (.sh h 0x37 t d a n)
  | .rot h t d a n => some (.sh h 0x38 t d a n)
  | .funsh h d a b c => some (.r3 h 0x39 .z32 d a b c)
  | .popc h t d a => some (.r3 h 0x3A t d a)
  | .clz h t d a => some (.r3 h 0x3B t d a)
  | .ctz h t d a => some (.r3 h 0x3C t d a)
  | .bfx h t d a sp => some (match sp with
    | .reg b => .r3 h 0x3D t d a b
    | .imm v => { Fields.r h 0x3D ((0 : BitVec 8) ++ v) with fn := 1, d, a, t := t.code })
  | .bfi h t d a b sp => some (match sp with
    | .reg c => .r3 h 0x3E t d a b c
    | .imm v => { Fields.r h 0x3E ((0 : BitVec 8) ++ v) with fn := 1, d, a, b, t := t.code })
  | .cmp h cc t d a b => some { Fields.r3 h 0x40 t d a b with fn := cc.code }
  | .cmpi h cc t d a imm => some { Fields.t3 h 0x41 cc.code d a 0 0 imm with t := t.code }
  | .sel h t d a b c => some (.r3 h 0x42 t d a b c)
  | .ballot h d a => some (.p3 h 0x43 0 d a)
  | .vany h d a => some (.p3 h 0x44 0 d a)
  | .vall h d a => some (.p3 h 0x45 0 d a)
  | .veq h t d a => some (.r3 h 0x46 t d a)
  | .active h d => some (.p3 h 0x47 0 d 0)
  | .activePath h d => some (.p3 h 0x47 1 d 0)
  | .activeLive h d => some (.p3 h 0x47 2 d 0)
  | .fadd h t m sat d a b => some (.r3 h 0x50 t d a b 0 sat m)
  | .fsub h t m sat d a b => some (.r3 h 0x51 t d a b 0 sat m)
  | .fmul h t m sat d a b => some (.r3 h 0x52 t d a b 0 sat m)
  | .ffma h t m sat d a b c => some (.r3 h 0x53 t d a b c sat m)
  | .fmin h t d a b => some (.r3 h 0x54 t d a b)
  | .fmax h t d a b => some (.r3 h 0x55 t d a b)
  | .fneg h t d a => some (.r3 h 0x56 t d a)
  | .fabs h t d a => some (.r3 h 0x57 t d a)
  | .fdiv h t m sat d a b => some (.r3 h 0x58 t d a b 0 sat m)
  | .fsqrt h t m d a => some (.r3 h 0x59 t d a 0 0 false m)
  | .frcp h t m sat d a => some (.r3 h 0x5A t d a 0 0 sat m)
  | .frsq h t m sat d a => some (.r3 h 0x5B t d a 0 0 sat m)
  | .fexp2 h t m sat d a => some (.r3 h 0x5C t d a 0 0 sat m)
  | .flog2 h t m sat d a => some (.r3 h 0x5D t d a 0 0 sat m)
  | .fsin h t m sat d a => some (.r3 h 0x5E t d a 0 0 sat m)
  | .fcos h t m sat d a => some (.r3 h 0x5F t d a 0 0 sat m)
  | .ftanh h t m sat d a => some (.r3 h 0x60 t d a 0 0 sat m)
  | .frnd h t m d a => some (.r3 h 0x61 t d a 0 0 false m)
  | .frndExact h t m d a => some { Fields.r3 h 0x61 t d a 0 0 false m with fn := 1 }
  | .fscale h t m sat d a b => some (.r3 h 0x62 t d a b 0 sat m)
  | .fclass h t d a => some (.r3 h 0x63 t d a)
  | .dot2 h t m sat d a b c => some (.r3 h 0x64 t d a b c sat m)
  | .cvt h td ts m sat d a =>
      some { Fields.r h 0x68 ((0 : BitVec 20) ++ ts.code) with d, a, t := td.code, m := m.code, sat }
  | .pack h f m sat d a =>
      some { Fields.r h 0x69 ((0 : BitVec 18) ++ f.code) with d, a, t := f.runType.code, m := m.code, sat }
  | .unpack h f d a => some { Fields.r h 0x6A ((0 : BitVec 18) ++ f.code) with d, a, t := f.runType.code }
  | .dxpack h f m d a => some { Fields.r3 h 0x6B .f32 d a 0 0 false m with fn := f.code }
  | .mxpack h f m d a => some { Fields.r3 h 0x6D .f32 d a 0 0 false m with fn := f.code }
  | .dxunpk h f d a => some { Fields.r3 h 0x6C .f32 d a with fn := f.code }
  | .mxunpk h f d a => some { Fields.r3 h 0x6E .f32 d a with fn := f.code }
  | .flagsClr h k => some (.p3 h 0x6F 0 0 0 0 0 ((0 : BitVec 9) ++ k))
  | .flagsSet h k => some (.p3 h 0x6F 1 0 0 0 0 ((0 : BitVec 9) ++ k))
  | .flagsRm h k => some (.p3 h 0x6F 2 0 0 0 0 ((0 : BitVec 21) ++ k))
  | .flagsTake h d k => some (.p3 h 0x6F 3 d 0 0 0 ((0 : BitVec 9) ++ k))
  | .shfl h t d a b fill =>
      some { Fields.r3 h 0x70 t d a b (optReg fill) with fn := if fill.isSome then 1 else 0 }
  | .shflx h t d a k => some { Fields.r h 0x71 ((0 : BitVec 19) ++ k) with d, a, t := t.code }
  | .shflup h t d a n fill =>
      some { Fields.r h 0x72 ((0 : BitVec 19) ++ n) with
        d, a, c := optReg fill, t := t.code, fn := if fill.isSome then 1 else 0 }
  | .shfldn h t d a n fill =>
      some { Fields.r h 0x73 ((0 : BitVec 19) ++ n) with
        d, a, c := optReg fill, t := t.code, fn := if fill.isSome then 1 else 0 }
  | .bcast h t d a src => some (match src with
    | .imm n => { Fields.r h 0x74 ((0 : BitVec 19) ++ n) with d, a, t := t.code }
    | .reg b => { Fields.r3 h 0x74 t d a b with fn := 1 })
  | .wred h op t m sat d a => some { Fields.r3 h 0x75 t d a 0 0 sat m with fn := op.code }
  | .wscan h op t m sat d a => some { Fields.r3 h 0x76 t d a 0 0 sat m with fn := op.code }
  | .ld h t m sat d ma idx fresh =>
      some { Fields.m' h 0x80 idx.isSome ma fresh with d, b := optReg idx, t := t.code, m := m.code, sat }
  | .st h t m sat d ma idx =>
      some { Fields.m' h 0x81 idx.isSome ma with d, b := optReg idx, t := t.code, m := m.code, sat }
  | .ldb h code t m sat d ma => some { Fields.m' h 0x82 code ma with d, t := t.code, m := m.code, sat }
  | .stb h m d ma scale =>
      some { Fields.m' h 0x83 scale.isSome ma with d, b := optReg scale, t := RType.f32.code, m := m.code }
  | .zero h ma => some (Fields.m' h 0x8E false ma)
  | .atom h op t d ma b => some { Fields.m' h 0x84 op.code.1 ma with d, b, t := t.code, m := op.code.2 }
  | .atomn h op t ma b => some { Fields.m' h 0x85 op.code.1 ma with b, t := t.code, m := op.code.2 }
  | .cas h t d ma b => some { Fields.m' h 0x86 false ma with d, b, t := t.code }
  | .lr h t d ma => some { Fields.m' h 0x87 false ma with d, t := t.code }
  | .sc h t d ma b => some { Fields.m' h 0x88 false ma with d, b, t := t.code }
  | .phasePub h => some (.p3 h 0x89 0 0 0)
  | .phaseAdopt h => some (.p3 h 0x89 1 0 0)
  | .phaseBoth h => some (.p3 h 0x89 2 0 0)
  | .fence h => some (.r h 0x8A)
  | .pref h ma => some (Fields.m' h 0x8B false ma)
  | .prefL2 h ma => some (Fields.m' h 0x8B true ma)
  | .flush h ma => some (Fields.m' h 0x8C false ma)
  | .sways h d a => some { Fields.p3 h 0x8D 0 d a with t := RType.z32.code }
  | .cpy h d a x => some (.copy h 0xA0 0 d a x)
  | .cpym h d a b sig x => some { Fields.copy h 0xA1 0 d a x 0 sig.isSome with b, c := optReg sig }
  | .cpyxGather h d a b x => some { Fields.copy h 0xA2 0 d a x with b }
  | .cpyxScatter h d a b x => some { Fields.copy h 0xA2 1 d a x with b }
  | .cpys h d a c dec x => some { Fields.copy h 0xA3 0 d a x dec with c }
  | .cpyw h d a c x => some { Fields.copy h 0xA4 0 d a x with c }
  | .cpyqTok h d a => some (.p3 h 0xA7 0 d a)
  | .cpyqSlots h d r => some (.p3 h 0xA7 1 d 0 0 0 ((0 : BitVec 21) ++ r))
  | .cpyqFree h r => some (.p3 h 0xA7 2 0 0 0 0 ((0 : BitVec 21) ++ r))
  | .cpyc h a => some (.p3 h 0xA8 0 0 a)
  | .cpycAll h => some (.p3 h 0xA8 1 0 0)
  | .shadow h d a => some (.t3 h 0xA5 0 d a)
  | .shadowDrop h d a => some (.t3 h 0xA5 1 d a)
  | .publish h d a sig => some (.t3 h 0xA6 0 d a 0 (optReg sig) ((0 : BitVec 31) ++ BitVec.ofBool sig.isSome))
  | .publishKeep h d a sig => some (.t3 h 0xA6 1 d a 0 (optReg sig) ((0 : BitVec 31) ++ BitVec.ofBool sig.isSome))
  | .sdpark h d a b p64 f elide sig =>
      some (.t3 h 0xA9 0 d a b (optReg sig)
        ((0 : BitVec 27) ++ BitVec.ofBool p64 ++ BitVec.ofBool sig.isSome ++ BitVec.ofBool elide ++ f.code))
  | .sdcall h d a b c p64 => some (.t3 h 0xAA 0 d a b c ((0 : BitVec 27) ++ BitVec.ofBool p64 ++ (0 : BitVec 4)))
  | .sddrop h d a b p64 => some (.t3 h 0xAB 0 d a b 0 ((0 : BitVec 27) ++ BitVec.ofBool p64 ++ (0 : BitVec 4)))
  | .sdstat h d a => some (.p3 h 0xAC 0 d a)
  | .tcfg h a => some (.t3 h 0xB0 0 0 a)
  | .tzero h d t => some (.t3 h 0xB1 0 d 0 0 0 ((0 : BitVec 29) ++ t))
  | .tloadc h k m d a t => some { Fields.t3 h 0xB2 k.code d a 0 0 ((0 : BitVec 29) ++ t) with m := m.code }
  | .mmt h d a b x => some (.t3 h 0xB3 0 d a b 0 x.x)
  | .tdrain h m sat d a x =>
      some { Fields.t3 h 0xB4 0 d a ((x.res.map ResArg.run).getD 0) (optReg x.out) x.x with m := m.code, sat }
  | .tchk h d t => some (.p3 h 0xB5 0 d 0 0 0 ((0 : BitVec 21) ++ t))
  | .tstat h d t => some (.p3 h 0xB6 0 d 0 0 0 ((0 : BitVec 21) ++ t))
  | .tstatClr h d t => some (.p3 h 0xB6 1 d 0 0 0 ((0 : BitVec 21) ++ t))
  | .qcfg h q base n => some (.p3 h 0xC0 0 0 0 0 0 (base ++ (0 : BitVec 2) ++ n ++ (0 : BitVec 6) ++ q))
  | .qcfgRel h q => some (.p3 h 0xC0 1 0 0 0 0 ((0 : BitVec 22) ++ q))
  | .qsend h d a b => some { Fields.p3 h 0xC1 0 d a b with t := RType.z32.code }
  | .qsendIdx h d a b c => some { Fields.p3 h 0xC1 1 d a b c with t := RType.z32.code }
  | .qsendYoke h d b => some { Fields.p3 h 0xC1 2 d 0 b with t := RType.z32.code }
  | .qpop h d q => some { Fields.p3 h 0xC2 0 d 0 0 0 ((0 : BitVec 22) ++ q) with t := RType.z32.code }
  | .qpopTry h d p q =>
      some { Fields.p3 h 0xC2 1 d 0 0 0 ((0 : BitVec 8) ++ p ++ (0 : BitVec 6) ++ q) with t := RType.z32.code }
  | .rsend h w d a b off =>
      some { Fields.p3 h 0xC3 0 d a b 0 ((0 : BitVec 16) ++ off) with t := (if w then RType.z64 else .z32).code }
  | .rsendIdx h w d a b c off =>
      some { Fields.p3 h 0xC3 1 d a b c ((0 : BitVec 16) ++ off) with t := (if w then RType.z64 else .z32).code }
  | .expect h d n => some (.p3 h 0xC4 0 d 0 0 0 ((0 : BitVec 16) ++ n))
  | .grantReg h d a first cm1 send idx pol scope =>
      some (.p3 h 0xC5 0 d a 0 0 ((0 : BitVec 1) ++ scope ++ pol ++ (0 : BitVec 1) ++ BitVec.ofBool idx ++
        BitVec.ofBool send ++ cm1 ++ first))
  | .grantQ h d a slot pol scope =>
      some (.p3 h 0xC5 1 d a 0 0 ((0 : BitVec 1) ++ scope ++ pol ++ (0 : BitVec 17) ++ slot))
  | .revoke h d a => some (.p3 h 0xC6 0 d a)
  | .revokeAll h d => some (.p3 h 0xC6 1 d 0)
  | .spawn h d a => some (.t3 h 0xC7 0 d a)
  | .launch h d a q => some (.t3 h 0xC8 0 d a 0 0 ((0 : BitVec 29) ++ q))
  | .heapput h d a b i => some (.p3 h 0xC9 0 d a b 0 ((0 : BitVec 16) ++ instBits i))
  | .heapputOpen h d i => some (.p3 h 0xC9 1 d 0 0 0 ((0 : BitVec 16) ++ instBits i))
  | .heapputClose h d i => some (.p3 h 0xC9 2 d 0 0 0 ((0 : BitVec 16) ++ instBits i))
  | .heapget h d a i => some (.t3 h 0xCA 0 d a 0 0 ((0 : BitVec 24) ++ instBits i))
  | .ensure h t k l =>
      some { Fields.br h 0xD8 t with
        fn := (0 : BitVec 2) ++ BitVec.ofBool l.isSome ++ BitVec.ofBool k.isSome, a := optReg k, b := optReg l }
  | .elseby h t l => some { Fields.br h 0xD9 t with fn := if l.isSome then 1 else 0, b := optReg l }
  | .elseerr h => some (.t3 h 0xDA 0 0 0)
  | .elseerrGo h t => some { Fields.br h 0xDA t with fn := 1 }
  | .accept h => some (.p3 h 0xDB 0 0 0)
  | .acceptIf h a => some (.p3 h 0xDB 1 0 a)
  | .reject h n => some (.p3 h 0xDC 0 0 0 0 0 ((0 : BitVec 16) ++ n))
  | .abandon h n => some (.p3 h 0xDD 0 0 0 0 0 ((0 : BitVec 16) ++ n))
  | .sitjoin h d a b => some (.p3 h 0xDE 0 d a b)
  | .sitleave h d => some (.p3 h 0xDF 0 d 0)
  | .cinit h d a => some (.t3 h 0xE0 0 d a)
  | .cinitCont h d a q => some (.t3 h 0xE0 0 d a 0 0 ((0 : BitVec 28) ++ BitVec.ofBool true ++ q))
  | .cinc h d a n => some (.amount h 0xE1 d a n)
  | .cdec h d a n => some (.amount h 0xE2 d a n)
  | .crd h d a => some (.p3 h 0xE3 0 d a)
  | .crdF h d a => some (.p3 h 0xE3 1 d a)
  | .cwaitLe h a b => some (.p3 h 0xE4 0 0 a b)
  | .cwaitGe h a b => some (.p3 h 0xE4 1 0 a b)
  | .cwaitWt h a b => some (.p3 h 0xE4 2 0 a b)
  | .cwaitWs h a b => some (.p3 h 0xE4 3 0 a b)
  | .bar h => some (.p3 h 0xE5 0 0 0)
  | .barG h s => some (.p3 h 0xE5 1 0 0 0 0 ((0 : BitVec 22) ++ s))
  | .bara h d s => some (.p3 h 0xE6 0 d 0 0 0 ((0 : BitVec 21) ++ s))
  | .barw h a s => some (.p3 h 0xE7 0 0 a 0 0 ((0 : BitVec 21) ++ s))
  | .winrdT h d a => some (.p3 h 0xE8 0 d a)
  | .winrdS h d a => some (.p3 h 0xE8 1 d a)
  | .srd h w d n =>
      some { Fields.p3 h 0xF0 0 d 0 0 0 ((0 : BitVec 12) ++ n) with t := (if w then RType.z64 else .z32).code }
  | .swr h w n a =>
      some { Fields.p3 h 0xF1 0 0 a 0 0 ((0 : BitVec 12) ++ n) with t := (if w then RType.z64 else .z32).code }
  | .frame h slot a => some (.p3 h 0xF5 0 0 a 0 0 ((0 : BitVec 20) ++ slot))
  | .bkpt h n => some (.t3 h 0xF7 0 0 0 0 0 n)
  | .trap h n => some (.t3 h 0xF2 0 0 0 0 0 n)
  | .rett h => some (.p3 h 0xF3 0 0 0)
  | .tlbinvVa h d a ctx =>
      some (.p3 h 0xF4 0 d a 0 0 ((0 : BitVec 15) ++ BitVec.ofBool ctx.isSome ++ (0 : BitVec 2) ++ ctx.getD 0))
  | .tlbinvCtx h d a => some (.p3 h 0xF4 1 d a)
  | .tlbinvAll h d => some (.p3 h 0xF4 2 d 0)
  | .tlbinvFdt h d a => some (.p3 h 0xF4 3 d a)
  | .lease h d a five => some (.p3 h 0xF6 0 d a 0 0 ((0 : BitVec 21) ++ (if five then 5 else 4 : BitVec 3)))
  | .leaseRel h d => some (.p3 h 0xF6 1 d 0)
  | .ill content => some (Fields.ofWord (content ++ (0xFF : BitVec 8)))
  | .takeOwedFault _ | .variableResultReturn _ | .publishLineMerge _ | .bridgePublishAccept _ _ | .remoteArrival _
  | .arrivalOutcome _ | .yokePushLand _ | .copyQueueStart _ | .copyPacket _ _ _ _ | .copyComplete _
  | .windowPutMerge _ | .windowPutAck _ | .shadowPublishSwap _ | .mmtStep _ | .tdrainRow _ | .tileOpComplete _
  | .sdPageParked _ | .sdPageRecalled _ _ | .sdPageDropped _ _ | .nvmeCompletion _ _ | .nvmeTimeout _
  | .heapgetServe _ _ | .heldContinuationAppend _ _ | .barrierComplete _ | .openingBarrierComplete _
  | .acceptBarrierComplete _ | .rollback _ | .recoveryLimitExpiry _ _ | .fairnessSweep _ | .pendingAgeExchange _
  | .napExpiry _ | .swaysTimeout _ | .swaysComplete _ | .launchAdmit _ _ | .blockPlace _ | .priorityAgeTick _
  | .starvationRelief _ | .staggeredStart _ | .matrixEngineRamp _ | .poolMove _ _ | .poolMoveComplete _
  | .preempt _ | .restore _ | .migration _ _ | .migrationDrain _ | .blockRetire _ | .completionQueueRetry _ _
  | .cqIrqTimeout _ _ | .vaultSensorRead _ _ | .chargingIntervalClose _ | .leaseExpiry _ | .powerThrottleTick _
  | .junctionTrip _ | .hostApertureAccess _ _ _ _ | .lqTailWrite _ _ _ | .lqCtlWrite _ _ _ | .cqHeadWrite _ _ _
  | .cqCtlWrite _ _ _ | .eheadWrite _ _ | .pkglimWrite _ | .opclassTableWrite _ _ | .accountingCounterWrite _ _
  | .foldDriveNqpWrite _ _ _ | .registerWrite _ _ _ | .killContext _ | .resetContext _ | .migrateBlock _ _
  | .resetHeapInstance _ | .createFoldSlot _ _ _ _ _ | .releaseFoldSlot _ | .openWindow _ _ _ _ | .closeWindow _
  | .foldAdminPassThrough _ _ _ _ | .attest _ _ | .raiseFirmwareSecurityVersion | .enterOutboundWindowHandle _ _
  | .deviceReset | .functionLevelReset _ | .ezleyFlitReceive _ _ _ | .ezleyAck _ _ _ | .ezleyReplay _ _
  | .ezleyAudit _ _ | .ezleyPortDown _ | .ezleyPortUp _ | .ezleyGroupWake _ _ | .ezleyGroupDark _ _
  | .ezleyGroupLit _ _ | .junctionHoldRelease _ | .firmwareStagingUpdate => none

/-- The decoder: the instruction of these fields, if its operands are admitted and no unused field is set (R68, R83). -/
def decodeFields (f : Fields) : Except Reject Instr :=
  match build f with
  | .error e => .error e
  | .ok i => if !i.wf then .error .operand else if i.fields == some f then .ok i else .error .unused

/-- The decoder on a 96-bit slot. -/
def decodeWord (w : BitVec 96) : Except Reject Instr := decodeFields (Fields.ofWord w)

/-- Bytes, lowest address first, as a number (R2). -/
def leNat : List Byte → Nat
  | [] => 0
  | b :: bs => b.toNat + 256 * leNat bs

/-- The `n` bytes of a number, lowest address first (R2). -/
def leBytes : Nat → Nat → List Byte
  | 0, _ => []
  | n + 1, v => BitVec.ofNat 8 v :: leBytes n (v / 256)

/-- The decoder on bytes: the instruction of the first twelve and the bytes after them (R62). -/
def decodeBytes (bs : List Byte) : Except Reject (Instr × List Byte) :=
  if bs.length < 12 then .error .length
  else match decodeWord (BitVec.ofNat 96 (leNat (bs.take 12))) with
    | .ok i => .ok (i, bs.drop 12)
    | .error e => .error e

/-- The encoder: the 96-bit word of an instruction. -/
def encode (i : Instr) : Option (BitVec 96) := i.fields.map Fields.word

/-- The encoder in bytes. -/
def encodeBytes (i : Instr) : Option (List Byte) := (encode i).map fun w => leBytes 12 w.toNat

/-- The host's question: the instruction in `w`, its bits above `nbits` taken as 0. -/
def decodeTableWord (nbits w : Nat) : Option Instr :=
  if nbits ≤ 96 then
    match decodeBytes (leBytes 12 (w % 2 ^ nbits)) with
    | .ok (i, _) => some i
    | .error _ => none
  else none

end Sys2Proof
end

