-- ==== Sys2Proof/Machine/Hash.lean ====
section
/-! DEFINITION. The two functions of NIST that the spec names: KMAC128 of SP 800-185 for the TAGs (R101, R460), and SHA3-256
for the digests of attestation (R430). Log 59 says where their text comes from. -/

namespace Sys2Proof.Machine

/-! ### The permutation -/

/-- Twenty-five lanes; lane (x, y) stands at x + 5y. -/
abbrev Sponge := List (BitVec 64)

/-- Lane (x, y), each taken modulo 5. -/
def spongeLane (a : Sponge) (x y : Nat) : BitVec 64 := a.getD (x % 5 + 5 * (y % 5)) 0

/-- The lanes that a function of (x, y) gives. -/
def spongeOf (f : Nat → Nat → BitVec 64) : Sponge := (List.range 25).map fun i => f (i % 5) (i / 5)

/-- The rotation of each lane, lane (0, 0) first. -/
def spongeTurns : List Nat :=
  [0, 1, 62, 28, 27, 36, 44, 6, 55, 20, 3, 10, 43, 25, 39, 41, 45, 15, 21, 8, 18, 2, 61, 56, 14]

/-- The constants of the 24 rounds. -/
def spongeRounds : List (BitVec 64) :=
  [0x0000000000000001, 0x0000000000008082, 0x800000000000808a, 0x8000000080008000, 0x000000000000808b,
   0x0000000080000001, 0x8000000080008081, 0x8000000000008009, 0x000000000000008a, 0x0000000000000088,
   0x0000000080008009, 0x000000008000000a] ++
  [0x000000008000808b, 0x800000000000008b, 0x8000000000008089, 0x8000000000008003, 0x8000000000008002,
   0x8000000000000080, 0x000000000000800a, 0x800000008000000a, 0x8000000080008081, 0x8000000000008080,
   0x0000000080000001, 0x8000000080008008]

/-- One round: the column parities, the rotations with the moves, the row step, the constant. -/
def spongeRound (a : Sponge) (rc : BitVec 64) : Sponge :=
  let col := (List.range 5).map fun x => (List.range 5).foldl (fun v y => v ^^^ spongeLane a x y) 0
  let b := spongeOf fun x y =>
    spongeLane a x y ^^^ col.getD ((x + 4) % 5) 0 ^^^ (col.getD ((x + 1) % 5) 0).rotateLeft 1
  let turned := spongeOf fun x y => (spongeLane b x y).rotateLeft (spongeTurns.getD (x + 5 * y) 0)
  let moved := spongeOf fun x y => spongeLane turned (x + 3 * y) x
  spongeOf fun x y =>
    spongeLane moved x y ^^^ (~~~ spongeLane moved (x + 1) y &&& spongeLane moved (x + 2) y) ^^^
      (if x = 0 ∧ y = 0 then rc else 0)

/-- The 24 rounds. -/
def spongeMix (a : Sponge) : Sponge := spongeRounds.foldl spongeRound a

/-! ### Absorbing bytes -/

/-- The lane that eight bytes make, the lowest first. -/
def spongeWord (bs : List Byte) : BitVec 64 :=
  (bs.take 8).foldr (fun b v => v <<< 8 ||| b.setWidth 64) 0

/-- Bytes with the domain bits and the closing bit, to whole blocks of `rate` bytes. -/
def spongePad (rate : Nat) (domain : Byte) (bs : List Byte) : List Byte :=
  let free := rate - bs.length % rate
  if free = 1 then bs ++ [domain ||| 0x80] else bs ++ domain :: List.replicate (free - 2) 0 ++ [0x80]

/-- `n` blocks of `rate` bytes go into the lanes. -/
def spongeAbsorb (rate : Nat) : Nat → List Byte → Sponge → Sponge
  | 0, _, a => a
  | n + 1, bs, a =>
    let block := bs.take rate
    spongeAbsorb rate n (bs.drop rate) (spongeMix (spongeOf fun x y =>
      spongeLane a x y ^^^ spongeWord (block.drop (8 * (x + 5 * y)))))

/-- The first `n` bytes that the lanes hold, `n` at most 200. -/
def spongeBytes (a : Sponge) (n : Nat) : List Byte :=
  (List.range n).map fun i => (a.getD (i / 8) 0).extractLsb' (8 * (i % 8)) 8

/-- The first `n` bytes, within one block, of a sponge over bytes. -/
def spongeHash (rate : Nat) (domain : Byte) (bs : List Byte) (n : Nat) : List Byte :=
  let padded := spongePad rate domain bs
  spongeBytes (spongeAbsorb rate (padded.length / rate) padded (List.replicate 25 0)) n

/-! ### The two functions -/

/-- The SHA3-256 digest of bytes, 32 bytes (R430). -/
@[irreducible] def sha3 (bs : List Byte) : List Byte := spongeHash 136 0x06 bs 32

/-- A length below 2^16 in bits, in as few bytes as hold it, the highest first. -/
def lengthBytes (n : Nat) : List Byte :=
  if n < 256 then [BitVec.ofNat 8 n] else [BitVec.ofNat 8 (n / 256), BitVec.ofNat 8 n]

/-- A length with the number of its bytes before it. -/
def leftEncode (n : Nat) : List Byte := BitVec.ofNat 8 (lengthBytes n).length :: lengthBytes n

/-- A length with the number of its bytes after it. -/
def rightEncode (n : Nat) : List Byte := lengthBytes n ++ [BitVec.ofNat 8 (lengthBytes n).length]

/-- A byte string with its length in bits before it. -/
def encodeString (bs : List Byte) : List Byte := leftEncode (8 * bs.length) ++ bs

/-- The block width, then the bytes, then zeros to whole blocks. -/
def bytePad (rate : Nat) (bs : List Byte) : List Byte :=
  let all := leftEncode rate ++ bs
  all ++ List.replicate ((rate - all.length % rate) % rate) 0

/-- KMAC128 under a key, over a message, `n` bytes long, with a customization (R460). -/
@[irreducible] def kmac128 (key msg : List Byte) (n : Nat) (custom : List Byte) : List Byte :=
  let name : List Byte := [0x4b, 0x4d, 0x41, 0x43]
  spongeHash 168 0x04
    (bytePad 168 (encodeString name ++ encodeString custom) ++ bytePad 168 (encodeString key) ++ msg ++ rightEncode (8 * n)) n

/-- The customization of every TAG: the ASCII bytes of RYLAS-TAG (R460). -/
def tagCustom : List Byte := [0x52, 0x59, 0x4c, 0x41, 0x53, 0x2d, 0x54, 0x41, 0x47]

/-- The sixteen bytes of R460's message. -/
def tagMessage (index gen ctx kind dev : Nat) : List Byte :=
  leBytes 4 index ++ leBytes 2 (gen % 4096) ++ leBytes 1 ctx ++ leBytes 1 kind ++ leBytes 1 dev ++ List.replicate 7 0

end Sys2Proof.Machine
end

