-- ==== Sys2Proof/Config.lean ====
section
/-! DEFINITION. The free values: constants without a body for what the spec leaves open (log 4). -/

namespace Sys2Proof.Config

/-- Which of `n` old values, or the new one, a too early read of a fixed-latency result returns (R76): the counter of
free values, the word's key, the number of choices. -/
opaque earlyRead : Nat → Nat → Nat → Nat

/-- The f32 code that a vector function gives where R53's bound allows it: function, operand bits, number of codes. -/
opaque ulpChoice : Nat → Nat → Nat → Nat

/-- The 256-bit secret that a device draws at a boot, which nothing can read (R429): the device, the boot. -/
opaque secret : Nat → Nat → BitVec 256

/-- Bytes that the spec leaves open: what they are (a signature, an admin reply), a position, the counter. -/
opaque freeByte : Nat → Nat → Nat → BitVec 8

/-- A word that the spec leaves open: what it is, and the counter. -/
opaque freeWord : Nat → Nat → BitVec 32

/-- A choice that the spec leaves to the device among `n`: what it is, the counter, `n`. -/
opaque choice : Nat → Nat → Nat → Nat

/-- A firmware image's digest and ML-DSA-44 signature pass the boot ROM's checks (R428). -/
opaque imageOk : List (BitVec 8) → Bool

/-- A firmware image's security version (R428). -/
opaque imageVersion : List (BitVec 8) → Nat

/-- The silicon revision that REV reads (R415). -/
opaque revision : BitVec 32

end Sys2Proof.Config
end

