-- ==== Sys2Proof/Machine/Numeric.lean ====
section
/-! DEFINITION. Exact arithmetic: float values, the float formats, rounding, conversion and the float operations
(R34, R36, R45 to R50, R53, R54). -/

namespace Sys2Proof.Machine

/-- The value of a float: a NaN (signalling or quiet), an infinity, or ±man × 2^exp. -/
inductive FVal where
  | nan (sig : Bool)
  | inf (neg : Bool)
  | fin (neg : Bool) (man : Nat) (exp : Int)
  deriving DecidableEq, Repr

/-- FLAGS bits 6:0 (R50). -/
abbrev Flags := BitVec 7

/-- FLAGS.NV. -/
def fNV : Flags := 0x01
/-- FLAGS.DZ. -/
def fDZ : Flags := 0x02
/-- FLAGS.OF. -/
def fOF : Flags := 0x04
/-- FLAGS.UF. -/
def fUF : Flags := 0x08
/-- FLAGS.NX. -/
def fNX : Flags := 0x10
/-- FLAGS.SAT. -/
def fSAT : Flags := 0x20
/-- FLAGS.OLF. -/
def fOLF : Flags := 0x40

/-- Flags when a condition holds. -/
def fIf (b : Bool) (f : Flags) : Flags := if b then f else 0

/-- The special codes of a float format: IEEE 754; a NaN but no infinity (e4m3); all codes finite. -/
inductive FKind where
  | ieee | nanOnly | finite
  deriving DecidableEq, Repr

/-- A float format: exponent and mantissa bits, bias, special codes (R34). -/
structure FFmt where
  eb : Nat
  mb : Nat
  bias : Nat
  kind : FKind
  deriving DecidableEq, Repr

/-- f64 (R34). -/
def ffF64 : FFmt := ⟨11, 52, 1023, .ieee⟩
/-- f32 (R34). -/
def ffF32 : FFmt := ⟨8, 23, 127, .ieee⟩
/-- f16 (R34). -/
def ffF16 : FFmt := ⟨5, 10, 15, .ieee⟩
/-- bf16 (R34). -/
def ffBF16 : FFmt := ⟨8, 7, 127, .ieee⟩
/-- e4m3 (R34). -/
def ffE4M3 : FFmt := ⟨4, 3, 7, .nanOnly⟩
/-- e5m2 (R34). -/
def ffE5M2 : FFmt := ⟨5, 2, 15, .ieee⟩
/-- e3m2 (R34). -/
def ffE3M2 : FFmt := ⟨3, 2, 3, .finite⟩
/-- e2m3 (R34). -/
def ffE2M3 : FFmt := ⟨2, 3, 1, .finite⟩
/-- e2m1 (R34). -/
def ffE2M1 : FFmt := ⟨2, 1, 1, .finite⟩

/-- Bits of a code of the format. -/
def FFmt.width (f : FFmt) : Nat := 1 + f.eb + f.mb

/-- The exponent of the smallest normal. -/
def FFmt.emin (f : FFmt) : Int := 1 - (f.bias : Int)

/-- The exponent of the largest finite value. -/
def FFmt.emax (f : FFmt) : Int :=
  match f.kind with
  | .ieee => (2 ^ f.eb : Nat) - 2 - (f.bias : Int)
  | _ => (2 ^ f.eb : Nat) - 1 - (f.bias : Int)

/-- The significand, with its leading one, of the largest finite value. -/
def FFmt.maxMan (f : FFmt) : Nat :=
  match f.kind with
  | .nanOnly => 2 ^ (f.mb + 1) - 2
  | _ => 2 ^ (f.mb + 1) - 1

/-- The magnitude code of the largest finite value. -/
def FFmt.maxCode (f : FFmt) : Nat :=
  match f.kind with
  | .ieee => (2 ^ f.eb - 1) * 2 ^ f.mb - 1
  | .nanOnly => 2 ^ (f.eb + f.mb) - 2
  | .finite => 2 ^ (f.eb + f.mb) - 1

/-- The sign bit of a format. -/
def FFmt.signBit (f : FFmt) (neg : Bool) : Nat := if neg then 2 ^ (f.eb + f.mb) else 0

/-- The code of ±∞; for a format without infinity, of ± the largest finite value. -/
def FFmt.infCode (f : FFmt) (neg : Bool) : Nat :=
  f.signBit neg + (match f.kind with
    | .ieee => (2 ^ f.eb - 1) * 2 ^ f.mb
    | _ => f.maxCode)

/-- The canonical NaN (R36); a format without NaN has +0 (R48). -/
def FFmt.nanCode (f : FFmt) : Nat :=
  match f.kind with
  | .ieee => (2 ^ f.eb - 1) * 2 ^ f.mb + 2 ^ (f.mb - 1)
  | .nanOnly => 2 ^ (f.eb + f.mb) - 1
  | .finite => 0

/-- The value of a code (R34). -/
def FFmt.decode (f : FFmt) (bits : Nat) : FVal :=
  let neg := bits / 2 ^ (f.eb + f.mb) % 2 == 1
  let e := bits / 2 ^ f.mb % 2 ^ f.eb
  let m := bits % 2 ^ f.mb
  if f.kind = .ieee ∧ e = 2 ^ f.eb - 1 then
    (if m = 0 then .inf neg else .nan (m / 2 ^ (f.mb - 1) % 2 == 0))
  else if f.kind = .nanOnly ∧ e = 2 ^ f.eb - 1 ∧ m = 2 ^ f.mb - 1 then .nan false
  else if e = 0 then .fin neg m (f.emin - f.mb)
  else .fin neg (2 ^ f.mb + m) ((e : Int) - f.bias - f.mb)

/-- How a rounding goes: the resolved mode and the generator's value for sto (R45, R46). -/
structure Rnd where
  mode : RMode
  h : Nat
  deriving DecidableEq, Repr

/-- Rounding to nearest, ties to even. -/
def Rnd.rne : Rnd := ⟨.rne, 0⟩

/-- `m / 2^sh` rounded to an integer magnitude, and whether it was inexact (R45, R46). -/
def roundShift (r : Rnd) (neg : Bool) (m sh : Nat) : Nat × Bool :=
  -- a fraction far below the last place acts as one at 2^-40 of it
  let far := decide (m ≠ 0) && decide (Nat.log2 m + 40 < sh)
  let m := if far then 1 else m
  let sh := if far then 40 else sh
  let q := m / 2 ^ sh
  let rem := m % 2 ^ sh
  let inx := decide (rem ≠ 0)
  let half := 2 ^ sh / 2
  let up : Bool :=
    match r.mode with
    | .rne | .dyn => decide (rem > half) || (decide (rem = half) && inx && decide (q % 2 = 1))
    | .rz => false
    | .rdn => neg && inx
    | .rpl => !neg && inx
    | .rna => inx && decide (rem ≥ half)
    | .sto => inx && decide (rem * 2 ^ 32 / 2 ^ sh > r.h)
  (if up then q + 1 else q, inx)

/-- `man × 2^exp` rounded to a multiple of `2^u`: the multiple and whether it was inexact. -/
def roundAt (r : Rnd) (neg : Bool) (man : Nat) (exp u : Int) : Nat × Bool :=
  if u ≤ exp then (man * 2 ^ (exp - u).toNat, false) else roundShift r neg man (u - exp).toNat

/-- Whether a mode rounds an overflow of this sign to infinity (R48, R49). -/
def Rnd.toInf (r : Rnd) (neg : Bool) : Bool :=
  match r.mode with
  | .rne | .rna | .sto | .dyn => true
  | .rz => false
  | .rdn => neg
  | .rpl => !neg

/-- A finite value rounded to a format: its code and flags (R48, R49). -/
def FFmt.round (f : FFmt) (r : Rnd) (sat : Bool) (neg : Bool) (man : Nat) (exp : Int) : Nat × Flags :=
  if man = 0 then (f.signBit neg, 0)
  else
    let e : Int := Nat.log2 man + exp
    let sign := f.signBit neg
    if e > f.emax + 1 then
      (if sat || f.kind ≠ .ieee then (sign + f.maxCode, fSAT ||| fNX)
       else (if r.toInf neg then f.infCode neg else sign + f.maxCode, fOF ||| fNX))
    else
      -- as if the exponent range were unbounded
      let (q, _) := roundAt r neg man exp (e - f.mb)
      let e' : Int := if q = 2 ^ (f.mb + 1) then e + 1 else e
      let past := decide (e' > f.emax) || (decide (e' = f.emax) && decide (q > f.maxMan) && decide (e' = e))
      if past then
        (if sat || f.kind ≠ .ieee then (sign + f.maxCode, fSAT ||| fNX)
         else (if r.toInf neg then f.infCode neg else sign + f.maxCode, fOF ||| fNX))
      else
        let tiny := decide (e' < f.emin)
        let v : Int := max (e - f.mb) (f.emin - f.mb)
        let (n, inx) := roundAt r neg man exp v
        -- the code of n × 2^v: a carry into the exponent is the next code
        let base := (v - (f.emin - f.mb)).toNat
        let code := base * 2 ^ f.mb + n
        (sign + code, fIf inx fNX ||| fIf (tiny && inx) fUF)

/-- A value converted to a float format (R48). -/
def FFmt.ofVal (f : FFmt) (r : Rnd) (sat : Bool) : FVal → Nat × Flags
  | .nan sig => (f.nanCode, fIf (sig || f.kind == .finite) fNV)
  | .inf neg => (f.infCode neg, fIf (f.kind ≠ .ieee) fSAT)
  | .fin neg man exp => f.round r sat neg man exp

/-- A value converted to an integer between `lo` and `hi` (R48). -/
def intOfVal (r : Rnd) (lo hi : Int) : FVal → Int × Flags
  | .nan _ => (0, fNV)
  | .inf neg => (if neg then lo else hi, fSAT)
  | .fin neg man exp =>
    if man = 0 then (0, 0)
    else if (Nat.log2 man : Int) + exp > 70 then (if neg then lo else hi, fSAT ||| fNX)
    else
      let (q, inx) := roundAt r neg man exp 0
      let v : Int := if neg then -(q : Int) else q
      if v < lo then (lo, fSAT ||| fNX)
      else if v > hi then (hi, fSAT ||| fNX)
      else (v, fIf inx fNX)

/-- An integer as an exact value; its zero is +0. -/
def FVal.ofInt (v : Int) : FVal := .fin (decide (v < 0)) v.natAbs 0

/-- A NaN. -/
def FVal.isNan : FVal → Bool
  | .nan _ => true
  | _ => false

/-- A signalling NaN. -/
def FVal.isSig : FVal → Bool
  | .nan s => s
  | _ => false

/-- An infinity. -/
def FVal.isInf : FVal → Bool
  | .inf _ => true
  | _ => false

/-- A zero. -/
def FVal.isZero : FVal → Bool
  | .fin _ m _ => m == 0
  | _ => false

/-- The sign of a value; a NaN has sign 0 (R36). -/
def FVal.sign : FVal → Bool
  | .nan _ => false
  | .inf n => n
  | .fin n _ _ => n

/-- The value with another sign. -/
def FVal.withSign (neg : Bool) : FVal → FVal
  | .nan s => .nan s
  | .inf _ => .inf neg
  | .fin _ m e => .fin neg m e

/-- The value negated. -/
def FVal.neg (x : FVal) : FVal := x.withSign (!x.sign)

/-- A signed magnitude as an integer at exponent `e`. -/
def fixAt (neg : Bool) (man : Nat) (exp e : Int) : Int :=
  let m : Int := man * 2 ^ (exp - e).toNat
  if neg then -m else m

/-- The sum of two finite values; a zero sum's sign follows IEEE 754 for the mode. -/
def finAdd (mode : RMode) (n1 : Bool) (m1 : Nat) (e1 : Int) (n2 : Bool) (m2 : Nat) (e2 : Int) : FVal :=
  if m1 = 0 ∧ m2 = 0 then .fin (if n1 = n2 then n1 else mode == .rdn) 0 0
  else if m1 = 0 then .fin n2 m2 e2
  else if m2 = 0 then .fin n1 m1 e1
  else
    let e := min e1 e2
    let s := fixAt n1 m1 e1 e + fixAt n2 m2 e2 e
    if s = 0 then .fin (mode == .rdn) 0 0 else .fin (decide (s < 0)) s.natAbs e

/-- NV of the operands: any signalling NaN (R36). -/
def sigFlags (xs : List FVal) : Flags := fIf (xs.any FVal.isSig) fNV

/-- The exact sum (R49). -/
def FVal.add (mode : RMode) (x y : FVal) : FVal × Flags :=
  let f := sigFlags [x, y]
  match x, y with
  | .nan _, _ | _, .nan _ => (.nan false, f)
  | .inf a, .inf b => if a = b then (.inf a, 0) else (.nan false, fNV)
  | .inf a, _ => (.inf a, 0)
  | _, .inf b => (.inf b, 0)
  | .fin n1 m1 e1, .fin n2 m2 e2 => (finAdd mode n1 m1 e1 n2 m2 e2, 0)

/-- The exact product. -/
def FVal.mul (x y : FVal) : FVal × Flags :=
  let f := sigFlags [x, y]
  match x, y with
  | .nan _, _ | _, .nan _ => (.nan false, f)
  | .inf a, .inf b => (.inf (a != b), 0)
  | .inf a, .fin b m _ => if m = 0 then (.nan false, fNV) else (.inf (a != b), 0)
  | .fin a m _, .inf b => if m = 0 then (.nan false, fNV) else (.inf (a != b), 0)
  | .fin a m1 e1, .fin b m2 e2 => (.fin (a != b) (m1 * m2) (e1 + e2), 0)

/-- The exact x × y + z. -/
def FVal.fma (mode : RMode) (x y z : FVal) : FVal × Flags :=
  let (p, f1) := x.mul y
  let (s, f2) := p.add mode z
  (s, f1 ||| f2)

/-- Bits of a quotient or a root beyond any format's precision. -/
def guardBits : Nat := 128

/-- The quotient: exact, or with a last bit below every rounding position that stands for the rest. -/
def FVal.div (x y : FVal) : FVal × Flags :=
  let f := sigFlags [x, y]
  match x, y with
  | .nan _, _ | _, .nan _ => (.nan false, f)
  | .inf _, .inf _ => (.nan false, fNV)
  | .inf a, .fin b _ _ => (.inf (a != b), 0)
  | .fin a _ _, .inf b => (.fin (a != b) 0 0, 0)
  | .fin a m1 e1, .fin b m2 e2 =>
    if m2 = 0 then (if m1 = 0 then (.nan false, fNV) else (.inf (a != b), fDZ))
    else
      let k := Nat.log2 m2 + guardBits
      let n := m1 * 2 ^ k
      let q := n / m2
      (.fin (a != b) (2 * q + (if n % m2 = 0 then 0 else 1)) (e1 - e2 - k - 1), 0)

/-- The integer square root, bit by bit from bit `k` - 1 down. -/
def isqrtAux (n : Nat) : Nat → Nat → Nat
  | 0, r => r
  | k + 1, r => isqrtAux n k (if (r + 2 ^ k) * (r + 2 ^ k) ≤ n then r + 2 ^ k else r)

/-- The integer square root. -/
def isqrt (n : Nat) : Nat := isqrtAux n (Nat.log2 n / 2 + 1) 0

/-- The root: exact, or with a last bit that stands for the rest (R54). -/
def FVal.sqrt (x : FVal) : FVal × Flags :=
  match x with
  | .nan s => (.nan false, fIf s fNV)
  | .inf neg => if neg then (.nan false, fNV) else (.inf false, 0)
  | .fin neg m e =>
    if m = 0 then (.fin neg 0 0, 0)
    else if neg then (.nan false, fNV)
    else
      let odd := e % 2 = 1
      let m := if odd then m * 2 else m
      let e := if odd then e - 1 else e
      let n := m * 2 ^ (2 * guardBits)
      let r := isqrt n
      (.fin false (2 * r + (if r * r = n then 0 else 1)) (e / 2 - guardBits - 1), 0)

/-- x × 2^n (R155). -/
def FVal.scale (x : FVal) (n : Int) : FVal × Flags :=
  match x with
  | .nan s => (.nan false, fIf s fNV)
  | .inf neg => (.inf neg, 0)
  | .fin neg m e => (.fin neg m (e + n), 0)

/-- An order of two values that are no NaN: −1, 0, 1; the zeros are equal. -/
def FVal.cmp (x y : FVal) : Int :=
  match x, y with
  | .inf a, .inf b => if a = b then 0 else if a then -1 else 1
  | .inf a, _ => if a then -1 else 1
  | _, .inf b => if b then 1 else -1
  | .fin n1 m1 e1, .fin n2 m2 e2 =>
    let e := min e1 e2
    let d := fixAt n1 m1 e1 e - fixAt n2 m2 e2 e
    if d < 0 then -1 else if d > 0 then 1 else 0
  | _, _ => 0

/-- The lesser or the greater operand, −0 below +0; a NaN loses to a number (R151). -/
def FVal.minmax (wantMax : Bool) (x y : FVal) : FVal × Flags :=
  let f := sigFlags [x, y]
  match x.isNan, y.isNan with
  | true, true => (.nan false, f)
  | true, false => (y, f)
  | false, true => (x, f)
  | false, false =>
    let c := x.cmp y
    let xLess := decide (c < 0) || (decide (c = 0) && x.sign)
    (if xLess != wantMax then x else y, f)

/-- The integral value of a finite number under a mode, and whether it differs (R154). -/
def FVal.rint (r : Rnd) (x : FVal) : FVal × Bool :=
  match x with
  | .fin neg m e =>
    if 0 ≤ e then (x, false)
    else
      let (q, inx) := roundAt r neg m e 0
      (.fin neg q 0, inx)
  | _ => (x, false)

/-- The exponent of the leading bit of a magnitude. -/
def topExp (man : Nat) (exp : Int) : Int := Nat.log2 man + exp

/-- The generator of sto and of dropout (R278). -/
def gen (row col : Nat) (lo hi : Word) : Word :=
  let h0 : Word := (BitVec.ofNat 32 (row * 65536 + col) ^^^ lo) ^^^ hi
  let h1 := (h0 ^^^ (h0 >>> 16)) * 0x85EBCA6B#32
  let h2 := (h1 ^^^ (h1 >>> 13)) * 0xC2B2AE35#32
  h2 ^^^ (h2 >>> 16)

end Sys2Proof.Machine
end

