-- ==== Sys2Proof/Machine/BlockFormats.lean ====
section
/-! DEFINITION. The storage formats and the block formats: widths, decoding of an element, encoding of a block (R34 to
R44, R47, R48). -/

namespace Sys2Proof.Machine

/-- Bits of an element of a storage format, by code; 0 for raw and for a reserved code (R34, R38). -/
def fmtWidth : Nat → Nat
  | 1 => 64 | 2 => 32 | 3 => 16 | 4 => 16 | 5 => 8 | 6 => 8 | 7 => 6 | 8 => 6 | 9 => 4 | 10 => 8 | 11 => 8 | 12 => 4
  | 13 => 4 | 14 => 8 | 15 => 8 | 16 => 6 | 17 => 6 | 18 => 4 | 19 => 8 | 20 => 8 | 21 => 6 | 22 => 4 | 23 => 16
  | 24 => 2 | _ => 0

/-- Codes 25 to 63 are reserved (R35). -/
def fmtReserved (c : Nat) : Bool := decide (c ≥ 25)

/-- A block format (R38). -/
def fmtBlock (c : Nat) : Bool := (decide (14 ≤ c) && decide (c ≤ 22)) || c == 24

/-- An MX format (R40). -/
def fmtMx (c : Nat) : Bool := decide (14 ≤ c) && decide (c ≤ 19)

/-- A DX format (R42). -/
def fmtDx (c : Nat) : Bool := decide (20 ≤ c) && decide (c ≤ 22)

/-- The float format of a plain code or of an MX code's elements (R34, R40). -/
def fmtFloat : Nat → Option FFmt
  | 1 => some ffF64 | 2 => some ffF32 | 3 => some ffF16 | 4 => some ffBF16
  | 5 | 14 => some ffE4M3 | 6 | 15 => some ffE5M2 | 7 | 16 => some ffE3M2 | 8 | 17 => some ffE2M3
  | 9 | 18 => some ffE2M1 | _ => none

/-- An integer format: bits and signedness (R34). -/
def fmtInt : Nat → Option (Nat × Bool)
  | 10 => some (8, true) | 11 => some (8, false) | 12 => some (4, true) | 13 => some (4, false)
  | 23 => some (16, true) | _ => none

/-- `w` bits as a two's complement or unsigned integer. -/
def intOfBits (w : Nat) (signed : Bool) (b : Nat) : Int :=
  let v := b % 2 ^ w
  if signed && decide (v ≥ 2 ^ (w - 1)) then (v : Int) - 2 ^ w else v

/-- The low `w` bits of an integer. -/
def bitsOfInt (w : Nat) (v : Int) : Nat := (v % 2 ^ w).toNat

/-- Least and greatest value of a `w`-bit integer type. -/
def intBounds (w : Nat) (signed : Bool) : Int × Int :=
  if signed then (-(2 ^ (w - 1) : Nat), (2 ^ (w - 1) : Nat) - 1) else (0, (2 ^ w : Nat) - 1)

/-- Bytes of a scale entry (R39). -/
def fmtScaleBytes (c : Nat) : Nat := if fmtMx c then 1 else 2

/-- Magnitude bits of a DX format (R42). -/
def dxM (c : Nat) : Nat := if c = 20 then 6 else if c = 21 then 4 else 2

/-- The exponent of the top of an MX format's elements (R41). -/
def mxEmax (c : Nat) : Int :=
  match c with
  | 14 => 8 | 15 => 15 | 16 => 4 | 17 => 2 | 18 => 2 | _ => 0

/-- The exact value of an element, with its block's scale entry (R40, R42, R44). -/
def elemVal (c scale bits : Nat) : FVal :=
  if fmtMx c then
    let k := scale % 256
    if k = 255 then .nan false
    else
      let v : FVal := match fmtFloat c with
        | some f => f.decode (bits % 2 ^ f.width)
        | none => let n := intOfBits 8 true bits; .fin (decide (n < 0)) n.natAbs (-6)
      match v with
      | .fin n m e => .fin n m (e + k - 127)
      | w => w
  else if fmtDx c then
    let m := dxM c
    let lo := scale % 256
    let hi := scale / 256 % 256
    if lo = 255 ∨ hi = 255 then .nan false
    else
      let e := if bits / 2 ^ m % 2 = 1 then hi else lo
      .fin (bits / 2 ^ (m + 1) % 2 == 1) (bits % 2 ^ m) ((e : Int) - 127 - ((m : Int) - 1))
  else if c = 24 then
    match ffF16.decode (scale % 65536), bits % 4 with
    | .nan _, _ => .nan false
    | v, 1 => v
    | v, 3 => v.neg
    | _, _ => .fin false 0 0
  else match fmtFloat c with
    | some f => f.decode (bits % 2 ^ f.width)
    | none => match fmtInt c with
      | some (w, s) => FVal.ofInt (intOfBits w s bits)
      | none => .fin false 0 0

/-- A value converted to a plain storage format, integers included (R48). -/
def elemOfVal (c : Nat) (r : Rnd) (sat : Bool) (v : FVal) : Nat × Flags :=
  match fmtFloat c with
  | some f => f.ofVal r sat v
  | none => match fmtInt c with
    | some (w, s) =>
      let (lo, hi) := intBounds w s
      let (n, fl) := intOfVal r lo hi v
      (bitsOfInt w n, fl)
    | none => (0, 0)

/-- The exponent of the largest nonzero magnitude of a list; none when all are zero. -/
def maxTop : List FVal → Option Int
  | [] => none
  | v :: vs =>
    match v, maxTop vs with
    | .fin _ m e, r =>
      if m = 0 then r else match r with
        | none => some (topExp m e)
        | some t => some (max t (topExp m e))
    | _, r => r

/-- Infinities replaced by the largest finite f32, with SAT (R41, R43). -/
def capInf (vs : List FVal) : List FVal × Flags :=
  (vs.map fun v => match v with
    | .inf n => .fin n ffF32.maxMan (ffF32.emax - 23)
    | w => w, fIf (vs.any FVal.isInf) fSAT)

/-- An encoded block: the scale entry, the 32 codes and the flags. -/
structure BlockCode where
  scale : Nat
  codes : List Nat
  flags : Flags
  deriving DecidableEq, Repr

/-- One MX element under scale code `k`; one beyond the format's largest finite value, 127/64 for mxs8, is clamped to it with
its sign (R41). -/
def mxElem (c : Nat) (k : Int) (r : Rnd) (v : FVal) : Nat × Flags :=
  let x := match v with
    | .fin n m e => FVal.fin n m (e - (k - 127))
    | w => w
  let (b, fl) : Nat × Flags := match fmtFloat c with
    | some f => f.ofVal r true x
    | none =>
      let y := match x with
        | .fin n m e => FVal.fin n m (e + 6)
        | w => w
      let (n, fl) := intOfVal r (-127) 127 y
      (bitsOfInt 8 n, fl)
  (b, fl &&& ~~~fSAT)

/-- 32 values encoded as an MX block; `r i` rounds element `i` (R41). -/
def mxEncode (c : Nat) (r : Nat → Rnd) (vs : List FVal) : BlockCode :=
  if vs.any FVal.isNan then ⟨255, vs.map fun _ => 0, sigFlags vs⟩
  else
    let (xs, f0) := capInf vs
    match maxTop xs with
    | none =>
      ⟨0, xs.map fun v => match fmtFloat c with
        | some f => f.signBit v.sign
        | none => 0, f0⟩
    | some t =>
      let k : Int := max 0 (min 254 (t - mxEmax c + 127))
      let es := xs.zipIdx.map fun p => mxElem c k (r p.2) p.1
      ⟨k.toNat, es.map Prod.fst, es.foldl (fun a p => a ||| p.2) f0⟩

/-- One DX element (R43). -/
def dxElem (m : Nat) (hi lo : Int) (r : Rnd) (v : FVal) : Nat × Flags :=
  match v with
  | .fin n man e =>
    let low := decide (man = 0) || decide (topExp man e < lo - 126)
    let sel := !low
    let ex := if low then lo else hi
    let u : Int := ex - 127 - ((m : Int) - 1)
    let (q, _) := roundAt r n man e u
    let (sel, q) := if !sel && decide (q = 2 ^ m) then (true, 1) else (sel, q)
    let q := if sel && decide (q ≥ 2 ^ m) then 2 ^ m - 1 else q
    let us : Int := (if sel then hi else lo) - 127 - ((m : Int) - 1)
    let same := decide (FVal.cmp (.fin false q us) (.fin false man e) = 0)
    (q + (if sel then 2 ^ m else 0) + (if n then 2 ^ (m + 1) else 0),
     fIf (!same) fNX ||| fIf (decide (man ≠ 0) && decide (q = 0)) fUF)
  | _ => (0, 0)

/-- 32 values encoded as a DX block; `r i` rounds element `i` (R43). -/
def dxEncode (c : Nat) (r : Nat → Rnd) (vs : List FVal) : BlockCode :=
  let m := dxM c
  if vs.any FVal.isNan then ⟨0xFFFF, vs.map fun _ => 0, sigFlags vs⟩
  else
    let (xs, f0) := capInf vs
    let hi : Int := match maxTop xs with
      | none => m
      | some t => max (t + 127) m
    let lo := hi - m
    let es := xs.zipIdx.map fun p => dxElem m hi lo (r p.2) p.1
    ⟨hi.toNat * 256 + lo.toNat, es.map Prod.fst, es.foldl (fun a p => a ||| p.2) f0⟩

/-- One ternary element under an f16 scale that is no NaN (R44). -/
def t2Elem (s : FVal) (r : Rnd) (v : FVal) : Nat × Flags :=
  let one (neg : Bool) : Nat := if neg then 3 else 1
  let sg := v.sign != s.sign
  match v, s with
  | .nan _, _ => (0, fNV)
  | .inf _, .inf _ => (one sg, 0)
  | .inf _, _ => (one sg, fSAT ||| fNX)
  | .fin n m e, .inf _ => let _ := (n, e); if m = 0 then (0, 0) else (0, fNX)
  | .fin _ m _, .fin _ sm _ =>
    if m = 0 then (0, 0)
    else if sm = 0 then (one sg, fNX)
    else
      let (q, _) := FVal.div v s
      let (k, _) := intOfVal r (-1) 1 q
      let dec : FVal := if k = 0 then .fin false 0 0 else if k < 0 then s.neg else s
      (if k = 0 then 0 else one (decide (k < 0)), fIf (decide (dec.cmp v ≠ 0)) fNX)
  | _, _ => (0, 0)

/-- 32 values encoded as a t2 block under an f16 scale (R44). -/
def t2Encode (scale : Nat) (r : Nat → Rnd) (vs : List FVal) : BlockCode :=
  match ffF16.decode (scale % 65536) with
  | .nan s => ⟨scale, vs.map fun _ => 0, fIf s fNV⟩
  | s =>
    let es := vs.zipIdx.map fun p => t2Elem s (r p.2) p.1
    ⟨scale, es.map Prod.fst, es.foldl (fun a p => a ||| p.2) 0⟩

/-- 32 values encoded as a block of a block format; `scale` is used by t2 alone. -/
def blockEncode (c scale : Nat) (r : Nat → Rnd) (vs : List FVal) : BlockCode :=
  if fmtMx c then mxEncode c r vs else if fmtDx c then dxEncode c r vs else t2Encode scale r vs

/-- Elements packed in a region, element 0 lowest (R37). -/
def packElems (w : Nat) : List Nat → Nat
  | [] => 0
  | e :: es => e % 2 ^ w + 2 ^ w * packElems w es

/-- The exponent U of R57 for a plain format; block formats take it from their scale. -/
def suspectU (c scale : Nat) : Int :=
  if fmtMx c then (scale % 256 : Nat) - 127 + mxEmax c + 1
  else if fmtDx c then ((scale / 256 % 256 : Nat) : Int) - 126
  else match c with
    | 24 => match ffF16.decode (scale % 65536) with
      | .fin _ m e => if m = 0 then -1000 else topExp m e + 1
      | _ => 0
    | 3 => 16 | 4 => 128 | 5 => 9 | 6 => 16 | 7 => 5 | _ => 3

end Sys2Proof.Machine
end

