-- ==== Sys2Proof/Machine/Tab.lean ====
section
/-! DEFINITION. Tables: sparse data by a numeric key, held as a list with strictly rising keys. -/

namespace Sys2Proof.Machine

/-- A table: pairs of a key and its entry, keys strictly rising. -/
abbrev Tab (α : Type) : Type := List (Nat × α)

/-- The entry of key `k`: the first pair with that key. -/
def Tab.find {α : Type} : Tab α → Nat → Option α
  | [], _ => none
  | (j, v) :: m, k => if j = k then some v else Tab.find m k

/-- The table without key `k`. -/
def Tab.del {α : Type} : Tab α → Nat → Tab α
  | [], _ => []
  | (j, v) :: m, k => if j = k then Tab.del m k else (j, v) :: Tab.del m k

/-- Places a pair before the first larger key. -/
def Tab.ins {α : Type} : Tab α → Nat → α → Tab α
  | [], k, v => [(k, v)]
  | (j, w) :: m, k, v => if k < j then (k, v) :: (j, w) :: m else (j, w) :: Tab.ins m k v

/-- The table with `v` at key `k`. -/
def Tab.put {α : Type} (m : Tab α) (k : Nat) (v : α) : Tab α := Tab.ins (Tab.del m k) k v

/-- The entry of key `k`, `d` when the table lists none. -/
def Tab.get {α : Type} (d : α) (m : Tab α) (k : Nat) : α :=
  match Tab.find m k with
  | some v => v
  | none => d

/-- The table that reads `v` at key `k`; an entry equal to the default `d` is not listed. -/
def Tab.set {α : Type} [DecidableEq α] (d : α) (m : Tab α) (k : Nat) (v : α) : Tab α :=
  if v = d then Tab.del m k else Tab.put m k v

/-- Key `k` is listed. -/
def Tab.has {α : Type} (m : Tab α) (k : Nat) : Bool := (Tab.find m k).isSome

/-- The listed keys. -/
def Tab.keys {α : Type} (m : Tab α) : List Nat := List.map (fun (p : Nat × α) => p.1) m

/-- The listed entries. -/
def Tab.vals {α : Type} (m : Tab α) : List α := List.map (fun (p : Nat × α) => p.2) m

/-- The table with each entry changed by `f` of its key and entry. -/
def Tab.mapVals {α β : Type} (m : Tab α) (f : Nat → α → β) : Tab β := List.map (fun (p : Nat × α) => (p.1, f p.1 p.2)) m

/-- The table with key `k`'s entry, if any, changed by `f`. -/
def Tab.upd {α : Type} (m : Tab α) (k : Nat) (f : α → α) : Tab α :=
  match Tab.find m k with
  | some v => Tab.put m k (f v)
  | none => m

/-- The pairs whose key and entry satisfy `p`. -/
def Tab.sub {α : Type} (m : Tab α) (p : Nat → α → Bool) : Tab α := List.filter (fun (q : Nat × α) => p q.1 q.2) m

/-- The least key from 1 on that the table does not list, or the number of keys plus one. -/
def Tab.freeKey {α : Type} (m : Tab α) : Nat :=
  ((List.range (m.length + 1)).find? fun k => !Tab.has m (k + 1)).getD m.length + 1

/-- Keys strictly rise. -/
def Tab.sorted {α : Type} : Tab α → Bool
  | [] => true
  | [_] => true
  | (j, _) :: (k, w) :: m => decide (j < k) && Tab.sorted ((k, w) :: m)

/-- Keys strictly rise and no entry is the default. -/
def Tab.wf {α : Type} [DecidableEq α] (d : α) (m : Tab α) : Bool :=
  Tab.sorted m && List.all m fun p => decide (p.2 ≠ d)

end Sys2Proof.Machine
end

