-- ==== Sys2Proof/Machine/State.lean ====
section
/-! DEFINITION. The state of the device as plain data, what can stop a step, and the state right after reset. Every
register and table of spec/ has one home here; INVENTORY.md lists them with their rules and reset values. -/

namespace Sys2Proof.Machine

/-- Why a step ends in a fault of the model. -/
inductive Fault where
  /-- Raised by every instruction's meaning when the state holds no wave that issues it (no `cur`, or its wave is not
  in the state): no state of the hardware issues an instruction without a wave. Safe: the model stops where the
  hardware has nothing to do. -/
  | noWave
  deriving DecidableEq, Repr

/-- Why a step is refused. -/
inductive Refusal where
  /-- Raised by a dispatch arm of an instruction without a meaning yet. Safe: nothing can be proved of its effect. -/
  | notModelled (mnemonic : String)
  deriving DecidableEq, Repr

/-- The fault causes of R366. -/
inductive Cause where
  | illegalInstruction | illegalLine | branchTarget | uniformity | intDivideZero | numericArmed | registerRange | poison
  | misaligned | translation | permission | format | bufferPermission | parkedPage | capability | overwrite | queue
  | spawnDepth | recoveryExhausted | recoveryNesting | frameTrap | tileConfig | software | breakpoint | uncorrectable
  | privilege
  deriving DecidableEq, Repr

/-- A bank of the trap registers (R365). -/
structure TrapBank where
  cause : Word
  addr : DWord
  mask : Mask
  /-- TEPC of each lane, 0 when not listed. -/
  epc : Tab Ctr
  deriving DecidableEq, Repr

/-- The trap registers of a wave (R365). -/
structure TrapRegs where
  level : Nat
  a : TrapBank
  b : TrapBank
  vec : DWord
  save : DWord
  deriving DecidableEq, Repr

/-- A configured queue slot: base register and depth (R98). -/
structure QSlot where
  base : Nat
  depth : Nat
  deriving DecidableEq, Repr

/-- One lane's FIFO (R98, R334); `held` counts the positions popped in an open scope and not yet free (R292), `pushed`
the entries that the yokemate pushed at each depth (R387). -/
structure Fifo where
  head : Nat
  count : Nat
  held : Nat
  pushed : Tab Nat
  deriving DecidableEq, Repr

/-- A fault that a wave owes (R459). -/
structure OwedFault where
  cause : Cause
  addr : DWord
  mask : Mask
  /-- The trap level at which it arose. -/
  level : Nat
  /-- DEF of TCAUSE: a deferred fault (R233). -/
  deferred : Bool
  /-- The number of open scopes when its instruction issued. -/
  depth : Nat
  deriving DecidableEq, Repr

/-- A thread's reservation (R218, R243): the granule in global memory (a DRAM line, or a host line at 2^40 and up) or in
the space `a` or `s` of its block. -/
structure Resv where
  space : Space
  granule : Nat
  /-- The number of open scopes when its LR issued, as commits have lowered it (R244). -/
  depth : Nat
  deriving DecidableEq, Repr

/-- What a whole wave waits for (R25). -/
inductive Wait where
  /-- A block or group barrier, until its generation differs from the one arrived at (R405). -/
  | barrier (b : BarrierId) (gen : Nat)
  /-- The opening barrier of a scope (R375). -/
  | opening
  /-- The accept barrier of a scope (R386). -/
  | accept
  deriving DecidableEq, Repr

/-- A path in the counter wait of R404. -/
structure CWait where
  pc : Ctr
  lanes : Mask
  /-- The counter record's location, or the window's index plus 2^64. -/
  place : Nat
  /-- FN of the CWAIT. -/
  fn : Nat
  bound : Nat
  /-- The condition held at some state since the wait began. -/
  met : Bool
  deriving DecidableEq, Repr

/-- Recovery state that each wave keeps (R372). -/
structure ScopeSave where
  flags : Word
  copies : Nat
  deriving DecidableEq, Repr

/-- One wave (R90 to R117). -/
structure Wave where
  handle : Word
  slot : Nat
  ctx : Nat
  block : Nat
  /-- WAVE_IN_BLOCK: 32 and up for a yokemate (R112). -/
  wib : Nat
  foot : Nat
  /-- Register words, keyed register × 32 + lane, 0 when not listed. -/
  regs : Tab Word
  /-- P, E, X bits of each register (R91), and the lanes whose check bits fail (R92), 0 when not listed. -/
  pend : Tab Mask
  expt : Tab Mask
  pois : Tab Mask
  ecc : Tab Mask
  /-- PC of each lane (R94), 0 when not listed. -/
  pcs : Tab Ctr
  live : Mask
  fcount : BitVec 16
  lastA : Ctr
  lastB : Ctr
  flags : Word
  trap : TrapRegs
  dispatch : Bool
  /-- FSAVE and CSAVE of each open frame. -/
  saves : Tab ScopeSave
  /-- TCFG versions, the all-zero configuration when not listed (R111). -/
  tcfgs : Tab (BitVec 128)
  tcur : Nat
  queues : Tab QSlot
  /-- FIFOs, keyed slot × 32 + lane. -/
  fifos : Tab Fifo
  /-- Copy-mover arrival count (R255). -/
  copies : Nat
  /-- Parked by a switch marker (R75). -/
  parked : Bool
  /-- Cycles of the nap left (R178). -/
  nap : Nat
  owed : List OwedFault
  /-- Reservations by lane. -/
  resv : Tab Resv
  /-- The operand prefetch queue, oldest first (R96). -/
  prefetch : List Nat
  /-- Destinations of the last eight instructions, newest first: the forwarding window (R95, R97). -/
  recent : List (List Nat)
  /-- Issue positions of each lane (R76). -/
  ipos : Tab Nat
  /-- Old values within a fixed latency: per word, each value with the position at which the new one is sure (R76). -/
  window : Tab (List (Word × Nat))
  /-- Flags that instructions of a latency above 1 set: the bits, a lane of the path, and its position at which they are
  sure (R76). -/
  flagWin : List (Word × Nat × Nat)
  wait : Option Wait
  cwaits : List CWait
  /-- Counters of PHASE.both instructions whose publish is captured and whose adopt waits (R245). -/
  phased : List Ctr
  /-- The counter of an adopt that waits and holds the wave (R213, R245). -/
  adopting : Option Ctr
  /-- The name of the wave's last issue, 0 before its first (R326). -/
  turn : Nat
  /-- Lanes whose last attempt to issue stalled. -/
  stalled : Mask
  /-- Lanes that have passed the checks of their current line (R64). -/
  lineOk : Mask
  /-- Lanes whose next issue is a first issue from an entry point or vector, checked against TGT (R66). -/
  entering : Mask
  deriving DecidableEq, Repr

/-- The states of a block (R23). -/
inductive BlockState where
  | offered | starting | running | saved | moving | draining | retired
  deriving DecidableEq, Repr

/-- A recovery frame (R372). -/
structure Frame where
  next : Ctr
  fmask : Word
  limit : Nat
  count : Nat
  rollbacks : Nat
  rank : Nat
  sit : Bool
  skip : Bool
  defer : Bool
  /-- Waves of the block that have executed an ELSEBY or ELSEERR since the dispatch (R384). -/
  served : Bool
  rbase : Nat
  deriving DecidableEq, Repr

/-- A byte of an L1 line as the core holds it: value, who dirtied it, and the holder with its HDEPTH (R197, R462). -/
structure L1Byte where
  val : Byte
  /-- The context and launch that dirtied it, when dirty (R195). -/
  dirty : Option (Nat × Nat)
  /-- The holding block and HDEPTH, when held. -/
  holder : Option (Nat × Nat)
  deriving DecidableEq, Repr

/-- The location that a pentimento record restores (R202, R377, R378). -/
inductive RecLoc where
  | reg (wave reg lane : Nat)
  | fifo (wave q : Nat)
  | scratch (word : Nat)
  | slot (n : Nat)
  | granule (owner : Nat) (sp : Space) (seg : Nat)
  | acc (seg : Nat)
  | line (core key : Nat)
  | home (line : Nat)
  deriving DecidableEq, Repr

/-- The prior value that a record keeps. -/
inductive RecVal where
  | reg (v : Word) (p e x : Bool)
  | fifo (lanes : List Fifo)
  | scratch (v : Word) (fdt : Option Nat)
  /-- With the values that other waves may still see (R109). -/
  | slot (v : BitVec 128) (old : List (Nat × BitVec 128))
  | granule (bytes : List Byte) (fdt : Nat)
  /-- With the row's checksum and its key, and the tile's status. -/
  | acc (bytes : List Byte) (row : Nat) (sum : Word) (status : Option (Nat × Word))
  | line (bytes : Tab L1Byte)
  | home (bytes : Tab Byte)
  deriving DecidableEq, Repr

/-- A pentimento record (R202, R377 to R381). -/
structure PRec where
  depth : Nat
  loc : RecLoc
  val : RecVal
  kept : Bool
  spilled : Bool
  /-- The places of its bytes in the spill area (R203). -/
  at_ : List Nat
  /-- The check code of the stored record fails (R383). -/
  broken : Bool
  deriving DecidableEq, Repr

/-- A failure of a scope that waits for its rollback: the depth, RCAUSE, and the cycle of its core in which it arose (R382). -/
structure Failing where
  depth : Nat
  rcause : Word
  cycle : Nat
  deriving DecidableEq, Repr

/-- The operands with which a wave arrived at the opening barrier (R375). -/
structure OpenArg where
  next : Ctr
  fmask : Word
  limit : Nat
  deriving DecidableEq, Repr

/-- Block-barrier state (R405). -/
structure Barrier where
  arrived : List Nat
  gen : Nat
  deriving DecidableEq, Repr

/-- A heap entry that a HEAPGET of an open scope was answered with (R312). -/
structure Taken where
  depth : Nat
  inst : Nat
  key : Nat
  val : Nat
  deriving DecidableEq, Repr

/-- The recovery state of a block (R372 to R394). -/
structure Recovery where
  frames : List Frame
  recs : List PRec
  rcause : Word
  broken : Bool
  held : Bool
  spilled : Bool
  spill : Nat
  opening : Tab OpenArg
  accepting : List Nat
  failing : Option Failing
  sitting : Option Nat
  taken : List Taken
  /-- The held bytes while the block is Saved or Moving, by line (R332). -/
  away : Tab (Tab L1Byte)
  /-- Where those bytes of each line are in the spill area. -/
  awayAt : Tab (List Nat)
  deriving DecidableEq, Repr

/-- A space's bytes, granule FDT indices and poisoned 8-byte words (R185, R199). -/
structure Buffer where
  size : Nat
  bytes : Tab Byte
  fdt : Tab Nat
  /-- Bad 8-byte words: `true` uncorrectable, `false` poisoned. -/
  pois : Tab Bool
  deriving DecidableEq, Repr

/-- One block (R13 to R24). -/
structure Block where
  launch : Nat
  ctx : Nat
  lin : Nat
  x : Nat
  y : Nat
  z : Nat
  spawned : Bool
  /-- For a child: the parent's block and the number of scopes open there when it was offered (R302). -/
  parent : Option (Nat × Nat)
  st : BlockState
  core : Nat
  prefer : Option Nat
  /-- Turn serial of its offer and of its placement. -/
  offeredAt : Nat
  placedAt : Nat
  /-- Microseconds of this offer, microseconds of every offer, and the steps by which they have raised its priority
  (R317, R323). -/
  waited : Nat
  age : Nat
  ticks : Nat
  /-- The die on which it is offered (R318). -/
  die : Nat
  /-- The core, or first core of a cluster, from which victims leave for it (R331). -/
  claim : Option Nat
  /-- Core and failing test pairs already counted as refusals (R323). -/
  refused : List (Nat × Nat)
  gang : Option Nat
  spawnDepth : Nat
  parentCtr : DWord
  heat : Nat
  nwaves : Nat
  foot : Nat
  entry : Ctr
  args : List Word
  /-- WAVE_H of the waves that live, with WAVE_IN_BLOCK. -/
  waves : List Nat
  frames : Tab (BitVec 128)
  /-- Frame slots as they were before writes that no block barrier has followed, newest first: writer and value, by
  slot (R109). -/
  frameOld : Tab (List (Nat × BitVec 128))
  /-- Free-slot counters, 4 when not listed (R262). -/
  slots : Tab Nat
  barC : Barrier
  barY : Barrier
  s : Buffer
  /-- The granules of its scratch, way × 16 + position (R196). -/
  granules : List Nat
  w : Buffer
  a : Buffer
  c : Buffer
  tiles : Tab Word
  sums : Tab Word
  rcv : Recovery
  /-- Position of the image in device DRAM while Saved, its bytes, and the lease it held (R332, R333). -/
  image : Option (Nat × Nat)
  imageLease : Nat
  imageCls : Nat
  arrived : Bool
  /-- The core to which the supervisor asks for it to be migrated (R337). -/
  want : Option Nat
  /-- The last name given when it began to drain: its implicit publish and every earlier one of its core (R220). -/
  drained : Nat
  deriving DecidableEq, Repr

/-- The fields of an LPB (R299). -/
structure Lpb where
  version : Nat
  flags : Nat
  entry : Nat
  yokeEntry : Nat
  gx : Nat
  gy : Nat
  gz : Nat
  waves : Nat
  regs : Nat
  scratch : Nat
  wbuf : Nat
  abuf : Nat
  cbuf : Nat
  spillBase : Nat
  spillSize : Nat
  priority : Nat
  opclass : Nat
  heatClass : Nat
  rdepth : Nat
  args : Nat
  groups : Nat
  groupCount : Nat
  yokeDepth : Nat
  heap : Nat
  yokeRegs : Nat
  spawnDepth : Nat
  blockCtr : Nat
  cq : Nat
  tvec : Nat
  tsave : Nat
  rlimit : Nat
  leaseUs : Nat
  reserved : Bool
  deriving DecidableEq, Repr

/-- A group of a launch (R359, R360, R405). -/
structure Group where
  members : List Nat
  tag : Option Nat
  arrived : List Nat
  gen : Nat
  /-- Members that have retired count as arrived at every later barrier. -/
  gone : List Nat
  deriving DecidableEq, Repr

/-- An error as a token or an entry reports it: class, kind, unit, address (R251, R304). -/
structure Err where
  cls : Nat
  kind : Nat
  unit : Nat
  addr : Nat
  detail : Nat
  deriving DecidableEq, Repr

/-- An admitted launch (R15, R304, R305). -/
structure Launch where
  ctx : Nat
  q : Nat
  ident : Nat
  lpb : Lpb
  groups : List Group
  left : Nat
  err : Option Err
  ndi : Nat
  nprog : Nat
  nlink : Nat
  lease : Nat
  leaseCls : Nat
  /-- Cluster in whose pool the lease runs. -/
  leasePool : Nat
  /-- The continuation's preferred core. -/
  prefer : Option Nat
  /-- A block of it has been placed. -/
  placed : Bool
  deriving DecidableEq, Repr

/-- An L1 line (R197, R215, R462). -/
structure L1Line where
  bytes : Tab L1Byte
  /-- Poisoned 32-byte words (R188). -/
  pois : BitVec 4
  /-- 8-byte words that an uncorrectable error of the L1 struck (R188, R196). -/
  bad : BitVec 16
  read : Bool
  used : Nat
  /-- The way that it is in, and the cache policy of its last access (R71, R196). -/
  way : Nat
  cp : Nat
  /-- The line's held bytes are in their blocks' spill areas, at these places for each block (R203). -/
  out : Bool
  outAt : Tab (List Nat)
  deriving DecidableEq, Repr

/-- Whose change at the homes it is: a thread's, a core's write-back, or any other agent's (R218, R244). -/
inductive Author where
  | other
  | thread (k l : Nat)
  | core (n : Nat)
  deriving DecidableEq, Repr

/-- A SWAYS in progress (R249). -/
structure Sways where
  wave : Nat
  dst : Nat
  lanes : Mask
  ways : BitVec 16
  cycles : Nat
  depth : Nat
  /-- TLEVEL of its wave at its issue (R459). -/
  level : Nat
  deriving DecidableEq, Repr

/-- The accounting counters of a core (R412). -/
structure CoreAcct where
  energy : Nat
  issue : Nat
  stall : Nat
  corr : Nat
  uncorr : Nat
  poison : Nat
  deriving DecidableEq, Repr

/-- One core. -/
structure Core where
  cycles : Nat
  /-- BANK_GRANTS in force, and the ration last written (R97, R116, R423). -/
  grants : Nat
  written : Nat
  /-- Ways of the L1 that are scratch (R196). -/
  scratch : BitVec 16
  /-- L1 lines, keyed context × 2^41 + line number (R197). -/
  l1 : Tab L1Line
  /-- Copies of instruction lines, keyed context × 2^42 + line number (R64, R67). -/
  icache : Tab (BitVec 512)
  /-- Active waves. -/
  active : List Nat
  /-- Instructions that each active wave has issued since it entered the active set. -/
  issued : Tab Nat
  /-- Pending waves with the cycles each has been ready there (R27). -/
  pending : List (Nat × Nat)
  /-- SWAYS in progress, oldest first (R249). -/
  sways : List Sways
  ramp : Nat
  /-- Cycles the matrix engine has run since its start (R324). -/
  started : Nat
  wake : Nat
  capped : Bool
  /-- Energy units of the open charging interval, total and by block with its context (R192, R411). -/
  units : Nat
  unitsOf : Tab (Nat × Nat)
  /-- Bytes through the buffer ports that no unit has been counted for yet (R411). -/
  port : Nat
  acct : CoreAcct
  deriving DecidableEq, Repr

/-- One cluster (R325). -/
structure Cluster where
  pool : Nat
  moving : Bool
  gated : Bool
  boost : Nat
  deriving DecidableEq, Repr

/-- One vault (R189, R191, R412); the temperature in units of 1/16 degree. -/
structure Vault where
  temp : Int
  band : Nat
  ceiling : Nat
  startBand : Nat
  corr : Nat
  uncorr : Nat
  poison : Nat
  deriving DecidableEq, Repr

/-- One bridge (R223, R410, R412): fence counters keyed source core × 2 + direction. -/
structure Bridge where
  counts : Tab Nat
  parity : Bool
  fencepar : Nat
  deriving DecidableEq, Repr

/-- Memory: device DRAM by location and the host and peer windows by physical address, each in the canonical form of
`Memory.wf`; poisoned and uncorrectable 32-byte words, keyed location / 32 (R186, R188, R417). -/
structure Memory where
  dram : List Host.Cell
  host : List Host.Cell
  pois : Tab Bool
  bad : Tab Bool
  deriving DecidableEq, Repr

/-- A line of an L2 slice: its way, and the context that dirtied each dirty byte, by offset (R193 to R195). -/
structure L2Line where
  way : Nat
  dirty : Tab Nat
  deriving DecidableEq, Repr

/-- A continuation held at a full queue, with what its own entry would report (R298, R398). -/
structure HeldLpb where
  bytes : List Byte
  core : Nat
  ident : Nat
  cq : Nat
  handle : Nat
  deriving DecidableEq, Repr

/-- A launch queue (R296 to R298, R304). -/
structure LaunchQueue where
  base : Nat
  ctl : Nat
  head : Nat
  tail : Nat
  held : List HeldLpb
  count : Nat
  /-- Preferred cores of appended continuations, by ring slot. -/
  prefer : Tab Nat
  deriving DecidableEq, Repr

/-- A completion entry (R304). -/
structure Entry where
  ident : Nat
  status : Nat
  err : Err
  src : Nat
  ndi : Nat
  nprog : Nat
  nlink : Nat
  ctx : Nat
  deriving DecidableEq, Repr

/-- What waits at its source for a completion queue (R306). -/
inductive CqWaiter where
  /-- A copy, tile operation, Sheepdog command, PUBLISH, result or launch, by its name in flight. -/
  | source (id : Nat)
  /-- A report with nothing else to hold back. -/
  | report (e : Entry)
  deriving DecidableEq, Repr

/-- A completion queue (R296, R306, R415): `held` are the entries that the device holds back, `waiting` the sources behind
them, both in order. -/
structure ComplQueue where
  base : Nat
  ctl : Nat
  head : Nat
  tail : Nat
  pass : Bool
  held : List Entry
  waiting : List CqWaiter
  told : Bool
  ien : Bool
  coal : Nat
  since : Nat
  deriving DecidableEq, Repr

/-- A shadow binding (R204, R267 to R269): pages written, keyed page number, with the shadow frame. -/
structure Binding where
  base : Nat
  size : Nat
  pages : Tab Nat
  block : Nat
  depth : Nat
  /-- It takes the engine writes named from `since` on and, once its PUBLISH or drop has issued, before `until_`. -/
  since : Nat
  until_ : Option Nat
  deriving DecidableEq, Repr

/-- A context (R316, R352, R412). -/
structure Context where
  ptroot : Nat
  fdtbase : Nat
  cores : BitVec 256
  pceil : Nat
  cls : Nat
  fair : Nat
  capq : Nat
  caps : Nat
  saveBase : Nat
  saveSize : Nat
  /-- Images in the save pool: address and size. -/
  saves : List (Nat × Nat)
  dwbase : Nat
  dwsize : Nat
  dwframe : Nat
  dwfsize : Nat
  st : Nat
  /-- Free frames: physical address, size. -/
  pool : List (Nat × Nat)
  binds : List Binding
  lqs : Tab LaunchQueue
  cqs : Tab ComplQueue
  nextq : Nat
  ebase : Nat
  ectl : Nat
  ehead : Nat
  etail : Nat
  ovf : Bool
  apbase : Nat
  energy : Nat
  refuse : Nat
  refresh : Nat
  l2fill : Nat
  l2wb : Nat
  rollback : Nat
  deriving DecidableEq, Repr

/-- A capability table entry (R353). -/
structure Cap where
  owner : Word
  gen : Nat
  kind : Nat
  rights : Nat
  policy : Nat
  first : Nat
  count : Nat
  scope : Nat
  lanes : Mask
  ctx : Nat
  rlv : Nat
  deriving DecidableEq, Repr

/-- Where a wave is (R358). -/
inductive Loc where
  | resident (core slot : Nat)
  | saved (img : Nat)
  | moving (old new : Nat)
  deriving DecidableEq, Repr

/-- A page as the Fold holds it: a block format and its source format, 0 for bytes as they were, with the scales (R283). -/
structure Stored where
  code : Nat
  src : Nat
  data : List Byte
  scales : List Byte
  deriving DecidableEq, Repr

/-- A parked page: its size, its entries as Sheepdog wrote them, and what is stored, none for a zero page (R283, R344). -/
structure Parked where
  p64 : Bool
  entries : List Nat
  body : Option Stored
  deriving DecidableEq, Repr

/-- A Fold slot (R363), with its parked pages by virtual page base. -/
structure FoldSlot where
  gen : Nat
  ctx : Nat
  st : Nat
  drive : Nat
  nsid : Nat
  slba : Nat
  nlba : Nat
  pages : Tab Parked
  deriving DecidableEq, Repr

/-- A row of the Fold drive table (R420, R427). -/
structure Drive where
  bdf : Nat
  nqp : Nat
  st : Nat
  lbash : Nat
  qdepth : Nat
  mdts : Nat
  nsid : Nat
  deriving DecidableEq, Repr

/-- An inbound window (R364). -/
structure WinIn where
  gen : Nat
  ctx : Nat
  open_ : Bool
  src : Nat
  base : Nat
  size : Nat
  tcnt : Nat
  deriving DecidableEq, Repr

/-- An outbound window handle (R364). -/
structure WinOut where
  handle : DWord
  ctx : Nat
  scnt : Nat
  deriving DecidableEq, Repr

/-- A heap instance (R308). -/
structure Heap where
  bound : Option Nat
  /-- 0 Idle, 1 Open, 2 Sealed. -/
  st : Nat
  opens : Nat
  /-- Key, value, insertion serial. -/
  entries : List (Nat × Nat × Nat)
  deriving DecidableEq, Repr

/-- A sitting table entry (R389). -/
structure Sitting where
  key : Word
  ctx : Nat
  count : Nat
  members : List Nat
  opened : List Nat
  accepted : List Nat
  round : Nat
  /-- 0 free, 1 forming, 2 ready, 3 in round, 4 rolling back. -/
  st : Nat
  /-- Members whose restoration has merged, and members that have executed ELSEERR. -/
  restored : List Nat
  ended : List Nat
  deriving DecidableEq, Repr

/-- What a flit carries: part of an arrival, a put or a revocation, by its name on its way, a reply, or an audit's total. -/
inductive FlitOp where
  | arrival (id : Nat)
  | put (id : Nat)
  | revoke (id : Nat)
  | reply
  | audit (returned : Nat)
  deriving DecidableEq, Repr

/-- A flit in a send window, with the core that sent it and how often it has been sent again (R314, R424). -/
structure Flit where
  seq : Nat
  core : Nat
  op : FlitOp
  tries : Nat
  deriving DecidableEq, Repr

/-- An Ezley port (R314, R315, R420, R425): `seq` flits sent, of which a flit carries the low 16 bits; `rseq` the next
one that it receives; `returned` the window units that it has returned, and `due` the totals of audits not yet sent. -/
structure Port where
  up : Bool
  seq : Nat
  window : List Flit
  units : Nat
  rseq : Nat
  returned : Nat
  due : List Nat
  accepted : Nat
  asked : Bool
  th : Tab Nat
  dark : Nat
  lit : BitVec 8
  waking : BitVec 8
  replay : Nat
  audit : Nat
  deriving DecidableEq, Repr

/-- Firmware and boot (R428). -/
structure Firmware where
  slotA : List Byte
  slotB : List Byte
  /-- 0 slot A, 1 slot B, 2 the ROM's recovery image. -/
  running : Nat
  staging : Tab Byte
  /-- The fused security version. -/
  fused : Nat
  bootfail : Bool
  /-- Boots since manufacture: each draws its own device secret (R429). -/
  boots : Nat
  deriving DecidableEq, Repr

/-- The tables and registers of the device. -/
structure Device where
  id : Nat
  caps : Tab Cap
  capNext : Nat
  ranges : List (Nat × Nat × Nat)
  locs : Tab Loc
  tags : BitVec 8
  opclass : Tab DWord
  heat : Tab Word
  weights : Tab Nat
  l2masks : Tab (BitVec 24)
  fold : Tab FoldSlot
  drives : Tab Drive
  winIn : Tab WinIn
  winOut : Tab WinOut
  heaps : Tab Heap
  sits : Tab Sitting
  evbase : Nat
  evctl : Nat
  evhead : Nat
  evtail : Nat
  /-- MSI-X vectors signalled, newest first: 17 × function + vector (R414). -/
  msix : List Nat
  scmdOp : Nat
  scmdBusy : Bool
  scmdStatus : Nat
  scmdArg : Tab Byte
  pkglim : Nat
  pkgest : Nat
  budgets : Tab Nat
  trip : Bool
  ports : Tab Port
  /-- The port by which each core's traffic to each device last went, keyed core × 256 + device (R424). -/
  routes : Tab Nat
  bridges : Tab Bridge
  fw : Firmware
  /-- Slot headers on the drives: drive, namespace, first LBA, LBAs and the boot that wrote each (R205, R363). -/
  headers : List (Nat × Nat × Nat × Nat × Nat)
  /-- The data of the last read that the host completed through an aperture (R416). -/
  reply : List Byte
  /-- Saturated accounting counters that an event 8 has reported, by offset (R422). -/
  told : List Nat
  deriving DecidableEq, Repr

/-- A variable-latency result on its way (R77, R78): register words by key register × 32 + lane, words that receive
X = 1, and the deferred fault that its return raises (R233). -/
structure Result where
  wave : Nat
  writes : List (Nat × Word)
  bad : List Nat
  owes : List OwedFault
  depth : Nat
  /-- A switch marker waits for it (R75). -/
  marked : Bool
  /-- It is an immediate read, for which an adopt waits (R213). -/
  imm : Bool
  /-- The issuing block, and the completion entry that the end of an operation writes, with its queue (R253). -/
  block : Nat
  entry : Option (Nat × Entry)
  /-- It is a link, which returns no later than the first issue at the target (R174). -/
  link : Bool
  deriving DecidableEq, Repr

/-- A publish in progress (R211, R223): lines sent over each bridge are counted by destination die. -/
structure Publish where
  core : Nat
  wave : Option Nat
  /-- Identifiers of lines not yet at their home or ingress. -/
  lines : List Nat
  crossed : Tab Nat
  deriving DecidableEq, Repr

/-- A captured line of a publish or an eviction's write-back (R197, R211). -/
structure PubLine where
  publish : Option Nat
  core : Nat
  ctx : Nat
  va : Nat
  /-- Offset in the line, byte, launch that dirtied it. -/
  bytes : List (Nat × Byte × Nat)
  /-- 32-byte words whose bytes here are lost, which become poisoned at their home (R188). -/
  pois : BitVec 4
  deriving DecidableEq, Repr

/-- An RSEND or QSEND on its way (R102 to R108, R183, R290). -/
structure Arrival where
  /-- Sending wave, its core, context and device. -/
  wave : Nat
  src : Nat
  ctx : Nat
  dev : Nat
  cap : DWord
  queue : Bool
  idx : Bool
  wide : Bool
  off : Nat
  lanes : Mask
  vals : Tab DWord
  token : Nat
  tokLanes : Mask
  outcome : Option Nat
  /-- The number of open scopes of the sender when it sent. -/
  depth : Nat
  /-- Its flits have gone to an Ezley port, for one to another device. -/
  sent : Bool
  deriving DecidableEq, Repr

/-- A CPYQ.free on its way: the sending core, the block whose counter gains a slot, and the gang member named (R262, R295). -/
structure FreeMsg where
  src : Nat
  block : Nat
  slot : Nat
  deriving DecidableEq, Repr

/-- A revocation on its way to another device: the wave, its core and context, the register and lanes of its status (R357). -/
structure Revoking where
  wave : Nat
  src : Nat
  ctx : Nat
  cap : DWord
  dev : Nat
  token : Nat
  lanes : Mask
  sent : Bool
  deriving DecidableEq, Repr

/-- A push of a yokemate that is held or on its way (R293). -/
structure YokePush where
  yoke : Nat
  compute : Nat
  lanes : Mask
  vals : Tab Word
  token : Nat
  depth : Nat
  deriving DecidableEq, Repr

/-- The kinds of copy movers (R255 to R264). -/
inductive CopyOp where
  | plain | multi | gather | scatter | signal | window
  deriving DecidableEq, Repr

/-- A wave's slice of a copy (R255 to R258, R260). -/
structure Slice where
  wave : Nat
  wib : Nat
  token : Nat
  lanes : Mask
  src : Nat
  dst : Nat
  rowb : Nat
  rows : Nat
  sstr : Int
  dstr : Int
  /-- Scratch address of the index array of a gather or scatter, and the indices once read (R260). -/
  idx : Nat
  xs : List Int
  m : RMode
  sat : Bool
  seedLo : Word
  seedHi : Word
  /-- Name given at its arrival. -/
  order : Nat
  deriving DecidableEq, Repr

/-- The stages of a copy mover (R252, R255, R259, R266); `ended` marks a collective that CPYC cancelled while it
gathered. -/
inductive CopyStage where
  | gathering | running | ended
  deriving DecidableEq, Repr

/-- A collective copy (R255). -/
structure Copy where
  op : CopyOp
  arg : CopyArg
  dec : Nat
  sig : Bool
  /-- The receiver mask and the handle of the C run, from the first arrival that has them. -/
  runs : Option (Nat × DWord)
  /-- Its arrivals agree. -/
  agree : Bool
  block : Nat
  yoke : Bool
  k : Nat
  stage : CopyStage
  slices : List Slice
  /-- Packets landed: slice, row, packet. -/
  landed : List (Nat × Nat × Nat)
  err : Option Err
  /-- The slice to which the error belongs. -/
  errBy : Nat
  ending : Nat
  depth : Nat
  /-- A put has merged at the target, with its window's counter stepped (R264). -/
  merged : Bool
  /-- Its flits have gone to an Ezley port, for a put to another device. -/
  sent : Bool
  /-- Receivers of a multicast whose share failed (R261). -/
  failed : List Nat
  deriving DecidableEq, Repr

/-- A format descriptor (R345); `bad` for a reserved code or field, which faults with FORMAT. -/
structure Fdt where
  fmt : Nat
  rowblk : Nat
  sstride : Nat
  origin : Nat
  sbase : Nat
  bad : Bool
  deriving DecidableEq, Repr

/-- The kinds of tile operations (R272 to R281): formats, modes, the frame slot and SUSP are as they stood at
issue. -/
inductive TileKindOp where
  | zero
  | load (k : TileKind) (m : RMode) (addr : Nat) (stride : Int) (fdt : Fdt)
  | mmt (x : MmtArg) (a b : Nat) (aStr bStr : Int) (aFdt bFdt : Fdt) (cls : Nat)
  | drain (x : DrainArg) (m : RMode) (sat : Bool) (desc : List Word) (dst res : Fdt) (slot : BitVec 128) (susp : Bool)
  | check
  | status (clear : Bool)
  deriving DecidableEq, Repr

/-- A tile operation in flight (R272, R276, R280). -/
structure TileOp where
  op : TileKindOp
  tile : Nat
  /-- The tiles whose operations it takes its turn among. -/
  tiles : List Nat
  block : Nat
  wave : Nat
  token : Nat
  lanes : Mask
  cfg : BitVec 128
  /-- The version slot that it records (R111). -/
  ver : Nat
  /-- Steps or rows done. -/
  next : Nat
  err : Option Err
  ending : Nat
  depth : Nat
  /-- TLEVEL of its wave at its issue (R459). -/
  level : Nat
  /-- The run of the outlier list that a drain has reserved: its next entry and how many are left (R58). -/
  run : Option (Nat × Nat)
  deriving DecidableEq, Repr

/-- The kinds of Sheepdog commands (R283 to R285). -/
inductive SdKind where
  | park (f : ParkFmt) (elide : Bool)
  | call
  | drop
  deriving DecidableEq, Repr

/-- A Sheepdog command (R282). -/
structure SdCmd where
  kind : SdKind
  block : Nat
  wave : Nat
  ctx : Nat
  core : Nat
  launch : Nat
  token : Nat
  lanes : Mask
  handle : DWord
  p64 : Bool
  /-- Page bases not yet done, in order. -/
  pages : List Nat
  started : Bool
  moved : Nat
  ctr : Option DWord
  prio : Nat
  err : Option Err
  ending : Nat
  depth : Nat
  deriving DecidableEq, Repr

/-- A page of a command that is in progress: its drive command's retries and whether it has been acknowledged, and for a
park the entries with their old values, the new ones, the frame and what is stored (R283, R313). -/
structure Nvme where
  cmd : Nat
  page : Nat
  tries : Nat
  acked : Bool
  old : List (Nat × Nat)
  entries : List Nat
  frame : Nat
  body : Option Stored
  /-- Commands of a page larger than its drive's transfers that follow this one (R427). -/
  rest : Nat
  deriving DecidableEq, Repr

/-- A HEAPGET waiting for its answer (R310). -/
structure HeapReq where
  inst : Nat
  wave : Nat
  block : Nat
  token : Nat
  lanes : Mask
  addr : Nat
  depth : Nat
  order : Nat
  deriving DecidableEq, Repr

/-- A PUBLISH in progress or deferred, or a dropped binding (R267 to R269). -/
structure Shadowing where
  ctx : Nat
  block : Nat
  wave : Nat
  token : Nat
  lanes : Mask
  base : Nat
  keep : Bool
  drop : Bool
  deferred : Bool
  ctr : Option DWord
  depth : Nat
  order : Nat
  deriving DecidableEq, Repr

/-- A translation that a TLB holds (R348, R349): its unit (a core, a cluster from 1024 on, or the host interface), context,
page base and size, and the leaf entry. -/
structure TlbEntry where
  core : Nat
  ctx : Nat
  base : Nat
  size : Nat
  leaf : DWord
  deriving DecidableEq, Repr

/-- A table entry that a walk cache holds: its die's unit, context, level, the address bits above the level, and the content
(R348, R349). -/
structure WalkEntry where
  unit : Nat
  ctx : Nat
  level : Nat
  tag : Nat
  entry : DWord
  deriving DecidableEq, Repr

/-- The fields of a context's entry that its translations use: PTROOT and the delegated window (R350, R352). -/
structure Root where
  ptroot : Nat
  dwbase : Nat
  dwsize : Nat
  dwframe : Nat
  dwfsize : Nat
  deriving DecidableEq, Repr

/-- A copy of an FDT entry (R347). -/
structure FdtCopy where
  core : Nat
  ctx : Nat
  idx : Nat
  bytes : List Byte
  deriving DecidableEq, Repr

/-- Everything on its way. -/
structure Flight where
  results : Tab Result
  publishes : Tab Publish
  lines : Tab PubLine
  arrivals : Tab Arrival
  pushes : Tab YokePush
  copies : Tab Copy
  tiles : Tab TileOp
  sd : Tab SdCmd
  nvme : Tab Nvme
  heap : Tab HeapReq
  shadows : Tab Shadowing
  tlb : List TlbEntry
  fdts : List FdtCopy
  walks : List WalkEntry
  /-- What of each context's entry is in force for its translations (R352). -/
  roots : Tab Root
  frees : Tab FreeMsg
  revokes : Tab Revoking
  /-- Bytes for the spill areas, by place, oldest first, that reach them at the end of the turn (R203). -/
  spills : List (Nat × Byte)
  deriving DecidableEq, Repr

/-- What happens next: the outside world's and the units' turns, given as plain data (log 5). -/
inductive Turn where
  /-- A cycle of a core in which its selector's wave issues. -/
  | issue (core : Nat)
  /-- A step of a unit or of the outside. -/
  | event (i : Instr)
  /-- Cycles of a core's clock pass. -/
  | cycles (core n : Nat)
  /-- Microseconds pass by a unit's own clock: a die's (0 to 3), or that of the pool of class `unit - 4` (R4). -/
  | micros (unit n : Nat)
  /-- A TLB entry, an FDT copy or an instruction line copy is dropped, by position or key. -/
  | dropTlb (n : Nat)
  | dropWalk (n : Nat)
  | dropFdt (n : Nat)
  | dropLine (core key : Nat)
  /-- A core evicts an L1 line that it has not read in the phase (R215). -/
  | evict (core key : Nat)
  /-- An error strikes a register word or a DRAM word; `true` for an uncorrectable one (R92, R188). -/
  | regError (wave reg lane : Nat) (double : Bool)
  | dramError (word : Nat) (double : Bool)
  | bufError (blk : Nat) (sp : Space) (word : Nat) (double : Bool)
  /-- An error strikes an 8-byte word of an L1 line (R188, R196). -/
  | l1Error (core key word : Nat) (double : Bool)
  /-- A bit of a block's accumulator allocation flips, unseen but by its row's checksum (R199, R280). -/
  | accError (blk off bit : Nat)
  /-- A bit of a core's copy of an instruction line flips (R64). -/
  | lineError (core key bit : Nat)
  /-- An uncorrectable error strikes a pentimento record, by its position among its block's (R383). -/
  | recError (blk n : Nat)
  /-- The parity of a bridge's fence counter fails (R410). -/
  | bridgeError (bridge : Nat)
  /-- An arrival from another device of the Ezley domain comes in (R102). -/
  | foreign (a : Arrival)
  /-- Another device's REVOKE of a capability of this one (R357). -/
  | foreignRevoke (cap : DWord) (ctx src : Nat)
  /-- A CPYQ.free reaches its core; a revocation leaves for its device, or its status returns (R295, R357). -/
  | free (id : Nat)
  | revoked (id : Nat)
  /-- The device moves a free frame, by its position, from a context's pool to another's (R201). -/
  | frame (src dst n : Nat)
  /-- A put of another device into a window of this one: handle, source device, bytes at offsets from BASE (R264). -/
  | put (handle : DWord) (src : Nat) (parts : List (Nat × Byte))
  /-- The host or a peer device writes host memory or its own, behind the host window: physical addresses and bytes (R417). -/
  | hostMemory (parts : List (Nat × Byte))
  /-- Accounting counters that have saturated are reported (R422). -/
  | report
  deriving DecidableEq, Repr

/-- The instruction being executed: its wave, path and counter. -/
structure Cur where
  wave : Nat
  path : Mask
  pc : Ctr
  deriving DecidableEq, Repr

/-- The device. -/
structure State where
  waves : Tab Wave
  blocks : Tab Block
  launches : Tab Launch
  ctxs : Tab Context
  cores : Tab Core
  clusters : Tab Cluster
  vaults : Tab Vault
  mem : Memory
  /-- The lines of the L2 slices, keyed location / 128 (R193). -/
  l2 : Tab L2Line
  dev : Device
  fly : Flight
  /-- Turns to come, first first. -/
  agenda : List Turn
  cur : Option Cur
  /-- Free values drawn so far (log 4). -/
  free : Nat
  /-- Names given so far. -/
  serial : Nat
  deriving DecidableEq, Repr

/-- A core right after reset (R117, R97, R196, R324). -/
def Core.reset : Core where
  cycles := 0
  grants := 12
  written := 12
  scratch := 0xF000
  l1 := []
  icache := []
  active := []
  issued := []
  pending := []
  sways := []
  ramp := 0
  started := 0
  wake := 0
  capped := false
  units := 0
  unitsOf := []
  port := 0
  acct := ⟨0, 0, 0, 0, 0, 0⟩

/-- A cluster right after reset: in the pool of class 3, clock-gated (R325). -/
def Cluster.reset : Cluster := ⟨3, false, true, 0⟩

/-- A vault right after reset: the ceiling at band 2 (R191); temperature and band DESIGN CHOICE 0 (log 3). -/
def Vault.reset : Vault := ⟨0, 0, 2, 0, 0, 0, 0⟩

/-- A bridge right after reset. -/
def Bridge.reset : Bridge := ⟨[], false, 0⟩

/-- A context right after reset (R316, R194); fields without a reset value DESIGN CHOICE 0 (log 3). -/
def Context.reset : Context where
  ptroot := 0
  fdtbase := 0
  cores := BitVec.allOnes 256
  pceil := 23
  cls := 0
  fair := 256
  capq := 0
  caps := 0
  saveBase := 0
  saveSize := 0
  saves := []
  dwbase := 0
  dwsize := 0
  dwframe := 0
  dwfsize := 0
  st := 0
  pool := []
  binds := []
  lqs := []
  cqs := []
  nextq := 0
  ebase := 0
  ectl := 0
  ehead := 0
  etail := 0
  ovf := false
  apbase := 0
  energy := 0
  refuse := 0
  refresh := 0
  l2fill := 0
  l2wb := 0
  rollback := 0

/-- A launch queue right after reset. -/
def LaunchQueue.reset : LaunchQueue := ⟨0, 0, 0, 0, [], 0, []⟩

/-- A completion queue right after reset. -/
def ComplQueue.reset : ComplQueue := ⟨0, 0, 0, 0, true, [], [], false, false, 0, 0⟩

/-- An Ezley port right after reset (R315, R420, R425). -/
def Port.reset : Port where
  up := true
  seq := 0
  window := []
  units := 512
  rseq := 0
  returned := 0
  due := []
  accepted := 0
  asked := false
  th := [(1, 64), (2, 128), (3, 192), (4, 256), (5, 320), (6, 384), (7, 448)]
  dark := 20
  lit := 1
  waking := 0
  replay := 0
  audit := 0

/-- A heap instance right after reset (R308). -/
def Heap.reset : Heap := ⟨none, 0, 0, []⟩

/-- A free capability entry (R353). -/
def Cap.reset : Cap := ⟨0, 0, 0, 0, 0, 0, 0, 0, 0, 0, 0⟩

/-- An operating-class entry (R361). -/
def opclassEntry (mv mhz : Nat) (memfull leaseonly defined : Bool) : DWord :=
  BitVec.ofNat 64 (mv + mhz * 2 ^ 16 + defined.toNat * 2 ^ 32 + leaseonly.toNat * 2 ^ 33 + memfull.toNat * 2 ^ 34)

/-- A heat model entry (R362). -/
def heatEntry (heat boost : Nat) : Word := BitVec.ofNat 32 (heat + boost * 2 ^ 8)

/-- The heat model entries of one class (R362). -/
def heatRow (cls : Nat) (h : Nat × Nat × Nat × Nat) (boost : Nat) : Tab Word :=
  [(4 * cls, heatEntry h.1 boost), (4 * cls + 1, heatEntry h.2.1 boost), (4 * cls + 2, heatEntry h.2.2.1 boost),
   (4 * cls + 3, heatEntry h.2.2.2 boost)]

/-- The tables right after reset (R194, R361, R362, R411, R423). -/
def Device.reset : Device where
  id := 0
  caps := []
  capNext := 1
  ranges := [(0, 2 ^ 20, 0)]
  locs := []
  tags := 0
  opclass := [(0, opclassEntry 550 1200 false false true), (1, opclassEntry 600 1600 false false true),
    (2, opclassEntry 650 2000 false false true), (3, opclassEntry 700 2400 false false true),
    (4, opclassEntry 750 2700 false true true), (5, opclassEntry 800 3000 false true true),
    (6, opclassEntry 650 1600 true false true), (7, opclassEntry 0 0 false false false)]
  heat := heatRow 0 (2, 4, 8, 12) 0 ++ heatRow 1 (2, 4, 8, 12) 0 ++ heatRow 2 (2, 4, 8, 12) 0 ++
    heatRow 3 (2, 4, 8, 12) 0 ++ heatRow 4 (3, 6, 12, 18) 30 ++ heatRow 5 (4, 8, 16, 24) 60 ++
    heatRow 6 (2, 4, 8, 12) 0 ++ heatRow 7 (2, 4, 8, 12) 0
  weights := [(0, 1), (1, 1), (2, 2), (3, 4), (4, 32), (5, 128), (6, 1), (7, 4)]
  l2masks := [(0, BitVec.allOnes 24), (1, BitVec.allOnes 24), (2, BitVec.allOnes 24), (3, BitVec.allOnes 24)]
  fold := []
  drives := []
  winIn := []
  winOut := []
  heaps := []
  sits := []
  evbase := 0
  evctl := 0
  evhead := 0
  evtail := 0
  msix := []
  scmdOp := 0
  scmdBusy := false
  scmdStatus := 0
  scmdArg := []
  pkglim := 1800
  pkgest := 0
  budgets := []
  trip := false
  ports := []
  routes := []
  bridges := []
  headers := []
  reply := []
  told := []
  fw := ⟨[], [], 0, [], 0, false, 0⟩

/-- Nothing on its way. -/
def Flight.reset : Flight := ⟨[], [], [], [], [], [], [], [], [], [], [], [], [], [], [], [], [], []⟩

/-- Memory with nothing listed (log 2). -/
def Memory.reset : Memory := ⟨[], [], [], []⟩

/-- The device right after reset: no wave lives, every table at the value the spec gives for reset or that log 3 names. -/
def State.reset : State where
  waves := []
  blocks := []
  launches := []
  ctxs := []
  cores := []
  clusters := []
  vaults := []
  mem := Memory.reset
  l2 := []
  dev := Device.reset
  fly := Flight.reset
  agenda := []
  cur := none
  free := 0
  serial := 0

end Sys2Proof.Machine
end

