-- ==== Sys2Proof/Machine/Memory.lean ====
section
/-! DEFINITION. Memory at its homes: places, bytes, poisoned words, and words in byte order (R2, R186, R188, R417). -/

namespace Sys2Proof.Machine

/-- What a byte of memory that nothing has written reads as (DESIGN CHOICE, log 2). -/
def emptyByte : Byte := 0

/-- The first physical address of the host window (R417). -/
def hostBase : Nat := 2 ^ 40

/-- The place of a physical byte: its DRAM location (vault × 2^31 + offset, R186), or its address in the host window. -/
def placeOf (pa : Nat) : Nat :=
  if pa < 2 ^ 39 then pa
  else if pa < hostBase then
    let q := pa - 2 ^ 39
    let n := q / 256
    n % 256 * 2 ^ 31 + n / 256 * 256 + q % 256
  else pa

/-- A place in device DRAM. -/
def inDram (place : Nat) : Bool := decide (place < 2 ^ 39)

/-- The device-wide vault of a DRAM place (R186). -/
def vaultOf (place : Nat) : Nat := place / 2 ^ 31 % 256

/-- The die of a place's home; the host interface is 4 (R193, R417). -/
def dieOf (place : Nat) : Nat := if inDram place then vaultOf place / 64 else 4

/-- The home slice of a place, as a unit index 16 × die + slice (R193, R303). -/
def sliceOf (place : Nat) : Nat := dieOf place * 16 + vaultOf place % 64 / 4

/-- The canonical form: keys rise and no entry equals what an unlisted byte reads as. -/
def Memory.wf (m : Memory) : Bool := Tab.wf emptyByte m.dram && Tab.wf emptyByte m.host

/-- The byte at a place. -/
def Memory.byte (m : Memory) (place : Nat) : Byte :=
  if inDram place then Tab.get emptyByte m.dram place else Tab.get emptyByte m.host place

/-- The memory with one byte written. -/
def Memory.setByte (m : Memory) (place : Nat) (v : Byte) : Memory :=
  if inDram place then { m with dram := Tab.set emptyByte m.dram place v }
  else { m with host := Tab.set emptyByte m.host place v }

/-- The memory with each of these bytes written, in order. -/
def Memory.setBytes (m : Memory) : List (Nat × Byte) → Memory
  | [] => m
  | (p, v) :: bs => (m.setByte p v).setBytes bs

/-- The 32-byte words that these bytes cover whole. -/
def wholeWords (bs : List (Nat × Byte)) : List Nat :=
  (bs.filter fun b => b.1 % 32 == 0 && (List.range 32).all fun i => bs.any fun c => c.1 == b.1 + i).map fun b => b.1 / 32

/-- A write of bytes at their homes; a write of a whole 32-byte word clears its poison (R188). -/
def Memory.write (m : Memory) (bs : List (Nat × Byte)) : Memory :=
  let m := m.setBytes bs
  { m with
    pois := (wholeWords bs).foldl Tab.del m.pois
    bad := (wholeWords bs).foldl Tab.del m.bad }

/-- The byte lies in a poisoned word. -/
def Memory.poisoned (m : Memory) (place : Nat) : Bool := Tab.has m.pois (place / 32)

/-- The byte lies in an uncorrectable word. -/
def Memory.uncorr (m : Memory) (place : Nat) : Bool := Tab.has m.bad (place / 32)

/-- `n` bytes from a physical address, each at its place. -/
def Memory.bytesAt (m : Memory) (pa n : Nat) : List Byte := (List.range n).map fun i => m.byte (placeOf (pa + i))

/-- `n` bytes from a physical address as a little-endian number. -/
def Memory.leAt (m : Memory) (pa n : Nat) : Nat := leNat (m.bytesAt pa n)

/-- `n` bytes with the value `v` from a physical address on, as places. -/
def placeBytes (pa n v : Nat) : List (Nat × Byte) := (leBytes n v).zipIdx.map fun p => (placeOf (pa + p.2), p.1)

end Sys2Proof.Machine
end

