-- ==== Sys2Proof/Machine/Translate.lean ====
section
/-! DEFINITION. Translation: the four-level walk, rights, TLBs, delegated windows, and the format descriptor table (R187,
R341 to R350). -/

namespace Sys2Proof.Machine

/-- What an access needs of a leaf (R344). -/
inductive Access where
  | read | write | both | exec
  /-- Only the entry is consulted, for the format of its page (R230): no right is needed. -/
  | format
  deriving DecidableEq, Repr

/-- A successful translation: the physical address, the leaf entry, its page, the entries whose ACC or DIRTY bit the
walk sets, as physical address and bits, the table entries that it read, by level, and whether the unit's TLB did not
have it. -/
structure Xlat where
  pa : Nat
  leaf : DWord
  base : Nat
  size : Nat
  marks : List (Nat × DWord)
  tables : List (Nat × DWord)
  walked : Bool
  deriving DecidableEq, Repr

/-- Where a walk ended: the leaf as read, the page's base and size, the leaf's entry, the table entries read at their homes,
by address, and the content of those on the way, by level. -/
structure Walk where
  leaf : DWord
  base : Nat
  size : Nat
  entry : Nat
  path : List Nat
  tables : List (Nat × DWord)
  level : Nat
  deriving DecidableEq, Repr

/-- The frame field of an entry (R341). -/
def ptePa (e : DWord) : Nat := (e.extractLsb' 12 40).toNat * 4096

/-- The vault policy of an entry. -/
def pteVp (e : DWord) : Nat := (e.extractLsb' 55 2).toNat

/-- The cache policy of an entry. -/
def pteCp (e : DWord) : Nat := (e.extractLsb' 53 2).toNat

/-- The FDT index of an entry. -/
def pteFdt (e : DWord) : Nat := (e.extractLsb' 57 6).toNat

/-- The contiguity of an entry. -/
def pteCont (e : DWord) : Nat := (e.extractLsb' 9 3).toNat

/-- ACC. -/
def pteAcc : DWord := 0x80
/-- DIRTY. -/
def pteDirty : DWord := 0x100
/-- V. -/
def pteV : DWord := 1
/-- PK. -/
def ptePk : DWord := 0x8000000000000000

/-- Bits of the page size of a leaf at a level (R342). -/
def levelShift (level : Nat) : Nat := 12 + 9 * level

/-- Entries of a contiguous group at a level (R342). -/
def groupOf (level : Nat) : Nat := if level = 2 then 8 else if level = 1 then 256 else 16

/-- A leaf's address lies in the window of its vault policy (R187, R417). -/
def inWindow (e : DWord) (pa : Nat) : Bool :=
  if pa < 2 ^ 39 then pteVp e == 1 || pteVp e == 2 else pteVp e == 0

/-- The checks of a leaf at a level (R342), `first` the group's first entry. -/
def leafOk (level : Nat) (e first : DWord) : Bool :=
  let size := 2 ^ levelShift level
  let pa := ptePa e
  if pteCont e = 0 then pa % size == 0 && inWindow e pa
  else
    pa % (size * groupOf level) == 0 && inWindow e pa &&
    (e &&& ~~~(pteAcc ||| pteDirty)) == (first &&& ~~~(pteAcc ||| pteDirty))

/-- A reserved bit of an entry is not zero (R341). -/
def pteReserved (e : DWord) : Bool := e.getLsbD 52 || e.extractLsb' 4 2 != 0

/-- An entry names a table: V alone of its flags, and nothing else but ACC and PA (R342). -/
def pteTable (e : DWord) : Bool := e.getLsbD 0 && e &&& ~~~(0x000FFFFFFFFFF081 : DWord) == 0

/-- What a leaf entry at a level gives, `at_` its address and `first` its group's first entry with its address (R342). -/
def leafWalk (m : Memory) (va level : Nat) (e : DWord) (at_ firstAt : Nat) (path : List Nat) (tables : List (Nat × DWord)) :
    Except Cause Walk :=
  let first : DWord := BitVec.ofNat 64 (m.leAt firstAt 8)
  if level ≥ 3 || pteVp e == 3 || pteCont e ≥ 2 then .error .translation
  else if pteCont e = 1 && m.uncorr (placeOf firstAt) then .error .uncorrectable
  else if !leafOk level e first then .error .translation
  else
    let size := 2 ^ levelShift level * (if pteCont e = 0 then 1 else groupOf level)
    .ok ⟨e, va / size * size, size, if pteCont e = 0 then at_ else firstAt, path, tables, level⟩

/-- The walk from level `level` down, `tbl` the table's physical address and `held` the content of a table entry that a
walk cache holds (R341, R342, R348, R349). -/
def walkFrom (m : Memory) (held : Nat → Option DWord) (va : Nat) :
    Nat → Nat → List Nat → List (Nat × DWord) → Except Cause Walk
  | level, tbl, path, tables =>
    let idx := va / 2 ^ levelShift level % 512
    let at_ := tbl + 8 * idx
    let e : DWord := (held level).getD (BitVec.ofNat 64 (m.leAt at_ 8))
    if (held level).isNone && m.uncorr (placeOf at_) then .error .uncorrectable
    else if pteReserved e || (!e.getLsbD 0 && !e.getLsbD 63) then .error .translation
    else if e.getLsbD 63 then
      (if level = 0 && e.getLsbD 6 && !e.getLsbD 0 then .error .parkedPage else .error .translation)
    else if e.getLsbD 6 then leafWalk m va level e at_ (tbl + 8 * (idx / groupOf level * groupOf level)) path tables
    else match level with
      | 0 => .error .translation
      | n + 1 =>
        if !pteTable e then .error .translation
        else walkFrom m held va n (ptePa e) (if (held level).isNone then at_ :: path else path) ((n + 1, e) :: tables)

/-- What of a context's entry its translations use (R352). -/
def Context.root (c : Context) : Root := ⟨c.ptroot, c.dwbase, c.dwsize, c.dwframe, c.dwfsize⟩

/-- Inside a delegated window (R350). -/
def Root.delegated (c : Root) (va : Nat) : Bool :=
  decide (c.dwsize ≠ 0) && decide (c.dwbase ≤ va) && decide (va < c.dwbase + c.dwsize)

/-- Inside a context's delegated window (R350). -/
def inDelegated (c : Context) (va : Nat) : Bool := c.root.delegated va

/-- A whole walk in a context (R341, R342, R350). -/
def walk (m : Memory) (held : Nat → Option DWord) (c : Root) (va : Nat) : Except Cause Walk :=
  match walkFrom m held va 3 c.ptroot [] [] with
  | .error e => .error e
  | .ok w =>
    if c.delegated va then
      let pa := ptePa w.leaf
      if w.level = 0 && decide (c.dwframe ≤ pa) && decide (pa + w.size ≤ c.dwframe + c.dwfsize) then .ok w
      else .error .translation
    else .ok w

/-- The leaf grants the access (R344). -/
def rightsOk (a : Access) (e : DWord) : Bool :=
  match a with
  | .read => e.getLsbD 1
  | .write => e.getLsbD 2
  | .both => e.getLsbD 1 && e.getLsbD 2
  | .exec => e.getLsbD 3
  | .format => true

/-- An access that writes. -/
def Access.writes : Access → Bool
  | .write | .both => true
  | _ => false

/-- The unit of a core's cluster TLB: 1024 on (R348). -/
def clusterUnit (core : Nat) : Nat := 1024 + core / 8

/-- The unit of a die's walk cache: 2048 on, and 2052 for the host interface (R348). -/
def walkerUnit (core : Nat) : Nat := 2048 + core / 64

/-- The walker that serves a unit: a die's for its cores, its own for a unit that is one (R348). -/
def walkerOf (unit : Nat) : Nat := if unit < 2048 then walkerUnit unit else unit

/-- The entry of a unit's TLB that covers an address (R348). -/
def tlbFind (s : State) (unit ctx va : Nat) : Option TlbEntry :=
  s.fly.tlb.find? fun t => t.core == unit && t.ctx == ctx && decide (t.base ≤ va) && decide (va < t.base + t.size)

/-- The table entry of a level that a walk cache holds for an address (R348). -/
def walkFind (s : State) (unit ctx va level : Nat) : Option DWord :=
  (s.fly.walks.find? fun t => t.unit == unit && t.ctx == ctx && t.level == level &&
    t.tag == va / 2 ^ levelShift level).map (·.entry)

/-- A context of the state. -/
def State.ctx (s : State) (n : Nat) : Context := Tab.get Context.reset s.ctxs n

/-- What of a context's entry is in force for its translations: as at the first walk since the last TLBINV.ctx, before
that as the entry stands (R352; log 52). -/
def State.rootOf (s : State) (ctx : Nat) : Root := (Tab.find s.fly.roots ctx).getD (s.ctx ctx).root

/-- A translation by a TLB's entry; `far` where it was not the unit's own TLB. -/
def TlbEntry.xlat (t : TlbEntry) (va : Nat) (a : Access) (far : Bool) : Except Cause Xlat :=
  if rightsOk a t.leaf then .ok ⟨ptePa t.leaf + (va - t.base), t.leaf, t.base, t.size, [], [], far⟩ else .error .permission

/-- A translation by a walk of a die's walkers (R343, R344). -/
def State.walkXlat (s : State) (walker ctx va : Nat) (a : Access) : Except Cause Xlat :=
  match walk s.mem (walkFind s walker ctx va) (s.rootOf ctx) va with
  | .error e => .error e
  | .ok w =>
    if !rightsOk a w.leaf then .error .permission
    else
      let set := if a.writes then pteAcc ||| pteDirty else pteAcc
      .ok ⟨ptePa w.leaf + (va - w.base), w.leaf ||| set, w.base, w.size,
        (w.entry, set) :: w.path.map fun p => (p, pteAcc), w.tables, true⟩

/-- Translation of a 48-bit address for an access: the content of the unit's TLB, else, for a core, of its cluster's, where
its DIRTY bit needs no setting, else a walk (R343, R344, R348, R349). -/
def State.translate (s : State) (unit ctx va : Nat) (a : Access) : Except Cause Xlat :=
  let usable := fun t : TlbEntry => !a.writes || t.leaf.getLsbD 8
  match (tlbFind s unit ctx va).filter usable with
  | some t => t.xlat va a false
  | none =>
    match (if unit < 256 then (tlbFind s (clusterUnit unit) ctx va).filter usable else none) with
    | some t => t.xlat va a true
    | none => s.walkXlat (walkerOf unit) ctx va a

/-- Sets bits of an entry at its home (R343). -/
def Memory.orEntry (m : Memory) (pa : Nat) (bits : DWord) : Memory :=
  let v := m.leAt pa 8
  let w := (BitVec.ofNat 64 v ||| bits).toNat
  if w = v then m else m.write (placeBytes pa 8 w)

/-- A TLB with one page's entry first and the other entries of its unit after it, within the unit's `n` entries (R348). -/
def tlbAdd (n unit ctx : Nat) (x : Xlat) (tlb : List TlbEntry) : List TlbEntry :=
  let others := tlb.filter fun t => !(t.core == unit && t.ctx == ctx && t.base == x.base)
  let mine := (others.filter fun t => t.core == unit).take (n - 1)
  ⟨unit, ctx, x.base, x.size, x.leaf⟩ :: (mine ++ others.filter fun t => t.core != unit)

/-- The TLBs after a unit used a translation that its own did not have: a core's 128 entries and its cluster's 4,096; the
units beyond the cores keep none but the host interface (R348; log 52). -/
def tlbFill (unit ctx : Nat) (x : Xlat) (tlb : List TlbEntry) : List TlbEntry :=
  if unit < 256 then tlbAdd 128 unit ctx x (tlbAdd 4096 (clusterUnit unit) ctx x tlb)
  else if unit < 2048 then tlbAdd 128 unit ctx x tlb else tlb

/-- A walk cache after a walk read these table entries on its way to an address (R348). -/
def walkAdd (unit ctx va : Nat) (tables : List (Nat × DWord)) (ws : List WalkEntry) : List WalkEntry :=
  tables.foldl (fun ws t =>
    let tag := va / 2 ^ levelShift t.1
    if ws.any fun e => e.unit == unit && e.ctx == ctx && e.level == t.1 && e.tag == tag then ws
    else ⟨unit, ctx, t.1, tag, t.2⟩ :: ws) ws

/-- The state after a walk: ACC and DIRTY set, the walk cache filled, and the root that it used kept (R341, R343, R348). -/
def State.walked (s : State) (walker ctx va : Nat) (marks : List (Nat × DWord)) (tables : List (Nat × DWord)) : State :=
  { s with
    mem := marks.foldl (fun m p => m.orEntry p.1 p.2) s.mem
    fly := { s.fly with
      walks := walkAdd walker ctx va tables s.fly.walks
      roots := if Tab.has s.fly.roots ctx then s.fly.roots else Tab.put s.fly.roots ctx (s.ctx ctx).root } }

/-- The state after an access was translated: ACC and DIRTY set, the TLBs and the walk cache filled. -/
def State.marked (s : State) (unit ctx : Nat) (x : Xlat) : State :=
  if x.walked then
    let s1 := s.walked (walkerOf unit) ctx x.base x.marks x.tables
    { s1 with fly := { s1.fly with tlb := tlbFill unit ctx x s1.fly.tlb } }
  else s

/-- A walk by a walker itself, for Sheepdog (R282, R348). -/
def State.walkBy (s : State) (walker ctx va : Nat) : Except Cause Walk :=
  walk s.mem (walkFind s walker ctx va) (s.rootOf ctx) va

/-- The marks of a walk that only looks (R341, R343). -/
def Walk.marks (w : Walk) : List (Nat × DWord) := (w.entry :: w.path).map fun p => (p, pteAcc)

/-- The fields of an FDT entry's 32 bytes (R345). -/
def Fdt.ofBytes (bs : List Byte) : Fdt :=
  let at_ (o n : Nat) : Nat := leNat ((bs.drop o).take n)
  { fmt := at_ 0 1 % 64
    rowblk := at_ 2 2
    sstride := at_ 4 4
    origin := at_ 8 8
    sbase := at_ 16 8
    bad := at_ 0 1 ≥ 25 || at_ 1 1 != 0 || at_ 8 8 ≥ 2 ^ 48 || at_ 16 8 ≥ 2 ^ 48 || at_ 24 8 != 0 }

/-- The FDT entry that a core uses: its copy, or the entry at its home (R345, R347). -/
def State.fdt (s : State) (core ctx idx : Nat) : Fdt :=
  match s.fly.fdts.find? fun f => f.core == core && f.ctx == ctx && f.idx == idx with
  | some f => Fdt.ofBytes f.bytes
  | none => Fdt.ofBytes (s.mem.bytesAt ((s.ctx ctx).fdtbase + 32 * idx) 32)

/-- The state after a core used an FDT entry: it keeps a copy. -/
def State.fdtUsed (s : State) (core ctx idx : Nat) : State :=
  if s.fly.fdts.any fun f => f.core == core && f.ctx == ctx && f.idx == idx then s
  else { s with fly := { s.fly with
    fdts := ⟨core, ctx, idx, s.mem.bytesAt ((s.ctx ctx).fdtbase + 32 * idx) 32⟩ :: s.fly.fdts } }

/-- Where the scale of block `b` lies (R346). -/
def Fdt.scaleAt (f : Fdt) (b sz : Nat) : Nat :=
  if f.rowblk = 0 then f.sbase + b * sz else f.sbase + b / f.rowblk * f.sstride + b % f.rowblk * sz

end Sys2Proof.Machine
end

