-- ==== Sys2Proof/Machine/Access.lean ====
section
/-! DEFINITION. Named access to the parts of the state: records by key with a blank one where none is listed, their
updates, free values and names. -/

namespace Sys2Proof.Machine

/-- A trap bank before any trap. -/
def TrapBank.blank : TrapBank := ⟨0, 0, 0, []⟩

/-- A wave with nothing in it. -/
def Wave.blank : Wave where
  handle := 0
  slot := 0
  ctx := 0
  block := 0
  wib := 0
  foot := 0
  regs := []
  pend := []
  expt := []
  pois := []
  ecc := []
  pcs := []
  live := 0
  fcount := 0
  lastA := 0
  lastB := 0
  flags := 0
  trap := ⟨0, TrapBank.blank, TrapBank.blank, 0, 0⟩
  dispatch := false
  saves := []
  tcfgs := []
  tcur := 0
  queues := []
  fifos := []
  copies := 0
  parked := false
  nap := 0
  owed := []
  resv := []
  prefetch := []
  recent := []
  ipos := []
  window := []
  flagWin := []
  wait := none
  cwaits := []
  phased := []
  adopting := none
  turn := 0
  stalled := 0
  lineOk := 0
  entering := 0

/-- An allocation of nothing. -/
def Buffer.blank : Buffer := ⟨0, [], [], []⟩

/-- Recovery state with no scope open. -/
def Recovery.blank : Recovery := ⟨[], [], 0, false, false, false, 0, [], [], none, none, [], [], []⟩

/-- A block with nothing in it. -/
def Block.blank : Block where
  launch := 0
  ctx := 0
  lin := 0
  x := 0
  y := 0
  z := 0
  spawned := false
  parent := none
  st := .retired
  core := 0
  prefer := none
  offeredAt := 0
  placedAt := 0
  waited := 0
  age := 0
  ticks := 0
  die := 0
  claim := none
  refused := []
  gang := none
  spawnDepth := 0
  parentCtr := 0
  heat := 0
  nwaves := 0
  foot := 0
  entry := 0
  args := []
  waves := []
  frames := []
  frameOld := []
  slots := []
  barC := ⟨[], 0⟩
  barY := ⟨[], 0⟩
  s := Buffer.blank
  granules := []
  w := Buffer.blank
  a := Buffer.blank
  c := Buffer.blank
  tiles := []
  sums := []
  rcv := Recovery.blank
  image := none
  imageLease := 0
  imageCls := 0
  arrived := false
  want := none
  drained := 0

/-- An LPB of zeros. -/
def Lpb.blank : Lpb :=
  ⟨0, 0, 0, 0, 0, 0, 0, 0, 0, 0, 0, 0, 0, 0, 0, 0, 0, 0, 0, 0, 0, 0, 0, 0, 0, 0, 0, 0, 0, 0, 0, 0, false⟩

/-- A launch with nothing in it. -/
def Launch.blank : Launch := ⟨0, 0, 0, Lpb.blank, [], 0, none, 0, 0, 0, 0, 0, 0, none, true⟩

/-- An L1 line with no valid byte. -/
def L1Line.blank : L1Line := ⟨[], 0, 0, false, 0, 0, 0, false, []⟩

/-- A wave by its key, the LOC of its WAVE_H. -/
def State.wave (s : State) (k : Nat) : Wave := Tab.get Wave.blank s.waves k
/-- A block. -/
def State.block (s : State) (k : Nat) : Block := Tab.get Block.blank s.blocks k
/-- A launch. -/
def State.launch (s : State) (k : Nat) : Launch := Tab.get Launch.blank s.launches k
/-- A core. -/
def State.core (s : State) (k : Nat) : Core := Tab.get Core.reset s.cores k
/-- A cluster. -/
def State.cluster (s : State) (k : Nat) : Cluster := Tab.get Cluster.reset s.clusters k
/-- A vault. -/
def State.vault (s : State) (k : Nat) : Vault := Tab.get Vault.reset s.vaults k

/-- The state with a wave changed. -/
def State.updWave (s : State) (k : Nat) (f : Wave → Wave) : State := { s with waves := Tab.upd s.waves k f }
/-- The state with a block changed. -/
def State.updBlock (s : State) (k : Nat) (f : Block → Block) : State := { s with blocks := Tab.upd s.blocks k f }
/-- The state with a launch changed. -/
def State.updLaunch (s : State) (k : Nat) (f : Launch → Launch) : State := { s with launches := Tab.upd s.launches k f }
/-- The state with a core changed. -/
def State.updCore (s : State) (k : Nat) (f : Core → Core) : State := { s with cores := Tab.put s.cores k (f (s.core k)) }
/-- The state with a cluster changed. -/
def State.updCluster (s : State) (k : Nat) (f : Cluster → Cluster) : State :=
  { s with clusters := Tab.put s.clusters k (f (s.cluster k)) }
/-- The state with a vault changed. -/
def State.updVault (s : State) (k : Nat) (f : Vault → Vault) : State :=
  { s with vaults := Tab.put s.vaults k (f (s.vault k)) }
/-- The state with a context changed. -/
def State.updCtx (s : State) (k : Nat) (f : Context → Context) : State := { s with ctxs := Tab.put s.ctxs k (f (s.ctx k)) }
/-- The state with the device's tables changed. -/
def State.updDev (s : State) (f : Device → Device) : State := { s with dev := f s.dev }
/-- The state with what is on its way changed. -/
def State.updFly (s : State) (f : Flight → Flight) : State := { s with fly := f s.fly }
/-- The state with a block's recovery state changed. -/
def State.updRcv (s : State) (b : Nat) (f : Recovery → Recovery) : State :=
  s.updBlock b fun x => { x with rcv := f x.rcv }

/-- The state with the counter of free values advanced. -/
def State.drew (s : State) : State := { s with free := s.free + 1 }

/-- A fresh name. -/
def State.named (s : State) : Nat × State := (s.serial + 1, { s with serial := s.serial + 1 })

/-- The LPB of a block's launch. -/
def State.lpb (s : State) (b : Nat) : Lpb := (s.launch (s.block b).launch).lpb

/-- The core on which a wave runs. -/
def State.coreOf (s : State) (k : Nat) : Nat := (s.block (s.wave k).block).core

/-- A block holds wave slots of its core. -/
def BlockState.resident : BlockState → Bool
  | .starting | .running | .draining | .moving => true
  | _ => false

/-- The blocks that reside on a core. -/
def State.blocksOn (s : State) (core : Nat) : List Nat :=
  (s.blocks.filter fun p => p.2.core == core && p.2.st.resident).map Prod.fst

/-- The waves that reside on a core. -/
def State.wavesOn (s : State) (core : Nat) : List Nat :=
  (s.waves.filter fun p => (s.block p.2.block).core == core && (s.block p.2.block).st.resident).map Prod.fst

/-- The waves that satisfy a condition changed. -/
def State.mapWaves (s : State) (p : Nat → Wave → Bool) (f : Wave → Wave) : State :=
  { s with waves := Tab.mapVals s.waves fun k w => if p k w then f w else w }

/-- A lane is in a mask. -/
def Mask.has (m : Mask) (l : Nat) : Bool := m.getLsbD l

/-- The lanes of a mask, increasing. -/
def Mask.lanes (m : Mask) : List Nat := (List.range 32).filter fun l => m.getLsbD l

/-- The lowest lane of a mask, 0 when empty. -/
def Mask.low (m : Mask) : Nat := (Mask.lanes m).headD 0

/-- The mask of lanes that satisfy a condition. -/
def Mask.of (p : Nat → Bool) : Mask :=
  BitVec.ofNat 32 ((List.range 32).foldl (fun a l => if p l then a + 2 ^ l else a) 0)

/-- An addition that stops at `2 ^ bits - 1`. -/
def satAdd (bits a b : Nat) : Nat := min (a + b) (2 ^ bits - 1)

/-- The number of bits set. -/
def ones (w : Nat) (v : BitVec w) : Nat := ((List.range w).filter fun i => v.getLsbD i).length

end Sys2Proof.Machine
end

