-- ==== Sys2Proof/Machine/Home.lean ====
section
/-! DEFINITION. Changes at the homes: a write and what it ends and wakes, the L2 slices, reads and writes of units through a
context's tables, and the counter waits (R193 to R195, R207, R218, R219, R404). -/

namespace Sys2Proof.Machine

/-- The 128-byte reservation granule, and home line, of a place (R218). -/
def homeLine (place : Nat) : Nat := place / 128

/-- The reservations of a wave that survive a change of these home lines, `mine` the lanes whose own agent made it. -/
def keepResv (mine : Nat → Bool) (lines : List Nat) (r : Tab Resv) : Tab Resv :=
  Tab.sub r fun l v => !(v.space == .g && lines.contains v.granule && !mine l)

/-- A change is of a thread's own agent: its own immediate write, or a write-back of its core (R218, R244; log 61). -/
def State.ownChange (s : State) (own : Author) (k l : Nat) : Bool :=
  match own with
  | .other => false
  | .thread a b => k == a && l == b
  | .core n => s.coreOf k == n

/-- The value that a counter wait compares (R404). -/
def State.waitValue (s : State) (c : CWait) : Nat :=
  if c.fn ≤ 1 then leNat ((List.range 4).map fun i => s.mem.byte (c.place + i))
  else if c.fn = 2 then (Tab.find s.dev.winIn (c.place - 2 ^ 64)).elim 0 (·.tcnt)
  else (Tab.find s.dev.winOut (c.place - 2 ^ 64)).elim 0 (·.scnt)

/-- The condition of a counter wait (R404). -/
def State.waitHolds (s : State) (c : CWait) : Bool :=
  if c.fn = 0 then decide (s.waitValue c ≤ c.bound) else decide (c.bound ≤ s.waitValue c)

/-- Every counter wait tests its condition (R404). -/
def State.retest (s : State) : State :=
  s.mapWaves (fun _ w => !w.cwaits.isEmpty) fun w =>
    { w with cwaits := w.cwaits.map fun c => { c with met := c.met || s.waitHolds c } }

/-- A change of bytes at their homes: it ends the other agents' reservations on the lines and the counter waits look
again (R207, R218, R404). -/
def State.homeWrite (s : State) (bs : List (Nat × Byte)) (own : Author := .other) : State :=
  let lines := bs.map fun b => homeLine b.1
  let s1 := { s with
    mem := s.mem.write bs
    waves := Tab.mapVals s.waves fun k w => { w with resv := keepResv (s.ownChange own k) lines w.resv } }
  s1.retest

/-! ### The L2 -/

/-- Ways of an L2 slice (R193). -/
def l2Ways : Nat := 24

/-- The slice and the set of a line of DRAM: which of the 2,048 sets is not given (R193; DESIGN CHOICE, log 67). -/
def l2Set (line : Nat) : Nat × Nat := (sliceOf (128 * line), line % 2048)

/-- A line leaves its L2 slice: each context is charged for the bytes that it dirtied (R195). -/
def State.l2Evict (s : State) (line : Nat) : State :=
  let s1 := { s with l2 := Tab.del s.l2 line }
  (Tab.get ⟨0, []⟩ s.l2 line).dirty.foldl (fun s b => s.updCtx b.2 fun c => { c with l2wb := satAdd 64 c.l2wb 1 }) s1

/-- The ways of a line's set that hold a line, with it. -/
def State.l2Here (s : State) (line : Nat) : List (Nat × Nat) :=
  (s.l2.filter fun p => l2Set p.1 == l2Set line).map fun p => (p.2.way, p.1)

/-- A line is in its L2 slice: a hit in any way changes nothing; a miss is charged to its context and takes a way of its
class's mask, a free one first; which one is a free value. A class whose mask is 0 fills nothing (R193 to R195; log 67). -/
def State.l2Line (s : State) (ctx line : Nat) : State :=
  let mask := Tab.get 0 s.dev.l2masks (s.ctx ctx).cls
  if !inDram (128 * line) || Tab.has s.l2 line || mask = 0 then s
  else
    let ways := (List.range l2Ways).filter fun w => mask.getLsbD w
    let here := s.l2Here line
    let free := ways.filter fun w => !here.any fun p => p.1 == w
    let from_ := if free.isEmpty then ways else free
    let way := from_.getD (Config.choice 1 s.free from_.length % from_.length) 0
    let s1 := ((here.filter fun p => p.1 == way).foldl (fun s p => s.l2Evict p.2) s).updCtx ctx fun c =>
      { c with l2fill := satAdd 64 c.l2fill 128 }
    { s1 with l2 := Tab.put s1.l2 line ⟨way, []⟩ }.drew

/-- Bytes at these places are read at their homes for a context (R193, R195). -/
def State.l2Read (s : State) (ctx : Nat) (places : List Nat) : State :=
  ((places.map (· / 128)).eraseDups).foldl (fun s line => s.l2Line ctx line) s

/-- Bytes at these places are written at their homes for a context: they are dirty in their slices (R193, R195). -/
def State.l2Write (s : State) (ctx : Nat) (places : List Nat) : State :=
  let s1 := s.l2Read ctx places
  { s1 with l2 := Tab.mapVals s1.l2 fun line l =>
    { l with dirty := (places.filter fun p => p / 128 == line).foldl (fun t p => Tab.put t (p % 128) ctx) l.dirty } }

/-- The unit whose translations serve everything beyond the cores. -/
def farUnit : Nat := 256

/-- Whether a physical address lies in device DRAM (R397). -/
def paDram (pa : Nat) : Bool := decide (pa < hostBase)

/-- A unit's translation of a virtual address, canonical or not (R219, R344). -/
def State.unitXlate (s : State) (unit ctx va : Nat) (a : Access) : Except Cause Xlat :=
  if va ≥ 2 ^ 48 then .error .translation else s.translate unit ctx va a

/-- `n` bytes that a unit reads at the homes from a virtual address, page by page; the failing address with its cause
otherwise. -/
def State.unitRead (s : State) (unit ctx : Nat) : Nat → Nat → Except (Cause × Nat) (List Byte × State)
  | _, 0 => .ok ([], s)
  | va, n + 1 =>
    match s.unitXlate unit ctx va .read with
    | .error c => .error (c, va)
    | .ok x =>
      if s.mem.uncorr (placeOf x.pa) || s.mem.poisoned (placeOf x.pa) then .error (.uncorrectable, va)
      else match ((s.marked unit ctx x).l2Read ctx [placeOf x.pa]).unitRead unit ctx (va + 1) n with
        | .error e => .error e
        | .ok (bs, s') => .ok (s.mem.byte (placeOf x.pa) :: bs, s')

/-- The places of bytes that a unit writes from a virtual address, with the state after their translation. -/
def State.unitPlaces (s : State) (unit ctx : Nat) : Nat → List Byte → Except (Cause × Nat) (List (Nat × Byte) × State)
  | _, [] => .ok ([], s)
  | va, b :: bs =>
    match s.unitXlate unit ctx va .write with
    | .error c => .error (c, va)
    | .ok x =>
      match (s.marked unit ctx x).unitPlaces unit ctx (va + 1) bs with
      | .error e => .error e
      | .ok (ps, s') => .ok ((placeOf x.pa, b) :: ps, s')

/-- A unit's write of bytes at the homes. -/
def State.unitWrite (s : State) (unit ctx va : Nat) (bs : List Byte) : Except (Cause × Nat) State :=
  match s.unitPlaces unit ctx va bs with
  | .error e => .error e
  | .ok (ps, s') => .ok ((s'.l2Write ctx (ps.map Prod.fst)).homeWrite ps)

/-- The error class with which a unit reports a cause (R303). -/
def Cause.cls : Cause → Nat
  | .permission => 4
  | .uncorrectable | .poison => 6
  | .capability => 5
  | .translation | .parkedPage => 3
  | _ => 1

end Sys2Proof.Machine
end

