-- ==== Sys2Proof/Machine/Completion.lean ====
section
/-! DEFINITION. Completion entries, compatibility records, events and signals; launch queues; continuations
(R296 to R298, R303 to R307, R398, R414, R415, R422). -/

namespace Sys2Proof.Machine

/-- No error. -/
def Err.none : Err := ⟨0, 0, 0, 0, 0⟩

/-- The bytes of a completion entry (R304). -/
def Entry.bytes (e : Entry) (vt : Bool) : List Byte :=
  leBytes 4 e.ident ++ leBytes 1 e.status ++ leBytes 1 (e.err.cls * 16 + e.err.kind) ++ leBytes 2 e.err.unit ++
  leBytes 6 e.err.addr ++ leBytes 1 e.src ++ [0] ++ leBytes 4 e.err.detail ++ leBytes 2 e.ndi ++ leBytes 1 e.nprog ++
  leBytes 1 e.nlink ++ leBytes 1 e.ctx ++ List.replicate 6 0 ++ [if vt then 0x80 else 0]

/-- The bytes of a compatibility record (R307). -/
def Entry.record (e : Entry) (stamp : Nat) : List Byte :=
  leBytes 2 1 ++ leBytes 1 (e.err.cls * 16 + e.err.kind) ++ leBytes 1 e.src ++ leBytes 2 e.err.unit ++
  leBytes 1 e.ctx ++ leBytes 1 e.status ++ leBytes 8 (e.err.addr % 2 ^ 48) ++ leBytes 4 e.ident ++ leBytes 4 e.err.detail ++
  leBytes 8 stamp ++ List.replicate 32 0

/-- The size that a queue's CTL gives. -/
def ctlSize (ctl : Nat) : Nat := 2 ^ (ctl % 32)

/-- EN of a queue's CTL. -/
def ctlEn (ctl : Nat) : Bool := ctl / 2 ^ 31 % 2 == 1

/-- DEVFED of LQ_CTL. -/
def ctlDevfed (ctl : Nat) : Bool := ctl / 256 % 2 == 1

/-- A vector of a function is signalled (R414). -/
def State.signal (s : State) (fn vec : Nat) : State := s.updDev fun d => { d with msix := (17 * fn + vec) :: d.msix }

/-- An event record (R422). -/
def eventBytes (kind unitKind unit ctx detail : Nat) : List Byte :=
  leBytes 1 kind ++ leBytes 1 (unitKind * 16) ++ leBytes 2 unit ++ leBytes 1 ctx ++ leBytes 3 0 ++ leBytes 8 detail

/-- The overflow mark of a compatibility or event ring's TAIL register (R296). -/
def setOvf (tail : Nat) : Nat := tail % 2 ^ 31 + 2 ^ 31

/-- An event is written to the event ring, in context 0 (DEDUCED, log 25), while the ring is enabled; a full or unwritable ring
drops it and sets the overflow bit. Vector 16 is signalled for each event (R422). -/
def State.event (s : State) (kind unitKind unit ctx detail : Nat) : State :=
  let d := s.dev
  if !ctlEn d.evctl then s.signal 0 16
  else
    let size := 2 ^ (d.evctl % 16)
    let tail := d.evtail % 2 ^ 12
    let drop := s.updDev fun d => { d with evtail := setOvf d.evtail }
    let s1 :=
      if (tail + 1) % size = d.evhead % 2 ^ 12 then drop
      else match s.unitWrite farUnit 0 (d.evbase + 16 * tail) (eventBytes kind unitKind unit ctx detail) with
        | .error _ => drop
        | .ok s' => s'.updDev fun d => { d with evtail := (tail + 1) % size + d.evtail / 2 ^ 31 * 2 ^ 31 }
    s1.signal 0 16

/-- The cycle count that stamps a record: its core's for a core, a matrix engine or a copy engine; of other units the
spec keeps no register, and the count is a free value (log 4). -/
def State.stamp (s : State) (e : Entry) : Nat :=
  if e.err.kind ≤ 2 then (s.core e.err.unit).cycles
  else (Config.freeWord 20 s.free).toNat + 2 ^ 32 * (Config.freeWord 21 s.free).toNat

/-- The compatibility record of an entry with an error (R307). -/
def State.compat (s : State) (e : Entry) : State :=
  let c := s.ctx e.ctx
  if e.err.cls = 0 || !ctlEn c.ectl then s
  else
    let size := 2 ^ (c.ectl % 16)
    let drop := s.updCtx e.ctx fun c => { c with ovf := true }
    if (c.etail + 1) % size = c.ehead then drop
    else match s.unitWrite farUnit e.ctx (c.ebase + 64 * c.etail) (e.record (s.stamp e)) with
      | .error _ => drop
      | .ok s' => (s'.updCtx e.ctx fun c => { c with etail := (c.etail + 1) % size }).drew

/-- A completion queue of a context. -/
def State.cq (s : State) (ctx cq : Nat) : ComplQueue := Tab.get ComplQueue.reset (s.ctx ctx).cqs cq

/-- The state with a completion queue changed. -/
def State.updCq (s : State) (ctx cq : Nat) (f : ComplQueue → ComplQueue) : State :=
  s.updCtx ctx fun c => { c with cqs := Tab.put c.cqs cq (f (Tab.get ComplQueue.reset c.cqs cq)) }

/-- The vector of a completion queue is due after this entry (R415). -/
def State.cqSignal (s : State) (ctx cq : Nat) : State :=
  let q := s.cq ctx cq
  let n := q.since + 1
  let due := q.ien && decide (n ≥ max 1 q.coal)
  let s1 := s.updCq ctx cq fun q => { q with since := if due then 0 else n }
  if due then s1.signal ctx cq else s1

/-- One try to write an entry at CQ_TAIL: none when the ring is full or disabled, or its position unwritable (R306). -/
def State.cqTry (s : State) (ctx cq : Nat) (e : Entry) : Option State × Bool :=
  let q := s.cq ctx cq
  let size := ctlSize q.ctl
  if !ctlEn q.ctl || (q.tail + 1) % size = q.head then (none, false)
  else match s.unitWrite farUnit ctx (q.base + 32 * q.tail) (e.bytes q.pass) with
    | .error _ => (none, true)
    | .ok s' =>
      let s1 := s'.updCq ctx cq fun q =>
        { q with tail := (q.tail + 1) % size, pass := if q.tail + 1 = size then !q.pass else q.pass, told := false }
      (some ((s1.cqSignal ctx cq).compat e), false)

/-- Event 9 once for an unwritable queue (R306). -/
def State.cqTell (s : State) (ctx cq : Nat) : State :=
  let q := s.cq ctx cq
  if q.told then s
  else (s.updCq ctx cq fun q => { q with told := true }).event 9 7 0 ctx (q.base + 32 * q.tail)

/-- Held entries are written while they can be (R306). -/
def State.cqDrain (s : State) (ctx cq : Nat) : List Entry → State
  | [] => s.updCq ctx cq fun q => { q with held := [] }
  | e :: es =>
    match s.cqTry ctx cq e with
    | (some s', _) => s'.cqDrain ctx cq es
    | (none, bad) =>
      let s1 := s.updCq ctx cq fun q => { q with held := e :: es }
      if bad then s1.cqTell ctx cq else s1

/-- A queue that holds 256 entries back makes every source wait (R306). -/
def State.cqFull (s : State) (ctx cq : Nat) : Bool := decide ((s.cq ctx cq).held.length ≥ 256)

/-- A source that waits is still there: neither ended nor cancelled. -/
def State.cqWaits (s : State) : CqWaiter → Bool
  | .report _ => true
  | .source id => Tab.has s.fly.copies id || Tab.has s.fly.tiles id || Tab.has s.fly.sd id || Tab.has s.fly.shadows id ||
      Tab.has s.fly.results id || Tab.has s.launches id

/-- Reports at the head of those that wait are put among the held entries while there is room (R306). -/
def State.cqReports (s : State) (ctx cq : Nat) : List CqWaiter → State
  | [] => s.updCq ctx cq fun q => { q with waiting := [] }
  | .report e :: ws =>
    if s.cqFull ctx cq then s.updCq ctx cq fun q => { q with waiting := .report e :: ws }
    else (s.cqDrain ctx cq ((s.cq ctx cq).held ++ [e])).cqReports ctx cq ws
  | .source id :: ws =>
    if s.cqWaits (.source id) then s.updCq ctx cq fun q => { q with waiting := .source id :: ws } else s.cqReports ctx cq ws

/-- Held entries, then waiting reports, are written while they can be (R306). -/
def State.cqServe (s : State) (ctx cq : Nat) : State :=
  let s1 := s.cqDrain ctx cq (s.cq ctx cq).held
  s1.cqReports ctx cq (s1.cq ctx cq).waiting

/-- An entry goes to a completion queue: written, or held behind those held (R306). -/
def State.cqPut (s : State) (ctx cq : Nat) (e : Entry) : State :=
  let s1 := s.cqDrain ctx cq ((s.cq ctx cq).held ++ [e])
  s1.cqReports ctx cq (s1.cq ctx cq).waiting

/-- The end of a source must wait: 256 entries are held before its own, or another source waits before it (R306). -/
def State.cqHolds (s : State) (ctx cq id : Nat) : Bool :=
  s.cqFull ctx cq || (((s.cq ctx cq).waiting.find? s.cqWaits).any fun w => w != .source id)

/-- A source waits for a completion queue, behind those that wait already (R306). -/
def State.cqJoin (s : State) (ctx cq id : Nat) : State :=
  if (s.cq ctx cq).waiting.contains (.source id) then s
  else s.updCq ctx cq fun q => { q with waiting := q.waiting ++ [.source id] }

/-- A report goes to a completion queue: put there, or waiting behind the sources that wait (R306). -/
def State.cqReport (s : State) (ctx cq : Nat) (e : Entry) : State :=
  s.cqReports ctx cq ((s.cq ctx cq).waiting ++ [.report e])

/-- A launch queue of a context. -/
def State.lq (s : State) (ctx q : Nat) : LaunchQueue := Tab.get LaunchQueue.reset (s.ctx ctx).lqs q

/-- The state with a launch queue changed. -/
def State.updLq (s : State) (ctx q : Nat) (f : LaunchQueue → LaunchQueue) : State :=
  s.updCtx ctx fun c => { c with lqs := Tab.put c.lqs q (f (Tab.get LaunchQueue.reset c.lqs q)) }

/-- A ring has no free slot. -/
def LaunchQueue.full (q : LaunchQueue) : Bool := (q.tail + 1) % ctlSize q.ctl == q.head

/-- How an append ended (R298). -/
inductive Append where
  | done | full | unusable | unwritable (c : Cause)
  deriving DecidableEq, Repr

/-- An append of an LPB to a device-fed queue's ring (R298). -/
def State.lqAppend (s : State) (ctx q : Nat) (lpb : List Byte) (prefer : Option Nat) : State × Append :=
  let lq := s.lq ctx q
  if !ctlEn lq.ctl || !ctlDevfed lq.ctl then (s, .unusable)
  else if lq.full then (s, .full)
  else match s.unitWrite farUnit ctx (lq.base + 256 * lq.tail) lpb with
    | .error (c, _) => (s, .unwritable c)
    | .ok s' =>
      (s'.updLq ctx q fun l => { l with
        tail := (l.tail + 1) % ctlSize l.ctl
        prefer := match prefer with
          | some p => Tab.put l.prefer l.tail p
          | none => Tab.del l.prefer l.tail }, .done)

/-- An operation's entry for its launch's completion queue (R253). -/
def opEntry (ident src ctx : Nat) (e : Err) : Entry := ⟨ident, 2, e, src, 0, 0, 0, ctx⟩

/-- The launch identifier of R304. -/
def Launch.ident32 (l : Launch) : Nat := l.q * 2 ^ 29 + l.ident

/-- The first error attributed to a launch (R305). -/
def State.launchErr (s : State) (launch : Nat) (e : Err) : State :=
  s.updLaunch launch fun l => { l with err := l.err.orElse fun _ => some e }

/-- A correctable data-integrity note of a launch, saturating (R304). -/
def State.noteDi (s : State) (launch : Nat) : State := s.updLaunch launch fun l => { l with ndi := satAdd 16 l.ndi 1 }

/-- The fields of a counter record (R396). -/
structure CounterRec where
  value : Nat
  flags : Nat
  lq : Nat
  core : Nat
  cont : Nat
  ident : Nat
  cq : Nat
  ctx : Nat
  deriving DecidableEq, Repr

/-- Bytes at consecutive places. -/
def Memory.bytesFrom (m : Memory) (place n : Nat) : List Byte := (List.range n).map fun i => m.byte (place + i)

/-- Bytes as writes at consecutive places. -/
def fromPlace (place : Nat) (bs : List Byte) : List (Nat × Byte) := bs.zipIdx.map fun p => (place + p.2, p.1)

/-- The counter record at a place (R396). -/
def Memory.counter (m : Memory) (place : Nat) : CounterRec :=
  let at_ (o n : Nat) : Nat := leNat (m.bytesFrom (place + o) n)
  ⟨at_ 0 4, at_ 4 1, at_ 5 1 % 8, at_ 6 1, at_ 8 8, at_ 16 4, at_ 20 1, at_ 21 1⟩

/-- VALUE and CFLAGS of a counter are written in one step (R398). -/
def State.putCounter (s : State) (place value flags : Nat) : State :=
  s.homeWrite (fromPlace place (leBytes 4 value ++ leBytes 1 flags))

/-- The entry for a continuation that could not be appended (R398). -/
def State.contFails (s : State) (r : CounterRec) (handle cls detail : Nat) : State :=
  s.cqReport r.ctx r.cq ⟨r.ident, 3, ⟨cls, 0, r.core, handle, detail⟩, 3, 0, 0, 0, r.ctx⟩

/-- A counter's continuation fires: its LPB is read and appended to its launch queue, or held there when the queue is
full (R298, R398). -/
def State.fire (s : State) (r : CounterRec) (handle : Nat) : State :=
  if (s.ctx r.ctx).st ≠ 1 then s
  else match s.unitRead farUnit r.ctx r.cont 256 with
    | .error _ => s.contFails r handle 1 0
    | .ok (bs, s1) =>
      let lq := s1.lq r.ctx r.lq
      if ctlEn lq.ctl && ctlDevfed lq.ctl && (lq.full || !lq.held.isEmpty) then
        s1.updLq r.ctx r.lq fun l => { l with held := l.held ++ [⟨bs, r.core, r.ident, r.cq, handle⟩] }
      else match s1.lqAppend r.ctx r.lq bs (some r.core) with
        | (s2, .done) => s2
        | (_, .unwritable c) => s1.contFails r handle c.cls 2
        | (_, _) => s1.contFails r handle 1 1

/-- An increment at a counter's home and the VALUE left (R398). -/
def State.counterInc (s : State) (place n : Nat) : State × Nat :=
  let r := s.mem.counter place
  if n = 0 then (s, r.value)
  else if r.value + n > 2 ^ 32 - 1 then (s.putCounter place (2 ^ 32 - 1) (BitVec.ofNat 8 r.flags ||| 8).toNat, 2 ^ 32 - 1)
  else (s.putCounter place (r.value + n) r.flags, r.value + n)

/-- A decrement at a counter's home and the VALUE left; an armed counter that falls to 0 fires (R398). -/
def State.counterDec (s : State) (place handle n : Nat) : State × Nat :=
  let r := s.mem.counter place
  if n = 0 then (s, r.value)
  else
    let v := r.value - n
    let f : BitVec 8 := BitVec.ofNat 8 r.flags ||| (if n > r.value then 4 else 0)
    if r.value > 0 && v = 0 && f.getLsbD 0 then
      ((s.putCounter place v ((f &&& 0xFE) ||| 2).toNat).fire r handle, v)
    else (s.putCounter place v f.toNat, v)

/-- The context's rights to a counter's page, and its place (R397). -/
def State.counterPlace (s : State) (unit ctx handle : Nat) : Except Cause (Nat × State) :=
  if handle % 32 ≠ 0 then .error .misaligned
  else match s.unitXlate unit ctx handle .both with
    | .error c => .error c
    | .ok x => if paDram x.pa then .ok (placeOf x.pa, s.marked unit ctx x) else .error .permission

/-- The class with which a failing handle of an engine's or retirement's decrement is reported (R400). -/
def counterCls : Cause → Nat
  | .misaligned => 1
  | .permission => 4
  | _ => 3

end Sys2Proof.Machine
end

