-- ==== Sys2Proof/Machine/Scope.lean ====
section
/-! DEFINITION. Recovery scopes: depth, frames, failures, and the records that first writes make (R202, R203, R372 to
R382). Rollback and commit are in Machine/Rollback.lean. -/

namespace Sys2Proof.Machine

/-- The number of open scopes of a block, RLEVEL (R372). -/
def Block.depth (b : Block) : Nat := b.rcv.frames.length

/-- The frame at depth `d` from 1 on. -/
def Recovery.frame (r : Recovery) (d : Nat) : Option Frame := if d = 0 then none else r.frames[d - 1]?

/-- The recovery state with the frame at depth `d` changed. -/
def Recovery.updFrame (r : Recovery) (d : Nat) (f : Frame → Frame) : Recovery :=
  { r with frames := r.frames.zipIdx.map fun p => if p.2 + 1 = d then f p.1 else p.1 }

/-- The fault's cause code (R366). -/
def Cause.code : Cause → Nat
  | .illegalInstruction => 1 | .illegalLine => 2 | .branchTarget => 3 | .uniformity => 4 | .intDivideZero => 5
  | .numericArmed => 6 | .registerRange => 7 | .poison => 8 | .misaligned => 9 | .translation => 10 | .permission => 11
  | .format => 12 | .bufferPermission => 13 | .parkedPage => 14 | .capability => 15 | .overwrite => 16 | .queue => 17
  | .spawnDepth => 18 | .recoveryExhausted => 19 | .recoveryNesting => 20 | .frameTrap => 21 | .tileConfig => 22
  | .software => 23 | .breakpoint => 24 | .uncorrectable => 25 | .privilege => 26

/-- RCAUSE (R373). -/
def rcauseWord (rank wib code cause : Nat) : Word :=
  BitVec.ofNat 32 (rank % 256 * 2 ^ 24 + wib % 256 * 2 ^ 16 + code % 256 * 2 ^ 8 + cause % 256)

/-- RCAUSE code REJECTED (R379). -/
def rcRejected : Nat := 0x80
/-- RCAUSE code LIMIT. -/
def rcLimit : Nat := 0x81
/-- RCAUSE code ABANDONED. -/
def rcAbandoned : Nat := 0x82
/-- RCAUSE code SITTING. -/
def rcSitting : Nat := 0x83
/-- RCAUSE code RESOURCE. -/
def rcResource : Nat := 0x84

/-- Which of the failures of one wave decides: a fault, then REJECT or ABANDON, LIMIT, SITTING, RESOURCE (R382). -/
def failRank (rcause : Word) : Nat :=
  let c := rcause.toNat % 256
  if c < 0x80 then 0 else if c = rcLimit then 2 else if c = rcSitting then 3 else if c = rcResource then 4 else 1

/-- A failure decides before another: further out, or of one scope in one cycle by the lower WAVE_IN_BLOCK, then by what it
is (R382). -/
def Failing.before (f g : Failing) : Bool :=
  let wib := fun (x : Failing) => x.rcause.toNat / 2 ^ 16 % 256
  decide (f.depth < g.depth) || (f.depth == g.depth && f.cycle == g.cycle &&
    (decide (wib f < wib g) || (wib f == wib g && decide (failRank f.rcause < failRank g.rcause))))

/-- The scope at depth `d` of a block fails: its rollback is due. A failure that comes later, or is of a scope further in than
one that already fails, is discarded (R382). -/
def State.failScope (s : State) (blk d wib code cause : Nat) : State :=
  let cycle := (s.core (s.block blk).core).cycles
  s.updRcv blk fun r =>
    let rank := (r.frame d).elim 0 (·.rank)
    let f : Failing := ⟨d, rcauseWord rank wib code cause, cycle⟩
    match r.failing with
    | none => { r with failing := some f }
    | some g => if f.before g then { r with failing := some f } else r

/-- The block is a member of a sitting and its outermost scope is a round (R389). -/
def Recovery.inRound (r : Recovery) : Bool := (r.frame 1).any (·.sit)

/-- The innermost frame at `d` or further out whose FMASK selects the cause (R382). -/
def selectFrame (r : Recovery) (cause : Cause) : Nat → Option Nat
  | 0 => none
  | d + 1 =>
    if (r.frame (d + 1)).any fun f => f.fmask.getLsbD cause.code then some (d + 1) else selectFrame r cause d

/-- Bytes of a record (R202). -/
def RecLoc.size : RecLoc → Nat
  | .reg _ _ _ | .fifo _ _ => 8
  | .scratch _ => 8
  | .slot _ => 24
  | .granule _ _ _ => 136
  | .acc _ => 144
  | .line _ _ | .home _ => 152

/-- Bytes of a record with the granule index it may keep (R202). -/
def PRec.size (r : PRec) : Nat :=
  match r.val with
  | .scratch _ (some _) => 16
  | _ => r.loc.size

/-- Bytes of a block's records in the store. -/
def Recovery.stored (r : Recovery) : Nat := (r.recs.filter fun x => !x.spilled).foldl (fun n x => n + x.size) 0

/-- Bytes of the pentimento store of a core in use (R202). -/
def State.storeUse (s : State) (core : Nat) : Nat :=
  (s.blocksOn core).foldl (fun n b => n + (s.block b).rcv.stored) 0

/-- The size of a block's spill area: none for a spawned child or a continuation (R203). -/
def State.spillArea (s : State) (blk : Nat) : Nat :=
  let b := s.block blk
  if b.spawned || (s.launch b.launch).prefer.isSome then 0 else (s.lpb blk).spillSize

/-- These bytes go to a block's spill area, where they are at the end of the turn: the places that they take and the state;
none when they pass the area or meet a page that is not mapped and writable (R203). -/
def State.spillTake (s : State) (blk : Nat) (bs : List Byte) : Option (List Nat × State) :=
  let n := bs.length
  let b := s.block blk
  let l := s.lpb blk
  let at_ := l.spillBase + b.lin * l.spillSize + b.rcv.spill
  if b.rcv.spill + n > s.spillArea blk then none
  else match s.unitXlate b.core b.ctx at_ .write with
    | .error _ => none
    | .ok x =>
      let s1 := s.marked b.core b.ctx x
      match s1.unitXlate b.core b.ctx (at_ + n - 1) .write with
      | .error _ => none
      | .ok y =>
        let at' := (List.range n).map fun i => placeOf (if at_ % 4096 + i < 4096 then x.pa + i else y.pa + i + 1 - n)
        some (at', ((s1.marked b.core b.ctx y).updRcv blk fun r => { r with spill := r.spill + n }).updFly fun f =>
          { f with spills := f.spills ++ at'.zip bs })

/-- A byte of a spill area as a core reads it back: one on its way comes first (R203). -/
def State.spillByte (s : State) (place : Nat) : Byte :=
  match (s.fly.spills.filter fun b => b.1 == place).getLast? with
  | some b => b.2
  | none => s.mem.byte place

/-- A word of these places in a spill area is bad, where nothing on its way replaces it (R188, R383). -/
def State.spillBad (s : State) (places : List Nat) : Bool :=
  places.any fun p => (s.mem.uncorr p || s.mem.poisoned p) && !s.fly.spills.any fun b => b.1 == p

/-- The bytes of the spill areas that are on their way reach them. -/
def State.flushSpills (s : State) : State :=
  if s.fly.spills.isEmpty then s
  else (s.homeWrite s.fly.spills).updFly fun f => { f with spills := [] }

/-- 128 bytes and their mask, as a spill area holds a line (R202; DESIGN CHOICE, log 13). -/
def lineBytes (t : Tab Byte) : List Byte :=
  ((List.range 128).map fun i => Tab.get 0 t i) ++
    leBytes 16 ((List.range 128).foldl (fun n i => if Tab.has t i then n + 2 ^ i else n) 0) ++ List.replicate 8 0

/-- The prior value of a record as its bytes, the rest of its size zero; where it stands is known to the core (R202; DESIGN
CHOICE, log 13). -/
def PRec.bytes (r : PRec) : List Byte :=
  let bs := match r.val with
    | .reg v p e x => leBytes 4 v.toNat ++ leBytes 1 (p.toNat + 2 * e.toNat + 4 * x.toNat)
    | .fifo _ => []
    | .scratch v f => leBytes 4 v.toNat ++ leBytes 4 (f.getD 0)
    | .slot v _ => leBytes 16 v.toNat
    | .granule bs f => bs ++ leBytes 1 f
    | .acc bs _ c _ => bs ++ leBytes 4 c.toNat
    | .line t => lineBytes (Tab.mapVals t fun _ b => b.val)
    | .home t => lineBytes t
  (bs ++ List.replicate r.size 0).take r.size

/-- A prior value as its bytes in the spill area give it. -/
def RecVal.reread (v : RecVal) (bs : List Byte) : RecVal :=
  let num := fun o n => leNat ((bs.drop o).take n)
  let has := fun i => num 128 16 / 2 ^ i % 2 == 1
  match v with
  | .reg _ _ _ _ =>
    let f := num 4 1
    .reg (BitVec.ofNat 32 (num 0 4)) (f % 2 == 1) (f / 2 % 2 == 1) (f / 4 % 2 == 1)
  | .fifo ls => .fifo ls
  | .scratch _ f => .scratch (BitVec.ofNat 32 (num 0 4)) (f.map fun _ => num 4 4)
  | .slot _ old => .slot (BitVec.ofNat 128 (num 0 16)) old
  | .granule _ _ => .granule (bs.take 128) (num 128 1)
  | .acc _ row _ st => .acc (bs.take 128) row (BitVec.ofNat 32 (num 128 4)) st
  | .line t => .line (Tab.sub (t.map fun p => (p.1, { p.2 with val := bs.getD p.1 p.2.val })) fun i _ => has i)
  | .home t => .home (Tab.sub (t.map fun p => (p.1, bs.getD p.1 p.2)) fun i _ => has i)

/-- A record as a rollback reads it: one in the spill area is read back from there; none when it cannot be (R203, R383). -/
def State.reread (s : State) (r : PRec) : Option PRec :=
  if r.broken || s.spillBad r.at_ then none
  else if !r.spilled then some r
  else some { r with val := r.val.reread (r.at_.map s.spillByte) }

/-- The innermost scope fails for want of room (R203, R382). -/
def State.noRoom (s : State) (blk wib : Nat) : State := s.failScope blk (s.block blk).depth wib 0 rcResource

/-- The oldest record of a block in the store goes to its spill area (R203). -/
def State.spillOldest (s : State) (blk wib : Nat) : State :=
  match (s.block blk).rcv.recs.find? fun x => !x.spilled with
  | none => s
  | some x =>
    match s.spillTake blk x.bytes with
    | none => s.noRoom blk wib
    | some (at_, s1) =>
      s1.updRcv blk fun r => { r with
        recs := r.recs.map fun y => if y = x then { y with spilled := true, at_ := at_ } else y }

/-- While the store is over its 256 KiB, the block's oldest records are spilled. -/
def State.spillRecs (s : State) (blk wib : Nat) : Nat → State
  | 0 => s
  | n + 1 =>
    if s.storeUse (s.block blk).core ≤ 2 ^ 18 then s else (s.spillOldest blk wib).spillRecs blk wib n

/-- A location has a record at depth `d`. -/
def Recovery.has (r : Recovery) (d : Nat) (loc : RecLoc) : Bool := r.recs.any fun x => x.depth == d && x.loc == loc

/-- A record at depth `d`, unless the location has one there (R377). -/
def State.recordAt (s : State) (blk wib d : Nat) (loc : RecLoc) (val : RecVal) : State :=
  if d = 0 || (s.block blk).rcv.has d loc then s
  else
    let s1 := s.updRcv blk fun r => { r with recs := r.recs ++ [⟨d, loc, val, false, false, [], false⟩] }
    s1.spillRecs blk wib 20

/-- A first write of the innermost scope makes a record (R377). -/
def State.record (s : State) (blk wib : Nat) (loc : RecLoc) (val : RecVal) : State :=
  s.recordAt blk wib (s.block blk).depth loc val

/-- A home record gains the bytes that the scope had not written before (R378). -/
def recordHomeLine (m : Memory) (line : Nat) (places : List Nat) (old : Tab Byte) : Tab Byte :=
  places.foldl (fun t p => if p / 128 = line && !Tab.has t (p % 128) then Tab.put t (p % 128) (m.byte p) else t) old

/-- One home line's record before a write of these places at depth `d`. -/
def State.recordHome1 (s : State) (blk wib d line : Nat) (places : List Nat) : State :=
  if (s.block blk).rcv.has d (.home line) then
    s.updRcv blk fun r => { r with recs := r.recs.map fun x =>
      match x.val with
      | .home t =>
        if x.depth = d ∧ x.loc = .home line then { x with val := .home (recordHomeLine s.mem line places t) } else x
      | _ => x }
  else s.recordAt blk wib d (.home line) (.home (recordHomeLine s.mem line places []))

/-- The home records before an immediate or engine write of these places by work of depth `d` (R226, R378). -/
def State.recordHome (s : State) (blk wib d : Nat) (places : List Nat) : State :=
  if d = 0 then s
  else ((places.map (· / 128)).eraseDups).foldl (fun s line => s.recordHome1 blk wib d line places) s

/-- A write at the homes by a block's work of depth `d`, recorded first. -/
def State.homeWriteFor (s : State) (blk wib d : Nat) (bs : List (Nat × Byte)) (own : Author := .other) : State :=
  ((s.recordHome blk wib d (bs.map Prod.fst)).l2Write (s.block blk).ctx (bs.map Prod.fst)).homeWrite bs own

end Sys2Proof.Machine
end

