-- ==== Sys2Proof/Machine/Cache.lean ====
section
/-! DEFINITION. The L1 of a core: fills, stores, write-backs, publishes, adopts, held bytes, eviction (R188, R195, R197,
R203, R207 to R216, R222, R223, R225, R378, R410, R462). -/

namespace Sys2Proof.Machine

/-- The key of the L1 line of a context's virtual address. -/
def lineKey (ctx va : Nat) : Nat := ctx * 2 ^ 41 + va % 2 ^ 48 / 128

/-- The context of a line's key. -/
def keyCtx (key : Nat) : Nat := key / 2 ^ 41

/-- The virtual address of a line's key. -/
def keyVa (key : Nat) : Nat := key % 2 ^ 41 * 128

/-- The set of a line: virtual address bits 15:7 (DEDUCED, log 11). -/
def keySet (key : Nat) : Nat := key % 512

/-- The cache ways of a core, without those that a SWAYS turns to scratch (R196, R249); at least one (log 11). -/
def Core.cacheWays (c : Core) : List Nat :=
  match (List.range 16).filter fun w => !((c.scratch ||| c.sways.foldl (fun m x => m ||| x.ways) 0).getLsbD w) with
  | [] => [0]
  | ws => ws

/-- A line of a core's L1. -/
def State.line (s : State) (core key : Nat) : L1Line := Tab.get L1Line.blank (s.core core).l1 key

/-- The state with a line of a core's L1 changed. -/
def State.updLine (s : State) (core key : Nat) (f : L1Line → L1Line) : State :=
  s.updCore core fun c => { c with l1 := Tab.put c.l1 key (f (Tab.get L1Line.blank c.l1 key)) }

/-- A line's bytes that are dirty and that no scope holds: offset, value, launch (R211). -/
def L1Line.loose (l : L1Line) : List (Nat × Byte × Nat) :=
  l.bytes.filterMap fun p =>
    match p.2.dirty, p.2.holder with
    | some d, none => some (p.1, p.2.val, d.2)
    | _, _ => none

/-- The 32-byte words in which bytes at these offsets are lost to an error of the L1 (R188). -/
def L1Line.lost (l : L1Line) (offs : List Nat) : BitVec 4 :=
  BitVec.ofNat 4 ((List.range 4).foldl (fun n i =>
    if offs.any fun o => o / 32 == i && l.bad.getLsbD (o / 8) then n + 2 ^ i else n) 0)

/-- The line with only some of its bytes; an error and poison go with the bytes of their word. -/
def L1Line.keep (l : L1Line) (p : Nat → L1Byte → Bool) : L1Line :=
  let bytes := Tab.sub l.bytes p
  { l with
    bytes := bytes
    pois := l.pois &&& BitVec.ofNat 4 ((List.range 4).foldl (fun n i =>
      if bytes.any fun b => b.1 / 32 == i then n + 2 ^ i else n) 0)
    bad := l.bad &&& BitVec.ofNat 16 ((List.range 16).foldl (fun n i =>
      if bytes.any fun b => b.1 / 8 == i then n + 2 ^ i else n) 0) }

/-- What a read of a byte of the L1 meets: an error of its own word, or poison (R188, R196). -/
def L1Line.trouble (l : L1Line) (off : Nat) : Option Cause :=
  if l.bad.getLsbD (off / 8) then some .uncorrectable
  else if l.pois.getLsbD (off / 32) then some .poison
  else none

/-- The line with its dirty unheld bytes clean. -/
def L1Line.cleaned (l : L1Line) : L1Line :=
  { l with bytes := Tab.mapVals l.bytes fun _ b => if b.holder.isNone then { b with dirty := none } else b }

/-- A byte is held. -/
def L1Line.hasHeld (l : L1Line) : Bool := l.bytes.any fun p => p.2.holder.isSome

/-- The write-backs of one line of a core on their way, oldest first. -/
def State.inFlight (s : State) (core key : Nat) : Tab PubLine :=
  Tab.sub s.fly.lines fun _ l => l.core == core && l.ctx == keyCtx key && l.va == keyVa key

/-- Ends every reservation of the core's threads (R218, R244). -/
def State.endResv (s : State) (core : Nat) : State :=
  s.mapWaves (fun _ w => (s.block w.block).core == core) fun w => { w with resv := [] }

/-- A line's dirty unheld bytes leave the core, for a publish or as a write-back of their own (R197, R211). -/
def State.capture (s : State) (core key : Nat) (pub : Option Nat) : State :=
  let l := s.line core key
  if l.loose.isEmpty then s
  else
    let (id, s1) := s.named
    let s2 := s1.updFly fun f => { f with
      lines := Tab.put f.lines id ⟨pub, core, keyCtx key, keyVa key, l.loose, l.lost (l.loose.map Prod.fst)⟩
      publishes := match pub with
        | none => f.publishes
        | some p => Tab.upd f.publishes p fun x => { x with lines := x.lines ++ [id] } }
    s2.updLine core key L1Line.cleaned

/-- The oldest publish of a core that is not complete (R211). -/
def State.oldestPublish (s : State) (core : Nat) : Option Nat :=
  (s.fly.publishes.find? fun p => p.2.core == core).map Prod.fst

/-- A core's publishes complete in order (R211). -/
def settleAux (core : Nat) : Tab Publish → Tab Publish
  | [] => []
  | (k, p) :: ps =>
    if p.core = core then (if p.lines.isEmpty && p.crossed.isEmpty then settleAux core ps else (k, p) :: ps)
    else (k, p) :: settleAux core ps

/-- The state after a core's complete publishes are done. -/
def State.settle (s : State) (core : Nat) : State := s.updFly fun f => { f with publishes := settleAux core f.publishes }

/-- A publish of a core, for a wave or implicit: every dirty byte that no scope holds is captured; it completes after the
core's earlier write-backs (R210, R211, R220, R245). -/
def State.publish (s : State) (core : Nat) (wave : Option Nat) : State :=
  let (id, s1) := s.named
  let earlier := (s1.fly.lines.filter fun p => p.2.core == core && p.2.publish.isNone).map Prod.fst
  let s2 := s1.updFly fun f => { f with publishes := Tab.put f.publishes id ⟨core, wave, earlier, []⟩ }
  let s3 := (Tab.keys (s2.core core).l1).foldl (fun s k => s.capture core k (some id)) s2
  (s3.settle core).endResv core

/-- A publish of the wave is not yet complete (R212). -/
def State.publishing (s : State) (wave : Nat) : Bool := s.fly.publishes.any fun p => p.2.wave == some wave

/-- The adopt of a core: every byte neither dirty nor held is discarded, and the instruction lines with them (R67, R213). -/
def State.adopt (s : State) (core : Nat) : State :=
  let s1 := s.updCore core fun c => { c with
    icache := []
    l1 := (Tab.mapVals c.l1 fun _ l => { l.keep fun _ b => b.dirty.isSome || b.holder.isSome with read := false }).filter
      fun p => !p.2.bytes.isEmpty }
  s1.endResv core

/-- Every resident block of a core sees its snapshot broken (R114, R215). -/
def State.snapBroken (s : State) (core : Nat) : State :=
  { s with blocks := Tab.mapVals s.blocks fun _ b =>
    if b.core == core && b.st.resident then { b with rcv := { b.rcv with broken := true } } else b }

/-- An implicit adopt (R215). -/
def State.implicitAdopt (s : State) (core : Nat) : State := (s.adopt core).snapBroken core

/-- The blocks that hold bytes of a line. -/
def L1Line.holders (l : L1Line) : List Nat := (l.bytes.filterMap fun p => p.2.holder.map Prod.fst).eraseDups

/-- The bytes of a line that a block holds. -/
def L1Line.heldBy (l : L1Line) (blk : Nat) : Tab Byte :=
  l.bytes.filterMap fun p => if p.2.holder.any fun h => h.1 == blk then some (p.1, p.2.val) else none

/-- The held bytes of a line that is in spill areas, read back from there; a word that cannot be read is bad (R188, R203,
R225). -/
def State.readBack (s : State) (l : L1Line) : L1Line :=
  if !l.out then l
  else
    let at_ := fun (h : Nat × Nat) i => (Tab.get [] l.outAt h.1)[i]?
    let place := fun (p : Nat × L1Byte) => p.2.holder.bind fun h => at_ h p.1
    { l with
      out := false
      outAt := []
      bytes := l.bytes.map fun p => (p.1, match place p with
        | some q => { p.2 with val := s.spillByte q }
        | none => p.2)
      bad := l.bad ||| BitVec.ofNat 16 ((List.range 16).foldl (fun n i =>
        if l.bytes.any fun p => p.1 / 8 == i && (place p).any fun q => s.spillBad [q] then n + 2 ^ i else n) 0) }

/-- A line leaves the L1: its dirty unheld bytes are written back, its held bytes go to their blocks' spill areas. No wave
raises the failure of a spill that finds no room: RCAUSE names wave 0 (R197, R203; DESIGN CHOICE, log 65). -/
def State.evictLine (s : State) (core key : Nat) : State :=
  let l := s.line core key
  let s1 := s.capture core key none
  if !l.hasHeld then s1.updCore core fun c => { c with l1 := Tab.del c.l1 key }
  else
    let s2 := s1.updLine core key fun l => { l.keep fun _ b => b.holder.isSome with out := true, read := false, outAt := [] }
    l.holders.foldl (fun s b =>
      let s' := s.updRcv b fun r => { r with spilled := true }
      match s'.spillTake b (lineBytes (l.heldBy b)) with
      | some (at_, s'') => s''.updLine core key fun l => { l with outAt := Tab.put l.outAt b at_ }
      | none => s'.noRoom b 0) s2

/-- How soon a line not read in the phase is replaced, by its cache policy: bypass and stream before default, keep last
(R71, R206; log 60). -/
def cpRank (cp : Nat) : Nat := if cp = 3 then 0 else if cp = 1 then 1 else if cp = 2 then 3 else 2

/-- A line that goes before another: by policy, then the one used least recently. -/
def L1Line.goesBefore (x y : L1Line) : Bool :=
  decide (cpRank x.cp < cpRank y.cp) || (cpRank x.cp == cpRank y.cp && decide (x.used ≤ y.used))

/-- The listed line that goes first of those that satisfy a condition. -/
def oldestLine (before : L1Line → L1Line → Bool) (p : L1Line → Bool) : Tab L1Line → Option (Nat × L1Line)
  | [] => none
  | (k, l) :: ls =>
    match oldestLine before p ls with
    | none => if p l then some (k, l) else none
    | some x => if p l && before l x.2 then some (k, l) else some x

/-- The lines of a core in the set of a key, without the key's own. -/
def Core.setOf (c : Core) (key : Nat) : Tab L1Line :=
  c.l1.filter fun p => keySet p.1 == keySet key && !p.2.out && p.1 != key

/-- Room for a line in its set: lines read in the phase stay before others; when all are, the least recently used one
goes and the core adopts (R215). -/
def State.makeRoom (s : State) (core key : Nat) : State :=
  let c := s.core core
  let set := c.setOf key
  if set.length < c.cacheWays.length then s
  else match oldestLine L1Line.goesBefore (fun l => !l.read) set with
    | some (k, _) => s.evictLine core k
    | none => match oldestLine (fun x y => decide (x.used ≤ y.used)) (fun _ => true) set with
      | some (k, _) => (s.evictLine core k).implicitAdopt core
      | none => s

/-- The ways of a set that no line is in. -/
def Core.freeWays (c : Core) (key : Nat) : List Nat :=
  c.cacheWays.filter fun w => !((c.setOf key).any fun p => p.2.way == w)

/-- A line is in the L1, in a way of its set that was free, and was used last; which of several free ways is a free value
(R196; log 4). -/
def State.allocate (s : State) (core key : Nat) : State :=
  let here := match Tab.find (s.core core).l1 key with
    | some l => !l.out
    | none => false
  let s1 := if here then s else s.makeRoom core key
  let (n, s2) := s1.named
  let ways := (s2.core core).freeWays key
  let way := ways.getD (Config.choice 29 n ways.length % ways.length) 0
  s2.updLine core key fun l => { s2.readBack l with used := n, way := if here then l.way else way }

/-- The value of a home byte as the core sees it: its own write-backs on their way come first (R208). -/
def State.behind (s : State) (core key off place : Nat) : Byte :=
  match ((s.inFlight core key).filterMap fun p => (p.2.bytes.find? fun b => b.1 == off).map fun b => b.2.1).getLast? with
  | some v => v
  | none => s.mem.byte place

/-- The bytes of a 32-byte word of a line that a fill would bring. -/
def L1Line.lacks (l : L1Line) (word : Nat) : Bool := (List.range 32).any fun j => !Tab.has l.bytes (32 * word + j)

/-- The poisoned 32-byte words of a line that a fill brings (R188). -/
def fillPois (m : Memory) (l : L1Line) (place : Nat) : BitVec 4 :=
  BitVec.ofNat 4 ((List.range 4).foldl (fun n i =>
    if l.lacks i && m.poisoned (place + 32 * i) then n + 2 ^ i else n) 0)

/-- An uncorrectable word at its home becomes a poisoned one, which its vault counts (R188, R412). -/
def State.poisonWord (s : State) (place : Nat) : State :=
  { s with mem := { s.mem with
      bad := Tab.del s.mem.bad (place / 32)
      pois := Tab.put s.mem.pois (place / 32) true } }.updVault (vaultOf place) fun v =>
    { v with poison := satAdd 32 v.poison 1 }

/-- The uncorrectable words of a line that a fill is about to bring and that no lane needs become poisoned, each with a
note of the launch (R188). -/
def State.poisonFill (s : State) (core key place launch : Nat) (need : Nat → Bool) : State :=
  (List.range 4).foldl (fun s i =>
    let p := place + 32 * i
    if s.mem.uncorr p && (s.line core key).lacks i && !need p then (s.poisonWord p).noteDi launch else s) s

/-- A merging fill of a line from its home place: only invalid bytes are brought, and none of an uncorrectable word
(R188, R197, R214). -/
def State.fill (s : State) (core key place : Nat) : State :=
  let s0 := s.allocate core key
  let l := s0.line core key
  if (List.range 128).all fun i => Tab.has l.bytes i then s0.updLine core key fun l => { l with read := true }
  else
    let bytes : Tab L1Byte := (List.range 128).filterMap fun i =>
      match Tab.find l.bytes i with
      | some b => some (i, b)
      | none =>
        if s0.mem.uncorr (place + i) then none else some (i, ⟨s0.behind core key i (place + i), none, none⟩)
    (s0.updLine core key fun l =>
      { l with bytes := bytes, read := true, pois := l.pois ||| fillPois s0.mem l place }).l2Read (keyCtx key) [place]

/-- A byte of the L1, after the fill that it may need; `place` is the place of its line. -/
def State.l1Read (s : State) (core ctx va place : Nat) : Byte × Option Cause × State :=
  let key := lineKey ctx va
  let off := va % 128
  let hit := match Tab.find (s.core core).l1 key with
    | some l => !l.out && Tab.has l.bytes off
    | none => false
  let s1 := if hit then s.updLine core key fun l => { l with read := true } else s.fill core key place
  let l := s1.line core key
  (((Tab.find l.bytes off).map (·.val)).getD 0, l.trouble off, s1)

/-- What the record of a line needs before the first ordinary store of a scope: the dirty unheld bytes are written back;
in a sitting round the line is filled (R378). -/
def State.recordLine (s : State) (core key place blk wib : Nat) : State :=
  let b := s.block blk
  if b.depth = 0 || b.rcv.has b.depth (.line core key) then s
  else
    let s1 := s.capture core key none
    let s2 := if b.rcv.inRound then (s1.poisonFill core key place b.launch fun _ => false).fill core key place else s1
    s2.record blk wib (.line core key) (.line (s2.line core key).bytes)

/-- One stored byte: valid and dirty; held by its holder, or by the storing block in a scope that is no sitting round
(R197, R225, R227, R462). -/
def storedByte (old : Option L1Byte) (v : Byte) (ctx launch blk depth : Nat) (hold : Bool) : L1Byte :=
  match old.bind (·.holder) with
  | some h => ⟨v, some (ctx, launch), some h⟩
  | none => ⟨v, some (ctx, launch), if hold then some (blk, depth) else none⟩

/-- A store of one byte into the L1 by a wave of a block (R197). -/
def State.l1Write (s : State) (core ctx va place blk wib : Nat) (v : Byte) : State :=
  let key := lineKey ctx va
  let off := va % 128
  let b := s.block blk
  let s1 := (s.allocate core key).recordLine core key place blk wib
  let hold := decide (b.depth ≠ 0) && !b.rcv.inRound
  let s2 := s1.updLine core key fun l =>
    { l with bytes := Tab.put l.bytes off (storedByte (Tab.find l.bytes off) v ctx b.launch blk b.depth hold) }
  if hold then s2.updRcv blk fun r => { r with held := true } else s2

/-- The 32-byte words that an instruction stored whole are poisoned no longer, and the 8-byte words are good (R188). -/
def State.l1Clear (s : State) (core ctx : Nat) (vas : List Nat) : State :=
  let whole := fun n => vas.filter fun va => va % n == 0 && (List.range n).all fun i => vas.contains (va + i)
  let upd := fun (s : State) (va : Nat) (f : L1Line → L1Line) =>
    s.updCore core fun c => { c with l1 := Tab.upd c.l1 (lineKey ctx va) f }
  let s1 := (whole 32).foldl (fun s va => upd s va fun l =>
    { l with pois := l.pois &&& ~~~(BitVec.ofNat 4 (2 ^ (va % 128 / 32))) }) s
  (whole 8).foldl (fun s va => upd s va fun l =>
    { l with bad := l.bad &&& ~~~(BitVec.ofNat 16 (2 ^ (va % 128 / 8))) }) s1

/-- Some block's open scope holds a byte of `n` from an address in a core's L1 (R216, R397). -/
def State.heldAt (s : State) (core ctx va n : Nat) : Bool :=
  (List.range n).any fun i =>
    match Tab.find (s.line core (lineKey ctx (va + i))).bytes ((va + i) % 128) with
    | some b => b.holder.isSome
    | none => false

/-- Words of a line at its home whose bytes were lost become poisoned, and the vault counts them (R188, R412). -/
def State.lostWords (s : State) (place : Nat) (lost : BitVec 4) : State :=
  if lost = 0 then s
  else { s with mem := { s.mem with
      pois := (List.range 4).foldl (fun t i =>
        if lost.getLsbD i then Tab.put t ((place + 32 * i) / 32) true else t) s.mem.pois } }.updVault (vaultOf place) fun v =>
    { v with poison := satAdd 32 v.poison (((List.range 4).filter fun i => lost.getLsbD i).length) }

/-- Dirty bytes of a line of a core go to the home ahead of an immediate access; `o` is the access's offset in the line, and
`place` gives the places of its bytes (R216). -/
def State.yieldDirty (s : State) (ctx o : Nat) (place : Nat → Nat) (l : L1Line) (dirty : List (Nat × Byte × Nat))
    (core : Nat) : State :=
  if dirty.isEmpty then s else
    let bs := dirty.map fun b => (place (b.1 - o), b.2.1)
    ((s.homeWrite bs (.core core)).l2Write ctx (bs.map Prod.fst)).lostWords (place 0 - o) (l.lost (dirty.map Prod.fst))

/-- Bytes of a line that a newer value has passed on its way home leave the core's earlier write-backs of it (R208, R216;
log 61). -/
def State.overtake (s : State) (core key : Nat) (offs : List Nat) : State :=
  s.updFly fun f => { f with lines := Tab.mapVals f.lines fun _ x =>
    if x.core == core && x.ctx == keyCtx key && x.va == keyVa key then
      { x with bytes := x.bytes.filter fun b => !offs.contains b.1 }
    else x }

/-- The latest value of a byte of a line that a write-back outside a publish has on its way (R216, R248). -/
def State.evicted (s : State) (core key off : Nat) : Option (Nat × Byte × Nat) :=
  (((s.inFlight core key).filter fun p => p.2.bytes.any fun b => b.1 == off).getLast?.filter fun p =>
    p.2.publish.isNone).bind fun p => p.2.bytes.find? fun b => b.1 == off

/-- The bytes of a line from offset `o` on that go to the home ahead of an immediate access: its dirty ones, and those of
the core's write-backs outside a publish (R216; log 61). -/
def State.aheadOf (s : State) (core key o n : Nat) (l : L1Line) : List (Nat × Byte × Nat) :=
  (List.range n).filterMap fun j => (l.loose.find? fun b => b.1 == o + j).orElse fun _ => s.evicted core key (o + j)

/-- The core's own copy of bytes before an immediate access: dirty bytes go to the home ahead of it, and the copy becomes
invalid (R216). -/
def State.yieldBytes (s : State) (core ctx va n : Nat) (place : Nat → Nat) : State :=
  let key := lineKey ctx va
  let o := va % 128
  let l := s.line core key
  let dirty := s.aheadOf core key o n l
  let s1 := (s.overtake core key (dirty.map Prod.fst)).yieldDirty ctx o place l dirty core
  s1.updCore core fun c => { c with l1 := Tab.upd c.l1 key fun l => l.keep fun i _ => !(decide (o ≤ i) && decide (i < o + n)) }

/-- A class 1 note of each launch named (R283). -/
def State.noteProg (s : State) (ls : List Nat) : State :=
  ls.foldl (fun s l => s.updLaunch l fun x => { x with nprog := satAdd 8 x.nprog 1 }) s

/-- The pair of two dies (R9). -/
def bridgeOf (a b : Nat) : Nat :=
  match min a b, max a b with
  | 0, 1 => 0 | 0, 2 => 1 | 0, 3 => 2 | 1, 2 => 3 | 1, 3 => 4 | _, _ => 5

/-- The die of a core (R8). -/
def coreDie (core : Nat) : Nat := core / 64

/-- The fence counter that a core's packets to a die pass (R223). -/
def fenceKey (core die : Nat) : Nat := core * 2 + (if die < coreDie core then 1 else 0)

/-- A bridge of the device. -/
def State.bridge (s : State) (n : Nat) : Bridge := Tab.get Bridge.reset s.dev.bridges n

/-- The state with a bridge changed. -/
def State.updBridge (s : State) (n : Nat) (f : Bridge → Bridge) : State :=
  s.updDev fun d => { d with bridges := Tab.put d.bridges n (f (Tab.get Bridge.reset d.bridges n)) }

/-- A captured line may merge: nothing of its line left the core earlier, and its publish is the core's oldest
(R207, R211). -/
def State.mayMerge (s : State) (id : Nat) (l : PubLine) : Bool :=
  ((s.inFlight l.core (lineKey l.ctx l.va)).all fun p => decide (id ≤ p.1)) &&
  (match l.publish with
    | none => true
    | some p => s.oldestPublish l.core == some p)

/-- A captured line leaves the core: translated now, discarded where no write is allowed, merged at its home else;
a line of another die counts at its bridge. Bytes that cover a whole 32-byte word clear its poison, several stores' too
(R188, R207, R211, R222, R223, R283; DESIGN CHOICE, log 65). -/
def State.mergeLine (s : State) (id : Nat) (l : PubLine) : State :=
  let drop := fun (s : State) => s.updFly fun f => { f with
    lines := Tab.del f.lines id
    publishes := Tab.mapVals f.publishes fun _ p => { p with lines := p.lines.filter (· != id) } }
  match s.unitXlate l.core l.ctx l.va .write with
  | .error _ => ((drop s).noteProg (l.bytes.map fun b => b.2.2).eraseDups).settle l.core
  | .ok x =>
    let place := placeOf x.pa
    let bs := l.bytes.map fun b => (place + b.1, b.2.1)
    let s1 := (((s.marked l.core l.ctx x).homeWrite bs (.core l.core)).l2Write l.ctx (bs.map Prod.fst)).lostWords place l.pois
    let die := dieOf place
    let s2 := drop s1
    match l.publish with
    | none => s2.settle l.core
    | some p =>
      if die = coreDie l.core || die > 3 then s2.settle l.core
      else
        let s3 := s2.updFly fun f => { f with
          publishes := Tab.upd f.publishes p fun x => { x with crossed := Tab.put x.crossed die (Tab.get 0 x.crossed die + 1) } }
        (s3.updBridge (bridgeOf (coreDie l.core) die) fun b =>
          { b with counts := Tab.put b.counts (fenceKey l.core die) (Tab.get 0 b.counts (fenceKey l.core die) + 1) })

end Sys2Proof.Machine
end

