-- ==== Sys2Proof/Machine/Life.lean ====
section
/-! DEFINITION. How waves, blocks, leases, capabilities and contexts end (R12, R20, R24, R220, R304, R305, R338 to R340,
R355, R392). -/

namespace Sys2Proof.Machine

/-- The operating class at which a core runs: held at 0 under the cap or after a junction trip, boosted while a lease of
its pool runs, its pool's class else (R116, R190, R338, R423). -/
def State.coreClass (s : State) (core : Nat) : Nat :=
  let c := s.cluster (core / 8)
  if (s.core core).capped || s.dev.trip then 0 else if c.boost ≠ 0 then c.boost else c.pool

/-- The clusters of a pool. -/
def State.poolClusters (s : State) (cls : Nat) : List Nat := (List.range 32).filter fun c => (s.cluster c).pool == cls

/-- A cluster's operating point changes: its cores issue nothing until the move completes, and BANK_GRANTS returns to 12
(R116, R325). -/
def State.movePoint (s : State) (cluster : Nat) (f : Cluster → Cluster) : State :=
  let s1 := s.updCluster cluster fun c => { f c with moving := true }
  (List.range 8).foldl (fun s g => s.updCore (cluster * 8 + g) fun c => { c with grants := 12, written := 12, ramp := 0, started := 0 }) s1

/-- A pool's clusters run at class `boost`, or at the pool's own class for 0 (R338). -/
def State.setBoost (s : State) (cls boost : Nat) : State :=
  (s.poolClusters cls).foldl (fun s c =>
    if (s.cluster c).boost = boost then s else s.movePoint c fun x => { x with boost := boost }) s

/-- Another launch's lease runs in the pool. -/
def State.leaseRuns (s : State) (pool : Nat) : Bool :=
  s.launches.any fun p => decide (p.2.lease > 0) && p.2.leasePool == pool

/-- The class at which a cluster that joins a pool runs: boosted as the pool is while a lease of it runs (R338). -/
def State.poolBoost (s : State) (pool : Nat) : Nat :=
  match s.poolClusters pool with
  | c :: _ => (s.cluster c).boost
  | [] => (s.launches.find? fun p => decide (p.2.lease > 0) && p.2.leasePool == pool).elim 0 fun p => p.2.leaseCls

/-- A launch's lease ends and its remaining time returns to the pool's budget (R338, R339). -/
def State.dropLease (s : State) (launch : Nat) : State :=
  let l := s.launch launch
  if l.lease = 0 then s
  else
    let s1 := (s.updLaunch launch fun l => { l with lease := 0, leaseCls := 0 }).updDev fun d =>
      { d with budgets := Tab.put d.budgets l.leasePool (Tab.get 0 d.budgets l.leasePool + l.lease) }
    if s1.leaseRuns l.leasePool then s1 else s1.setBoost l.leasePool 0

/-- A capability entry after its generation rose: free, or retired at 4,095 (R355). -/
def Cap.bumped (c : Cap) : Cap := { c with gen := c.gen + 1, kind := if c.gen + 1 ≥ 4095 then 3 else 0 }

/-- A capability in force. -/
def Cap.live (c : Cap) : Bool := c.kind == 1 || c.kind == 2

/-- The capability entries that satisfy a condition get a new generation, and their contexts hold fewer (R355). -/
def State.revokeIf (s : State) (p : Cap → Bool) : State :=
  let hit := s.dev.caps.filter fun x => x.2.live && p x.2
  let s1 := s.updDev fun d =>
    { d with caps := Tab.mapVals d.caps fun _ c => if c.live && p c then c.bumped else c }
  hit.foldl (fun s x => s.updCtx x.2.ctx fun c => { c with caps := c.caps - 1 }) s1

/-- The name that work keeps of a wave that has ended: its handle beyond every key. -/
def deadRef (h : Word) : Nat := 2 ^ 32 + h.toNat

/-- The WAVE_H behind a reference. -/
def State.refHandle (s : State) (ref : Nat) : Nat := if ref ≥ 2 ^ 32 then ref - 2 ^ 32 else (s.wave ref).handle.toNat

/-- Work on its way forgets a wave that ends: nothing is delivered to it any more (R93, R252). -/
def Flight.forget (f : Flight) (k : Nat) (h : Word) : Flight :=
  let r := fun n => if n = k then deadRef h else n
  { f with
    results := (Tab.sub f.results fun _ x => x.wave != k || x.entry.isSome).map fun p =>
      (p.1, if p.2.wave = k then { p.2 with wave := deadRef h, writes := [], bad := [], owes := [] } else p.2)
    publishes := Tab.mapVals f.publishes fun _ x => if x.wave = some k then { x with wave := none } else x
    arrivals := Tab.mapVals f.arrivals fun _ x => { x with wave := r x.wave }
    pushes := Tab.sub f.pushes fun _ x => x.yoke != k && x.compute != k
    revokes := Tab.mapVals f.revokes fun _ x => { x with wave := r x.wave }
    copies := Tab.mapVals f.copies fun _ x => { x with slices := x.slices.map fun y => { y with wave := r y.wave } }
    tiles := Tab.mapVals f.tiles fun _ x => { x with wave := r x.wave }
    sd := Tab.mapVals f.sd fun _ x => { x with wave := r x.wave }
    heap := Tab.mapVals f.heap fun _ x => { x with wave := r x.wave }
    shadows := Tab.mapVals f.shadows fun _ x => { x with wave := r x.wave } }

/-- The waves that a core's selector keeps, without one; the oldest pending wave takes a free active place (R326). -/
def Core.leave (c : Core) (k : Nat) : Core :=
  let a := c.active.filter (· != k)
  let p := c.pending.filter fun x => x.1 != k
  let n := Tab.del c.issued k
  match p with
  | [] => { c with active := a, pending := p, issued := n }
  | x :: xs =>
    if a.length < 8 then { c with active := a ++ [x.1], pending := xs, issued := Tab.del n x.1 }
    else { c with active := a, pending := p, issued := n }

/-- A wave enters a core's selector (R326). -/
def Core.enter (c : Core) (k : Nat) : Core :=
  if c.active.length < 8 then { c with active := c.active ++ [k], issued := Tab.del c.issued k } else { c with pending := c.pending ++ [(k, 0)] }

/-- One wave ends (R12, R355, R358). -/
def State.endWave1 (s : State) (k : Nat) : State :=
  let w := s.wave k
  let core := s.coreOf k
  let s1 := s.revokeIf fun c => c.owner == w.handle
  let s2 := s1.updBlock w.block fun b => { b with waves := b.waves.filter (· != k) }
  let s3 := s2.updCore core fun c => c.leave k
  { s3 with
    waves := Tab.del s3.waves k
    cores := Tab.mapVals s3.cores fun _ c => { c with
      sways := c.sways.map fun x => if x.wave = k then { x with wave := deadRef w.handle } else x }
    fly := s3.fly.forget k w.handle
    dev := { s3.dev with locs := Tab.del s3.dev.locs k } }

/-- The wave of a block with this WAVE_IN_BLOCK, if it lives. -/
def State.waveIn (s : State) (blk wib : Nat) : Option Nat := (s.block blk).waves.find? fun k => (s.wave k).wib == wib

/-- The supervisor's command in progress ends (R419). -/
def State.endCommand (s : State) (status : Nat) : State :=
  s.updDev fun d => { d with scmdBusy := false, scmdStatus := status }

/-- A block that the supervisor asked to be migrated will not be: the command is refused (R337, R419). -/
def State.dropWant (s : State) (blk : Nat) : State :=
  if (s.block blk).want.isSome then (s.updBlock blk fun b => { b with want := none }).endCommand 1 else s

/-- A block with no wave left drains: an implicit publish, and its HEAPGETs that wait are withdrawn (R24, R220). -/
def State.drain (s : State) (blk : Nat) : State :=
  let b := s.block blk
  if !b.waves.isEmpty || b.st != .running then s
  else
    let s1 := (s.dropWant blk).publish b.core none
    (s1.updBlock blk fun b => { b with st := .draining, drained := s1.serial }).updFly fun f =>
      { f with heap := Tab.sub f.heap fun _ h => h.block != blk }

/-- A wave ends, with its yokemate, and its block drains after its last wave (R10, R20, R23). -/
def State.endWave (s : State) (k : Nat) : State :=
  let w := s.wave k
  let mate := if w.wib < 32 then s.waveIn w.block (w.wib + 32) else none
  let s1 := s.endWave1 k
  let s2 := match mate with
    | some m => s1.endWave1 m
    | none => s1
  s2.drain w.block

/-- The completion entry of a launch (R304, R305). -/
def Launch.entry (l : Launch) (refused : Bool) : Entry :=
  let e := l.err.getD Err.none
  let notes := decide (l.ndi + l.nprog + l.nlink ≠ 0)
  ⟨l.ident32, if refused then 3 else if e.cls ≠ 0 then 2 else if notes then 1 else 0, e, 0, l.ndi, l.nprog, l.nlink, l.ctx⟩

/-- A launch ends: its lease ends, its route tags are free, its entry is written (R24, R305, R339, R360). -/
def State.endLaunch (s : State) (launch : Nat) (refused : Bool) : State :=
  let l := s.launch launch
  let s1 := s.dropLease launch
  let tags := l.groups.filterMap (·.tag)
  let s2 := s1.updDev fun d => { d with tags := tags.foldl (fun t n => t &&& ~~~(1#8 <<< n)) d.tags }
  let s3 := { s2 with launches := Tab.del s2.launches launch }
  if s.cqHolds l.ctx l.lpb.cq launch then s3.cqReport l.ctx l.lpb.cq (l.entry refused)
  else s3.cqPut l.ctx l.lpb.cq (l.entry refused)

/-- A block leaves the sitting it is a member of; in a round SKIP is set in frame 1 of every remaining member, and the restored
and ended members are those that remain (R391, R392). -/
def State.leaveSitting (s : State) (blk : Nat) : State :=
  match (s.block blk).rcv.sitting with
  | none => s
  | some n =>
    let s1 := s.updRcv blk fun r => { r with sitting := none }
    match Tab.find s1.dev.sits n with
    | none => s1
    | some x =>
      let m := x.members.filter (· != blk)
      let x' := { x with members := m, count := x.count - 1
                         opened := x.opened.filter (· != blk), accepted := x.accepted.filter (· != blk)
                         restored := x.restored.filter (· != blk), ended := x.ended.filter (· != blk) }
      let gone := decide (x'.count < 2) || m.isEmpty
      let s2 := s1.updDev fun d =>
        { d with sits := if gone then Tab.del d.sits n
                         else Tab.put d.sits n { x' with st := if x'.st = 1 && m.length = x'.count then 2 else x'.st } }
      let s3 := if 3 ≤ x.st then m.foldl (fun s b => s.updRcv b fun r =>
          if r.inRound then r.updFrame 1 fun f => { f with skip := true } else r) s2
        else s2
      if gone then m.foldl (fun s b => s.updRcv b fun r => { r with sitting := none }) s3 else s3

/-- A cluster whose cores are all idle is clock-gated, and its matrix engines stop (R324). -/
def State.gateIdle (s : State) (core : Nat) : State :=
  let cl := core / 8
  let s1 := if (s.blocksOn core).isEmpty then s.updCore core fun c => { c with ramp := 0, started := 0 } else s
  if (List.range 8).all fun g => (s.blocksOn (8 * cl + g)).isEmpty then
    s1.updCluster cl fun c => { c with gated := true }
  else s1

/-- The L1 of a core after a context's kill: its held bytes are gone, its other dirty bytes are on their way home (R340). -/
def State.killLines (s : State) (core ctx : Nat) : State :=
  let mine := (Tab.keys (s.core core).l1).filter fun k => keyCtx k == ctx
  mine.foldl (fun s k =>
    (s.updLine core k fun l => { l with bytes := Tab.sub l.bytes fun _ b => b.holder.isNone }).capture core k none) s

/-- The entries of a page whose park has not ended are as they were: the page is valid again (R283, R340, R387). -/
def State.unpark1 (s : State) (n : Nvme) : State :=
  s.homeWrite (n.old.flatMap fun e => placeBytes e.1 8 e.2)

/-- The Sheepdog commands that satisfy a condition stop at page granularity (R254, R340, R387). -/
def State.cancelSd (s : State) (p : SdCmd → Bool) : State :=
  let ids := (s.fly.sd.filter fun x => p x.2).map Prod.fst
  let mine := s.fly.nvme.filter fun x => ids.contains x.2.cmd
  (mine.foldl (fun s x => s.unpark1 x.2) s).updFly fun f => { f with
    sd := Tab.sub f.sd fun _ x => !p x
    nvme := Tab.sub f.nvme fun _ x => !ids.contains x.cmd }

/-- A context is killed, for the reason that its launches report (R340). -/
def State.kill (s : State) (ctx : Nat) (e : Err) : State :=
  -- step 1: its waves stop, its scopes end without restoring, its dirty unheld bytes are written back
  let s1 := (Tab.keys s.cores).foldl (fun s c => s.killLines c ctx) s
  let blks := (s1.blocks.filter fun p => p.2.ctx == ctx).map Prod.fst
  let mine := fun b => blks.contains b
  -- step 2: its engine work is cancelled; pages not yet parked stay valid
  let s2 := (s1.cancelSd fun x => x.ctx == ctx).updFly fun f => { f with
    results := Tab.sub f.results fun _ x => !mine x.block
    copies := Tab.sub f.copies fun _ x => !mine x.block
    tiles := Tab.sub f.tiles fun _ x => !mine x.block
    heap := Tab.sub f.heap fun _ x => !mine x.block
    shadows := Tab.sub f.shadows fun _ x => x.ctx != ctx
    -- step 3: arrivals on their way to its waves are reported GONE
    arrivals := Tab.mapVals f.arrivals fun _ x =>
      match x.outcome, Tab.find s1.dev.caps (x.cap.toNat % 2 ^ 20) with
      | none, some c => if c.ctx = ctx && c.live then { x with outcome := some 4 } else x
      | _, _ => x }
  let s3 := s2.revokeIf fun c => c.ctx == ctx
  -- step 4: images, slots, buffers and leases are freed
  let waves := (s3.waves.filter fun p => p.2.ctx == ctx).map Prod.fst
  let s4 := waves.foldl State.endWave1 s3
  let s5 := blks.foldl (fun s b => (s.leaveSitting b).dropWant b) s4
  let cores := (blks.map fun b => (s5.block b).core).eraseDups
  let s6 := cores.foldl State.gateIdle { s5 with blocks := Tab.sub s5.blocks fun k _ => !mine k }
  let s7 := s6.updCtx ctx fun c => { c with
    st := 2
    saves := []
    lqs := Tab.mapVals c.lqs fun _ q => { q with held := [] } }
  -- step 5: its launches report class 12
  let ls := (s7.launches.filter fun p => p.2.ctx == ctx).map Prod.fst
  ls.foldl (fun s l => (s.updLaunch l fun x => { x with err := some e }).endLaunch l false) s7

end Sys2Proof.Machine
end

