-- ==== Sys2Proof/Machine/Ops.lean ====
section
/-! DEFINITION. The operations that every instruction shares: registers, the checks before an instruction takes effect,
taking an exception and returning from one, results on their way (R63, R73 to R78, R84, R90 to R99, R365 to R369,
R382, R384, R411, R459). -/

namespace Sys2Proof.Machine

/-- How a step of an instruction ends. -/
abbrev Out : Type := Host.Outcome State Fault Refusal

/-! ### Program counters -/

/-- The counter after `pc` in sequential flow (R63). -/
def nextPc (pc : Ctr) : Ctr := if pc.extractLsb' 0 3 = 4#3 then pc + 60 else pc + 1

/-- The line address of a counter. -/
def lineOfPc (pc : Ctr) : Nat := pc.toNat / 64 * 64

/-- The slot of a counter. -/
def slotOfPc (pc : Ctr) : Nat := pc.toNat % 8

/-- A 64-bit value is a counter (R63). -/
def isCounter (v : DWord) : Bool := v.extractLsb' 48 16 == 0 && v.extractLsb' 3 3 == 0 && decide (v.toNat % 8 ≤ 4)

/-- A lane's program counter. -/
def Wave.pc (w : Wave) (l : Nat) : Ctr := Tab.get 0 w.pcs l

/-- Lanes of a wave transferred: each enters its line, its own one too, whose checks are due again (R64). -/
def Wave.setPcs (w : Wave) (m : Mask) (f : Nat → Ctr) : Wave :=
  { w with
    pcs := (Mask.lanes m).foldl (fun t l => Tab.put t l (f l)) w.pcs
    lineOk := w.lineOk &&& ~~~m }

/-- Lanes of a wave in sequential flow past `pc`: they enter a line only where it is the next one (R63, R64). -/
def Wave.stepPcs (w : Wave) (m : Mask) (pc : Ctr) : Wave :=
  { w.setPcs m fun _ => nextPc pc with lineOk := if lineOfPc (nextPc pc) = lineOfPc pc then w.lineOk else w.lineOk &&& ~~~m }

/-! ### Registers -/

/-- The key of a lane word. -/
def wordKey (r l : Nat) : Nat := r * 32 + l

/-- The word of a lane as written last. -/
def Wave.word (w : Wave) (r l : Nat) : Word := Tab.get 0 w.regs (wordKey r l)

/-- The issue position of a lane's path (R76). -/
def Wave.pos (w : Wave) (l : Nat) : Nat := Tab.get 0 w.ipos l

/-- A read of a word: the value, or, at less than a producer's latency, an old value or the new one, as the free constant
`Config.earlyRead` has it (R76; log 4); the distance counts in the positions of the lane's own path, whichever path reads (R165;
DESIGN CHOICE, log 65). -/
def Wave.read (w : Wave) (n r l : Nat) : Word :=
  match Tab.find w.window (wordKey r l) with
  | none => w.word r l
  | some old =>
    let late := (old.filter fun p => decide (w.pos l < p.2)).map Prod.fst
    if late.isEmpty then w.word r l
    else
      let c := late ++ [w.word r l]
      c.getD (Config.earlyRead n (wordKey r l) c.length % c.length) (w.word r l)

/-- A mask bit set. -/
def setBit (m : Mask) (l : Nat) : Mask := m ||| 1#32 <<< l

/-- A mask bit cleared. -/
def clrBit (m : Mask) (l : Nat) : Mask := m &&& ~~~(1#32 <<< l)

/-- One word written: its value, X cleared, check bits good, a prefetched copy invalid, and, for a latency above 1, the
old value kept until the new one is sure (R76, R91, R92, R96). Of two writers in flight, a read gives the value before the first or
that of the last (R78; DESIGN CHOICE, log 65). -/
def Wave.put1 (w : Wave) (lat : Nat) (r l : Nat) (v : Word) : Wave :=
  let key := wordKey r l
  { w with
    regs := Tab.set 0 w.regs key v
    pois := Tab.set 0 w.pois r (clrBit (Tab.get 0 w.pois r) l)
    ecc := Tab.set 0 w.ecc r (clrBit (Tab.get 0 w.ecc r) l)
    prefetch := w.prefetch.filter (· != r)
    window :=
      let old := (Tab.get [] w.window key).filter fun p => decide (w.pos l < p.2)
      Tab.set [] w.window key (if lat ≤ 1 then old else old ++ [(w.word r l, w.pos l + lat - 1)]) }

/-- Words written in order: register, lane, value. -/
def Wave.putWords (w : Wave) (lat : Nat) (ws : List (Nat × Nat × Word)) : Wave :=
  ws.foldl (fun w x => w.put1 lat x.1 x.2.1 x.2.2) w

/-- The record of a word before a write of it (R377). -/
def Wave.wordRec (w : Wave) (r l : Nat) : RecVal :=
  .reg (w.word r l) ((Tab.get 0 w.pend r).getLsbD l) ((Tab.get 0 w.expt r).getLsbD l) ((Tab.get 0 w.pois r).getLsbD l)

/-- First writes of words make records at the block's depth (R377). -/
def State.recordWords (s : State) (k : Nat) (ws : List (Nat × Nat)) : State :=
  let w := s.wave k
  if (s.block w.block).depth = 0 then s
  else ws.foldl (fun s x => s.record w.block w.wib (.reg k x.1 x.2) (w.wordRec x.1 x.2)) s

/-- Words of a wave written by an instruction (R377, R78). -/
def State.putWords (s : State) (k lat : Nat) (ws : List (Nat × Nat × Word)) : State :=
  (s.recordWords k (ws.map fun x => (x.1, x.2.1))).updWave k fun w => w.putWords lat ws

/-- The queue slot whose range holds a register (R99). -/
def Wave.queueAt (w : Wave) (r : Nat) : Option Nat :=
  (w.queues.find? fun q => decide (q.2.base ≤ r) && decide (r < q.2.base + q.2.depth)).map Prod.fst

/-! ### Faults, traps and return -/

/-- A fault that an instruction raises: its cause, TADDR where the spec gives one, the lanes struck, and whether TEPC is
the next counter (R367). -/
structure FaultInfo where
  cause : Cause
  addr : Option DWord
  mask : Mask
  next : Bool
  deriving DecidableEq, Repr

/-- A fault of the issuing counter. -/
def faultAt (cause : Cause) (addr : Option DWord) (mask : Mask) : FaultInfo := ⟨cause, addr, mask, false⟩

/-- Results within a fixed latency drain, and the operand queues empty (R78, R95, R96). -/
def Wave.drained (w : Wave) : Wave := { w with window := [], flagWin := [], prefetch := [], recent := [], phased := [], adopting := none }

/-- The wave at a trap's handler: one bank written, every live lane at the vector, which is checked at its first issue
(R66, R367). -/
def Wave.trapped (w : Wave) (cause : Cause) (deferred : Bool) (addr : DWord) (mask : Mask) (epc : Nat → Ctr) : Wave :=
  let t := w.trap.level
  let bank : TrapBank := ⟨BitVec.ofNat 32 (cause.code + if deferred then 256 else 0), addr, mask,
    (Mask.lanes w.live).foldl (fun m l => Tab.put m l (if mask.getLsbD l then epc l else w.pc l)) []⟩
  let vec : Ctr := BitVec.ofNat 48 (w.trap.vec.toNat % 2 ^ 48 / 64 * 64 + 64 * t)
  { w.drained with
    resv := []
    cwaits := []
    trap := if t = 0 then { w.trap with a := bank, level := 1 } else { w.trap with b := bank, level := 2 }
    pcs := (Mask.lanes w.live).foldl (fun m l => Tab.put m l vec) w.pcs
    lineOk := 0
    entering := w.live }

/-- TAKING A TRAP: at level 2 the context is killed; else the wave enters its handler (R340, R367). -/
def State.trap (s : State) (k : Nat) (cause : Cause) (deferred : Bool) (addr : DWord) (mask : Mask)
    (epc : Nat → Ctr) : State :=
  let w := s.wave k
  if w.trap.level ≥ 2 then
    s.kill w.ctx ⟨12, 0, s.coreOf k, w.trap.b.addr.toNat % 2 ^ 48, cause.code + 512⟩
  else s.updWave k fun w => w.trapped cause deferred addr mask epc

/-- The frame that takes a fault of a wave, if one does (R382). -/
def State.taker (s : State) (k : Nat) (cause : Cause) : Option Nat :=
  let w := s.wave k
  let b := s.block w.block
  if w.trap.level = 0 && cause != .recoveryNesting then selectFrame b.rcv cause b.depth else none

/-- A trap of cause RECOVERY_EXHAUSTED is the launch's error, recorded when it is raised (R303, R305). -/
def State.exhausted (s : State) (k : Nat) (cause : Cause) : State :=
  if cause = .recoveryExhausted then
    s.launchErr (s.block (s.wave k).block).launch ⟨8, 0, s.coreOf k, 0, 0⟩
  else s

/-- TAKING AN EXCEPTION: the innermost scope that selects the cause fails; else the wave traps (R367, R382). -/
def State.raise (s : State) (k : Nat) (cause : Cause) (deferred : Bool) (addr : DWord) (mask : Mask)
    (epc : Nat → Ctr) : State :=
  match s.taker k cause with
  | some d => s.failScope (s.wave k).block d (s.wave k).wib 0 cause.code
  | none => (s.exhausted k cause).trap k cause deferred addr mask epc

/-- A TADDR: the one given, or a free value where the spec states none (log 4). -/
def State.faultAddr (s : State) (a : Option DWord) : DWord :=
  a.getD (Config.freeWord 1 s.free ++ Config.freeWord 2 s.free)

/-- An instruction's fault, taken at its counter or, where the cause says so, at the next (R367). -/
def State.fault (s : State) (k : Nat) (pc : Ctr) (f : FaultInfo) : State :=
  (s.raise k f.cause false (s.faultAddr f.addr) f.mask fun _ => if f.next then nextPc pc else pc).drew

/-- RETURN FROM A TRAP: each live lane at its saved counter, one level down (R369). -/
def Wave.returned (w : Wave) : Wave :=
  let b := if w.trap.level = 1 then w.trap.a else w.trap.b
  let w1 := w.setPcs w.live fun l => Tab.get 0 b.epc l
  { w1 with lineOk := 0, trap := { w.trap with level := w.trap.level - 1 } }

/-- A wave owes a fault (R105, R233, R459). -/
def State.owe (s : State) (k : Nat) (f : OwedFault) : State := s.updWave k fun w => { w with owed := w.owed ++ [f] }

/-! ### Energy -/

/-- Energy units of a core, of a block or of none, and of a context (R192, R411, R412). -/
def State.spend (s : State) (core : Nat) (blk : Option Nat) (ctx units : Nat) : State :=
  let s1 := s.updCore core fun c => { c with
    units := c.units + units
    unitsOf := match blk with
      | some b => Tab.put c.unitsOf b (ctx, (Tab.get (ctx, 0) c.unitsOf b).2 + units)
      | none => c.unitsOf
    acct := { c.acct with energy := satAdd 64 c.acct.energy units } }
  s1.updCtx ctx fun c => { c with energy := satAdd 64 c.energy units }

/-- The weight of an event of R411. -/
def State.weight (s : State) (e : Nat) : Nat := Tab.get 0 s.dev.weights e

/-! ### Issue -/

/-- What an instruction needs before it takes effect: its header, the registers it reads and writes in the lanes of
ACTIVE, those it only names, those it reads across lanes (R165), those that only its range covers (R356), whether it is for context 0 alone, whether it is ELSEBY or ELSEERR, and whether its sources
may be bad (R247). -/
structure Need where
  h : Hdr
  srcs : List Nat
  dsts : List Nat
  names : List Nat := []
  cross : List Nat := []
  spans : List Nat := []
  sup : Bool := false
  chain : Bool := false
  lax : Bool := false
  deriving DecidableEq, Repr

/-- What the checks before an instruction's effect decide. -/
inductive Verdict where
  | go (act : Mask)
  | stall
  | fault (f : FaultInfo)
  deriving DecidableEq, Repr

/-- The register of an instruction's guard (R73). -/
def guardRegs (h : Hdr) : List Nat :=
  match h.guard with
  | some g => [g.reg.toNat]
  | none => []

/-- The registers that an instruction names: guard, sources, destinations. -/
def Need.regs (n : Need) : List Nat := guardRegs n.h ++ n.srcs ++ n.cross ++ n.dsts ++ n.names

/-- The lanes of a path in which the guard holds (R73). -/
def Wave.active (w : Wave) (n : Nat) (path : Mask) (h : Hdr) : Mask :=
  match h.guard with
  | none => path
  | some g => Mask.of fun l => path.getLsbD l && ((w.read n g.reg.toNat l).getLsbD 0 != g.neg)

/-- A register whose mask meets the lanes. -/
def hitReg (t : Tab Mask) (m : Mask) (rs : List Nat) : Option Nat := rs.find? fun r => Tab.get 0 t r &&& m != 0

/-- UNCORRECTABLE, then POISON, on words that lanes read: of several such registers the first in operand order, and its lanes
alone (R92, R123; DESIGN CHOICE, log 65). -/
def Wave.badRead (w : Wave) (m : Mask) (rs : List Nat) : Option FaultInfo :=
  match hitReg w.ecc m rs with
  | some r => some (faultAt .uncorrectable (some (BitVec.ofNat 64 r)) (Tab.get 0 w.ecc r &&& m))
  | none => match hitReg w.pois m rs with
    | some r => some (faultAt .poison (some (BitVec.ofNat 64 r)) (Tab.get 0 w.pois r &&& m))
    | none => none

/-- The checks of R84 from PRIVILEGE on, up to POISON, with RECOVERY_NESTING of R384 after QUEUE and before the guard is read
(DESIGN CHOICE, log 65); `n` counts the free values. -/
def Need.verdict (nd : Need) (w : Wave) (n : Nat) (path : Mask) : Verdict :=
  let g := guardRegs nd.h
  if nd.sup && w.ctx != 0 then .fault (faultAt .privilege none path)
  else if (nd.regs ++ nd.spans).any fun r => decide (w.foot ≤ r) then .fault (faultAt .registerRange none path)
  else match nd.regs.find? fun r => (w.queueAt r).isSome with
    | some r => .fault (faultAt .queue (some (BitVec.ofNat 64 r)) path)
    | none =>
      if w.dispatch && !nd.chain then .fault (faultAt .recoveryNesting none path)
      else if (hitReg w.pend path g).isSome then .stall
      else match w.badRead path g with
        | some f => .fault f
        | none =>
          let act := w.active n path nd.h
          if (hitReg w.pend act (nd.srcs ++ nd.dsts)).isSome then .stall
          else match w.badRead act (if nd.lax then [] else nd.srcs) with
            | some f => .fault f
            | none => .go act

/-- An instruction past its checks: the state it found, the state with the path past it, and its path. -/
structure Iss where
  s : State
  t : State
  k : Nat
  w : Wave
  core : Nat
  path : Mask
  pc : Ctr
  act : Mask
  mark : Bool

/-- How an instruction's own part ends: done, it cannot issue yet, it waits in a state of its own, or it faults. -/
inductive Eff where
  | done (t : State)
  | stall
  | wait (t : State)
  | fault (s : State) (f : FaultInfo)

/-- The block of the issuing wave. -/
def Iss.blk (i : Iss) : Nat := i.w.block
/-- The block's record. -/
def Iss.b (i : Iss) : Block := i.s.block i.w.block
/-- A word that the instruction reads. -/
def Iss.rd (i : Iss) (r l : Nat) : Word := i.w.read i.s.free r l
/-- A pair that the instruction reads (R33). -/
def Iss.rd2 (i : Iss) (r l : Nat) : DWord := i.rd (r + 1) l ++ i.rd r l
/-- The lowest lane of ACTIVE. -/
def Iss.low (i : Iss) : Nat := Mask.low i.act
/-- A fault of this instruction. -/
def Iss.raise (i : Iss) (cause : Cause) (addr : Option DWord) (mask : Mask) : Eff := .fault i.s (faultAt cause addr mask)
/-- ACTIVE is empty. -/
def Iss.idle (i : Iss) : Bool := i.act == 0
/-- The lanes of ACTIVE, increasing. -/
def Iss.lanes (i : Iss) : List Nat := Mask.lanes i.act
/-- The live lanes outside ACTIVE. -/
def Iss.missing (i : Iss) : Mask := i.w.live &&& ~~~i.act

/-- The lanes of ACTIVE whose value differs from the lowest one's. -/
def Iss.differ {α : Type} [BEq α] (i : Iss) (f : Nat → α) : Mask :=
  Mask.of fun l => i.act.getLsbD l && !(f l == f i.low)

/-- UNIFORMITY in the lanes that differ, else go on (R366). -/
def Iss.uniform (i : Iss) (d : Mask) (go : Eff) : Eff := if d = 0 then go else i.raise .uniformity none d

/-- A frame slot as a wave's instruction sees it: the slot, or, where no block barrier has followed another wave's write,
the slot before that write, as the free constant `Config.choice` has it (R109; log 4). -/
def State.frameSeen (s : State) (blk wib n : Nat) : BitVec 128 :=
  let b := s.block blk
  let now := Tab.get 0 b.frames n
  let c := now :: ((Tab.get [] b.frameOld n).takeWhile fun x => x.1 != wib).map Prod.snd
  c.getD (Config.choice 3 s.free c.length % c.length) now

/-- A frame slot as the instruction sees it. -/
def Iss.frame (i : Iss) (n : Nat) : BitVec 128 := i.s.frameSeen i.w.block i.w.wib n

/-- Words found bad outside ACTIVE by the bank reads of an instruction are marked poisoned and noted (R92). -/
def State.settleEcc (s : State) (k : Nat) (act : Mask) (rs : List Nat) : State :=
  rs.foldl (fun s r =>
    let w := s.wave k
    let bad := Tab.get 0 w.ecc r &&& ~~~act
    if bad = 0 then s
    else
      let s1 := s.updWave k fun w => { w with
        ecc := Tab.set 0 w.ecc r (Tab.get 0 w.ecc r &&& act)
        pois := Tab.set 0 w.pois r (Tab.get 0 w.pois r ||| bad) }
      (s1.noteDi (s.block w.block).launch).updCore (s.coreOf k) fun c =>
        { c with acct := { c.acct with poison := satAdd 32 c.acct.poison (ones 32 bad) } }) s

/-- Bank read grants that an instruction's sources cost (R97). -/
def Wave.grants (w : Wave) (rs : List Nat) : Nat :=
  (rs.filter fun r => !(w.recent.any fun x => x.contains r) && !w.prefetch.contains r).length

/-- A hint stages its register (R74, R96). -/
def Wave.hinted (w : Wave) (h : Option Reg) : Wave :=
  match h with
  | none => w
  | some r =>
    if w.foot ≤ r.toNat || Tab.get 0 w.pend r.toNat != 0 then w
    else
      let q := w.prefetch.filter (· != r.toNat) ++ [r.toNat]
      { w with prefetch := q.drop (q.length - 16) }

/-- The path one slot further: counters, issue positions, the forwarding window, the hint (R63, R74, R76). -/
def Wave.advanced (w : Wave) (nd : Need) (path : Mask) (pc : Ctr) : Wave :=
  let w1 := (w.stepPcs path pc).hinted nd.h.hint
  { w1 with
    ipos := (Mask.lanes path).foldl (fun t l => Tab.put t l (w.pos l + 1)) w.ipos
    recent := (nd.dsts :: w.recent).take 8
    entering := w.entering &&& ~~~path
    stalled := 0 }

/-- What the bank reads of an instruction find bad outside the lanes that need it: of its guard outside the path, of its
sources outside ACTIVE (R73, R92). -/
def State.settleReads (s : State) (k : Nat) (nd : Need) (path act : Mask) : State :=
  (s.settleEcc k path (guardRegs nd.h)).settleEcc k act (nd.srcs ++ nd.cross)

/-- The same where a check faults on a word that it read (R92). -/
def State.settleFault (s : State) (c : Cur) (w : Wave) (nd : Need) (f : FaultInfo) : State :=
  if f.cause ≠ .uncorrectable ∧ f.cause ≠ .poison then s
  else if (w.badRead c.path (guardRegs nd.h)).isSome then s.settleEcc c.wave c.path (guardRegs nd.h)
  else s.settleReads c.wave nd c.path (w.active s.free c.path nd.h)

/-- The state with the path past the instruction: also the energy it costs and the free values drawn (R97, R411). -/
def State.advance (s : State) (nd : Need) (k : Nat) (path : Mask) (pc : Ctr) (act : Mask) : State :=
  let w := s.wave k
  let core := s.coreOf k
  let s1 := (s.settleReads k nd path act).updWave k fun w => w.advanced nd path pc
  (s1.spend core (some w.block) w.ctx
    (s.weight 0 + s.weight 1 * w.grants (guardRegs nd.h ++ nd.srcs ++ nd.cross))).drew

/-- TCHK and TSTAT return a value, not a token (R281). -/
def TileKindOp.reads : TileKindOp → Bool
  | .check | .status _ => true
  | _ => false

/-- Results that a switch marker waits for are on their way (R75). -/
def State.owedMarked (s : State) (k : Nat) : Bool :=
  (s.fly.results.any fun p => p.2.wave == k && p.2.marked) ||
  (s.fly.tiles.any fun p => p.2.wave == k && p.2.op.reads) || s.cores.any fun c => c.2.sways.any fun x => x.wave == k

/-- A marked instruction parks its wave; the fixed-latency results in flight return before the park ends, so they are
there from now on. With nothing outstanding the park ends with the cycle, an exchange point all the same (R75). -/
def State.park (s : State) (k : Nat) (mark : Bool) : State :=
  if mark then s.updWave k fun w => { w with parked := true, window := [], flagWin := [] } else s

/-- The instruction of `c` past its checks, its wave `w`, ACTIVE `act`. -/
def State.issAt (s : State) (c : Cur) (w : Wave) (nd : Need) (act : Mask) : Iss :=
  ⟨s, s.advance nd c.wave c.path c.pc act, c.wave, w, s.coreOf c.wave, c.path, c.pc, act, nd.h.mark⟩

/-- The state after an instruction's own part. -/
def State.after (s : State) (c : Cur) (mark : Bool) : Eff → State
  | .done t => t.park c.wave mark
  | .stall => s
  | .wait t => t
  | .fault s' f => s'.fault c.wave c.pc f

/-- An own part that faults, its bank reads done (R92). -/
def Eff.settled (c : Cur) (nd : Need) (act : Mask) : Eff → Eff
  | .fault s f => .fault (s.settleReads c.wave nd c.path act) f
  | e => e

/-- The instruction of `c` with these needs and this own part, at a state that holds its wave. -/
def runIssue (s : State) (c : Cur) (w : Wave) (nd : Need) (body : Iss → Eff) : State :=
  match nd.verdict w s.free c.path with
  | .stall => s
  | .fault f => (s.settleFault c w nd f).fault c.wave c.pc f
  | .go act => s.after c nd.h.mark ((body (s.issAt c w nd act)).settled c nd act)

/-- The meaning of an instruction: its checks, then its own part (R84). -/
def issue (s : State) (nd : Need) (body : Iss → Eff) : Out :=
  match s.cur with
  | none => .fault .noWave
  | some c =>
    match Tab.find s.waves c.wave with
    | none => .fault .noWave
    | some w => .next (runIssue s c w nd body)

/-! ### Results -/

/-- The registers of an operand of a type (R33). -/
def regsOf (t : RType) (r : Reg) : List Nat := if t.is64 then [r.toNat, r.toNat + 1] else [r.toNat]

/-- A run of registers. -/
def runOf (r : Reg) (n : Nat) : List Nat := (List.range n).map fun i => r.toNat + i

/-- A pair. -/
def pairOf (r : Reg) : List Nat := [r.toNat, r.toNat + 1]

/-- The words of a 64-bit value in a pair (R33). -/
def pairWords (r l : Nat) (v : DWord) : List (Nat × Nat × Word) :=
  [(r, l, v.extractLsb' 0 32), (r + 1, l, v.extractLsb' 32 32)]

/-- A fixed-latency result: the words written, and done. -/
def Iss.write (i : Iss) (lat : Nat) (ws : List (Nat × Nat × Word)) : Eff := .done (i.t.putWords i.k lat ws)

/-- The lanes of ACTIVE with one word each. -/
def Iss.each (i : Iss) (r : Nat) (f : Nat → Word) : List (Nat × Nat × Word) := i.lanes.map fun l => (r, l, f l)

/-- The lanes of ACTIVE with one pair each. -/
def Iss.each2 (i : Iss) (r : Nat) (f : Nat → DWord) : List (Nat × Nat × Word) :=
  i.lanes.foldr (fun l ws => pairWords r l (f l) ++ ws) []

/-- P bits of words set (R91). -/
def Wave.pendWords (w : Wave) (ws : List (Nat × Nat)) : Wave :=
  { w with
    pend := ws.foldl (fun t x => Tab.set 0 t x.1 (setBit (Tab.get 0 t x.1) x.2)) w.pend
    prefetch := w.prefetch.filter fun r => !(ws.any fun x => x.1 == r) }

/-- Destination words wait for a result: recorded, and P set (R77, R377). -/
def State.pendWords (s : State) (k : Nat) (ws : List (Nat × Nat)) : State :=
  (s.recordWords k ws).updWave k fun w => w.pendWords ws

/-- A variable-latency result on its way: its words pend, and VARIABLE_RESULT_RETURN delivers it (R77, R78). -/
def State.deliver (s : State) (k : Nat) (ws : List (Nat × Nat × Word)) (bad : List (Nat × Nat))
    (owes : List OwedFault) (imm : Bool) (link : Bool := false) : State :=
  let d := (s.block (s.wave k).block).depth
  let (id, s1) := (s.pendWords k (ws.map fun x => (x.1, x.2.1))).named
  let r : Result := ⟨k, ws.map fun x => (wordKey x.1 x.2.1, x.2.2), bad.map fun x => wordKey x.1 x.2, owes, d, true, imm,
    (s.wave k).block, none, link⟩
  s1.updFly fun f => { f with results := Tab.put f.results id r }

/-- A variable-latency result of the instruction, and done; nothing for an empty ACTIVE. -/
def Iss.later (i : Iss) (t : State) (ws : List (Nat × Nat × Word)) : Eff :=
  if ws.isEmpty then .done t else .done (t.deliver i.k ws [] [] false)

/-- A token on its way for an operation that has ended: a completion entry goes with an error (R251 to R253). -/
def State.deliverToken (s : State) (k reg : Nat) (lanes : Mask) (v : Word) (entry : Option (Nat × Entry)) : State :=
  let b := (s.wave k).block
  let (id, s1) := (s.pendWords k ((Mask.lanes lanes).map fun l => (reg, l))).named
  let r : Result := ⟨k, (Mask.lanes lanes).map fun l => (wordKey reg l, v), [], [], (s.block b).depth, false, false, b, entry, false⟩
  s1.updFly fun f => { f with results := Tab.put f.results id r }

/-- The words of a result in a wave: a lane that has exited takes nothing (R91, R93). -/
def Wave.land (w : Wave) (writes : List (Nat × Word)) (bad : List Nat) : Wave :=
  writes.foldl (fun w x =>
    let r := x.1 / 32
    let l := x.1 % 32
    if !w.live.getLsbD l then w
    else
      let w1 := w.put1 1 r l x.2
      { w1 with
        pend := Tab.set 0 w1.pend r (clrBit (Tab.get 0 w1.pend r) l)
        expt := Tab.set 0 w1.expt r (clrBit (Tab.get 0 w1.expt r) l)
        pois := if bad.contains x.1 then Tab.set 0 w1.pois r (setBit (Tab.get 0 w1.pois r) l) else w1.pois }) w

/-- A wave's switch-marker park ends when nothing that it waits for is on its way (R75). -/
def State.unpark (s : State) (k : Nat) : State :=
  if s.owedMarked k then s else s.updWave k fun w => { w with parked := false }

/-- A token's status lands in its register's lanes; a wave that has ended takes nothing (R252). -/
def State.landToken (s : State) (ref reg : Nat) (lanes : Mask) (v : Word) : State :=
  s.updWave ref fun w => w.land ((Mask.lanes lanes).map fun l => (wordKey reg l, v)) []

/-- A token (R251). -/
def tokenWord (e : Err) (ending done : Nat) : Word :=
  BitVec.ofNat 32 (e.cls % 16 * 2 ^ 28 + (if e.cls = 0 then 0 else e.kind % 16 * 2 ^ 24) + ending % 4 * 2 ^ 22 +
    min done 0x3FFFFF)

end Sys2Proof.Machine
end

