-- ==== Sys2Proof/Machine/Flags.lean ====
section
/-! DEFINITION. FLAGS: sticky bits, arm bits, the rounding modes dyn and sto, and NUMERIC_ARMED (R45, R46, R50, R51,
R148). -/

namespace Sys2Proof.Machine

/-- FLAGS with sticky bits set (R50). -/
def orFlags (flags : Word) (f : Flags) : Word := flags ||| f.setWidth 32

/-- Bits of FLAGS that are sure from now on (R76). -/
def Wave.settleBits (w : Wave) (m : Word) : Wave :=
  if w.flagWin.isEmpty then w else { w with flagWin := w.flagWin.map fun p => (p.1 &&& ~~~m, p.2) }

/-- FLAGS written: the bits of `m` are sure (R50, R76). -/
def Wave.putFlags (w : Wave) (m : Word) (f : Word → Word) : Wave := { w.settleBits m with flags := f w.flags }

/-- An instruction's flags, set in its wave's FLAGS (R50). -/
def State.orFlags (s : State) (k : Nat) (f : Flags) : State :=
  s.updWave k fun w => w.putFlags (f.setWidth 32) fun g => Machine.orFlags g f

/-- Bits set by an instruction of latency `lat`, `l` a lane of its path, which is past it: at less than the latency they
may be seen or not (R76). -/
def Wave.lateFlags (w : Wave) (lat l : Nat) (f : Flags) : Wave :=
  let new := f.setWidth 32 &&& ~~~w.flags
  let win := w.flagWin.filter fun p => decide (w.pos p.2.1 < p.2.2)
  { w with
    flags := Machine.orFlags w.flags f
    flagWin := if new = 0 ∨ lat ≤ 1 then win else win ++ [(new, l, w.pos l + lat - 1)] }

/-- The flags of an instruction of latency `lat` (R50, R76). -/
def State.orFlagsAt (s : State) (k lat : Nat) (path : Mask) (f : Flags) : State :=
  s.updWave k fun w => w.lateFlags lat (Mask.low path) f

/-- FLAGS as an instruction sees it: each late bit is there or not, as the free constant `Config.choice` has it (R76;
log 4). -/
def Wave.seenFlags (w : Wave) (n : Nat) : Word :=
  w.flagWin.zipIdx.foldl (fun f p =>
    if w.live.getLsbD p.1.2.1 && decide (w.pos p.1.2.1 < p.1.2.2) && Config.choice 24 (64 * n + p.2) 2 % 2 == 0 then
      f &&& ~~~p.1.1
    else f) w.flags

/-- FLAGS.RM (R50). -/
def flagsRm (flags : Word) : RMode := (RMode.ofCode (flags.extractLsb' 15 3)).getD .rne

/-- FLAGS.STO_SEQ (R50). -/
def flagsSeq (flags : Word) : Nat := (flags.extractLsb' 18 14).toNat

/-- FLAGS with STO_SEQ one further, modulo 2^14 (R46). -/
def stepSeq (flags : Word) : Word :=
  flags.extractLsb' 0 18 |>.setWidth 32 |>.or ((flags.extractLsb' 18 14 + 1).setWidth 32 <<< 18)

/-- A write of FLAGS: bit 7 stays, and an RM of 6 or 7 leaves RM (R50, R179). -/
def writeFlags (old v : Word) : Word :=
  let rm := if (v.extractLsb' 15 3).toNat ≥ 6 then old &&& 0x00038000#32 else v &&& 0x00038000#32
  (v &&& 0xFFFC7F7F#32) ||| rm ||| (old &&& 0x80#32)

/-- A sticky flag is set under its arm bit (R51). -/
def armedHit (flags : Word) : Bool := flags.extractLsb' 0 7 &&& flags.extractLsb' 8 7 != 0

/-- The mode that M selects: dyn takes FLAGS.RM (R45). -/
def Wave.mode (w : Wave) (m : RMode) : RMode := if m = .dyn then flagsRm w.flags else m

/-- The current tile configuration version (R111). -/
def Wave.tcfg (w : Wave) : BitVec 128 := Tab.get 0 w.tcfgs w.tcur

/-- How a rounding goes at generator column `col` (R45, R46). -/
def Wave.rnd (w : Wave) (m : RMode) (col : Nat) : Rnd :=
  let mode := w.mode m
  if mode = .sto then
    ⟨mode, (gen (flagsSeq w.flags) col (w.tcfg.extractLsb' 64 32) (w.tcfg.extractLsb' 96 32)).toNat⟩
  else ⟨mode, 0⟩

/-- STO_SEQ advances after an instruction that rounds under sto (R46). -/
def State.stepSto (s : State) (k : Nat) (m : RMode) : State :=
  s.updWave k fun w => if w.mode m = .sto then { w with flags := stepSeq w.flags } else w

/-- NUMERIC_ARMED where an armed flag is set, with an empty ACTIVE too, else go on (R51). -/
def Iss.armed (i : Iss) (go : Eff) : Eff :=
  if armedHit (i.w.seenFlags i.s.free) then i.raise .numericArmed (some 0) i.act else go

end Sys2Proof.Machine
end

