-- ==== Sys2Proof/Machine/Select.lean ====
section
/-! DEFINITION. Fetching a line and its checks (R62 to R67), paths, the vote and the selector of a core (R26, R27, R326
to R329). -/

namespace Sys2Proof.Machine

/-! ### Fetch -/

/-- Even parity: the exclusive OR of the bits (R62). -/
def parity (w : Nat) (v : BitVec w) : Bool := ones w v % 2 == 1

/-- Slot `i` of a line. -/
def slotBits (line : BitVec 512) (i : Nat) : BitVec 96 := line.extractLsb' (96 * i) 96

/-- The line word. -/
def lineWord (line : BitVec 512) : Word := line.extractLsb' 480 32

/-- The parity of the five slots and of the line word (R62). -/
def lineParity (line : BitVec 512) : Bool :=
  let w := lineWord line
  (w.getLsbD 14 == (parity 17 (w.extractLsb' 15 17) != parity 14 (w.extractLsb' 0 14))) &&
  (List.range 5).all fun i => w.getLsbD (9 + i) == parity 96 (slotBits line i)

/-- FMT and the reserved bits (R62). -/
def lineFormat (line : BitVec 512) : Bool := (lineWord line).extractLsb' 15 17 == 0x2000#17

/-- A flow instruction, by its major opcode (R65). -/
def flowOpcode (opc : Nat) : Bool :=
  (decide (1 ≤ opc) && decide (opc ≤ 8)) || (decide (0xD8 ≤ opc) && decide (opc ≤ 0xDF)) || opc == 0xF2 || opc == 0xF3 ||
  opc == 0xF7

/-- PAIR bit `k`. -/
def pairBit (line : BitVec 512) (k : Nat) : Bool := (lineWord line).getLsbD (5 + k)

/-- The pairing template (R65). -/
def linePairs (line : BitVec 512) : Bool :=
  (List.range 3).all (fun k => !(pairBit line k && pairBit line (k + 1))) &&
  (List.range 4).all fun k => !(pairBit line k && flowOpcode ((slotBits line k).extractLsb' 0 8).toNat)

/-- TGT of a slot (R66). -/
def tgtBit (line : BitVec 512) (slot : Nat) : Bool := (lineWord line).getLsbD slot

/-- The key of an instruction line. -/
def codeKey (ctx va : Nat) : Nat := ctx * 2 ^ 42 + va % 2 ^ 48 / 64

/-- The checks of R64 beyond parity. -/
def lineChecked (line : BitVec 512) : Except Cause (BitVec 512) :=
  if lineFormat line && linePairs line then .ok line else .error .illegalLine

/-- A core keeps a copy of a line. -/
def State.keepLine (s : State) (core ctx va : Nat) (line : BitVec 512) : State :=
  s.updCore core fun c => { c with icache := Tab.put c.icache (codeKey ctx va) line }

/-- A core discards its copy of a line (R64). -/
def State.dropLine (s : State) (core ctx va : Nat) : State :=
  s.updCore core fun c => { c with icache := Tab.del c.icache (codeKey ctx va) }

/-- The line at its home: one that it holds uncorrectably is none (R64, R188). -/
def State.homeCode (s : State) (place : Nat) : Option (BitVec 512) :=
  if s.mem.uncorr place || s.mem.poisoned place || s.mem.uncorr (place + 32) || s.mem.poisoned (place + 32) then none
  else some (BitVec.ofNat 512 (leNat (s.mem.bytesFrom place 64)))

/-- A line from its home, checked: the core keeps it where it passes; one that got here by a bad copy notes it (R64). -/
def State.fetchHome (s : State) (core ctx va place : Nat) (note : Option Nat) : Except Cause (BitVec 512) × State :=
  match s.homeCode place with
  | none => (.error .uncorrectable, s)
  | some line =>
    let s0 := s.l2Read ctx [place]
    if !lineParity line then (.error .illegalLine, s0)
    else
      let s1 := match note with
        | some launch => s0.noteDi launch
        | none => s0
      match lineChecked line with
      | .ok l => (.ok l, s1.keepLine core ctx va l)
      | .error e => (.error e, s1)

/-- FETCHING A LINE: translation, parity, format, pairing, in this order (R64, R65, R67). -/
def State.fetchLine (s : State) (core ctx launch va : Nat) : Except Cause (BitVec 512) × State :=
  match s.translate core ctx va .exec with
  | .error c => (.error c, s)
  | .ok x =>
    let s1 := s.marked core ctx x
    match Tab.find (s1.core core).icache (codeKey ctx va) with
    | none => s1.fetchHome core ctx va (placeOf x.pa) none
    | some line =>
      if lineParity line then (lineChecked line, s1)
      else (s1.dropLine core ctx va).fetchHome core ctx va (placeOf x.pa) (some launch)

/-- THE TARGET CHECK of a transfer: the target's line passes its own checks and the target slot's TGT bit is clear. A
line that fails its checks faults at its first issue (R66, R84). -/
def State.targetClear (s : State) (core ctx launch : Nat) (t : Ctr) : Bool × State :=
  match s.fetchLine core ctx launch (lineOfPc t) with
  | (.ok line, s1) => (!tgtBit line (slotOfPc t), s1)
  | (.error _, s1) => (false, s1)

/-- The target of a B-form instruction at `pc`; none outside 0 to 2^48 − 1 (R70). -/
def Target.counter (t : Target) (pc : Ctr) : Option Ctr :=
  let a : Int := (lineOfPc pc : Int) + t.disp.toInt * 64 + t.slot.toNat
  if 0 ≤ a ∧ a < 2 ^ 48 then some (BitVec.ofInt 48 a) else none

/-- A checked transfer to a B-form target: TRANSLATION for a target out of range, then BRANCH_TARGET (R66, R70). -/
def Iss.toTarget (i : Iss) (t : Target) (lanes : Mask) (go : Ctr → Eff) : Eff :=
  match Target.counter t i.pc with
  | none => i.raise .translation (some (i.pc.setWidth 64)) lanes
  | some c =>
    match i.s.targetClear i.core i.w.ctx i.b.launch c with
    | (true, s1) => .fault s1 (faultAt .branchTarget (some (c.setWidth 64)) lanes)
    | (false, _) => go c

/-! ### Paths and waits -/

/-- Placed in a list of counters, rising. -/
def insertCtr (c : Ctr) : List Ctr → List Ctr
  | [] => [c]
  | d :: ds => if c.toNat < d.toNat then c :: d :: ds else if c = d then d :: ds else d :: insertCtr c ds

/-- The counters of a wave's paths, rising (R94). -/
def Wave.counters (w : Wave) : List Ctr := (Mask.lanes w.live).foldl (fun cs l => insertCtr (w.pc l) cs) []

/-- The lanes of the path at a counter (R94). -/
def Wave.pathAt (w : Wave) (c : Ctr) : Mask := Mask.of fun l => w.live.getLsbD l && w.pc l == c

/-- A path waits on no condition of R25 that is known to hold. -/
def Wave.pathReady (w : Wave) (c : Ctr) : Bool :=
  (w.stalled &&& w.pathAt c) == 0 && !(w.cwaits.any fun x => x.pc == c && !x.met) && w.adopting.all (· == c)

/-- The registers that an instruction's fields name. -/
def slotRegs (slot : BitVec 96) : List Nat :=
  let f := Fields.ofWord slot
  [f.gr.toNat, f.d.toNat, f.a.toNat, f.b.toNat, f.c.toNat]

/-- The lanes of a wave in which a register awaits a token (R251). -/
def State.tokenLanes (s : State) (k r : Nat) : Mask :=
  let pick := fun (w reg : Nat) (m : Mask) (a : Mask) => if w = k ∧ reg = r then a ||| m else a
  let f := s.fly
  let m1 := f.copies.foldl (fun a p => p.2.slices.foldl (fun a x => pick x.wave x.token x.lanes a) a) 0
  let m2 := f.tiles.foldl (fun a p => if p.2.op.reads then a else pick p.2.wave p.2.token p.2.lanes a) m1
  let m3 := f.sd.foldl (fun a p => pick p.2.wave p.2.token p.2.lanes a) m2
  let m4 := f.heap.foldl (fun a p => pick p.2.wave p.2.token p.2.lanes a) m3
  let m5 := f.shadows.foldl (fun a p => pick p.2.wave p.2.token p.2.lanes a) m4
  let m6 := f.arrivals.foldl (fun a p => pick p.2.wave p.2.token p.2.tokLanes a) m5
  let m7 := f.pushes.foldl (fun a p => pick p.2.yoke p.2.token p.2.lanes a) m6
  f.results.foldl (fun a p => if p.2.wave = k ∧ !p.2.marked then
    a ||| Mask.of fun l => p.2.writes.any fun x => x.1 == wordKey r l else a) m7

/-- Another path of the wave waits for a token: it has stalled on an instruction that names the token's register (R213;
log 63). -/
def State.tokenWait (s : State) (k : Nat) (path : Mask) : Bool :=
  let w := s.wave k
  w.counters.any fun c =>
    let other := w.pathAt c &&& ~~~path &&& w.stalled
    other != 0 && match Tab.find (s.core (s.coreOf k)).icache (codeKey w.ctx (lineOfPc c)) with
      | none => false
      | some line => (slotRegs (slotBits line (slotOfPc c))).any fun r =>
          s.tokenLanes k r &&& Tab.get 0 w.pend r &&& other != 0

/-- The wave's block may issue: it runs on a core that is awake, and no rollback of it is due (R23, R324, R325, R382). -/
def State.mayRun (s : State) (k : Nat) : Bool :=
  let b := s.block (s.wave k).block
  b.st == .running && b.rcv.failing.isNone && !(s.cluster (b.core / 8)).moving && (s.core b.core).wake == 0

/-- The counters of a wave's ready paths, rising (R327). -/
def State.readyPaths (s : State) (k : Nat) : List Ctr :=
  let w := s.wave k
  if s.mayRun k && !w.parked && w.wait.isNone then w.counters.filter w.pathReady else []

/-- A wave is ready (R326). -/
def State.waveReady (s : State) (k : Nat) : Bool := !(s.readyPaths k).isEmpty

/-! ### The vote -/

/-- The paths that a ready wave issues this cycle, the main port's first, and its timer after it (R327, R328). -/
structure Vote where
  first : Ctr
  second : Option Ctr
  fcount : BitVec 16
  deriving DecidableEq, Repr

/-- THE VOTE AND THE SWEEP (R327, R328). -/
def vote (fair : Nat) (fcount : BitVec 16) (lastB : Ctr) (ready : List Ctr) : Option Vote :=
  match ready with
  | [] => none
  | c :: cs =>
    let left := cs.length - 1
    let n := (fcount.extractLsb' 0 13).toNat
    let sweep := fcount.getLsbD 15 || decide (left ≠ 0 ∧ n + left ≥ fair)
    if sweep then
      match cs.find? fun d => decide (lastB.toNat < d.toNat) with
      | some d => some ⟨c, some d, BitVec.ofNat 16 (min (if left = 0 then n else n + 1) 8191 + 2 ^ 15)⟩
      | none => some ⟨c, cs.head?, 0⟩
    else some ⟨c, cs.head?, if left = 0 then 0 else BitVec.ofNat 16 (min (n + 1) 8191)⟩

/-! ### The selector -/

/-- A wave changes places with another in a core's sets (R27). -/
def Core.swap (c : Core) (a p : Nat) : Core :=
  { c with
    active := (c.active.map fun x => if x = a then p else x)
    issued := Tab.del (Tab.del c.issued a) p
    pending := (c.pending.filter fun x => x.1 != p) ++ [(a, 0)] }

/-- An active wave gives way to the oldest ready wave of the pending set, if there is one (R27). -/
def State.giveWay (s : State) (core k : Nat) : State :=
  let c := s.core core
  if !c.active.contains k then s
  else match c.pending.find? fun x => s.waveReady x.1 with
    | some (p, _) => s.updCore core fun c => c.swap k p
    | none => s

end Sys2Proof.Machine
end

