-- ==== Sys2Proof/Machine/Control.lean ====
section
/-! DEFINITION. Control instructions (R81, R170 to R178). -/

namespace Sys2Proof.Machine

/-- What a control instruction needs. -/
def needCtl (h : Hdr) (dsts srcs : List Nat) : Need := { h := h, srcs := srcs, dsts := dsts }

/-- NOP (R81). -/
def execNop (h : Hdr) (s : State) : Out := issue s (needCtl h [] []) fun i => .done i.t

/-- Lanes go to counters. -/
def State.goTo (s : State) (k : Nat) (m : Mask) (f : Nat → Ctr) : State := s.updWave k fun w => w.setPcs m f

/-- BR (R172). -/
def execBr (h : Hdr) (t : Target) (s : State) : Out :=
  issue s (needCtl h [] []) fun i =>
    if i.idle then .done i.t else i.toTarget t i.act fun c => .done (i.t.goTo i.k i.act fun _ => c)

/-- JMP (R173). -/
def execJmp (h : Hdr) (t : Target) (s : State) : Out :=
  issue s (needCtl h [] []) fun i =>
    if i.idle then .done i.t
    else if i.act != i.path then
      i.raise .uniformity none (i.path &&& if i.act.getLsbD (Mask.low i.path) then ~~~i.act else i.act)
    else i.toTarget t i.act fun c => .done (i.t.goTo i.k i.act fun _ => c)

/-- The link words of a call: the next counter in each lane of ACTIVE (R171, R174). -/
def Iss.links (i : Iss) (d : Reg) : List (Nat × Nat × Word) := i.each2 d.toNat fun _ => (nextPc i.pc).setWidth 64

/-- The links on their way, P set in their words meanwhile (R77, R174). -/
def Iss.link (i : Iss) (d : Reg) : State := i.t.deliver i.k (i.links d) [] [] false true

/-- CALL (R174). -/
def execCall (h : Hdr) (d : Reg) (t : Target) (s : State) : Out :=
  issue s (needCtl h (pairOf d) []) fun i =>
    if i.idle then .done i.t
    else i.toTarget t i.act fun c => .done ((i.link d).goTo i.k i.act fun _ => c)

/-- MISALIGNED where a lane's counter value fails R63, else go on; TADDR the low 48 bits of the lowest one's (R63). -/
def Iss.counters (i : Iss) (f : Nat → DWord) (go : Eff) : Eff :=
  let bad := Mask.of fun l => i.act.getLsbD l && !isCounter (f l)
  if bad = 0 then go
  else i.raise .misaligned (some (((f (Mask.low bad)).extractLsb' 0 48).setWidth 64)) bad

/-- CALLI (R174). -/
def execCalli (h : Hdr) (d a : Reg) (s : State) : Out :=
  issue s (needCtl h (pairOf d) (pairOf a)) fun i =>
    let t := fun l => (i.rd2 a.toNat l).setWidth 48
    if i.idle then .done i.t
    else i.counters (fun l => i.rd2 a.toNat l) (
      let clear := fun l => (i.s.targetClear i.core i.w.ctx i.b.launch (t l)).1
      let bad := Mask.of fun l => i.act.getLsbD l && clear l
      if bad = 0 then .done ((i.link d).goTo i.k i.act t)
      else i.raise .branchTarget (some ((t (Mask.low bad)).setWidth 64)) bad)

/-- RET (R175). -/
def execRet (h : Hdr) (a : Reg) (s : State) : Out :=
  issue s (needCtl h [] (pairOf a)) fun i =>
    i.counters (fun l => i.rd2 a.toNat l) (.done (i.t.goTo i.k i.act fun l => (i.rd2 a.toNat l).setWidth 48))

/-- Masks of registers without these lanes. -/
def clearLanes (m : Mask) (t : Tab Mask) : Tab Mask :=
  (Tab.keys t).foldl (fun t r => Tab.set 0 t r (Tab.get 0 t r &&& ~~~m)) t

/-- Lanes of a wave exit: nothing is owed to them any more (R93, R176). -/
def Wave.exited (w : Wave) (m : Mask) : Wave :=
  { w with
    live := w.live &&& ~~~m
    pend := clearLanes m w.pend
    expt := clearLanes m w.expt
    resv := Tab.sub w.resv fun l _ => !m.getLsbD l
    cwaits := w.cwaits.filter fun c => c.lanes &&& ~~~m != 0 }

/-- EXIT (R93, R176). -/
def execExit (h : Hdr) (s : State) : Out :=
  issue s (needCtl h [] []) fun i =>
    if !i.idle && decide (i.b.depth ≠ 0) then i.raise .recoveryNesting none i.act
    else i.armed (if i.idle then .done i.t else
      let t := i.t.updWave i.k fun w => w.exited i.act
      .done (if (t.wave i.k).live = 0 then t.endWave i.k else t))

/-- YIELD (R177). -/
def execYield (h : Hdr) (s : State) : Out :=
  issue s (needCtl h [] []) fun i => .done (i.t.giveWay i.core i.k)

/-- NAP: the wave ranks last until NAP_EXPIRY, which its count's last cycle lets happen (R178). -/
def execNap (h : Hdr) (count : BitVec 16) (s : State) : Out :=
  issue s (needCtl h [] []) fun i =>
    .done ((i.t.updWave i.k fun w => { w with nap := if count = 0 then 0 else count.toNat + 1 }).giveWay i.core i.k)

end Sys2Proof.Machine
end

