-- ==== Sys2Proof/Machine/Operands.lean ====
section
/-! DEFINITION. Operands by register type: what a lane reads, how a result is written, elements of packed types, and
instructions that work lane by lane (R32, R33, R118 to R122, R146 to R148). -/

namespace Sys2Proof.Machine

/-- Elements of a register type (R118, R146). -/
def RType.elems : RType → Nat
  | .h2 | .b2 => 2
  | .s8x4 => 4
  | _ => 1

/-- Bits of an element (R32). -/
def RType.ew : RType → Nat
  | .s8 | .z8 | .s8x4 => 8
  | .s16 | .z16 | .f16 | .bf16 | .h2 | .b2 => 16
  | .s64 | .z64 | .f64 => 64
  | _ => 32

/-- Bits of a type as it is read (R32). -/
def RType.bits (t : RType) : Nat := RType.ew t * RType.elems t

/-- The float format of a float type's elements (R34). -/
def RType.ffmt : RType → FFmt
  | .f16 | .h2 => ffF16
  | .bf16 | .b2 => ffBF16
  | .f64 => ffF64
  | _ => ffF32

/-- The float types of R146. -/
def RType.isFloat (t : RType) : Bool := Sys2Proof.RType.inF t

/-- The bits that a lane reads from an operand (R32). -/
def Iss.raw (i : Iss) (t : RType) (r : Reg) (l : Nat) : Nat :=
  if t.is64 then (i.rd2 r.toNat l).toNat else (i.rd r.toNat l).toNat % 2 ^ RType.bits t

/-- Bits of element `k`. -/
def RType.elem (t : RType) (v k : Nat) : Nat := v / 2 ^ (RType.ew t * k) % 2 ^ RType.ew t

/-- Element `k` as an integer (R119). -/
def RType.int (t : RType) (v k : Nat) : Int := intOfBits (RType.ew t) t.isSigned (RType.elem t v k)

/-- A lane's result as words: narrow integers extended, narrow floats with zeros above (R32). -/
def RType.words (t : RType) (r : Reg) (l : Nat) (v : Nat) : List (Nat × Nat × Word) :=
  if t.is64 then pairWords r.toNat l (BitVec.ofNat 64 v)
  else if RType.elems t = 1 && t.isSigned && decide (RType.ew t < 32) then
    [(r.toNat, l, BitVec.ofInt 32 (intOfBits (RType.ew t) true v))]
  else [(r.toNat, l, BitVec.ofNat 32 v)]

/-- An exact integer put into an element (R120). -/
def putInt (t : RType) (sat : Bool) (x : Int) : Nat × Flags :=
  let (lo, hi) := intBounds (RType.ew t) t.isSigned
  if sat && decide (x < lo) then (bitsOfInt (RType.ew t) lo, fSAT)
  else if sat && decide (x > hi) then (bitsOfInt (RType.ew t) hi, fSAT)
  else (bitsOfInt (RType.ew t) x, 0)

/-- The elements of a lane's result joined, with their flags. -/
def RType.join (t : RType) (f : Nat → Nat × Flags) : Nat × Flags :=
  let es := (List.range (RType.elems t)).map f
  (packElems (RType.ew t) (es.map Prod.fst), es.foldl (fun a e => a ||| e.2) 0)

/-- A result of each lane of ACTIVE, with flags, at a fixed latency. -/
def Iss.lanesF (i : Iss) (lat : Nat) (t : RType) (d : Reg) (f : Nat → Nat × Flags) : Eff :=
  let rs := i.lanes.map fun l => (l, f l)
  let fl : Flags := rs.foldl (fun a r => a ||| r.2.2) 0
  .done ((i.t.putWords i.k lat (rs.foldr (fun r ws => RType.words t d r.1 r.2.1 ++ ws) [])).orFlagsAt i.k lat i.path fl)

/-- A result of each lane of ACTIVE that sets no flag. -/
def Iss.lanesT (i : Iss) (lat : Nat) (t : RType) (d : Reg) (f : Nat → Nat) : Eff :=
  .done (i.t.putWords i.k lat (i.lanes.foldr (fun l ws => RType.words t d l (f l) ++ ws) []))

/-- A 32-bit result of each lane of ACTIVE that sets no flag (R121). -/
def Iss.lanesW (i : Iss) (lat : Nat) (d : Reg) (f : Nat → Word) : Eff :=
  .done (i.t.putWords i.k lat (i.each d.toNat f))

/-- An integer instruction: element by element, exact, then put (R120). -/
def Iss.lanesI (i : Iss) (lat : Nat) (t : RType) (sat : Bool) (d : Reg) (f : Nat → Nat → Int) : Eff :=
  i.lanesF lat t d fun l => RType.join t fun k => putInt t sat (f l k)

/-- What an instruction with these typed operands needs. -/
def need3 (h : Hdr) (t : RType) (d : Reg) (srcs : List Reg) : Need :=
  { h := h, srcs := srcs.foldr (fun r l => regsOf t r ++ l) [], dsts := regsOf t d }

/-- Element `k` of an operand as an integer. -/
def Iss.int (i : Iss) (t : RType) (r : Reg) (l k : Nat) : Int := RType.int t (i.raw t r l) k

/-- Element `k` of an operand as a float value. -/
def Iss.flt (i : Iss) (t : RType) (r : Reg) (l k : Nat) : FVal := (RType.ffmt t).decode (RType.elem t (i.raw t r l) k)

/-- The rounding of element `k` of lane `l` (R46). -/
def Iss.rnd (i : Iss) (m : RMode) (l k : Nat) : Rnd := i.w.rnd m (32 * k + l)

/-- A float instruction: element by element, the exact value rounded once (R148). -/
def Iss.lanesR (i : Iss) (lat : Nat) (t : RType) (m : RMode) (sat : Bool) (d : Reg)
    (f : Nat → Nat → FVal × Flags) : Eff :=
  match i.lanesF lat t d (fun l => RType.join t fun k =>
      let (v, fl) := f l k
      let (c, fr) := (RType.ffmt t).ofVal (i.rnd m l k) sat v
      (c, fl ||| fr)) with
  | .done s => .done (if i.idle then s else s.stepSto i.k m)
  | e => e

end Sys2Proof.Machine
end

