-- ==== Sys2Proof/Machine/Convert.lean ====
section
/-! DEFINITION. Conversion instructions and FLAGS (R158 to R164). -/

namespace Sys2Proof.Machine

/-- One element of a register type as a value, with NV for a signalling NaN. -/
def valOf (t : RType) (v k : Nat) : FVal :=
  if RType.isFloat t then (RType.ffmt t).decode (RType.elem t v k) else FVal.ofInt (RType.int t v k)

/-- A value converted to one element of a register type (R47, R48, R49, R159). -/
def convertTo (t : RType) (r : Rnd) (sat : Bool) (v : FVal) : Nat × Flags :=
  if RType.isFloat t then
    let (c, f) := (RType.ffmt t).ofVal r sat v
    (c, f)
  else
    let (lo, hi) := intBounds (RType.ew t) t.isSigned
    let (n, f) := intOfVal r lo hi v
    (bitsOfInt (RType.ew t) n, f)

/-- CVT of one lane (R159). -/
def cvtBits (td ts : RType) (r : Rnd) (sat : Bool) (v : Nat) : Nat × Flags :=
  if !RType.isFloat ts && !RType.isFloat td then putInt td sat (RType.int ts v 0)
  else
    let (c, f) := convertTo td r sat (valOf ts v 0)
    (c, f ||| (if RType.isFloat td then sigFlags [valOf ts v 0] else 0))

/-- CVT rounds: one of its types is a float type (R46, R159). -/
def cvtRounds (td ts : RType) : Bool := RType.isFloat ts || RType.isFloat td

/-- CVT (R159). -/
def execCvt (h : Hdr) (td ts : RType) (m : RMode) (sat : Bool) (d a : Reg) (s : State) : Out :=
  issue s { h := h, srcs := regsOf ts a, dsts := regsOf td d } fun i =>
    match i.lanesF 4 td d fun l => cvtBits td ts (i.rnd m l 0) sat (i.raw ts a l) with
    | .done t => .done (if i.idle || !cvtRounds td ts then t else t.stepSto i.k m)
    | e => e

/-- The storage code of a PACK format (R158). -/
def packCode (f : PackFmt) : Nat := f.code.toNat

/-- The register type of a PACK format's run is .f32. -/
def packIsFloat (f : PackFmt) : Bool := (fmtFloat (packCode f)).isSome

/-- One element packed (R160). -/
def packElem (f : PackFmt) (r : Rnd) (sat : Bool) (v : Nat) : Nat × Flags :=
  if packIsFloat f then elemOfVal (packCode f) r sat (ffF32.decode v)
  else match fmtInt (packCode f) with
    | some (w, sg) =>
      let (lo, hi) := intBounds w sg
      let x := intOfBits 32 true v
      if x < lo then (bitsOfInt w lo, fSAT) else if x > hi then (bitsOfInt w hi, fSAT) else (bitsOfInt w x, 0)
    | none => (0, 0)

/-- NV of a signalling NaN that PACK converts to a format with NaN (R36, R48). -/
def packSig (f : PackFmt) (v : Nat) : Flags := if packIsFloat f then sigFlags [ffF32.decode v] else 0

/-- PACK (R160). -/
def execPack (h : Hdr) (f : PackFmt) (m : RMode) (sat : Bool) (d a : Reg) (s : State) : Out :=
  issue s { h := h, srcs := runOf a f.count, dsts := [d.toNat] } fun i =>
    match i.lanesF 4 .z32 d fun l =>
      let es := (List.range f.count).map fun k =>
        let v := (i.rd (a.toNat + k) l).toNat
        let (c, fl) := packElem f (i.rnd m l k) sat v
        (c, fl ||| packSig f v)
      (packElems (32 / f.count) (es.map Prod.fst), es.foldl (fun x e => x ||| e.2) 0) with
    | .done t => .done (if i.idle || !packIsFloat f then t else t.stepSto i.k m)
    | e => e

/-- One element unpacked: exact, a NaN canonical, no flag (R161). -/
def unpackElem (f : PackFmt) (v : Nat) : Word :=
  if packIsFloat f then BitVec.ofNat 32 (ffF32.ofVal Rnd.rne false (elemVal (packCode f) 0 v)).1
  else match fmtInt (packCode f) with
    | some (w, sg) => BitVec.ofInt 32 (intOfBits w sg v)
    | none => 0

/-- UNPACK (R161). -/
def execUnpack (h : Hdr) (f : PackFmt) (d a : Reg) (s : State) : Out :=
  issue s { h := h, srcs := [a.toNat], dsts := runOf d f.count } fun i =>
    i.write 4 (i.lanes.foldr (fun l ws => ((List.range f.count).map fun k =>
      (d.toNat + k, l, unpackElem f ((i.rd a.toNat l).toNat / 2 ^ (32 / f.count * k)))) ++ ws) [])

/-- The storage code of a DX format. -/
def dxCode : DxFmt → Nat
  | .dx8 => 20 | .dx6 => 21 | .dx4 => 22

/-- The storage code of an MX format. -/
def mxCode : MxFmt → Nat
  | .mxe4m3 => 14 | .mxe5m2 => 15 | .mxe3m2 => 16 | .mxe2m3 => 17 | .mxe2m1 => 18 | .mxs8 => 19

/-- The 32 values that a packing instruction takes from the wave: +0 outside ACTIVE (R162). -/
def Iss.block (i : Iss) (a : Reg) : List FVal :=
  (List.range 32).map fun l => if i.act.getLsbD l then i.flt .f32 a l 0 else .fin false 0 0

/-- DXPACK and MXPACK: one block from the lanes, the scale in every active lane (R162). -/
def Iss.packBlock (i : Iss) (c : Nat) (m : RMode) (d a : Reg) : Eff :=
  let b := blockEncode c 0 (fun l => i.rnd m l 0) (i.block a)
  let ws := i.each d.toNat fun l => BitVec.ofNat 32 (b.scale * 256 + b.codes.getD l 0)
  let t := i.t.putWords i.k 6 ws
  .done (if i.idle then t else (t.orFlagsAt i.k 6 i.path b.flags).stepSto i.k m)

/-- DXPACK (R162). -/
def execDxpack (h : Hdr) (f : DxFmt) (m : RMode) (d a : Reg) (s : State) : Out :=
  issue s (need3 h .f32 d [a]) fun i => i.packBlock (dxCode f) m d a

/-- MXPACK (R162). -/
def execMxpack (h : Hdr) (f : MxFmt) (m : RMode) (d a : Reg) (s : State) : Out :=
  issue s (need3 h .f32 d [a]) fun i => i.packBlock (mxCode f) m d a

/-- The f32 result of an unpacking instruction: exact, or ±∞ with OF (R163). -/
def unpackF32 (v : FVal) : Nat × Flags :=
  let (c, f) := ffF32.ofVal Rnd.rne false v
  (c, f &&& fOF)

/-- DXUNPK (R163). -/
def execDxunpk (h : Hdr) (f : DxFmt) (d a : Reg) (s : State) : Out :=
  issue s (need3 h .f32 d [a]) fun i => i.lanesF 6 .f32 d fun l =>
    let v := (i.rd a.toNat l).toNat
    unpackF32 (elemVal (dxCode f) (v / 256) v)

/-- MXUNPK (R163). -/
def execMxunpk (h : Hdr) (f : MxFmt) (d a : Reg) (s : State) : Out :=
  issue s (need3 h .f32 d [a]) fun i => i.lanesF 6 .f32 d fun l =>
    let v := (i.rd a.toNat l).toNat
    unpackF32 (elemVal (mxCode f) (v / 256) v)

/-- Bits of FLAGS changed once, when ACTIVE is not empty (R164). -/
def Iss.setFlags (i : Iss) (m : Word) (f : Word → Word) : Eff :=
  .done (i.t.updWave i.k fun w => if i.idle then w else w.putFlags m f)

/-- What FLAGS needs. -/
def needFlags (h : Hdr) (dsts : List Nat) : Need := { h := h, srcs := [], dsts := dsts }

/-- FLAGS.clr (R164). -/
def execFlagsClr (h : Hdr) (mask : BitVec 15) (s : State) : Out :=
  issue s (needFlags h []) fun i => i.setFlags (mask.setWidth 32) fun f => f &&& ~~~(mask.setWidth 32)

/-- FLAGS.set (R164). -/
def execFlagsSet (h : Hdr) (mask : BitVec 15) (s : State) : Out :=
  issue s (needFlags h []) fun i => i.setFlags (mask.setWidth 32) fun f => f ||| mask.setWidth 32

/-- FLAGS.rm (R164). -/
def execFlagsRm (h : Hdr) (mode : BitVec 3) (s : State) : Out :=
  issue s (needFlags h []) fun i => i.setFlags 0 fun f => (f &&& 0xFFFC7FFF) ||| mode.setWidth 32 <<< 15

/-- FLAGS.take (R164). -/
def execFlagsTake (h : Hdr) (d : Reg) (mask : BitVec 15) (s : State) : Out :=
  issue s (needFlags h [d.toNat]) fun i =>
    let v := i.w.seenFlags i.s.free &&& mask.setWidth 32
    let t := i.t.putWords i.k 1 (i.each d.toNat fun _ => v)
    -- a late flag that the read did not see stays, so none is lost
    let gone := v &&& 0x7F
    .done (if i.idle then t else t.updWave i.k fun w => w.putFlags gone fun f => f &&& ~~~gone)

end Sys2Proof.Machine
end

