-- ==== Sys2Proof/Machine/Functions.lean ====
section
/-! DEFINITION. The vector functions 1/a, 1/√a, 2^a, log2 a, sin a, cos a and tanh a as values precise beyond every
rounding of R53 (a last bit stands for the rest), and their special operands (R54). -/

namespace Sys2Proof.Machine

/-- Fractional bits of the fixed-point arithmetic of this file. -/
def fxBits : Nat := 320

/-- One. -/
def fxOne : Nat := 2 ^ fxBits

/-- ln 2 in fixed point, rounded down. -/
def fxLn2 : Nat := 0xb17217f7d1cf79abc9e3b39803f2f6af40f343267298b62d8a0d175b8baafa2be7b876206debac98

/-- π/2 in fixed point, rounded down. -/
def fxHalfPi : Nat := 0x1921fb54442d18469898cc51701b839a252049c1114cf98e804177d4c76273644a29410f31c6809bb

/-- man × 2^exp in fixed point, rounded down. -/
def fxOf (man : Nat) (exp : Int) : Nat :=
  if 0 ≤ exp + fxBits then man * 2 ^ (exp + fxBits).toNat else man / 2 ^ (-(exp + fxBits)).toNat

/-- Terms of e^y from term `k` on: the sum of `n` terms, `t` the last one. -/
def fxExpSum (y : Nat) : Nat → Nat → Nat → Nat → Nat
  | 0, _, _, acc => acc
  | n + 1, k, t, acc =>
    let t' := t * y / fxOne / k
    fxExpSum y n (k + 1) t' (acc + t')

/-- e^y for 0 ≤ y < 1, in fixed point. -/
def fxExp (y : Nat) : Nat := fxExpSum y 80 1 fxOne fxOne

/-- 2^f for 0 ≤ f < 1, in fixed point. -/
def fxExp2 (f : Nat) : Nat := fxExp (f * fxLn2 / fxOne)

/-- Terms of 2·atanh t: `p` the current power of t. -/
def fxAtanhSum (t2 : Nat) : Nat → Nat → Nat → Nat → Nat
  | 0, _, _, acc => acc
  | n + 1, k, p, acc => fxAtanhSum t2 n (k + 2) (p * t2 / fxOne) (acc + p / k)

/-- ln z for 1 ≤ z < 2, in fixed point. -/
def fxLn (z : Nat) : Nat :=
  let t := (z - fxOne) * fxOne / (z + fxOne)
  2 * fxAtanhSum (t * t / fxOne) 110 1 t 0

/-- Alternating terms of the sine or cosine series: `k` the next factor. -/
def fxTrigSum (r2 : Nat) : Nat → Nat → Int → Int → Int
  | 0, _, _, acc => acc
  | n + 1, k, t, acc =>
    let t' : Int := -(t * r2 / fxOne / (k * (k + 1) : Nat))
    fxTrigSum r2 n (k + 2) t' (acc + t')

/-- sin r for 0 ≤ r < π/2, in fixed point. -/
def fxSin (r : Nat) : Int := fxTrigSum (r * r / fxOne) 50 2 r r

/-- cos r for 0 ≤ r < π/2, in fixed point. -/
def fxCos (r : Nat) : Int := fxTrigSum (r * r / fxOne) 50 1 fxOne fxOne

/-- A value a little above m × 2^exp. -/
def above (neg : Bool) (m : Nat) (exp : Int) : FVal := .fin neg (2 * m + 1) (exp - 1)

/-- A value a little below man × 2^exp. -/
def below (neg : Bool) (man : Nat) (exp : Int) : FVal := .fin neg (man * 2 ^ 200 - 1) (exp - 200)

/-- The vector functions of R153. -/
inductive VFun where
  | rcp | rsq | exp2 | log2 | sin | cos | tanh
  deriving DecidableEq, Repr

/-- 1/√(m × 2^e) for m > 0. -/
def rsqrtVal (m : Nat) (e : Int) : FVal :=
  let odd := e % 2 = 1
  let m := if odd then m * 2 else m
  let e := if odd then e - 1 else e
  let k := Nat.log2 m + guardBits
  let n := 2 ^ (2 * k) / m
  let r := isqrt n
  if r * r * m = 2 ^ (2 * k) then .fin false r (-(e / 2) - k) else above false r (-(e / 2) - k)

/-- 2^x for a finite x. -/
def exp2Val (neg : Bool) (m : Nat) (e : Int) : FVal :=
  if m = 0 then .fin false 1 0
  else if topExp m e ≥ 12 then (if neg then .fin false 1 (-5000) else .fin false 1 5000)
  else
    let x : Int := if neg then -(fxOf m e : Int) else fxOf m e
    let n := x / fxOne
    let f := (x % fxOne).toNat
    if f = 0 then .fin false 1 n else above false (fxExp2 f) (n - fxBits)

/-- log2 of m × 2^e for m > 0. -/
def log2Val (m : Nat) (e : Int) : FVal :=
  let k := Nat.log2 m
  let n : Int := k + e
  if m = 2 ^ k then .fin (decide (n < 0)) n.natAbs 0
  else
    let l := fxLn (m * fxOne / 2 ^ k) * fxOne / fxLn2
    let v : Int := n * fxOne + l
    above (decide (v < 0)) v.natAbs (-fxBits)

/-- sin x or cos x for a finite nonzero x. -/
def trigVal (cosine neg : Bool) (m : Nat) (e : Int) : FVal :=
  if topExp m e < -60 then (if cosine then below false 1 0 else below neg m e)
  else
    let x := fxOf m e
    let q := x / fxHalfPi + (if cosine then 1 else 0)
    let r := x % fxHalfPi
    let odd := (x / fxHalfPi) % 2 = 1
    let v := if odd != cosine then fxCos r else fxSin r
    let flip := q / 2 % 2 = 1
    above ((!cosine && neg) != flip) v.natAbs (-fxBits)

/-- tanh x for a finite nonzero x. -/
def tanhVal (neg : Bool) (m : Nat) (e : Int) : FVal :=
  if topExp m e < -60 then below neg m e
  else if topExp m e ≥ 7 then below neg 1 0
  else
    -- e^(2x) = 2^n × 2^f
    let y := 2 * fxOf m e * fxOne / fxLn2
    let p := fxExp2 (y % fxOne) * 2 ^ (y / fxOne)
    above neg ((p - fxOne) * fxOne / (p + fxOne)) (-fxBits)

/-- The value of a vector function and the flags of its special operands (R54). -/
def VFun.eval (f : VFun) (x : FVal) : FVal × Flags :=
  match x with
  | .nan s => (.nan false, fIf s fNV)
  | .inf neg =>
    match f with
    | .rcp => (.fin neg 0 0, 0)
    | .rsq => if neg then (.nan false, fNV) else (.fin false 0 0, 0)
    | .exp2 => if neg then (.fin false 0 0, 0) else (.inf false, 0)
    | .log2 => if neg then (.nan false, fNV) else (.inf false, 0)
    | .sin | .cos => (.nan false, fNV)
    | .tanh => (.fin neg 1 0, 0)
  | .fin neg m e =>
    match f with
    | .rcp => if m = 0 then (.inf neg, fDZ) else FVal.div (.fin false 1 0) x
    | .rsq => if m = 0 then (.inf neg, fDZ) else if neg then (.nan false, fNV) else (rsqrtVal m e, 0)
    | .exp2 => (exp2Val neg m e, 0)
    | .log2 => if m = 0 then (.inf true, fDZ) else if neg then (.nan false, fNV) else (log2Val m e, 0)
    | .sin => if m = 0 then (x, 0) else (trigVal false neg m e, 0)
    | .cos => if m = 0 then (.fin false 1 0, 0) else (trigVal true neg m e, 0)
    | .tanh => if m = 0 then (x, 0) else (tanhVal neg m e, 0)

/-- A finite magnitude code of f32, or the one of infinity, as man × 2^exp. -/
def f32Mag (code : Nat) : Nat × Int :=
  if code < 2 ^ 23 then (code, -149) else (2 ^ 23 + code % 2 ^ 23, (code / 2 ^ 23 : Nat) - 150)

/-- The signed distance of an f32 code that is no NaN from an exact value, as a multiple of 2^e, and `e`. -/
def f32Off (neg : Bool) (m : Nat) (e : Int) (code : Nat) : Int × Int :=
  let (cm, ce) := f32Mag (code % 2 ^ 31)
  let u := min e ce
  (fixAt (decide (2 ^ 31 ≤ code)) cm ce u - fixAt neg m e u, u)

/-- `d` × 2^u is at most `n` × 2^v in magnitude. -/
def magLe (d : Int) (u : Int) (n : Nat) (v : Int) : Bool :=
  decide (d.natAbs * 2 ^ (u - min u v).toNat ≤ n * 2 ^ (v - min u v).toNat)

/-- R53's bound in units in the last place of the exact f32 result. -/
def VFun.ulps : VFun → Nat
  | .rcp => 1
  | _ => 2

/-- An f32 code that R53 allows for an exact result: within the bound, in the last place of the exact result, or within
2^-20 (FSIN and FCOS beyond 2^17). -/
def VFun.allows (f : VFun) (wide neg : Bool) (m : Nat) (e : Int) (code : Nat) : Bool :=
  decide (code % 2 ^ 31 ≤ 0x7F800000) &&
    (let (d, u) := f32Off neg m e code
     if wide then magLe d u 1 (-20) else magLe d u f.ulps (max (topExp m e) ffF32.emin - 23))

/-- The number of a vector function in `Config.ulpChoice`. -/
def VFun.num : VFun → Nat
  | .rcp => 0 | .rsq => 1 | .exp2 => 2 | .log2 => 3 | .sin => 4 | .cos => 5 | .tanh => 6

/-- A finite value of magnitude 2^k or more, other than 2^k itself. -/
def topAtLeast (x : FVal) (k : Int) : Bool :=
  match x with
  | .fin _ m e => decide (m ≠ 0) && decide (topExp m e ≥ k) && !(topExp m e == k && m == 2 ^ Nat.log2 m)
  | _ => false

/-- The f32 result: a value within the bound of R53, chosen by the free constant `Config.ulpChoice` (log 4), else the
correctly rounded one, with the flags that R49, R50 and R153 give it. Results of special operands and results that overflow
as correctly rounded ones are those (log 46). -/
def VFun.f32 (f : VFun) (sat : Bool) (bits : Nat) : Nat × Flags :=
  let x := ffF32.decode bits
  let (v, fl) := f.eval x
  let (c, fr) := ffF32.ofVal Rnd.rne sat v
  match x, v with
  | .fin _ _ _, .fin neg m e =>
    let exact := (f32Off neg m e c).1 = 0
    if x.isZero || fr &&& (fOF ||| fSAT) != 0 || (f = .exp2 && exact && m = 1 && e = 0) || (f = .log2 && m = 0) then
      (c, fl ||| fr)
    else
      let p := Config.ulpChoice f.num bits (2 ^ 32) % 2 ^ 32
      let p := if f.allows ((f = .sin || f = .cos) && topAtLeast x 17) neg m e p then p else c
      let off := (f32Off neg m e p).1 ≠ 0
      let mag := p % 2 ^ 31
      if mag = 0x7F800000 then ((if sat then p - 1 else p), fl ||| fNX ||| if sat then fSAT else fOF)
      else (p, fl ||| fIf off fNX ||| fIf (off && decide (mag < 0x00800000)) fUF)
  | _, _ => (c, fl ||| fr)

end Sys2Proof.Machine
end

