-- ==== Sys2Proof/Machine/Float.lean ====
section
/-! DEFINITION. Float instructions (R53, R54, R146 to R157). -/

namespace Sys2Proof.Machine

/-- FADD (R150). -/
def execFadd (h : Hdr) (t : RType) (m : RMode) (sat : Bool) (d a b : Reg) (s : State) : Out :=
  issue s (need3 h t d [a, b]) fun i =>
    i.lanesR 4 t m sat d fun l k => FVal.add (i.w.mode m) (i.flt t a l k) (i.flt t b l k)

/-- FSUB (R150). -/
def execFsub (h : Hdr) (t : RType) (m : RMode) (sat : Bool) (d a b : Reg) (s : State) : Out :=
  issue s (need3 h t d [a, b]) fun i =>
    i.lanesR 4 t m sat d fun l k => FVal.add (i.w.mode m) (i.flt t a l k) (i.flt t b l k).neg

/-- FMUL (R150). -/
def execFmul (h : Hdr) (t : RType) (m : RMode) (sat : Bool) (d a b : Reg) (s : State) : Out :=
  issue s (need3 h t d [a, b]) fun i => i.lanesR 4 t m sat d fun l k => FVal.mul (i.flt t a l k) (i.flt t b l k)

/-- FFMA (R150). -/
def execFfma (h : Hdr) (t : RType) (m : RMode) (sat : Bool) (d a b c : Reg) (s : State) : Out :=
  issue s (need3 h t d [a, b, c]) fun i =>
    i.lanesR 4 t m sat d fun l k => FVal.fma (i.w.mode m) (i.flt t a l k) (i.flt t b l k) (i.flt t c l k)

/-- FDIV (R150). -/
def execFdiv (h : Hdr) (t : RType) (m : RMode) (sat : Bool) (d a b : Reg) (s : State) : Out :=
  issue s (need3 h t d [a, b]) fun i => i.lanesR 8 t m sat d fun l k => FVal.div (i.flt t a l k) (i.flt t b l k)

/-- FSQRT (R150). -/
def execFsqrt (h : Hdr) (t : RType) (m : RMode) (d a : Reg) (s : State) : Out :=
  issue s (need3 h t d [a]) fun i => i.lanesR 8 t m false d fun l k => FVal.sqrt (i.flt t a l k)

/-- A float result without rounding: a NaN becomes canonical (R36, R151, R152). -/
def exactCode (t : RType) (v : FVal) : Nat := ((RType.ffmt t).ofVal Rnd.rne false v).1

/-- FMIN (R151). -/
def execFmin (h : Hdr) (t : RType) (d a b : Reg) (s : State) : Out :=
  issue s (need3 h t d [a, b]) fun i => i.lanesF 1 t d fun l => RType.join t fun k =>
    let (v, f) := FVal.minmax false (i.flt t a l k) (i.flt t b l k)
    (exactCode t v, f)

/-- FMAX (R151). -/
def execFmax (h : Hdr) (t : RType) (d a b : Reg) (s : State) : Out :=
  issue s (need3 h t d [a, b]) fun i => i.lanesF 1 t d fun l => RType.join t fun k =>
    let (v, f) := FVal.minmax true (i.flt t a l k) (i.flt t b l k)
    (exactCode t v, f)

/-- FNEG (R152). -/
def execFneg (h : Hdr) (t : RType) (d a : Reg) (s : State) : Out :=
  issue s (need3 h t d [a]) fun i => i.lanesF 1 t d fun l => RType.join t fun k =>
    let v := i.flt t a l k
    (exactCode t v.neg, sigFlags [v])

/-- FABS (R152). -/
def execFabs (h : Hdr) (t : RType) (d a : Reg) (s : State) : Out :=
  issue s (need3 h t d [a]) fun i => i.lanesF 1 t d fun l => RType.join t fun k =>
    let v := i.flt t a l k
    (exactCode t (v.withSign false), sigFlags [v])

/-- A vector function: f32 within its bound, rounded to nearest whatever M is; the narrower types and FRCP.f64 rounded
once with M (R53, R153). -/
def Iss.vfun (i : Iss) (f : VFun) (t : RType) (m : RMode) (sat : Bool) (d a : Reg) : Eff :=
  if t = .f32 then i.lanesF 6 t d fun l => f.f32 sat (i.raw t a l)
  else i.lanesR 6 t m sat d fun l k => f.eval (i.flt t a l k)

/-- FRCP (R153). -/
def execFrcp (h : Hdr) (t : RType) (m : RMode) (sat : Bool) (d a : Reg) (s : State) : Out :=
  issue s (need3 h t d [a]) fun i => i.vfun .rcp t m sat d a

/-- FRSQ (R153). -/
def execFrsq (h : Hdr) (t : RType) (m : RMode) (sat : Bool) (d a : Reg) (s : State) : Out :=
  issue s (need3 h t d [a]) fun i => i.vfun .rsq t m sat d a

/-- FEXP2 (R153). -/
def execFexp2 (h : Hdr) (t : RType) (m : RMode) (sat : Bool) (d a : Reg) (s : State) : Out :=
  issue s (need3 h t d [a]) fun i => i.vfun .exp2 t m sat d a

/-- FLOG2 (R153). -/
def execFlog2 (h : Hdr) (t : RType) (m : RMode) (sat : Bool) (d a : Reg) (s : State) : Out :=
  issue s (need3 h t d [a]) fun i => i.vfun .log2 t m sat d a

/-- FSIN (R153). -/
def execFsin (h : Hdr) (t : RType) (m : RMode) (sat : Bool) (d a : Reg) (s : State) : Out :=
  issue s (need3 h t d [a]) fun i => i.vfun .sin t m sat d a

/-- FCOS (R153). -/
def execFcos (h : Hdr) (t : RType) (m : RMode) (sat : Bool) (d a : Reg) (s : State) : Out :=
  issue s (need3 h t d [a]) fun i => i.vfun .cos t m sat d a

/-- FTANH (R153). -/
def execFtanh (h : Hdr) (t : RType) (m : RMode) (sat : Bool) (d a : Reg) (s : State) : Out :=
  issue s (need3 h t d [a]) fun i => i.vfun .tanh t m sat d a

/-- The integral value of one element and its flags: NX only for FRND.exact (R154). -/
def rintCode (t : RType) (r : Rnd) (exact : Bool) (v : FVal) : Nat × Flags :=
  let (x, inx) := v.rint r
  (exactCode t x, sigFlags [v] ||| fIf (exact && inx) fNX)

/-- FRND and FRND.exact (R154). -/
def Iss.frnd (i : Iss) (exact : Bool) (t : RType) (m : RMode) (d a : Reg) : Eff :=
  match i.lanesF 4 t d fun l => RType.join t fun k => rintCode t (i.rnd m l k) exact (i.flt t a l k) with
  | .done s => .done (if i.idle then s else s.stepSto i.k m)
  | e => e

/-- FRND (R154). -/
def execFrnd (h : Hdr) (t : RType) (m : RMode) (d a : Reg) (s : State) : Out :=
  issue s (need3 h t d [a]) fun i => i.frnd false t m d a

/-- FRND.exact (R154). -/
def execFrndExact (h : Hdr) (t : RType) (m : RMode) (d a : Reg) (s : State) : Out :=
  issue s (need3 h t d [a]) fun i => i.frnd true t m d a

/-- FSCALE's exponent: B as s32, or its half as s16 (R155). -/
def Iss.scaleBy (i : Iss) (t : RType) (b : Reg) (l k : Nat) : Int :=
  let v := (i.rd b.toNat l).toNat
  if t.inH then intOfBits 16 true (v / 2 ^ (16 * k)) else intOfBits 32 true v

/-- FSCALE (R155). -/
def execFscale (h : Hdr) (t : RType) (m : RMode) (sat : Bool) (d a b : Reg) (s : State) : Out :=
  issue s { h := h, srcs := regsOf t a ++ [b.toNat], dsts := regsOf t d } fun i =>
    i.lanesR 4 t m sat d fun l k => FVal.scale (i.flt t a l k) (i.scaleBy t b l k)

/-- The class bit of a float (R156). -/
def classBit (f : FFmt) (v : FVal) : Nat :=
  match v with
  | .nan sig => if sig then 0 else 1
  | .inf neg => if neg then 2 else 9
  | .fin neg m e =>
    if m = 0 then (if neg then 5 else 6)
    else
      let normal := decide (topExp m e ≥ f.emin)
      if neg then (if normal then 3 else 4) else (if normal then 8 else 7)

/-- FCLASS (R156). -/
def execFclass (h : Hdr) (t : RType) (d a : Reg) (s : State) : Out :=
  issue s { h := h, srcs := regsOf t a, dsts := [d.toNat] } fun i =>
    i.lanesW 1 d fun l => BitVec.ofNat 32 ((List.range (RType.elems t)).foldl
      (fun n k => n + 2 ^ (16 * k + classBit (RType.ffmt t) (i.flt t a l k))) 0)

/-- The exact sum of products of DOT2 (R157). -/
def dot2Val (mode : RMode) (a0 b0 a1 b1 c : FVal) : FVal × Flags :=
  let (p, f0) := FVal.mul a0 b0
  let (q, f1) := FVal.mul a1 b1
  let (x, f2) := FVal.add mode p q
  let (y, f3) := FVal.add mode x c
  (y, f0 ||| f1 ||| f2 ||| f3)

/-- DOT2 (R157). -/
def execDot2 (h : Hdr) (t : RType) (m : RMode) (sat : Bool) (d a b c : Reg) (s : State) : Out :=
  issue s { h := h, srcs := [a.toNat, b.toNat, c.toNat], dsts := [d.toNat] } fun i =>
    i.lanesR 4 .f32 m sat d fun l _ =>
      dot2Val (i.w.mode m) (i.flt t a l 0) (i.flt t b l 0) (i.flt t a l 1) (i.flt t b l 1) (i.flt .f32 c l 0)

end Sys2Proof.Machine
end

