-- ==== Sys2Proof/Machine/Buffers.lean ====
section
/-! DEFINITION. The scratch and the typed buffers of a block: reads, recorded writes, granule indices, reservations
(R185, R188, R199, R244, R377). -/

namespace Sys2Proof.Machine

/-- A block's allocation of a space. -/
def Block.buf (b : Block) : Space → Buffer
  | .s => b.s
  | .w => b.w
  | .a => b.a
  | .c => b.c
  | .g => Buffer.blank

/-- The block with an allocation changed. -/
def Block.updBuf (b : Block) (sp : Space) (f : Buffer → Buffer) : Block :=
  match sp with
  | .s => { b with s := f b.s }
  | .w => { b with w := f b.w }
  | .a => { b with a := f b.a }
  | .c => { b with c := f b.c }
  | .g => b

/-- Bytes of a granule of a space (R185). -/
def Space.granule : Space → Nat
  | .s => 4096
  | .c => 65536
  | _ => 16384

/-- The byte at an address of an allocation; 0 until written (R200). -/
def Buffer.byte (b : Buffer) (addr : Nat) : Byte := Tab.get 0 b.bytes addr

/-- `n` bytes from an address. -/
def Buffer.take (b : Buffer) (addr n : Nat) : List Byte := (List.range n).map fun i => b.byte (addr + i)

/-- The allocation with bytes written at consecutive addresses. -/
def Buffer.put (b : Buffer) (addr : Nat) (bs : List Byte) : Buffer :=
  { b with
    bytes := bs.zipIdx.foldl (fun t p => Tab.set 0 t (addr + p.2) p.1) b.bytes
    pois := Tab.sub b.pois fun w _ => !(decide (addr ≤ 8 * w) && decide (8 * w + 8 ≤ addr + bs.length)) }

/-- The cause that a read of these bytes meets, with the address (R188, R199). -/
def Buffer.bad (b : Buffer) (addr n : Nat) : Option (Cause × Nat) :=
  ((List.range n).filterMap fun i =>
    (Tab.find b.pois ((addr + i) / 8)).map fun u => (if u then Cause.uncorrectable else .poison, addr + i)).head?

/-- The granule index of an address (R199). -/
def Buffer.index (b : Buffer) (sp : Space) (addr : Nat) : Nat := Tab.get 0 b.fdt (addr / Space.granule sp)

/-- The state with a block's allocation changed. -/
def State.updBuf (s : State) (blk : Nat) (sp : Space) (f : Buffer → Buffer) : State :=
  s.updBlock blk fun b => b.updBuf sp f

/-- The first record of a scratch granule at a depth keeps the granule's index (R377). -/
def State.recordScratch (s : State) (blk wib d word : Nat) : State :=
  let b := s.block blk
  let g := word * 4 / 4096
  let known := b.rcv.recs.any fun r => r.depth == d &&
    match r.loc with
    | .scratch w => w * 4 / 4096 == g
    | _ => false
  s.recordAt blk wib d (.scratch word)
    (.scratch (BitVec.ofNat 32 (leNat (b.s.take (4 * word) 4))) (if known then none else some (b.s.index .s (4 * word))))

/-- The record of a 128-byte segment of w or a of block `owner` (R377). -/
def State.recordGranule (s : State) (blk wib d owner : Nat) (sp : Space) (seg : Nat) : State :=
  let buf := (s.block owner).buf sp
  s.recordAt blk wib d (.granule owner sp seg) (.granule (buf.take (128 * seg) 128) (buf.index sp (128 * seg)))

/-- The numbers of the `size`-byte units that `n` bytes from `addr` on touch. -/
def unitsOfSpan (addr n size : Nat) : List Nat :=
  if n = 0 then [] else (List.range ((addr + n - 1) / size - addr / size + 1)).map fun i => addr / size + i

/-- The records before a write of a buffer's bytes by work of depth `d` (R377). -/
def State.recordBuf (s : State) (blk wib d : Nat) (sp : Space) (addr n : Nat) : State :=
  if d = 0 then s
  else match sp with
    | .s => (unitsOfSpan addr n 4).foldl (fun s w => s.recordScratch blk wib d w) s
    | .w | .a => (unitsOfSpan addr n 128).foldl (fun s g => s.recordGranule blk wib d blk sp g) s
    | _ => s

/-- A write of a buffer's bytes by work of depth `d`, recorded first. -/
def State.bufWrite (s : State) (blk wib d : Nat) (sp : Space) (addr : Nat) (bs : List Byte) : State :=
  (s.recordBuf blk wib d sp addr bs.length).updBuf blk sp fun b => b.put addr bs

/-- The other threads' reservations on the granules that a lane writes in s or a end (R244). -/
def State.bufResv (s : State) (blk : Nat) (sp : Space) (addr n : Nat) (own : Nat × Nat) : State :=
  let gs := unitsOfSpan addr n 128
  { s with waves := Tab.mapVals s.waves fun k w =>
    if w.block = blk then
      { w with resv := Tab.sub w.resv fun l r => !(r.space == sp && gs.contains r.granule && own != (k, l)) }
    else w }

/-- The granules that these bytes touch take an index (R199, R257, R279). -/
def State.stampGranules (s : State) (blk : Nat) (sp : Space) (addr n idx : Nat) : State :=
  s.updBuf blk sp fun b =>
    { b with fdt := (unitsOfSpan addr n (Space.granule sp)).foldl (fun t g => Tab.set 0 t g idx) b.fdt }

end Sys2Proof.Machine
end

