-- ==== Sys2Proof/Machine/Locate.lean ====
section
/-! DEFINITION. Where a memory access goes: effective addresses, the governing format, the checks of R232 in their order
(R110, R185, R198, R228 to R232, R240, R344 to R346, R417). -/

namespace Sys2Proof.Machine

/-- The bytes of an access to g: at most two pages. -/
structure Span where
  va : Nat
  n : Nat
  x : Xlat
  y : Xlat
  deriving DecidableEq, Repr

/-- The place of byte `j` of a span. -/
def Span.place (p : Span) (j : Nat) : Nat :=
  if p.va + j < p.x.base + p.x.size then placeOf (p.x.pa + j) else placeOf (p.y.pa + j + 1 - p.n)

/-- The translation of `n` bytes from a virtual address, `n` at most a page. -/
def State.span (s : State) (core ctx va n : Nat) (a : Access) : Except (Cause × Nat) Span :=
  match s.unitXlate core ctx va a with
  | .error c => .error (c, va)
  | .ok x =>
    if va + n ≤ x.base + x.size then .ok ⟨va, n, x, x⟩
    else match s.unitXlate core ctx (va + n - 1) a with
      | .error c => .error (c, x.base + x.size)
      | .ok y => .ok ⟨va, n, x, y⟩

/-- The state after a span was translated. -/
def State.markSpan (s : State) (core ctx : Nat) (p : Span) : State := (s.marked core ctx p.x).marked core ctx p.y

/-- What an instruction asks of its accesses: rights, immediate or not, raw memory or T's own format only, a whole block,
a store that writes the scale plane with it, and the spaces that its row accepts (R228). -/
structure MemOp where
  acc : Access
  imm : Bool := false
  own : Bool := false
  whole : Bool := false
  spaces : List Space
  deriving DecidableEq, Repr

/-- A failing check of one lane: the step of R232, the rank within it, cause and address. -/
structure Miss where
  step : Nat
  rank : Nat
  cause : Cause
  addr : Nat
  deriving DecidableEq, Repr

/-- A located access: the first byte, the number of bytes, the first element's bit in it, the element width, the
governing entry with its index, the first element's index in the region, and the scales that it reads: block, address,
translation. -/
structure Place where
  sp : Space
  addr : Nat
  n : Nat
  bit : Nat
  w : Nat
  fdt : Fdt
  idx : Option Nat
  elem : Nat
  span : Option Span
  gov : Option Xlat
  scales : List (Nat × Nat × Option Span)
  deriving DecidableEq, Repr

/-- An entry that names raw memory. -/
def Fdt.raw : Fdt := ⟨0, 0, 0, 0, 0, false⟩

/-- The storage format that a register type itself is (R199, R240). -/
def RType.own : RType → Option Nat
  | .f64 => some 1
  | .f32 => some 2
  | .f16 => some 3
  | .bf16 => some 4
  | .s8 => some 10
  | .z8 => some 11
  | .s16 => some 23
  | _ => none

/-- CLS of a tile (R270). -/
def Block.cls (b : Block) (tile : Nat) : Nat := (Tab.get 0 b.tiles tile).toNat / 16 % 4

/-- The accumulator type that governs an address of c: an f64 tile extends over two (R230, R270). -/
def Block.clsAt (b : Block) (addr : Nat) : Nat :=
  let t := addr / 65536
  if t % 2 = 1 ∧ b.cls (t - 1) = 3 then 3 else b.cls t

/-- The storage format of an accumulator type (R230). -/
def clsFmt (cls : Nat) : Nat := if cls = 1 then 2 else if cls = 3 then 1 else 0

/-- The entry that governs an address, with its index and the translation of its page; for an `.x` form, `x`, the page is
consulted for its format alone (R230, R345). -/
def Iss.governing (i : Iss) (op : MemOp) (x : Bool) (sp : Space) (a : Nat) : Except (Cause × Nat) (Fdt × Option Nat × Option Xlat) :=
  match sp with
  | .g =>
    match i.s.unitXlate i.core i.w.ctx a (if x then .format else op.acc) with
    | .error c => .error (c, a)
    | .ok x => .ok (i.s.fdt i.core i.w.ctx (pteFdt x.leaf), some (pteFdt x.leaf), some x)
  | .c => .ok ({ Fdt.raw with fmt := clsFmt (i.b.clsAt a) }, none, none)
  | _ =>
    if a < (i.b.buf sp).size then
      let n := (i.b.buf sp).index sp a
      .ok (i.s.fdt i.core i.w.ctx n, some n, none)
    else .ok (Fdt.raw, none, none)

/-- The rank of a translation's cause among those of step 9 (R232). -/
def Cause.rank : Cause → Nat
  | .translation => 0
  | .permission => 1
  | .parkedPage => 2
  | _ => 3

/-- The place of a miss in the order of R232. -/
def Miss.key (m : Miss) : Nat := m.step * 8 + m.rank

/-- Of several optional misses the one that R232 puts first, and of equals the first listed. -/
def firstMiss : List (Option Miss) → Option Miss
  | [] => none
  | none :: ms => firstMiss ms
  | some m :: ms =>
    match firstMiss ms with
    | none => some m
    | some x => if x.key < m.key then some x else some m

/-- A miss under a condition. -/
def missIf (c : Bool) (step rank : Nat) (cause : Cause) (addr : Nat) : Option Miss :=
  if c then some ⟨step, rank, cause, addr⟩ else none

/-- FRAME_TRAP: the access passes its frame slot's bounds (R110). -/
def Iss.framed (i : Iss) (chk : Option (BitVec 4)) (sp : Space) (a n : Nat) : Bool :=
  match chk with
  | none => true
  | some f =>
    let v := i.frame f.toNat
    let base := (v.extractLsb' 0 48).toNat
    let size := (v.extractLsb' 64 32).toNat
    decide (size ≠ 0) && v.extractLsb' 48 3 == sp.code && decide (base ≤ a) && decide (a + n ≤ base + size)

/-- The lowest address of an access to a buffer that does not lie in the allocation (R185). -/
def Block.beyond (b : Block) (sp : Space) (a n : Nat) : Option Nat :=
  let size := (b.buf sp).size
  if a ≥ 2 ^ 32 ∨ a ≥ size then some a else if a + n > size then some size else none

/-- The first miss of a list of scale reads or writes, at the steps of its space. -/
def Iss.scaleMiss (i : Iss) (op : MemOp) (sp : Space) (sz : Nat) (ats : List Nat) : Option Miss :=
  firstMiss (ats.map fun a =>
    match sp with
    | .g => match i.s.span i.core i.w.ctx a sz op.acc with
      | .error (c, at_) => some ⟨9, c.rank, c, at_⟩
      | .ok _ => none
    | _ => (i.b.beyond sp a sz).map fun at_ => ⟨8, 0, .bufferPermission, at_⟩)

/-- LOCATING one lane's access at `a`, with the element index of an `.x` form, through the checks of R232 in order. -/
def Iss.locate (i : Iss) (op : MemOp) (sp : Space) (chk : Option (BitVec 4)) (t : RType) (a : Nat) (elem : Option Int) :
    Except Miss Place :=
  let gov := i.governing op elem.isSome sp a
  let (f, idx, gx) : Fdt × Option Nat × Option Xlat := match gov with
    | .ok r => r
    | .error _ => (Fdt.raw, none, none)
  let raw := f.fmt == 0 || f.bad || op.own
  let tb := RType.bits t / 8
  let w := if raw then 8 * tb else fmtWidth f.fmt
  let ne := if raw then 1 else if op.whole then 32 else RType.elems t
  let pos : Int := elem.getD 0 * w
  let byte : Nat := (((a : Int) + pos / 8) % 2 ^ 64).toNat
  let bit : Nat := (pos % 8).toNat
  let n := (bit + ne * w + 7) / 8
  let align :=
    if raw then tb else if w < 8 then 1 else if elem.isSome then w / 8 else n
  let from_ : Int := ((byte : Int) - f.origin) * 8 + bit
  let e0 : Nat := (from_ / w).toNat
  let isBlk := fmtBlock f.fmt && !raw
  let sz := fmtScaleBytes f.fmt
  let blocks := if isBlk then unitsOfSpan e0 ne 32 else []
  let ats := blocks.map fun b => (b, f.scaleAt b sz)
  let misal :=
    if op.whole then !raw && from_ % (32 * w) != 0
    else byte % align != 0 || (elem.isSome && ((a : Int) - f.origin) % (if w = 6 then 3 else 1) != 0)
  let early := sp != .g || op.own
  let span : Except (Cause × Nat) (Option Span) := match sp with
    | .g => match i.s.span i.core i.w.ctx byte n op.acc with
      | .error e => .error e
      | .ok p => .ok (some p)
    | _ => .ok none
  let storeSingle := op.acc == .write && isBlk && !op.whole
  let format :=
    f.bad || (op.own && f.fmt != 0 && (some f.fmt != RType.own t || decide (from_ < 0))) || (op.whole && f.fmt == 0) ||
    (!raw && (decide (from_ < 0) || (elem.isNone && !op.whole && decide (w < 8)) || storeSingle))
  let far := match span with
    | .ok (some p) => op.imm && !(paDram p.x.pa && paDram p.y.pa)
    | _ => false
  let miss := firstMiss [
    missIf (sp == .g && decide (a ≥ 2 ^ 48)) 6 0 .translation a,
    missIf (sp == .g && decide (byte ≥ 2 ^ 48)) 6 0 .translation byte,
    missIf (early && (op.own || !f.bad) && misal) 6 1 .misaligned byte,
    missIf (!i.framed chk sp byte n) 7 0 .frameTrap byte,
    missIf (!op.spaces.contains sp) 8 0 .bufferPermission byte,
    (if sp = .g then none else (i.b.beyond sp byte n).map fun x => ⟨8, 0, .bufferPermission, x⟩),
    (match gov with
      | .error (c, x) => some ⟨9, c.rank, c, x⟩
      | .ok _ => none),
    (match span with
      | .error (c, x) => some ⟨9, c.rank, c, x⟩
      | .ok _ => none),
    missIf far 9 1 .permission byte,
    (if storeSingle then none else i.scaleMiss op sp sz (ats.map Prod.snd)),
    missIf (!early && !f.bad && misal) 10 0 .misaligned byte,
    missIf format 10 1 .format byte,
    missIf (op.imm && sp == .g && i.s.heldAt i.core i.w.ctx byte n) 11 0 .permission byte,
    (if op.imm && sp == .g then firstMiss (ats.map fun b =>
      missIf (i.s.heldAt i.core i.w.ctx b.2 sz) 11 0 .permission b.2) else none)]
  match miss, span with
  | some m, _ => .error m
  | none, .error (c, x) => .error ⟨9, c.rank, c, x⟩
  | none, .ok p =>
    .ok ⟨sp, byte, n, bit, w, f, idx, e0, p, gx, ats.map fun b => (b.1, b.2, match sp with
      | .g => (i.s.span i.core i.w.ctx b.2 sz op.acc).toOption
      | _ => none)⟩

/-- A lane's failing check, if it has one. -/
def missOf (r : Nat × Except Miss Place) : Option (Nat × Miss) :=
  match r.2 with
  | .error m => some (r.1, m)
  | .ok _ => none

/-- The located accesses of the lanes of ACTIVE, or the miss that decides, with its lanes (R232). -/
def Iss.locateAll (i : Iss) (f : Nat → Except Miss Place) : Except (Miss × Mask) (List (Nat × Place)) :=
  let rs := i.lanes.map fun l => (l, f l)
  let ms := rs.filterMap missOf
  match ms.foldl (fun (b : Option (Nat × Miss)) m => match b with
      | none => some m
      | some x => if m.2.key < x.2.key then some m else some x) none with
  | some x => .error (x.2, Mask.of fun l => ms.any fun m => m.1 == l && m.2.key == x.2.key)
  | none => .ok (rs.filterMap fun r => r.2.toOption.map fun p => (r.1, p))

/-- UNIFORMITY of a memory instruction in the lanes that differ, TADDR the address of the lowest (R232), else go on. -/
def Iss.uniformAt (i : Iss) (d : Mask) (addr : Nat → Nat) (go : Eff) : Eff :=
  if d = 0 then go else i.raise .uniformity (some (BitVec.ofNat 64 (addr (Mask.low d)))) d

/-- The accesses located, else their fault. -/
def Iss.located (i : Iss) (f : Nat → Except Miss Place) (go : List (Nat × Place) → Eff) : Eff :=
  match i.locateAll f with
  | .error (m, lanes) => i.raise m.cause (some (BitVec.ofNat 64 m.addr)) lanes
  | .ok ps => go ps

/-- The effective address of a lane (R229). -/
def Iss.ea (i : Iss) (ma : MemArg) (l : Nat) : Nat :=
  (i.rd2 ma.base.toNat l + BitVec.signExtend 64 ma.off).toNat

/-- The base address of a lane of an `.x` form. -/
def Iss.baseOf (i : Iss) (ma : MemArg) (l : Nat) : Nat := (i.rd2 ma.base.toNat l).toNat

/-- The element index of a lane of an `.x` form (R230). -/
def Iss.elemOf (i : Iss) (ma : MemArg) (idx : Reg) (l : Nat) : Int := (i.rd idx.toNat l).toInt + ma.off.toInt

/-- A lane's access of a plain or an `.x` form. -/
def Iss.reach (i : Iss) (op : MemOp) (ma : MemArg) (t : RType) (idx : Option Reg) (l : Nat) : Except Miss Place :=
  match idx with
  | none => i.locate op ma.sp ma.chk t (i.ea ma l) none
  | some b => i.locate op ma.sp ma.chk t (i.baseOf ma l) (some (i.elemOf ma b l))

/-- The state after an optional translation. -/
def State.markOpt (s : State) (core ctx : Nat) : Option Xlat → State
  | some x => s.marked core ctx x
  | none => s

/-- The state after an optional span was translated. -/
def State.markSpanOpt (s : State) (core ctx : Nat) : Option Span → State
  | some q => s.markSpan core ctx q
  | none => s

/-- The state after an optional FDT entry was used. -/
def State.fdtOpt (s : State) (core ctx : Nat) : Option Nat → State
  | some n => s.fdtUsed core ctx n
  | none => s

/-- The state after one located access was translated. -/
def Iss.touch1 (i : Iss) (t : State) (p : Place) : State :=
  (p.scales.foldl (fun t x => t.markSpanOpt i.core i.w.ctx x.2.2)
    ((t.markOpt i.core i.w.ctx p.gov).markSpanOpt i.core i.w.ctx p.span)).fdtOpt i.core i.w.ctx p.idx

/-- The state after located accesses were translated: ACC and DIRTY set, TLB and FDT copies kept. -/
def Iss.touch (i : Iss) (t : State) (ps : List (Nat × Place)) : State := ps.foldl (fun t p => i.touch1 t p.2) t

end Sys2Proof.Machine
end

