-- ==== Sys2Proof/Machine/System.lean ====
section
/-! DEFINITION. System instructions: special registers, frame slots, traps, translation invalidation, leases (R82, R97,
R109 to R117, R179 to R181, R338, R339, R351, R365 to R370, R373). -/

namespace Sys2Proof.Machine

/-! ### Special registers -/

/-- OPCLASS (R116). -/
def State.opclassWord (s : State) (k : Nat) : Word :=
  let core := s.coreOf k
  let c := s.cluster (core / 8)
  let req := (s.lpb (s.wave k).block).opclass
  BitVec.ofNat 32 (s.coreClass core + req * 16 + if c.boost ≠ 0 then 256 else 0)

/-- PHASE_STATE (R114). -/
def Recovery.phaseState (r : Recovery) : Word :=
  BitVec.ofNat 32 (r.broken.toNat + 2 * r.held.toNat + 4 * r.spilled.toNat)

/-- QSTATE of a lane (R114). -/
def Wave.qstate (w : Wave) (l : Nat) : Word :=
  BitVec.ofNat 32 ((List.range 4).foldl (fun n q =>
    if Tab.has w.queues q then n + 2 ^ (8 * q) * (128 + ((Tab.find w.fifos (q * 32 + l)).elim 0 (·.count))) else n) 0)

/-- TCFG_LIVE (R115). -/
def State.tcfgLive (s : State) (k : Nat) : Word :=
  let busy := fun v => s.fly.tiles.any fun t => t.2.wave == k && t.2.ver == v
  BitVec.ofNat 32 ((s.wave k).tcur * 16 + (List.range 4).foldl (fun n v => if busy v then n + 2 ^ v else n) 0)

/-- RSTATUS of a wave (R373). -/
def State.rstatus (s : State) (k : Nat) : Word :=
  let w := s.wave k
  let b := s.block w.block
  let f := b.rcv.frame b.depth
  BitVec.ofNat 32 (f.elim 0 (fun f => f.rollbacks * 2 ^ 24 + f.rank * 2 ^ 16 + f.skip.toNat * 4) +
    b.rcv.sitting.isSome.toNat * 128 + b.rcv.inRound.toNat * 64 + w.dispatch.toNat * 2)

/-- A 32-bit special register as a lane of a wave reads it (R112). -/
def State.special32 (s : State) (k l n : Nat) : Word :=
  let w := s.wave k
  let b := s.block w.block
  let p := s.lpb w.block
  let nat := fun v => BitVec.ofNat 32 v
  match n with
  | 0x000 => nat l
  | 0x001 => nat w.slot
  | 0x002 => w.handle
  | 0x003 => nat b.x
  | 0x004 => nat b.y
  | 0x005 => nat b.z
  | 0x006 => nat p.gx
  | 0x007 => nat p.gy
  | 0x008 => nat p.gz
  | 0x009 => nat w.wib
  | 0x00A => nat b.nwaves
  | 0x00B => nat (b.gang.getD 0)
  | 0x00C => nat (b.core % 64)
  | 0x00D => nat (b.core % 64 / 8)
  | 0x00E => nat (b.core / 64)
  | 0x00F => nat s.dev.id
  | 0x010 => nat w.ctx
  | 0x020 => w.seenFlags s.free
  | 0x021 => b.rcv.phaseState
  | 0x030 => nat w.trap.level
  | 0x031 => w.trap.a.cause
  | 0x032 => w.trap.b.cause
  | 0x037 => w.trap.a.mask
  | 0x038 => w.trap.b.mask
  | 0x040 => nat b.depth
  | 0x041 => s.rstatus k
  | 0x042 => b.rcv.rcause
  | 0x050 => w.tcfg.extractLsb' 0 32
  | 0x051 => s.tcfgLive k
  | 0x060 => nat (min (s.launch b.launch).lease (2 ^ 32 - 1))
  | 0x061 => s.opclassWord k
  | 0x070 => nat b.spawnDepth
  | 0x071 => w.qstate l
  | 0x080 => nat (s.core b.core).grants
  | _ => 0

/-- A 64-bit special register as a lane of a wave reads it (R112). -/
def State.special64 (s : State) (k l n : Nat) : DWord :=
  let w := s.wave k
  let b := s.block w.block
  match n with
  | 0x011 => BitVec.ofNat 64 (s.core b.core).cycles
  | 0x033 => (Tab.get 0 w.trap.a.epc l).setWidth 64
  | 0x034 => (Tab.get 0 w.trap.b.epc l).setWidth 64
  | 0x035 => w.trap.a.addr
  | 0x036 => w.trap.b.addr
  | 0x039 => w.trap.vec
  | 0x03A => w.trap.save
  | 0x062 => BitVec.ofNat 64 b.heat
  | 0x072 => b.parentCtr
  | _ => 0

/-- SRD (R112 to R117, R179). -/
def execSrd (h : Hdr) (wide : Bool) (d : Reg) (num : BitVec 12) (s : State) : Out :=
  issue s { h := h, srcs := [], dsts := if wide then pairOf d else [d.toNat] } fun i =>
    if wide then i.write 1 (i.each2 d.toNat fun l => i.s.special64 i.k l num.toNat)
    else i.write 1 (i.each d.toNat fun l => i.s.special32 i.k l num.toNat)

/-- TEPC of a bank written in lanes, masked to 48 bits (R179). -/
def TrapBank.putEpc (b : TrapBank) (ls : List Nat) (f : Nat → DWord) : TrapBank :=
  { b with epc := ls.foldl (fun t l => Tab.put t l ((f l).setWidth 48)) b.epc }

/-- A per-lane special register written: TEPC_A and TEPC_B (R112). -/
def Wave.putLaneSpecial (w : Wave) (n : Nat) (ls : List Nat) (f : Nat → DWord) : Wave :=
  if n = 0x033 then { w with trap := { w.trap with a := w.trap.a.putEpc ls f } }
  else { w with trap := { w.trap with b := w.trap.b.putEpc ls f } }

/-- The ration that a write of BANK_GRANTS stores (R116). -/
def grantsOf (v : Nat) : Nat := max 4 (min 12 (v % 16))

/-- A special register of a wave, block or core written (R112, R114, R116, R179). -/
def State.putSpecial (s : State) (k n : Nat) (v : DWord) : State :=
  let v32 : Word := v.setWidth 32
  match n with
  | 0x020 => s.updWave k fun w => w.putFlags (BitVec.allOnes 32) fun f => writeFlags f v32
  | 0x021 => s.updRcv (s.wave k).block fun r => { r with broken := v.getLsbD 0 }
  | 0x035 => s.updWave k fun w => { w with trap := { w.trap with a := { w.trap.a with addr := v } } }
  | 0x036 => s.updWave k fun w => { w with trap := { w.trap with b := { w.trap.b with addr := v } } }
  | 0x037 => s.updWave k fun w => { w with trap := { w.trap with a := { w.trap.a with mask := v32 } } }
  | 0x038 => s.updWave k fun w => { w with trap := { w.trap with b := { w.trap.b with mask := v32 } } }
  | 0x039 => s.updWave k fun w => { w with trap := { w.trap with vec := v } }
  | 0x03A => s.updWave k fun w => { w with trap := { w.trap with save := v } }
  | 0x080 => s.updCore (s.coreOf k) fun c => { c with grants := grantsOf v.toNat, written := grantsOf v.toNat }
  | _ => s

/-- SWR (R112 to R116, R179). -/
def execSwr (h : Hdr) (wide : Bool) (num : BitVec 12) (a : Reg) (s : State) : Out :=
  issue s { h := h, srcs := if wide then pairOf a else [a.toNat], dsts := [], sup := num == 0x080 } fun i =>
    let f := fun l => if wide then i.rd2 a.toNat l else (i.rd a.toNat l).setWidth 64
    if i.idle then .done i.t
    else if num = 0x033 ∨ num = 0x034 then .done (i.t.updWave i.k fun w => w.putLaneSpecial num.toNat i.lanes f)
    else i.uniform (i.differ f) (.done (i.t.putSpecial i.k num.toNat (f i.low)))

/-! ### Frame slots -/

/-- A frame slot of a block written by a wave: recorded, and the old value kept until a block barrier (R109, R180). -/
def State.putFrame (s : State) (blk wib n : Nat) (v : BitVec 128) : State :=
  let old := Tab.get 0 (s.block blk).frames n
  (s.record blk wib (.slot n) (.slot old (Tab.get [] (s.block blk).frameOld n))).updBlock blk fun b => { b with
    frames := Tab.set 0 b.frames n v
    frameOld := Tab.put b.frameOld n ((wib, old) :: Tab.get [] b.frameOld n) }

/-- FRAME (R109, R180). -/
def execFrame (h : Hdr) (slot : BitVec 4) (a : Reg) (s : State) : Out :=
  issue s { h := h, srcs := runOf a 4, dsts := [] } fun i =>
    let word := fun j l => i.rd (a.toNat + j) l
    let all := fun l => [word 0 l, word 1 l, word 2 l, word 3 l]
    if i.idle then .done i.t
    else i.uniform (i.differ all) (
      let v : BitVec 128 := word 3 i.low ++ word 2 i.low ++ (word 1 i.low &&& 0x001FFFFF) ++ word 0 i.low
      .done (i.t.putFrame i.blk i.w.wib slot.toNat v))

/-! ### Traps -/

/-- A fault whose TEPC is the next counter, in the lanes of ACTIVE, TADDR the code; NOP without one (R181, R368). -/
def Iss.codeTrap (i : Iss) (cause : Cause) (code : BitVec 32) : Eff :=
  if i.idle then .done i.t else .fault i.s ⟨cause, some (code.setWidth 64), i.act, true⟩

/-- BKPT (R181). -/
def execBkpt (h : Hdr) (code : BitVec 32) (s : State) : Out :=
  issue s (needCtl h [] []) fun i => i.codeTrap .breakpoint code

/-- TRAP (R368). -/
def execTrap (h : Hdr) (code : BitVec 32) (s : State) : Out :=
  issue s (needCtl h [] []) fun i => i.codeTrap .software code

/-- The bank that RETT takes (R369). -/
def TrapRegs.top (t : TrapRegs) : TrapBank := if t.level = 1 then t.a else t.b

/-- RETT (R369). -/
def execRett (h : Hdr) (s : State) : Out :=
  issue s (needCtl h [] []) fun i =>
    let epc := fun l => (Tab.get 0 i.w.trap.top.epc l : Ctr).setWidth 64
    let bad := Mask.of fun l => i.w.live.getLsbD l && !isCounter (epc l)
    if i.w.trap.level = 0 then i.raise .illegalInstruction none i.path
    else if i.act != i.w.live then i.raise .uniformity none i.missing
    else if bad != 0 then i.raise .misaligned (some (epc (Mask.low bad))) bad
    else .done (i.t.updWave i.k Wave.returned)

/-- ILLEGAL_INSTRUCTION in every lane of the path (R82, R83). -/
def illegal (s : State) : Out :=
  match s.cur with
  | none => .fault .noWave
  | some c =>
    match Tab.find s.waves c.wave with
    | none => .fault .noWave
    | some _ => .next (s.fault c.wave c.pc (faultAt .illegalInstruction none c.path))

/-- ILL (R82). -/
def execIll (content : BitVec 88) (s : State) : Out := let _ := content; illegal s

/-! ### Translation invalidation -/

/-- The walk-cache entry's addresses meet a range. -/
def WalkEntry.meets (e : WalkEntry) (va size : Nat) : Bool :=
  decide (e.tag * 2 ^ levelShift e.level < va + size) && decide (va < (e.tag + 1) * 2 ^ levelShift e.level)

/-- Translations and walk-cache entries dropped (R349, R351). -/
def State.invalidate (s : State) (p : TlbEntry → Bool) (q : WalkEntry → Bool) : State :=
  s.updFly fun f => { f with tlb := f.tlb.filter fun t => !p t, walks := f.walks.filter fun t => !q t }

/-- Translations and walk-cache entries of a context that meet a range dropped (R349). -/
def State.invalidateRange (s : State) (ctx va size : Nat) : State :=
  s.invalidate (fun t => t.ctx == ctx && decide (t.base < va + size) && decide (va < t.base + t.size))
    fun e => e.ctx == ctx && e.meets va size

/-- Contexts' roots and windows as their entries have them now are in force (R352). -/
def State.renewRoots (s : State) (cs : List Nat) : State :=
  s.updFly fun f => { f with roots := cs.foldl (fun t c => Tab.put t c (s.ctx c).root) f.roots }

/-- Copies of FDT entries dropped (R347). -/
def State.dropFdts (s : State) (p : FdtCopy → Bool) : State :=
  s.updFly fun f => { f with fdts := f.fdts.filter fun x => !p x }

/-- A status written by its return, with P set meanwhile. -/
def Iss.status (i : Iss) (t : State) (d : Reg) (v : Word) : Eff := i.later t (i.each d.toNat fun _ => v)

/-- An operation that follows the wave's publishes (R212). -/
def Iss.afterPublish (i : Iss) (go : Eff) : Eff := if i.s.publishing i.k then .stall else go

/-- TLBINV.va (R350, R351). -/
def execTlbinvVa (h : Hdr) (d a : Reg) (ctx : Option (BitVec 6)) (s : State) : Out :=
  issue s { h := h, srcs := pairOf a, dsts := [d.toNat], sup := ctx.isSome } fun i =>
    let va := fun l => (i.rd2 a.toNat l).toNat % 2 ^ 48
    let c := ctx.elim i.w.ctx BitVec.toNat
    let out := Mask.of fun l => i.act.getLsbD l && i.w.ctx != 0 && !inDelegated (i.s.ctx i.w.ctx) (va l)
    if i.idle then .done i.t
    else if out != 0 then i.raise .privilege none out
    else i.afterPublish (i.status (i.t.invalidate
      (fun t => t.ctx == c && i.lanes.any fun l => decide (t.base ≤ va l) && decide (va l < t.base + t.size))
      fun e => e.ctx == c && i.lanes.any fun l => e.meets (va l) 1) d 0)

/-- A context number operand: uniform, then at most 63 (R351). -/
def Iss.contextArg (i : Iss) (a : Reg) (go : Nat → Eff) : Eff :=
  if i.idle then .done i.t
  else
    let c := (i.rd a.toNat i.low).toNat
    i.uniform (i.differ fun l => i.rd a.toNat l) (
      if c > 63 then i.raise .illegalInstruction none i.path else i.afterPublish (go c))

/-- TLBINV.ctx (R351). -/
def execTlbinvCtx (h : Hdr) (d a : Reg) (s : State) : Out :=
  issue s { h := h, srcs := [a.toNat], dsts := [d.toNat], sup := true } fun i =>
    i.contextArg a fun c => 
      i.status (((i.t.invalidate (fun t => t.ctx == c) fun e => e.ctx == c).renewRoots [c]).dropFdts fun x => x.ctx == c) d 0

/-- TLBINV.all (R351). -/
def execTlbinvAll (h : Hdr) (d : Reg) (s : State) : Out :=
  issue s { h := h, srcs := [], dsts := [d.toNat], sup := true } fun i =>
    if i.idle then .done i.t
    else i.afterPublish (i.status
      (((i.t.invalidate (fun _ => true) fun _ => true).renewRoots (List.range 64)).dropFdts fun _ => true) d 0)

/-- TLBINV.fdt (R347, R351). -/
def execTlbinvFdt (h : Hdr) (d a : Reg) (s : State) : Out :=
  issue s { h := h, srcs := [a.toNat], dsts := [d.toNat], sup := true } fun i =>
    i.contextArg a fun c => i.status (i.t.dropFdts fun x => x.ctx == c) d 0

/-! ### Leases -/

/-- The boost increment of a pool at a class: per cluster, for a heat class (R338, R362). -/
def State.boostWatts (s : State) (pool cls heat : Nat) : Nat :=
  (Tab.get 0 s.dev.heat (4 * cls + heat)).toNat / 256 % 65536 * (s.poolClusters pool).length

/-- A vault above a pool's cores is in band 2 or higher (R338). -/
def State.poolHot (s : State) (pool : Nat) : Bool :=
  (s.poolClusters pool).any fun c => (List.range 8).any fun g => decide ((s.vault (8 * c + g)).band ≥ 2)

/-- The refusals that apply to a lease of `us` microseconds at class `cls` in a pool (R338, R370). -/
def State.leaseRefusals (s : State) (launch pool cls us : Nat) : List Nat :=
  let l := s.launch launch
  (if s.dev.pkgest + s.boostWatts pool cls l.lpb.heatClass > s.dev.pkglim then [1] else []) ++
  (if s.poolHot pool then [2] else []) ++
  (if Tab.get 0 s.dev.budgets pool < us then [3] else []) ++
  (if l.lease ≠ 0 ∧ l.leaseCls ≠ cls then [4] else [])

/-- A lease granted or extended, LEASE_LEFT saturating (R395); of several refusals that apply the free constant `Config.choice` names the one
reported (R338, R370; log 4). -/
def State.lease (s : State) (launch core cls us : Nat) : State × Nat :=
  let pool := (s.cluster (core / 8)).pool
  let no := s.leaseRefusals launch pool cls us
  if no ≠ [] then (s, no.getD (Config.choice 4 s.free no.length % no.length) 1)
  else if us = 0 then (s, 0)
  else
    let s1 := s.updDev fun d => { d with budgets := Tab.put d.budgets pool (Tab.get 0 d.budgets pool - us) }
    let s2 := s1.updLaunch launch fun l => { l with lease := satAdd 32 l.lease us, leaseCls := cls, leasePool := pool }
    (s2.setBoost pool cls, 0)

/-- LEASE (R338, R339, R370). -/
def execLease (h : Hdr) (d a : Reg) (five : Bool) (s : State) : Out :=
  issue s { h := h, srcs := [a.toNat], dsts := [d.toNat] } fun i =>
    if i.idle then .done i.t
    else i.uniform (i.differ fun l => i.rd a.toNat l) (
      let r := i.t.lease i.b.launch i.core (if five then 5 else 4) (i.rd a.toNat i.low).toNat
      i.status r.1 d (BitVec.ofNat 32 r.2))

/-- LEASE.rel (R370). -/
def execLeaseRel (h : Hdr) (d : Reg) (s : State) : Out :=
  issue s { h := h, srcs := [], dsts := [d.toNat] } fun i =>
    if i.idle then .done i.t
    else if (i.s.launch i.b.launch).lease = 0 then i.status i.t d 5
    else i.status (i.t.dropLease i.b.launch) d 0

end Sys2Proof.Machine
end

