-- ==== Sys2Proof/Machine/MemoryInstr.lean ====
section
/-! DEFINITION. Memory instructions (R188, R196, R199, R208 to R218, R228 to R249). -/

namespace Sys2Proof.Machine

/-! ### Reads -/

/-- Bytes read, with the first bad one's cause and address. -/
abbrev Got : Type := List Byte × Option (Cause × Nat)

/-- A byte of g is not valid in the core's L1. -/
def State.absent (s : State) (core ctx va : Nat) : Bool := !Tab.has (s.line core (lineKey ctx va)).bytes (va % 128)

/-- Bytes of g, address and place each, read through the core's L1; `s0` is the state at issue, in which a needed word
that a fill brings was uncorrectable (R188, R208, R214). -/
def State.readG (s0 : State) (core ctx : Nat) : State → List (Nat × Nat) → Got × State
  | s, [] => (([], none), s)
  | s, (va, place) :: r =>
    let (v, trouble, s1) := s.l1Read core ctx va (place - va % 128)
    let bad : Option (Cause × Nat) :=
      if s0.absent core ctx va && s0.mem.uncorr place then some (.uncorrectable, va)
      else trouble.map fun c => (c, va)
    let ((vs, b), s2) := s0.readG core ctx s1 r
    ((v :: vs, bad.orElse fun _ => b), s2)

/-- The bytes of a span with their places. -/
def Span.cells (p : Span) : List (Nat × Nat) := (List.range p.n).map fun j => (p.va + j, p.place j)

/-- A bad byte at the homes (R188). -/
def Memory.badAt (m : Memory) : List (Nat × Nat) → Option (Cause × Nat)
  | [] => none
  | (va, place) :: r =>
    if m.uncorr place then some (.uncorrectable, va) else if m.poisoned place then some (.poison, va) else m.badAt r

/-- Bytes of g read at their home, the core's own dirty ones sent ahead (R216). -/
def State.readHome (s : State) (core ctx : Nat) (p : Span) : Got × State :=
  let n := min p.n (128 - p.va % 128)
  let s0 := s.yieldBytes core ctx p.va n p.place
  let s1 := if n < p.n then s0.yieldBytes core ctx (p.va + n) (p.n - n) (fun j => p.place (n + j)) else s0
  (((p.cells.map fun c => s1.mem.byte c.2), s1.mem.badAt p.cells), s1.l2Read ctx (p.cells.map Prod.snd))

/-- Bytes of a space read for a wave: ordinary or at the home. -/
def Iss.readBytes (i : Iss) (t : State) (fresh : Bool) (sp : Space) (addr n : Nat) (span : Option Span) : Got × State :=
  match span with
  | some p => if fresh then t.readHome i.core i.w.ctx p else i.s.readG i.core i.w.ctx t p.cells
  | none =>
    let b := (t.block i.blk).buf sp
    ((b.take addr n, b.bad addr n), t)

/-- The scales that a located access reads, by block. -/
def Iss.readScales (i : Iss) (fresh : Bool) (p : Place) :
    State → List (Nat × Nat × Option Span) → (List (Nat × Nat) × Option (Cause × Nat)) × State
  | t, [] => (([], none), t)
  | t, x :: xs =>
    let ((bs, bad), t1) := i.readBytes t fresh p.sp x.2.1 (fmtScaleBytes p.fdt.fmt) x.2.2
    let ((ss, b2), t2) := i.readScales fresh p t1 xs
    (((x.1, leNat bs) :: ss, bad.orElse fun _ => b2), t2)

/-- Before the fills that these bytes need: the uncorrectable words of their lines that no lane of ACTIVE needs become
poisoned, with a note (R188). -/
def Iss.noteFills (i : Iss) (t : State) (cells needed : List (Nat × Nat)) : State :=
  let lines := ((cells.filter fun c => i.s.absent i.core i.w.ctx c.1).map fun c =>
    (lineKey i.w.ctx c.1, c.2 - c.1 % 128)).eraseDups
  lines.foldl (fun t x => t.poisonFill i.core x.1 x.2 i.b.launch fun p => needed.any fun c => c.2 / 32 == p / 32) t

/-- The placement that an instruction's cache policy, or else its page's, gives the lines that it used (R71, R341, R247;
log 60). -/
def Iss.policed (i : Iss) (t : State) (ma : MemArg) (ps : List (Nat × Place)) : State :=
  ps.foldl (fun t p => match p.2.span with
    | none => t
    | some q => (q.cells.map fun c => lineKey i.w.ctx c.1).eraseDups.foldl (fun t key =>
        t.updCore i.core fun c => { c with l1 := Tab.upd c.l1 key fun l =>
          { l with cp := if ma.cp.toNat ≠ 0 then ma.cp.toNat else pteCp q.x.leaf } }) t) t

/-- The bytes of g that located accesses touch. -/
def cellsOf (ps : List (Nat × Place)) : List (Nat × Nat) :=
  ps.flatMap fun p => p.2.span.elim [] Span.cells ++ p.2.scales.flatMap fun x => x.2.2.elim [] Span.cells

/-! ### Conversion -/

/-- One element converted from its storage format to a register type (R231). -/
def Iss.loadElem (i : Iss) (t : RType) (m : RMode) (sat : Bool) (l k code scale bits : Nat) : Nat × Flags :=
  match fmtInt code, RType.isFloat t with
  | some (w, sg), false => putInt t sat (intOfBits w sg bits)
  | _, fl =>
    let v := elemVal code scale bits
    let (c, f) := convertTo t (i.rnd m l k) sat v
    (c, f ||| (if fl then sigFlags [v] else 0))

/-- One element of a register type converted to a plain storage format (R231). -/
def Iss.storeElem (i : Iss) (t : RType) (m : RMode) (sat : Bool) (l k code v : Nat) : Nat × Flags :=
  match fmtInt code, RType.isFloat t with
  | some (w, sg), false =>
    let x := RType.int t v k
    let (lo, hi) := intBounds w sg
    if sat && decide (x < lo) then (bitsOfInt w lo, fSAT)
    else if sat && decide (x > hi) then (bitsOfInt w hi, fSAT)
    else (bitsOfInt w x, 0)
  | _, _ =>
    let x := valOf t v k
    let (c, f) := elemOfVal code (i.rnd m l k) sat x
    (c, f ||| sigFlags [x])

/-- A conversion between a storage format and a register type rounds (R46, R159). -/
def memRounds (t : RType) (code : Nat) : Bool := code != 0 && ((fmtInt code).isNone || RType.isFloat t)

/-- The value of one lane's load from its bytes and scales (R230, R231, R235). -/
def Iss.loadValue (i : Iss) (t : RType) (m : RMode) (sat : Bool) (l : Nat) (p : Place) (bytes : Nat)
    (scales : List (Nat × Nat)) : Nat × Flags :=
  if p.fdt.fmt = 0 then (bytes, 0)
  else RType.join t fun k =>
    let scale := ((scales.find? fun x => x.1 == (p.elem + k) / 32).map Prod.snd).getD 0
    i.loadElem t m sat l k p.fdt.fmt scale (bytes / 2 ^ (p.bit + p.w * k) % 2 ^ p.w)

/-! ### Results -/

/-- The deferred faults of a returning access: UNCORRECTABLE, then POISON (R188, R233). -/
def Iss.strikes (i : Iss) (bad : List (Nat × Cause × Nat)) : List OwedFault :=
  [Cause.uncorrectable, Cause.poison].filterMap fun c =>
    (bad.find? fun x => x.2.1 == c).map fun x =>
      ⟨c, BitVec.ofNat 64 x.2.2, Mask.of fun l => bad.any fun y => y.1 == l && y.2.1 == c, i.w.trap.level, true, i.b.depth⟩

/-- The results of a load or a returning immediate access: lane, value, and what was bad (R77, R233). -/
def Iss.deliverLanes (i : Iss) (t : State) (ty : RType) (d : Reg) (rs : List (Nat × Nat × Option (Cause × Nat)))
    (imm : Bool) : State :=
  let bad := rs.filterMap fun r => r.2.2.map fun b => (r.1, b)
  t.deliver i.k (rs.foldr (fun r ws => RType.words ty d r.1 r.2.1 ++ ws) [])
    (bad.foldr (fun b ws => (regsOf ty d).map (fun r => (r, b.1)) ++ ws) []) (i.strikes bad) imm

/-- The energy of bytes through a buffer port: a unit's weight for every 256 bytes of the core, whose remainder is kept (R198,
R411; log 65). -/
def Iss.portCost (i : Iss) (t : State) (sp : Space) (n : Nat) : State :=
  match sp with
  | .w | .a | .c =>
    let all := (t.core i.core).port + n
    (t.spend i.core (some i.blk) i.w.ctx (t.weight 6 * (all / 256))).updCore i.core fun c => { c with port := all % 256 }
  | _ => t

/-- Bytes of the accesses of lanes. -/
def bytesOf (ps : List (Nat × Place)) : Nat := ps.foldl (fun n p => n + p.2.n) 0

/-! ### LD and ST -/

/-- Every space. -/
def allSpaces : List Space := [.g, .s, .w, .a, .c]
/-- The spaces of stores and immediate accesses (R228). -/
def wrSpaces : List Space := [.g, .s, .a]

/-- One lane's load. -/
def Iss.load1 (i : Iss) (t : State) (fresh : Bool) (p : Place) : (Nat × List (Nat × Nat) × Option (Cause × Nat)) × State :=
  let ((bs, bad), t1) := i.readBytes t fresh p.sp p.addr p.n p.span
  let ((ss, b2), t2) := i.readScales fresh p t1 p.scales
  ((leNat bs, ss, bad.orElse fun _ => b2), t2)

/-- The loads of the lanes, in increasing order. -/
def Iss.loads (i : Iss) (ty : RType) (m : RMode) (sat fresh : Bool) :
    State → List (Nat × Place) → List (Nat × (Nat × Flags) × Option (Cause × Nat)) × State
  | t, [] => ([], t)
  | t, (l, p) :: ps =>
    let ((v, ss, bad), t1) := i.load1 t fresh p
    let (rs, t2) := i.loads ty m sat fresh t1 ps
    ((l, i.loadValue ty m sat l p v ss, bad) :: rs, t2)

/-- The own part of LD (R235). -/
def Iss.ld (i : Iss) (ty : RType) (m : RMode) (sat : Bool) (d : Reg) (ma : MemArg) (idx : Option Reg) (fresh : Bool) : Eff :=
  i.located (i.reach { acc := .read, imm := fresh, spaces := allSpaces } ma ty idx) fun ps =>
    let go : Eff :=
      let t0 := i.touch i.t ps
      let t1 := if fresh then t0 else i.noteFills t0 (cellsOf ps) (cellsOf ps)
      let (rs, t2) := i.loads ty m sat fresh t1 ps
      let fl : Flags := rs.foldl (fun a r => a ||| r.2.1.2) 0
      let t3 := (i.portCost (if fresh then t2 else i.policed t2 ma ps) ma.sp (bytesOf ps)).orFlags i.k fl
      let t4 := if ps.any fun p => memRounds ty p.2.fdt.fmt then t3.stepSto i.k m else t3
      .done (i.deliverLanes t4 ty d (rs.map fun r => (r.1, r.2.1.1, r.2.2)) fresh)
    if fresh then i.afterPublish go else go

/-- LD (R235). -/
def execLd (h : Hdr) (t : RType) (m : RMode) (sat : Bool) (d : Reg) (ma : MemArg) (idx : Option Reg) (fresh : Bool)
    (s : State) : Out :=
  issue s { h := h, srcs := pairOf ma.base ++ (idx.map (·.toNat)).toList, dsts := regsOf t d } fun i =>
    if i.idle then .done i.t else i.ld t m sat d ma idx fresh

/-- The lowest entry whose format is the type itself, with nothing else in it (R199). -/
def State.implicitIndex (s : State) (core ctx : Nat) (t : RType) : Option Nat :=
  match RType.own t with
  | none => none
  | some c => (List.range 64).find? fun n => s.fdt core ctx n == { Fdt.raw with fmt := c }

/-- A lane's bytes written by a wave: into the L1, or into a buffer (R197, R198, R208). -/
def Iss.writeBytes (i : Iss) (t : State) (l : Nat) (sp : Space) (addr : Nat) (span : Option Span) (bs : List Byte) : State :=
  match span with
  | some p => (p.cells.zip bs).foldl (fun t c =>
      t.l1Write i.core i.w.ctx c.1.1 (c.1.2 - c.1.1 % 128) i.blk i.w.wib c.2) t
  | none => (t.bufWrite i.blk i.w.wib i.b.depth sp addr bs).bufResv i.blk sp addr bs.length (i.k, l)

/-- The stamp of a store into granules that name raw memory (R199). -/
def Iss.implicitStamp (i : Iss) (t : State) (ty : RType) (sp : Space) (addr n : Nat) : State :=
  match t.implicitIndex i.core i.w.ctx ty with
  | none => t
  | some x => (unitsOfSpan addr n (Space.granule sp)).foldl (fun t g =>
      let a := g * Space.granule sp
      let f := t.fdt i.core i.w.ctx (((t.block i.blk).buf sp).index sp a)
      if f.fmt = 0 && !f.bad then t.stampGranules i.blk sp a 1 x else t) t

/-- One lane's store: an `.x` store into an element narrower than 8 bits fills its bytes first (R236). -/
def Iss.store1 (i : Iss) (t : State) (ty : RType) (m : RMode) (sat : Bool) (d : Reg) (l : Nat) (p : Place) : State × Flags :=
  let v := i.raw ty d l
  let (code, fl) : Nat × Flags :=
    if p.fdt.fmt = 0 then (v, 0)
    else
      let es := (List.range (RType.elems ty)).map fun k => i.storeElem ty m sat l k p.fdt.fmt v
      (packElems p.w (es.map Prod.fst), es.foldl (fun a e => a ||| e.2) 0)
  let bits := if p.fdt.fmt = 0 then 8 * p.n else p.w * RType.elems ty
  let (t1, val) : State × Nat :=
    if 8 ≤ p.w then (t, code)
    else
      let t := i.noteFills t (p.span.elim [] Span.cells) []
      let ((bs, _), t1) := i.readBytes t false p.sp p.addr p.n p.span
      let old := leNat bs
      (t1, old - old / 2 ^ p.bit % 2 ^ bits * 2 ^ p.bit + code % 2 ^ bits * 2 ^ p.bit)
  let t2 := i.writeBytes t1 l p.sp p.addr p.span (leBytes p.n val)
  (if p.sp = .g then t2 else i.implicitStamp t2 ty p.sp p.addr p.n, fl)

/-- The stores of the lanes, in increasing order (R236). -/
def Iss.stores (i : Iss) (ty : RType) (m : RMode) (sat : Bool) (d : Reg) : State → List (Nat × Place) → State × Flags
  | t, [] => (t, 0)
  | t, (l, p) :: ps =>
    let (t1, f) := i.store1 t ty m sat d l p
    let (t2, f2) := i.stores ty m sat d t1 ps
    (t2, f ||| f2)

/-- The words of g that an instruction stored whole are poisoned no longer (R188). -/
def Iss.cleansed (i : Iss) (t : State) (vas : List Nat) : State := t.l1Clear i.core i.w.ctx vas

/-- The own part of ST (R236). -/
def Iss.st (i : Iss) (ty : RType) (m : RMode) (sat : Bool) (d : Reg) (ma : MemArg) (idx : Option Reg) : Eff :=
  i.located (i.reach { acc := .write, spaces := wrSpaces } ma ty idx) fun ps =>
    let (t1, fl) := i.stores ty m sat d (i.touch i.t ps) ps
    let t2 := i.cleansed t1 ((cellsOf ps).map Prod.fst)
    let t3 := (i.portCost (i.policed t2 ma ps) ma.sp (bytesOf ps)).orFlags i.k fl
    .done (if ps.any fun p => memRounds ty p.2.fdt.fmt then t3.stepSto i.k m else t3)

/-- ST (R236). -/
def execSt (h : Hdr) (t : RType) (m : RMode) (sat : Bool) (d : Reg) (ma : MemArg) (idx : Option Reg) (s : State) : Out :=
  issue s { h := h, srcs := pairOf ma.base ++ (idx.map (·.toNat)).toList ++ regsOf t d, dsts := [] } fun i =>
    if i.idle then .done i.t else i.st t m sat d ma idx

/-! ### Blocks -/

/-- The one access of a block instruction, whose address and scale operand are uniform; its faults strike every lane of
ACTIVE (R232, R237, R238). -/
def Iss.blockAt (i : Iss) (op : MemOp) (ma : MemArg) (t : RType) (scale : Nat → Nat) (go : Place → Eff) : Eff :=
  i.uniformAt (i.differ fun l => (i.ea ma l, scale l)) (i.ea ma) (
    match i.locate op ma.sp ma.chk t (i.ea ma i.low) none with
    | .error m => i.raise m.cause (some (BitVec.ofNat 64 m.addr)) i.act
    | .ok p => go p)

/-- FORMAT of a block instruction in every lane of ACTIVE. -/
def Iss.badFormat (i : Iss) (p : Place) : Eff := i.raise .format (some (BitVec.ofNat 64 p.addr)) i.act

/-- What lane `l` of LDB needs of the block is bad. -/
def laneBad (p : Place) (l : Nat) (bad : List (Nat × Cause)) : Option (Cause × Nat) :=
  let lo := p.addr + p.w * l / 8
  let hi := p.addr + (p.w * (l + 1) + 7) / 8
  (bad.find? fun b => decide (lo ≤ b.1) && decide (b.1 < hi)).map fun b => (b.2, b.1)

/-- Each bad byte of a block's data. -/
def Iss.blockBad (i : Iss) (t : State) (p : Place) : List (Nat × Cause) :=
  match p.span with
  | some q => q.cells.filterMap fun c =>
      if i.s.absent i.core i.w.ctx c.1 && i.s.mem.uncorr c.2 then some (c.1, .uncorrectable)
      else ((t.line i.core (lineKey i.w.ctx c.1)).trouble (c.1 % 128)).map fun x => (c.1, x)
  | none =>
    let b := (t.block i.blk).buf p.sp
    (List.range p.n).filterMap fun j => (b.bad (p.addr + j) 1).map fun x => (x.2, x.1)

/-- The own part of LDB (R237). -/
def Iss.ldb (i : Iss) (code : Bool) (ty : RType) (m : RMode) (sat : Bool) (d : Reg) (ma : MemArg) : Eff :=
  i.blockAt { acc := .read, whole := true, spaces := allSpaces } ma ty (fun _ => 0) fun p =>
    if code && !(fmtMx p.fdt.fmt || fmtDx p.fdt.fmt) then i.badFormat p
    else
      let cells := cellsOf [(i.low, p)]
      let need := cells.filter fun c => decide (c.1 < p.addr) || decide (p.addr + p.n ≤ c.1) || i.lanes.any fun l =>
        decide (p.addr + p.w * l / 8 ≤ c.1) && decide (c.1 < p.addr + (p.w * (l + 1) + 7) / 8)
      let t0 := i.noteFills (i.touch i.t [(i.low, p)]) cells need
      let ((v, ss, _), t1) := i.load1 t0 false p
      let (_, sbad) := (i.readScales false p t0 p.scales).1
      let bad := i.blockBad t1 p
      let scale := (ss.head?.map Prod.snd).getD 0
      let elem := fun l => v / 2 ^ (p.w * l) % 2 ^ p.w
      let rs := i.lanes.map fun l =>
        (l, (if code then (scale * 256 + elem l, 0) else i.loadElem ty m sat l 0 p.fdt.fmt scale (elem l)),
          (laneBad p l bad).orElse fun _ => sbad)
      let fl : Flags := rs.foldl (fun a r => a ||| r.2.1.2) 0
      let t2 := (i.portCost (i.policed t1 ma [(i.low, p)]) ma.sp p.n).orFlags i.k fl
      let t3 := if !code && memRounds ty p.fdt.fmt then t2.stepSto i.k m else t2
      .done (i.deliverLanes t3 ty d (rs.map fun r => (r.1, r.2.1.1, r.2.2)) false)

/-- LDB (R237). -/
def execLdb (h : Hdr) (code : Bool) (t : RType) (m : RMode) (sat : Bool) (d : Reg) (ma : MemArg) (s : State) : Out :=
  issue s { h := h, srcs := pairOf ma.base, dsts := regsOf t d } fun i =>
    if i.idle then .done i.t else i.ldb code t m sat d ma

/-- The 32 values encoded by STB: a block of a block format, or elements (R238). -/
def Iss.stbEncode (i : Iss) (m : RMode) (code scale : Nat) (vs : List FVal) : BlockCode :=
  if fmtBlock code then blockEncode code scale (fun l => i.rnd m l 0) vs
  else
    let es := vs.zipIdx.map fun p =>
      let (c, f) := elemOfVal code (i.rnd m p.2 0) false p.1
      (c, f ||| sigFlags [p.1])
    ⟨0, es.map Prod.fst, es.foldl (fun a e => a ||| e.2) 0⟩

/-- The own part of STB (R238). -/
def Iss.stb (i : Iss) (m : RMode) (d : Reg) (ma : MemArg) (scale : Option Reg) : Eff :=
  let sc := fun l => (scale.elim 0 fun r => (i.rd r.toNat l).toNat % 65536)
  i.blockAt { acc := .write, whole := true, spaces := wrSpaces } ma .f32 sc fun p =>
      if (p.fdt.fmt == 24) != scale.isSome then i.badFormat p
      else
        let vs := (List.range 32).map fun l => if i.act.getLsbD l then i.flt .f32 d l 0 else .fin false 0 0
        let b := i.stbEncode m p.fdt.fmt (sc i.low) vs
        let t0 := i.touch i.t [(i.low, p)]
        let t1 := i.writeBytes t0 i.low p.sp p.addr p.span (leBytes p.n (packElems p.w b.codes))
        let sz := fmtScaleBytes p.fdt.fmt
        let t2 := p.scales.foldl (fun t x => i.writeBytes t i.low p.sp x.2.1 x.2.2 (leBytes sz b.scale)) t1
        let t3 := i.cleansed t2 ((cellsOf [(i.low, p)]).map Prod.fst)
        .done (((i.portCost (i.policed t3 ma [(i.low, p)]) ma.sp p.n).orFlags i.k b.flags).stepSto i.k m)

/-- STB (R238). -/
def execStb (h : Hdr) (m : RMode) (d : Reg) (ma : MemArg) (scale : Option Reg) (s : State) : Out :=
  issue s { h := h, srcs := pairOf ma.base ++ [d.toNat] ++ (scale.map (·.toNat)).toList, dsts := [] } fun i =>
    if i.idle then .done i.t else i.stb m d ma scale

/-! ### ZERO -/

/-- One lane's 128 bytes of ZERO (R239). -/
def Iss.zeroAt (i : Iss) (sp : Space) (a : Nat) : Except Miss Place :=
  let span := i.s.span i.core i.w.ctx a 128 .write
  let miss := firstMiss [
    missIf (sp == .g && decide (a ≥ 2 ^ 48)) 6 0 .translation a,
    missIf (a % 128 != 0) 6 1 .misaligned a,
    missIf (!wrSpaces.contains sp) 8 0 .bufferPermission a,
    (if sp = .g then none else (i.b.beyond sp a 128).map fun x => ⟨8, 0, .bufferPermission, x⟩)]
  match miss, sp, span with
  | some m, _, _ => .error m
  | none, .g, .error (c, x) => .error ⟨9, c.rank, c, x⟩
  | none, .g, .ok p => .ok ⟨sp, a, 128, 0, 0, Fdt.raw, none, 0, some p, none, []⟩
  | none, _, _ => .ok ⟨sp, a, 128, 0, 0, Fdt.raw, none, 0, none, none, []⟩

/-- ZERO (R239). -/
def execZero (h : Hdr) (ma : MemArg) (s : State) : Out :=
  issue s { h := h, srcs := pairOf ma.base, dsts := [] } fun i =>
    if i.idle then .done i.t
    else i.located (fun l => i.zeroAt ma.sp (i.ea ma l)) fun ps =>
      let t := ps.foldl (fun t p => i.writeBytes t p.1 p.2.sp p.2.addr p.2.span (List.replicate 128 0)) (i.touch i.t ps)
      .done (i.portCost (i.policed (i.cleansed t ((cellsOf ps).map Prod.fst)) ma ps) ma.sp (128 * ps.length))

/-! ### Immediate accesses -/

/-- The value that an atomic operation writes (R240). -/
def atomNew (op : AtomOp) (t : RType) (old b : Nat) : Nat :=
  let fv := fun v => (RType.ffmt t).decode v
  let iv := fun v => RType.int t v 0
  match op with
  | .add =>
    if RType.isFloat t then ((RType.ffmt t).ofVal Rnd.rne false (FVal.add .rne (fv old) (fv b)).1).1
    else (old + b) % 2 ^ RType.bits t
  | .min =>
    if RType.isFloat t then exactCode t (FVal.minmax false (fv old) (fv b)).1 else if iv old ≤ iv b then old else b
  | .max =>
    if RType.isFloat t then exactCode t (FVal.minmax true (fv old) (fv b)).1 else if iv old ≤ iv b then b else old
  | .and => old &&& b
  | .or => old ||| b
  | .xor => old ^^^ b
  | .swap => b
  | .inc => if old ≥ b then 0 else old + 1
  | .dec => if old = 0 ∨ old > b then b else old - 1

/-- One lane's step of an immediate access: the value that it finds, what was bad, and the state; a bad word is left
alone (R188, R216, R241). -/
def Iss.step1 (i : Iss) (t : State) (l : Nat) (p : Place) (f : State → Nat → Option Nat) :
    (Nat × Option (Cause × Nat)) × State :=
  match p.span with
  | some q =>
    let t1 := (t.yieldBytes i.core i.w.ctx p.addr p.n q.place).l2Read i.w.ctx (q.cells.map Prod.snd)
    let old := leNat ((List.range p.n).map fun j => t1.mem.byte (q.place j))
    match t1.mem.badAt q.cells with
    | some b => ((old, some b), t1)
    | none => match f t1 old with
      | none => ((old, none), t1)
      | some v => ((old, none),
          t1.homeWriteFor i.blk i.w.wib i.b.depth ((leBytes p.n v).zipIdx.map fun b => (q.place b.2, b.1)) (.thread i.k l))
  | none =>
    let b := (t.block i.blk).buf p.sp
    let old := leNat (b.take p.addr p.n)
    match b.bad p.addr p.n with
    | some x => ((old, some x), t)
    | none => match f t old with
      | none => ((old, none), t)
      | some v => ((old, none), i.writeBytes t l p.sp p.addr none (leBytes p.n v))

/-- What an immediate access does in a lane: the value that it writes, the result, and what follows; each of the lane,
its access, the state before, the value found, and for the result whether its word was bad. -/
structure ImmOp where
  new : Nat → Place → State → Nat → Option Nat
  res : Nat → Place → State → Nat → Bool → Nat := fun _ _ _ old _ => old
  after : Nat → Place → State → State := fun _ _ t => t

/-- The steps of the lanes, in increasing order. -/
def Iss.steps (i : Iss) (op : ImmOp) : State → List (Nat × Place) → List (Nat × Nat × Option (Cause × Nat)) × State
  | t, [] => ([], t)
  | t, (l, p) :: ps =>
    let ((old, bad), t1) := i.step1 t l p (op.new l p)
    let (rs, t2) := i.steps op (op.after l p t1) ps
    ((l, op.res l p t old bad.isSome, bad) :: rs, t2)

/-- An immediate access of the lanes (R241 to R243). -/
def Iss.immediate (i : Iss) (acc : Access) (ma : MemArg) (t : RType) (go : List (Nat × Place) → Eff) : Eff :=
  i.located (i.reach { acc := acc, imm := true, own := true, spaces := wrSpaces } ma t none) fun ps =>
    i.afterPublish (go ps)

/-- The own part of ATOM and ATOMN (R241). -/
def Iss.atom (i : Iss) (op : AtomOp) (t : RType) (d : Option Reg) (ma : MemArg) (b : Reg) : Eff :=
  i.immediate .both ma t fun ps =>
    let (rs, t1) := i.steps { new := fun l _ _ old => some (atomNew op t old (i.raw t b l)) } (i.touch i.t ps) ps
    let t2 := i.portCost t1 ma.sp (bytesOf ps)
    .done (match d with
      | some d => i.deliverLanes t2 t d rs true
      | none => t2)

/-- ATOM (R240, R241). -/
def execAtom (h : Hdr) (op : AtomOp) (t : RType) (d : Reg) (ma : MemArg) (b : Reg) (s : State) : Out :=
  issue s { h := h, srcs := pairOf ma.base ++ regsOf t b, dsts := regsOf t d } fun i =>
    if i.idle then .done i.t else i.atom op t (some d) ma b

/-- ATOMN (R240, R241). -/
def execAtomn (h : Hdr) (op : AtomOp) (t : RType) (ma : MemArg) (b : Reg) (s : State) : Out :=
  issue s { h := h, srcs := pairOf ma.base ++ regsOf t b, dsts := [] } fun i =>
    if i.idle then .done i.t else i.atom op t none ma b

/-- CAS (R242). -/
def execCas (h : Hdr) (t : RType) (d : Reg) (ma : MemArg) (b : Reg) (s : State) : Out :=
  let n := if t.is64 then 2 else 1
  issue s { h := h, srcs := pairOf ma.base ++ runOf b (2 * n), dsts := regsOf t d } fun i =>
    if i.idle then .done i.t
    else i.immediate .both ma t fun ps =>
      let new := fun l => i.raw t (b + BitVec.ofNat 8 n) l
      let (rs, t1) := i.steps { new := fun l _ _ old => if old = i.raw t b l then some (new l) else none } (i.touch i.t ps) ps
      .done (i.deliverLanes (i.portCost t1 ma.sp (bytesOf ps)) t d rs true)

/-- The reservation that an access at a depth sets (R218, R243). -/
def Place.resv (p : Place) (depth : Nat) : Resv :=
  match p.span with
  | some q => ⟨.g, homeLine (q.place 0), depth⟩
  | none => ⟨p.sp, p.addr / 128, depth⟩

/-- A thread's reservation covers an access (R243). -/
def Place.reserved (p : Place) (r : Option Resv) : Bool := r.any fun x => x == p.resv x.depth

/-- LR (R243). -/
def execLr (h : Hdr) (t : RType) (d : Reg) (ma : MemArg) (s : State) : Out :=
  issue s { h := h, srcs := pairOf ma.base, dsts := regsOf t d } fun i =>
    if i.idle then .done i.t
    else i.immediate .read ma t fun ps =>
      let hold := fun l (p : Place) (t : State) => t.updWave i.k fun w => { w with resv := Tab.put w.resv l (p.resv i.b.depth) }
      let (rs, t1) := i.steps { new := fun _ _ _ _ => none, after := hold } (i.touch i.t ps) ps
      .done (i.deliverLanes (i.portCost t1 ma.sp (bytesOf ps)) t d rs true)

/-- SC (R243). -/
def execSc (h : Hdr) (t : RType) (d : Reg) (ma : MemArg) (b : Reg) (s : State) : Out :=
  issue s { h := h, srcs := pairOf ma.base ++ regsOf t b, dsts := [d.toNat] } fun i =>
    if i.idle then .done i.t
    else i.immediate .both ma t fun ps =>
      let holds := fun l (p : Place) (t : State) => p.reserved (Tab.find (t.wave i.k).resv l)
      let (rs, t1) := i.steps {
        new := fun l p s _ => if holds l p s then some (i.raw t b l) else none
        res := fun l p s _ bad => if holds l p s && !bad then 1 else 0
        after := fun l _ s => s.updWave i.k fun w => { w with resv := Tab.del w.resv l } } (i.touch i.t ps) ps
      .done (i.deliverLanes (i.portCost t1 ma.sp (bytesOf ps)) .z32 d rs true)

/-! ### PHASE and FENCE -/

/-- An immediate read, a counter wait or a token wait of the wave is outstanding, for which an adopt waits (R213). -/
def State.adoptWaits (s : State) (k : Nat) (path : Mask) : Bool :=
  (s.fly.results.any fun p => p.2.wave == k && p.2.imm) || !(s.wave k).cwaits.isEmpty || s.tokenWait k path

/-- The wave, its adopt waiting at this counter or not: a waiting one holds every path (R245). -/
def State.holdFor (s : State) (k : Nat) (pc : Option Ctr) : State := s.updWave k fun w => { w with adopting := pc }

/-- What PHASE and FENCE need. -/
def needPhase (h : Hdr) : Need := { h := h, srcs := [], dsts := [] }

/-- PHASE.pub (R211, R245). -/
def execPhasePub (h : Hdr) (s : State) : Out :=
  issue s (needPhase h) fun i => .done (if i.idle then i.t else i.t.publish i.core (some i.k))

/-- PHASE.adopt (R213, R245). -/
def execPhaseAdopt (h : Hdr) (s : State) : Out :=
  issue s (needPhase h) fun i =>
    if i.idle then .done i.t
    else if i.s.adoptWaits i.k i.path then .wait (i.s.holdFor i.k (some i.pc))
    else .done ((i.t.adopt i.core).holdFor i.k none)

/-- PHASE.both: the publish captures at issue, the adopt alone waits (R245). -/
def execPhaseBoth (h : Hdr) (s : State) : Out :=
  issue s (needPhase h) fun i =>
    let first := !i.w.phased.contains i.pc
    let pub := fun (t : State) => if first then t.publish i.core (some i.k) else t
    let forget := fun (t : State) => t.updWave i.k fun w => { w with phased := w.phased.filter (· != i.pc), adopting := none }
    if i.idle then .done i.t
    else if i.s.adoptWaits i.k i.path then
      .wait (((pub i.s).holdFor i.k (some i.pc)).updWave i.k fun w =>
        { w with phased := if first then i.pc :: w.phased else w.phased })
    else .done (forget ((pub i.t).adopt i.core))

/-- FENCE: every earlier immediate access of the wave has taken effect at its issue (R217, R246). -/
def execFence (h : Hdr) (s : State) : Out := issue s (needPhase h) fun i => .done i.t

/-! ### PREF and FLUSH -/

/-- BUFFER_PERMISSION of a space other than g (R247). -/
def Iss.onlyG (i : Iss) (ma : MemArg) (go : Eff) : Eff :=
  if ma.sp = .g then go else i.raise .bufferPermission (some (BitVec.ofNat 64 (i.ea ma i.low))) i.act

/-- The lanes of ACTIVE whose address operand is good, with the translation for reading (R247). -/
def Iss.prefLanes (i : Iss) (ma : MemArg) : List (Nat × Xlat) :=
  let bad := fun l => (pairOf ma.base).any fun r => (Tab.get 0 i.w.pois r ||| Tab.get 0 i.w.ecc r).getLsbD l
  i.lanes.filterMap fun l =>
    if bad l then none
    else match i.s.unitXlate i.core i.w.ctx (i.ea ma l) .read with
      | .ok x => some (i.ea ma l, x)
      | .error _ => none

/-- PREF (R247). -/
def execPref (h : Hdr) (ma : MemArg) (s : State) : Out :=
  issue s { h := h, srcs := pairOf ma.base, dsts := [], lax := true } fun i =>
    if i.idle then .done i.t
    else i.onlyG ma (.done ((i.prefLanes ma).foldl (fun t x =>
      let key := lineKey i.w.ctx x.1
      let place := placeOf x.2.pa - x.1 % 128
      let t1 := (t.marked i.core i.w.ctx x.2).poisonFill i.core key place i.b.launch fun _ => false
      (t1.fill i.core key place).updLine i.core key fun l =>
        { l with cp := if ma.cp.toNat ≠ 0 then ma.cp.toNat else pteCp x.2.leaf }) i.t))

/-- PREF.l2: the line comes into its home slice, which holds no value of its own (R247). -/
def execPrefL2 (h : Hdr) (ma : MemArg) (s : State) : Out :=
  issue s { h := h, srcs := pairOf ma.base, dsts := [], lax := true } fun i =>
    if i.idle then .done i.t
    else i.onlyG ma (.done ((i.prefLanes ma).foldl (fun t x =>
      (t.marked i.core i.w.ctx x.2).l2Read i.w.ctx [placeOf x.2.pa]) i.t))

/-- FLUSH (R248). -/
def execFlush (h : Hdr) (ma : MemArg) (s : State) : Out :=
  issue s { h := h, srcs := pairOf ma.base, dsts := [] } fun i =>
    if i.idle then .done i.t
    else i.onlyG ma (.done (i.lanes.foldl (fun t l =>
      if i.ea ma l ≥ 2 ^ 48 then t else t.capture i.core (lineKey i.w.ctx (i.ea ma l)) none) i.t))

/-! ### SWAYS -/

/-- The blocks with a granule in a way (R196). -/
def State.wayHolders (s : State) (core way : Nat) : List Nat :=
  (s.blocksOn core).filter fun b => (s.block b).granules.any fun g => g / 16 == way

/-- The lines in ways that become scratch leave the L1; where one of them was read in the phase, the core adopts and the
snapshot is broken (R196, R215, R249). -/
def State.shrink (s : State) (core : Nat) : State :=
  let c := s.core core
  let gone := c.l1.filter fun p => !p.2.out && !c.cacheWays.contains p.2.way
  let s1 := gone.foldl (fun s p => s.evictLine core p.1) s
  if gone.any fun p => p.2.read then s1.implicitAdopt core else s1

/-- The split of a core once every SWAYS in progress has taken effect; a second one waits for none and takes effect after
the first (R25, R249; log 62). -/
def Core.split (c : Core) : BitVec 16 := c.sways.foldl (fun _ x => x.ways) c.scratch

/-- SWAYS (R196, R249). -/
def execSways (h : Hdr) (d a : Reg) (s : State) : Out :=
  issue s { h := h, srcs := [a.toNat], dsts := [d.toNat], sup := true } fun i =>
    if i.idle then .done i.t
    else i.uniform (i.differ fun l => i.rd a.toNat l) (
      let new : BitVec 16 := (i.rd a.toNat i.low).extractLsb' 0 16
      let toCache := (i.s.core i.core).split &&& ~~~new
      let running := fun b => (i.s.block b).st != .draining
      let held : BitVec 16 := BitVec.ofNat 16 ((List.range 16).foldl (fun n w =>
        if toCache.getLsbD w && (i.s.wayHolders i.core w).any running then n + 2 ^ w else n) 0)
      if held != 0 then i.raise .permission (some (held.setWidth 64)) i.act
      else
        let t := i.t.pendWords i.k (i.lanes.map fun l => (d.toNat, l))
        .done ((t.updCore i.core fun c =>
          { c with sways := c.sways ++ [⟨i.k, d.toNat, i.act, new, 0, i.b.depth, i.w.trap.level⟩] }).shrink i.core))

end Sys2Proof.Machine
end

