-- ==== Sys2Proof/Machine/Counters.lean ====
section
/-! DEFINITION. Dependence counters, counter waits and window counters (R363, R364, R395 to R404, R408, R409, R460). -/

namespace Sys2Proof.Machine

/-! ### Handles -/

/-- The kinds of tagged handles (R460). -/
inductive TagKind where
  | cap | fold | window
  deriving DecidableEq, Repr

/-- The number of a kind in the message of R460. -/
def TagKind.code : TagKind → Nat
  | .cap => 1 | .fold => 2 | .window => 3

/-- A TAG that this device issues, in this boot: KMAC128 under its secret, four bytes, the lowest first (R429, R460). -/
def State.tag (s : State) (k : TagKind) (index gen ctx : Nat) : Word :=
  let out := kmac128 (leBytes 32 (Config.secret s.dev.id s.dev.fw.boots).toNat) (tagMessage index gen ctx k.code s.dev.id) 4
    tagCustom
  out.getD 3 0 ++ out.getD 2 0 ++ out.getD 1 0 ++ out.getD 0 0

/-- A handle: TAG, GEN, and the low 20 bits (R101, R363, R364). -/
def handleOf (tag : Word) (gen low : Nat) : DWord := tag ++ BitVec.ofNat 12 gen ++ BitVec.ofNat 20 low

/-- TAG of a handle. -/
def handleTag (h : DWord) : Word := h.extractLsb' 32 32
/-- GEN of a handle. -/
def handleGen (h : DWord) : Nat := (h.extractLsb' 20 12).toNat
/-- The low 20 bits of a handle. -/
def handleLow (h : DWord) : Nat := (h.extractLsb' 0 20).toNat

/-- The open inbound window that a handle of a context names on this device (R364, R409). -/
def State.windowIn (s : State) (ctx : Nat) (h : DWord) : Option Nat :=
  let n := handleLow h % 4096
  match Tab.find s.dev.winIn n with
  | none => none
  | some w =>
    if handleLow h / 4096 = s.dev.id ∧ w.open_ ∧ w.ctx = ctx ∧ w.gen = handleGen h ∧
      handleTag h = s.tag .window n w.gen w.ctx then some n else none

/-- The position in this device's outbound table of a handle that a context owns (R364, R409). -/
def State.outWindow (s : State) (ctx : Nat) (h : DWord) : Option Nat :=
  (s.dev.winOut.find? fun p => p.2.handle == h && p.2.ctx == ctx).map Prod.fst

/-! ### Operations on a counter -/

/-- A pair operand of the lowest lane. -/
def Iss.low2 (i : Iss) (a : Reg) : DWord := i.rd2 a.toNat i.low

/-- What an instruction that needs a counter does after the checks of its handle: R397's in its order, and the state of
the record's word (R188). -/
def Iss.counter (i : Iss) (h : DWord) (whole : Bool) (go : Nat → State → Eff) : Eff :=
  let at_ := some h
  i.afterPublish (
    match i.t.counterPlace i.core i.w.ctx h.toNat with
    | .error c => i.raise c at_ i.act
    | .ok (place, t) =>
      if i.s.heldAt i.core i.w.ctx h.toNat 32 then i.raise .permission at_ i.act
      else if !whole && i.s.mem.uncorr place then i.raise .uncorrectable at_ i.act
      else if !whole && i.s.mem.poisoned place then i.raise .poison at_ i.act
      else go place t)

/-- The bytes of a fresh counter record (R396, R401). -/
def CounterRec.bytes (r : CounterRec) : List Byte :=
  leBytes 4 r.value ++ leBytes 1 r.flags ++ leBytes 1 r.lq ++ leBytes 2 r.core ++ leBytes 8 r.cont ++
  leBytes 4 r.ident ++ leBytes 1 r.cq ++ leBytes 1 r.ctx ++ List.replicate 10 0

/-- The own part of CINIT (R401). -/
def Iss.cinit (i : Iss) (d a : Reg) (lq : Option (BitVec 3)) : Eff :=
  let word := fun n l => i.rd (a.toNat + n) l
  i.uniform (i.differ fun l => (List.range 5).map fun n => word n l) (
    let h := i.low2 a
    i.counter h true fun place t =>
      let v := (word 2 i.low).toNat
      let fires := lq.isSome && v == 0
      let cont := if lq.isSome then (word 4 i.low ++ word 3 i.low).toNat else 0
      let l := i.s.launch i.b.launch
      let r : CounterRec := ⟨v, if fires then 2 else if lq.isSome then 1 else 0, lq.elim 0 BitVec.toNat, i.core, cont,
        l.ident32, l.lpb.cq, i.w.ctx⟩
      let t1 := t.homeWrite (fromPlace place r.bytes)
      i.status (if fires then t1.fire r h.toNat else t1) d (if fires then 1 else 0))

/-- CINIT (R401). -/
def execCinit (h : Hdr) (d a : Reg) (s : State) : Out :=
  issue s { h := h, srcs := runOf a 5, dsts := [d.toNat] } fun i => if i.idle then .done i.t else i.cinit d a none

/-- CINIT.cont (R401). -/
def execCinitCont (h : Hdr) (d a : Reg) (lq : BitVec 3) (s : State) : Out :=
  issue s { h := h, srcs := runOf a 5, dsts := [d.toNat] } fun i => if i.idle then .done i.t else i.cinit d a (some lq)

/-- The registers of an amount. -/
def amountRegs : Amount → List Nat
  | .imm _ => []
  | .reg r => [r.toNat]

/-- The amount of CINC and CDEC in a lane (R402). -/
def Iss.amount (i : Iss) (n : Amount) (l : Nat) : Nat :=
  match n with
  | .imm v => v.toNat
  | .reg r => (i.rd r.toNat l).toNat

/-- The own part of CINC and CDEC: `f` changes the counter at its home (R402). -/
def Iss.bump (i : Iss) (d a : Reg) (n : Amount) (f : State → Nat → Nat → Nat → State × Nat) : Eff :=
  i.uniform (i.differ fun l => (i.rd2 a.toNat l, i.amount n l)) (
    i.counter (i.low2 a) false fun place t =>
      let (t1, v) := f t place (i.low2 a).toNat (i.amount n i.low)
      i.status t1 d (BitVec.ofNat 32 v))

/-- CINC (R398, R402). -/
def execCinc (h : Hdr) (d a : Reg) (n : Amount) (s : State) : Out :=
  issue s { h := h, srcs := pairOf a ++ amountRegs n, dsts := [d.toNat] } fun i =>
    if i.idle then .done i.t else i.bump d a n fun t place _ n => t.counterInc place n

/-- CDEC (R398, R402). -/
def execCdec (h : Hdr) (d a : Reg) (n : Amount) (s : State) : Out :=
  issue s { h := h, srcs := pairOf a ++ amountRegs n, dsts := [d.toNat] } fun i =>
    if i.idle then .done i.t else i.bump d a n fun t place handle n => t.counterDec place handle n

/-- The own part of CRD: a word of the record at its home (R403). -/
def Iss.crd (i : Iss) (d a : Reg) (off : Nat) : Eff :=
  i.uniform (i.differ fun l => i.rd2 a.toNat l) (
    i.counter (i.low2 a) false fun place t =>
      i.status t d (BitVec.ofNat 32 (leNat (t.mem.bytesFrom (place + off) 4))))

/-- CRD (R403). -/
def execCrd (h : Hdr) (d a : Reg) (s : State) : Out :=
  issue s { h := h, srcs := pairOf a, dsts := [d.toNat] } fun i => if i.idle then .done i.t else i.crd d a 0

/-- CRD.f (R403). -/
def execCrdF (h : Hdr) (d a : Reg) (s : State) : Out :=
  issue s { h := h, srcs := pairOf a, dsts := [d.toNat] } fun i => if i.idle then .done i.t else i.crd d a 4

/-! ### Waits -/

/-- A path's wait for a counter: it passes at once when its condition holds, or held at some state since it began; else
it begins, or goes on (R25, R404). -/
def Iss.waitFor (i : Iss) (t : State) (fn place bound : Nat) : Eff :=
  let mine := fun (c : CWait) => c.pc == i.pc && c.fn == fn && c.place == place && c.bound == bound
  let new : CWait := ⟨i.pc, i.path, place, fn, bound, false⟩
  let pass := Eff.done (t.updWave i.k fun w => { w with cwaits := w.cwaits.filter fun c => !mine c })
  match i.w.cwaits.find? mine with
  | some c => if c.met || i.s.waitHolds c then pass else .stall
  | none =>
    if i.s.waitHolds new then pass
    else .wait (i.s.updWave i.k fun w => { w with cwaits := w.cwaits ++ [new] })

/-- The own part of CWAIT.le and CWAIT.ge (R404). -/
def Iss.cwait (i : Iss) (a b : Reg) (fn : Nat) : Eff :=
  i.uniform (i.differ fun l => (i.rd2 a.toNat l, i.rd b.toNat l)) (
    i.counter (i.low2 a) false fun place t => i.waitFor t fn place (i.rd b.toNat i.low).toNat)

/-- CWAIT.le (R404). -/
def execCwaitLe (h : Hdr) (a b : Reg) (s : State) : Out :=
  issue s { h := h, srcs := pairOf a ++ [b.toNat], dsts := [] } fun i => if i.idle then .done i.t else i.cwait a b 0

/-- CWAIT.ge (R404). -/
def execCwaitGe (h : Hdr) (a b : Reg) (s : State) : Out :=
  issue s { h := h, srcs := pairOf a ++ [b.toNat], dsts := [] } fun i => if i.idle then .done i.t else i.cwait a b 1

/-- The window that a handle names, or CAPABILITY (R409). -/
def Iss.window (i : Iss) (h : DWord) (source : Bool) (go : Nat → Eff) : Eff :=
  match if source then i.s.outWindow i.w.ctx h else i.s.windowIn i.w.ctx h with
  | none => i.raise .capability (some h) i.act
  | some n => i.afterPublish (go n)

/-- The own part of CWAIT.wt and CWAIT.ws (R404, R409). -/
def Iss.cwaitWin (i : Iss) (a b : Reg) (source : Bool) : Eff :=
  i.uniform (i.differ fun l => (i.rd2 a.toNat l, i.rd2 b.toNat l)) (
    i.window (i.low2 a) source fun n => i.waitFor i.t (if source then 3 else 2) (n + 2 ^ 64) (i.low2 b).toNat)

/-- CWAIT.wt (R404, R409). -/
def execCwaitWt (h : Hdr) (a b : Reg) (s : State) : Out :=
  issue s { h := h, srcs := pairOf a ++ pairOf b, dsts := [] } fun i => if i.idle then .done i.t else i.cwaitWin a b false

/-- CWAIT.ws (R404, R409). -/
def execCwaitWs (h : Hdr) (a b : Reg) (s : State) : Out :=
  issue s { h := h, srcs := pairOf a ++ pairOf b, dsts := [] } fun i => if i.idle then .done i.t else i.cwaitWin a b true

/-- The own part of WINRD (R409). -/
def Iss.winrd (i : Iss) (d a : Reg) (source : Bool) : Eff :=
  i.uniform (i.differ fun l => i.rd2 a.toNat l) (
    i.window (i.low2 a) source fun n =>
      let v := i.s.waitValue ⟨0, 0, n + 2 ^ 64, if source then 3 else 2, 0, false⟩
      i.later i.t (i.each2 d.toNat fun _ => BitVec.ofNat 64 v))

/-- WINRD.t (R409). -/
def execWinrdT (h : Hdr) (d a : Reg) (s : State) : Out :=
  issue s { h := h, srcs := pairOf a, dsts := pairOf d } fun i => if i.idle then .done i.t else i.winrd d a false

/-- WINRD.s (R409). -/
def execWinrdS (h : Hdr) (d a : Reg) (s : State) : Out :=
  issue s { h := h, srcs := pairOf a, dsts := pairOf d } fun i => if i.idle then .done i.t else i.winrd d a true

end Sys2Proof.Machine
end

