-- ==== Sys2Proof/Machine/Barriers.lean ====
section
/-! DEFINITION. Block barriers and group barriers (R18, R359, R360, R405 to R407). -/

namespace Sys2Proof.Machine

/-- The barrier of a block's compute waves or of its yokemates. -/
def Block.barrier (b : Block) (yoke : Bool) : Barrier := if yoke then b.barY else b.barC

/-- The block with one of its barriers changed. -/
def Block.updBarrier (b : Block) (yoke : Bool) (f : Barrier → Barrier) : Block :=
  if yoke then { b with barY := f b.barY } else { b with barC := f b.barC }

/-- The waves of a set of a block. -/
def State.setOf (s : State) (blk : Nat) (yoke : Bool) : List Nat :=
  (s.block blk).waves.filter fun k => decide ((s.wave k).wib ≥ 32) == yoke

/-- A block barrier has received every arrival of its generation (R405). -/
def State.barrierFull (s : State) (blk : Nat) (yoke : Bool) : Bool :=
  let arrived := ((s.block blk).barrier yoke).arrived
  !arrived.isEmpty && (s.setOf blk yoke).all fun k => arrived.contains (s.wave k).wib

/-- The group that a group slot of a block names: the groups of its launch that list it, in increasing index (R18). -/
def State.groupAt (s : State) (blk slot : Nat) : Option Nat :=
  let b := s.block blk
  if b.spawned then none
  else (((s.launch b.launch).groups.zipIdx.filter fun g => g.1.members.contains b.lin).map Prod.snd)[slot]?

/-- A group of a launch. -/
def State.group (s : State) (launch idx : Nat) : Group := (s.launch launch).groups.getD idx ⟨[], none, [], 0, []⟩

/-- The state with a group changed. -/
def State.updGroup (s : State) (launch idx : Nat) (f : Group → Group) : State :=
  s.updLaunch launch fun l => { l with groups := l.groups.zipIdx.map fun g => if g.2 = idx then f g.1 else g.1 }

/-- A wave's arrival in a group's list: its block's linear index and WAVE_IN_BLOCK. -/
def groupArrival (lin wib : Nat) : Nat := lin * 64 + wib

/-- A block is on its core with its waves: no image or move holds it, for whose end a barrier waits (R28, R332, R407). -/
def BlockState.here : BlockState → Bool
  | .saved | .moving | .starting | .offered => false
  | _ => true

/-- A member block has arrived at its group's barrier: every live compute wave has and none is in an image, or it has
retired (R28, R360, R405). -/
def State.memberArrived (s : State) (launch idx lin : Nat) : Bool :=
  let g := s.group launch idx
  g.gone.contains lin ||
    (g.arrived.any (fun a => a / 64 == lin) &&
     s.blocks.all fun p => p.2.launch != launch || p.2.spawned || p.2.lin != lin || (p.2.st.here &&
       (s.setOf p.1 false).all fun k => g.arrived.contains (groupArrival lin (s.wave k).wib)))

/-- A group barrier has received every arrival (R18). -/
def State.groupFull (s : State) (launch idx : Nat) : Bool :=
  let g := s.group launch idx
  !g.members.isEmpty && g.members.all fun m => s.memberArrived launch idx m

/-- The barrier that a wave's instruction names: none for an empty group slot or a yokemate's group slot (R405, R406). -/
def Iss.barrierAt (i : Iss) (slot : Nat) : Option BarrierId :=
  if slot = 4 then some (.block i.blk (decide (i.w.wib ≥ 32)))
  else if i.w.wib ≥ 32 then none
  else (i.s.groupAt i.blk slot).map fun n => .group i.b.launch n

/-- The generation of a barrier. -/
def State.barrierGen (s : State) : BarrierId → Nat
  | .block b y => ((s.block b).barrier y).gen
  | .group l n => (s.group l n).gen

/-- The issuing wave has arrived at a barrier's present generation. -/
def Iss.arrivedAt (i : Iss) : BarrierId → Bool
  | .block b y => ((i.s.block b).barrier y).arrived.contains i.w.wib
  | .group l n => (i.s.group l n).arrived.contains (groupArrival i.b.lin i.w.wib)

/-- The issuing wave arrives at a barrier. -/
def Iss.arrive (i : Iss) (t : State) : BarrierId → State
  | .block b y => t.updBlock b fun x => x.updBarrier y fun r => { r with arrived := i.w.wib :: r.arrived }
  | .group l n => t.updGroup l n fun g => { g with arrived := groupArrival i.b.lin i.w.wib :: g.arrived }

/-- The checks that every barrier instruction makes (R406). -/
def Iss.together (i : Iss) (go : Eff) : Eff :=
  i.armed (if i.act != i.w.live then i.raise .uniformity none i.missing else go)

/-- The own part of BAR and BARA: a wave that has arrived at this generation waits for the next one (R405, R406). -/
def Iss.bar (i : Iss) (slot : Nat) (ticket : Option Reg) : Eff :=
  i.together (i.afterPublish (
    match i.barrierAt slot with
    | none => match ticket with
      | some d => i.status i.t d 0
      | none => .done i.t
    | some b =>
      let g := i.s.barrierGen b
      if i.arrivedAt b then .stall
      else match ticket with
        | some d => i.status (i.arrive i.t b) d (BitVec.ofNat 32 g)
        | none => .done ((i.arrive i.t b).updWave i.k fun w => { w with wait := some (.barrier b g) })))

/-- BAR (R405, R406). -/
def execBar (h : Hdr) (s : State) : Out := issue s (needCtl h [] []) fun i => i.bar 4 none

/-- BAR.g (R405, R406). -/
def execBarG (h : Hdr) (slot : BitVec 2) (s : State) : Out :=
  issue s (needCtl h [] []) fun i => i.bar slot.toNat none

/-- BARA (R405, R406). -/
def execBara (h : Hdr) (d : Reg) (slot : BitVec 3) (s : State) : Out :=
  issue s (needCtl h [d.toNat] []) fun i => i.bar slot.toNat (some d)

/-- The generation of a ticket has completed (R406). -/
def ticketDone (gen : Nat) (ticket : Word) : Bool :=
  let n := (BitVec.ofNat 32 gen - ticket).toNat
  decide (1 ≤ n) && decide (n ≤ 2 ^ 31)

/-- BARW (R406). -/
def execBarw (h : Hdr) (a : Reg) (slot : BitVec 3) (s : State) : Out :=
  issue s (needCtl h [] [a.toNat]) fun i =>
    i.together (i.uniform (i.differ fun l => i.rd a.toNat l) (
      match i.barrierAt slot.toNat with
      | none => .done i.t
      | some b => if ticketDone (i.s.barrierGen b) (i.rd a.toNat i.low) then .done i.t else .stall))

/-- The waits on a generation of a barrier end. -/
def State.endBarrierWaits (s : State) (b : BarrierId) (gen : Nat) : State :=
  s.mapWaves (fun _ w => w.wait == some (.barrier b gen)) fun w => { w with wait := none }

/-- A BARRIER COMPLETES: GEN rises, its waits end, and the block's FRAME writes are seen (R109, R405). -/
def execBarrierComplete (b : BarrierId) (s : State) : Out :=
  .next (match b with
    | .block blk y =>
      if s.barrierFull blk y && (s.block blk).st.here then
        let g := ((s.block blk).barrier y).gen
        (s.updBlock blk fun x => { x.updBarrier y fun r => ⟨[], (r.gen + 1) % 2 ^ 32⟩ with frameOld := [] }).endBarrierWaits b g
      else s
    | .group l n =>
      if s.groupFull l n then
        let g := (s.group l n).gen
        (s.updGroup l n fun x => { x with arrived := [], gen := (x.gen + 1) % 2 ^ 32 }).endBarrierWaits b g
      else s)

end Sys2Proof.Machine
end

