-- ==== Sys2Proof/Machine/Compare.lean ====
section
/-! DEFINITION. Compare, select and vote instructions (R126, R142 to R145). -/

namespace Sys2Proof.Machine

/-- A condition over an order: −1, 0 or 1 (R142). -/
def condInt (cc : Cond) (c : Int) : Bool :=
  match cc with
  | .eq => c == 0
  | .ne => c != 0
  | .lt => decide (c < 0)
  | .le => decide (c ≤ 0)
  | .gt => decide (c > 0)
  | .ge => decide (c ≥ 0)
  | .un => false
  | .ord => true

/-- A float comparison and its NV (R142). -/
def condFloat (cc : Cond) (x y : FVal) : Bool × Flags :=
  let sig := x.isSig || y.isSig
  if x.isNan || y.isNan then
    (match cc with
      | .eq | .ord => (false, fIf sig fNV)
      | .ne | .un => (true, fIf sig fNV)
      | _ => (false, fNV))
  else (condInt cc (x.cmp y), 0)

/-- A comparison of two operands' bits (R142). -/
def compareBits (cc : Cond) (t : RType) (a b : Nat) : Nat × Flags :=
  if RType.isFloat t then
    let (r, f) := condFloat cc ((RType.ffmt t).decode a) ((RType.ffmt t).decode b)
    (r.toNat, f)
  else ((condInt cc (RType.int t a 0 - RType.int t b 0)).toNat, 0)

/-- CMP (R142). -/
def execCmp (h : Hdr) (cc : Cond) (t : RType) (d a b : Reg) (s : State) : Out :=
  issue s { h := h, srcs := regsOf t a ++ regsOf t b, dsts := [d.toNat] } fun i =>
    i.lanesF 1 .z32 d fun l => compareBits cc t (i.raw t a l) (i.raw t b l)

/-- CMPI's immediate as bits of the type: that of MOVI (R142). -/
def cmpiBits (t : RType) (imm : BitVec 32) : Nat := if t = .s64 then (imm.signExtend 64).toNat else imm.toNat

/-- CMPI (R142). -/
def execCmpi (h : Hdr) (cc : Cond) (t : RType) (d a : Reg) (imm : BitVec 32) (s : State) : Out :=
  issue s { h := h, srcs := regsOf t a, dsts := [d.toNat] } fun i =>
    i.lanesF 1 .z32 d fun l => compareBits cc t (i.raw t a l) (cmpiBits t imm)

/-- SEL (R143). -/
def execSel (h : Hdr) (t : RType) (d a b c : Reg) (s : State) : Out :=
  issue s { h := h, srcs := regsOf t a ++ regsOf t b ++ [c.toNat], dsts := regsOf t d } fun i =>
    i.lanesT 1 t d fun l => if (i.rd c.toNat l).getLsbD 0 then i.raw t a l else i.raw t b l

/-- The lanes of ACTIVE whose predicate is 1 (R144). -/
def Iss.votes (i : Iss) (a : Reg) : Mask := Mask.of fun l => i.act.getLsbD l && (i.rd a.toNat l).getLsbD 0

/-- What a vote needs. -/
def needVote (h : Hdr) (d a : Reg) : Need := { h := h, srcs := [a.toNat], dsts := [d.toNat] }

/-- A truth value as a word. -/
def boolWord (b : Bool) : Word := if b then 1 else 0

/-- BALLOT (R144). -/
def execBallot (h : Hdr) (d a : Reg) (s : State) : Out :=
  issue s (needVote h d a) fun i => i.lanesW 2 d fun _ => i.votes a

/-- VANY (R144). -/
def execVany (h : Hdr) (d a : Reg) (s : State) : Out :=
  issue s (needVote h d a) fun i => i.lanesW 2 d fun _ => boolWord (i.votes a != 0)

/-- VALL (R144). -/
def execVall (h : Hdr) (d a : Reg) (s : State) : Out :=
  issue s (needVote h d a) fun i => i.lanesW 2 d fun _ => boolWord (i.votes a == i.act)

/-- VEQ (R144). -/
def execVeq (h : Hdr) (t : RType) (d a : Reg) (s : State) : Out :=
  issue s { h := h, srcs := regsOf t a, dsts := [d.toNat] } fun i =>
    i.lanesW 2 d fun _ => boolWord (i.differ (fun l => i.raw t a l) == 0)

/-- What ACTIVE needs. -/
def needMask (h : Hdr) (d : Reg) : Need := { h := h, srcs := [], dsts := [d.toNat] }

/-- ACTIVE (R145). -/
def execActive (h : Hdr) (d : Reg) (s : State) : Out :=
  issue s (needMask h d) fun i => i.lanesW 1 d fun _ => i.act

/-- ACTIVE.path (R145). -/
def execActivePath (h : Hdr) (d : Reg) (s : State) : Out :=
  issue s (needMask h d) fun i => i.lanesW 1 d fun _ => i.path

/-- ACTIVE.live (R145). -/
def execActiveLive (h : Hdr) (d : Reg) (s : State) : Out :=
  issue s (needMask h d) fun i => i.lanesW 1 d fun _ => i.w.live

end Sys2Proof.Machine
end

