-- ==== Sys2Proof/Machine/RecoveryInstr.lean ====
section
/-! DEFINITION. Recovery instructions: opening a scope, alternates, acceptance, failure, sittings (R374, R375, R379,
R384 to R386, R389 to R394). -/

namespace Sys2Proof.Machine

/-! ### Opening -/

/-- DEFMASK (R374). -/
def defMask : Word := 0x02210160

/-- The bits of a failure mask that count (R374). -/
def maskBits : Word := 0x07EFFFFE

/-- The recovery flag of an LPB (R299). -/
def Lpb.recovery (l : Lpb) : Bool := l.flags / 2 % 2 == 1

/-- RECOVERY_NESTING in every lane of the path. -/
def Iss.nesting (i : Iss) : Eff := i.raise .recoveryNesting none i.path

/-- UNIFORMITY unless ACTIVE holds every live lane. -/
def Iss.allLive (i : Iss) (go : Eff) : Eff := if i.act != i.w.live then i.raise .uniformity none i.missing else go

/-- A B-form target that a later dispatch uses: TRANSLATION when it is out of range (R70, R375). -/
def Iss.named (i : Iss) (t : Target) (go : Ctr → Eff) : Eff :=
  match Target.counter t i.pc with
  | none => i.raise .translation (some (i.pc.setWidth 64)) i.act
  | some c => go c

/-- The optional registers of ENSURE. -/
def optRegs (rs : List (Option Reg)) : List Nat := rs.filterMap fun r => r.map (·.toNat)

/-- Every live wave of a block is in a list of WAVE_IN_BLOCK. -/
def State.allIn (s : State) (blk : Nat) (l : List Nat) : Bool := (s.block blk).waves.all fun k => l.contains (s.wave k).wib

/-- The sitting that a block is a member of. -/
def State.sittingOf (s : State) (blk : Nat) : Option (Nat × Sitting) :=
  match (s.block blk).rcv.sitting with
  | none => none
  | some n => (Tab.find s.dev.sits n).map fun x => (n, x)

/-- The state with a sitting changed. -/
def State.updSit (s : State) (n : Nat) (f : Sitting → Sitting) : State :=
  s.updDev fun d => { d with sits := Tab.upd d.sits n f }

/-- A block has arrived at the opening barrier of its sitting's round (R389). -/
def State.noteOpened (s : State) (blk : Nat) : State :=
  match s.sittingOf blk with
  | none => s
  | some (n, _) =>
    if (s.block blk).depth = 0 && s.allIn blk (Tab.keys (s.block blk).rcv.opening) then
      s.updSit n fun x => { x with opened := blk :: x.opened.filter (· != blk) }
    else s

/-- A block has arrived at the accept barrier of its sitting's round (R389). -/
def State.noteAccepted (s : State) (blk : Nat) : State :=
  match s.sittingOf blk with
  | none => s
  | some (n, _) =>
    if (s.block blk).depth = 1 && s.allIn blk (s.block blk).rcv.accepting then
      s.updSit n fun x => { x with accepted := blk :: x.accepted.filter (· != blk) }
    else s

/-- A wave arrives at the opening barrier (R375). -/
def State.arriveOpening (s : State) (k : Nat) (a : OpenArg) : State :=
  let w := s.wave k
  ((s.updRcv w.block fun r => { r with opening := Tab.put r.opening w.wib a }).updWave k fun w =>
    { w with wait := some .opening }).noteOpened w.block

/-- ENSURE (R374, R375). -/
def execEnsure (h : Hdr) (t : Target) (mask lim : Option Reg) (s : State) : Out :=
  issue s { h := h, srcs := optRegs [mask, lim], dsts := [], chain := true } fun i =>
    let l := i.s.lpb i.blk
    let word := fun (r : Option Reg) (d : Word) (n : Nat) => r.elim d fun r => i.rd r.toNat n
    i.allLive (i.uniform (i.differ fun n => (word mask 0 n, word lim 0 n)) (
      if !l.recovery || decide (i.b.depth ≥ l.rdepth) || i.w.trap.level != 0 || i.w.dispatch then i.nesting
      else i.named t fun c => i.afterPublish (
        .done (i.t.arriveOpening i.k
          ⟨c, word mask defMask i.low &&& maskBits, (word lim (BitVec.ofNat 32 l.rlimit) i.low).toNat⟩))))

/-! ### Alternates -/

/-- A frame and what lies above it are gone; its records with them. -/
def Recovery.discard (r : Recovery) (d : Nat) : Recovery :=
  { r with frames := r.frames.take (d - 1), recs := r.recs.filter fun x => decide (x.depth < d) }

/-- The members of a sitting walk to their ELSEERR; those that run an alternate of the round fail it with SITTING
(R391). -/
def State.skipRound (s : State) (n : Nat) (by_ : Nat) : State :=
  match Tab.find s.dev.sits n with
  | none => s
  | some x => (x.members.filter fun b => b != by_ && !x.ended.contains b).foldl (fun s b =>
      let s1 := s.updRcv b fun r => r.updFrame 1 fun f => { f with skip := true }
      let walking := (s1.block b).waves.all fun k => (s1.wave k).dispatch
      if !(s1.block b).rcv.inRound || walking || (s1.block b).rcv.failing.isSome then s1
      else s1.failScope b 1 ((s1.block b).waves.foldl (fun m k => min m (s1.wave k).wib) 255) 0 rcSitting) s

/-- A member ends its part of a round; after the last the sitting is ready again (R390, R391). -/
def State.endRound (s : State) (blk : Nat) : State :=
  match s.sittingOf blk with
  | none => s
  | some (n, _) =>
    let s1 := (s.skipRound n blk).updSit n fun x => { x with ended := blk :: x.ended.filter (· != blk) }
    s1.updSit n fun x =>
      if x.members.all fun b => x.ended.contains b then { x with st := 2, ended := [], restored := [], accepted := [] } else x

/-- The frame to which a wave was dispatched: the deepest whose FLAGS it keeps. -/
def Wave.scope (w : Wave) : Nat := w.saves.foldl (fun d x => max d x.1) 0

/-- ELSEBY: a wave walks on where SKIP is set, and where another wave's ELSEERR has discarded the frame, which only a walk
reaches before it (R384, R385, R394). -/
def execElseby (h : Hdr) (t : Target) (lim : Option Reg) (s : State) : Out :=
  issue s { h := h, srcs := optRegs [lim], dsts := [], chain := true } fun i =>
    let d := i.w.scope
    let v := fun n => lim.elim (0 : Word) fun r => i.rd r.toNat n
    let f := i.b.rcv.frame d
    if !i.w.dispatch ∨ d = 0 then i.nesting
    else i.allLive (i.uniform (i.differ v) (
      if f.all (·.skip) then i.toTarget t i.act fun c => .done (i.t.goTo i.k i.act fun _ => c)
      else i.named t fun c =>
        let t1 := i.t.updWave i.k fun w => { w with dispatch := false }
        .done (if f.any (·.served) then t1 else t1.updRcv i.blk fun r => r.updFrame d fun f =>
          { f with next := c, served := true, limit := lim.elim f.limit fun _ => (v i.low).toNat })))

/-- ELSEERR for one wave: the first wave of the block discards the frame (R385). -/
def State.elseerr (s : State) (k : Nat) : State :=
  let w := s.wave k
  let d := w.scope
  let b := s.block w.block
  let s1 := s.updWave k fun w => { w with dispatch := false, saves := Tab.del w.saves d }
  if b.depth < d then s1
  else
    let sit := (b.rcv.frame d).any (·.sit)
    let s2 := s1.updRcv w.block fun r => r.discard d
    if sit then s2.endRound w.block else s2

/-- The own part of ELSEERR: its target absorbs the failure; else it passes outward (R385). -/
def Iss.elseerr (i : Iss) (t : Option Target) : Eff :=
  let d := i.w.scope
  if !i.w.dispatch then i.nesting
  else i.allLive (
    match t with
    | some t => i.toTarget t i.act fun c => .done ((i.t.elseerr i.k).goTo i.k i.act fun _ => c)
    | none =>
      if d > 1 then .done ((i.t.elseerr i.k).failScope i.blk (d - 1) i.w.wib 0 Cause.recoveryExhausted.code)
      else .fault (i.s.elseerr i.k) (faultAt .recoveryExhausted (some (i.b.rcv.rcause.setWidth 64)) i.w.live))

/-- ELSEERR (R385). -/
def execElseerr (h : Hdr) (s : State) : Out :=
  issue s { h := h, srcs := [], dsts := [], chain := true } fun i => i.elseerr none

/-- ELSEERR.go (R385). -/
def execElseerrGo (h : Hdr) (t : Target) (s : State) : Out :=
  issue s { h := h, srcs := [], dsts := [], chain := true } fun i => i.elseerr (some t)

/-! ### Acceptance and failure -/

/-- A wave arrives at the accept barrier (R386). -/
def State.arriveAccept (s : State) (k : Nat) : State :=
  let w := s.wave k
  ((s.updRcv w.block fun r => { r with accepting := w.wib :: r.accepting }).updWave k fun w =>
    { w with wait := some .accept }).noteAccepted w.block

/-- The own part of ACCEPT (R386). -/
def Iss.accept (i : Iss) (a : Option Reg) : Eff :=
  let d := i.b.depth
  if d = 0 || i.w.dispatch then i.nesting
  else i.allLive (
    let fails := fun code => Eff.done (i.t.failScope i.blk d i.w.wib 0 code)
    let unset := match a with
      | some r => i.lanes.any fun l => !(i.rd r.toNat l).getLsbD 0
      | none => false
    if armedHit (i.w.seenFlags i.s.free) then fails Cause.numericArmed.code
    else if unset then fails rcRejected
    else i.afterPublish (.done (i.t.arriveAccept i.k)))

/-- ACCEPT (R386). -/
def execAccept (h : Hdr) (s : State) : Out :=
  issue s { h := h, srcs := [], dsts := [], chain := true } fun i => i.accept none

/-- ACCEPT.if (R386). -/
def execAcceptIf (h : Hdr) (a : Reg) (s : State) : Out :=
  issue s { h := h, srcs := [a.toNat], dsts := [], chain := true } fun i => i.accept (some a)

/-- REJECT (R386). -/
def execReject (h : Hdr) (code : BitVec 8) (s : State) : Out :=
  issue s { h := h, srcs := [], dsts := [], chain := true } fun i =>
    if i.b.depth = 0 || i.w.dispatch then i.nesting
    else if i.idle then .done i.t
    else .done (i.t.failScope i.blk i.b.depth i.w.wib code.toNat rcRejected)

/-- ABANDON (R394). -/
def execAbandon (h : Hdr) (code : BitVec 8) (s : State) : Out :=
  issue s { h := h, srcs := [], dsts := [], chain := true } fun i =>
    if i.b.depth = 0 || i.w.dispatch then i.nesting
    else if i.idle then .done i.t
    else .done ((i.t.updRcv i.blk fun r => r.updFrame i.b.depth fun f => { f with skip := true }).failScope
      i.blk i.b.depth i.w.wib code.toNat rcAbandoned)

/-! ### Sittings -/

/-- The refusals of SITJOIN that apply (R392). -/
def State.joinRefusals (s : State) (blk ctx : Nat) (key : Word) (count : Nat) : List Nat :=
  (if (s.block blk).rcv.sitting.isSome then [4] else []) ++
  (if count < 2 ∨ count > 32 then [5] else []) ++
  (match s.dev.sits.find? fun x => x.2.key == key && x.2.ctx == ctx with
    | some x => (if x.2.count ≠ count then [2] else []) ++ (if x.2.members.length ≥ x.2.count then [3] else [])
    | none => if s.dev.sits.length ≥ 1024 then [1] else [])

/-- A block joins the sitting of a key, new or forming (R389, R390, R392). -/
def State.join (s : State) (blk ctx : Nat) (key : Word) (count : Nat) : State :=
  let (n, x) := (s.dev.sits.find? fun x => x.2.key == key && x.2.ctx == ctx).getD
    (Tab.freeKey s.dev.sits, ⟨key, ctx, count, [], [], [], 0, 1, [], []⟩)
  let m := x.members ++ [blk]
  let x' := { x with members := m, st := if m.length = x.count then 2 else 1 }
  (s.updDev fun d => { d with sits := Tab.put d.sits n x' }).updRcv blk fun r => { r with sitting := some n }

/-- SITJOIN: of several refusals that apply the free constant `Config.choice` names the one reported (R392; log 4). -/
def execSitjoin (h : Hdr) (d a b : Reg) (s : State) : Out :=
  issue s { h := h, srcs := [a.toNat, b.toNat], dsts := [d.toNat] } fun i =>
    if i.idle then .done i.t
    else if i.b.depth ≠ 0 then i.nesting
    else i.uniform (i.differ fun l => (i.rd a.toNat l, i.rd b.toNat l)) (i.afterPublish (
      let key := i.rd a.toNat i.low
      let count := (i.rd b.toNat i.low).toNat
      let no := i.s.joinRefusals i.blk i.w.ctx key count
      if no ≠ [] then i.status i.t d (BitVec.ofNat 32 (no.getD (Config.choice 5 i.s.free no.length % no.length) 1))
      else i.status (i.t.join i.blk i.w.ctx key count) d 0))

/-- SITLEAVE (R392). -/
def execSitleave (h : Hdr) (d : Reg) (s : State) : Out :=
  issue s { h := h, srcs := [], dsts := [d.toNat] } fun i =>
    if i.idle then .done i.t
    else if i.b.depth ≠ 0 then i.nesting
    else i.afterPublish (
      if i.b.rcv.sitting.isNone then i.status i.t d 1 else i.status (i.t.leaveSitting i.blk) d 0)

end Sys2Proof.Machine
end

