-- ==== Sys2Proof/Machine/Link.lean ====
section
/-! DEFINITION. The Ezley ports: flits, acknowledgements, replays, audits and wavelength groups (R314, R315, R424 to
R426). -/

namespace Sys2Proof.Machine

/-- A port. -/
def State.port (s : State) (p : Nat) : Port := Tab.get Port.reset s.dev.ports p

/-- The state with a port changed. -/
def State.updPort (s : State) (p : Nat) (f : Port → Port) : State :=
  s.updDev fun d => { d with ports := Tab.put d.ports p (f (Tab.get Port.reset d.ports p)) }

/-- The port by which a core's traffic to a device goes: the first that is up from (core + device) mod 16 on (R424). -/
def State.portFor (s : State) (core dev : Nat) : Option Nat :=
  ((List.range 16).map fun i => (core + dev + i) % 16).find? fun p => (s.port p).up

/-- Flits of an operation are not acknowledged yet. -/
def State.unacked (s : State) (op : FlitOp) : Bool := s.dev.ports.any fun p => p.2.window.any fun f => f.op == op

/-- A core's traffic to a device is about to move from another port on which flits of the core are not acknowledged (R424). -/
def State.elsewhere (s : State) (core dev p : Nat) : Bool :=
  (Tab.find s.dev.routes (core * 256 + dev)).any fun q => q != p && (s.port q).window.any fun f => f.core == core

/-- Flits that follow the last one sent. -/
def newFlits (seq core : Nat) (op : FlitOp) (n : Nat) : List Flit :=
  (List.range n).map fun i => ⟨(seq + i) % 2 ^ 16, core, op, 0⟩

/-- A port with `n` flits sent: they join the replay buffer and spend units (R314). -/
def Port.sent (x : Port) (core : Nat) (op : FlitOp) (n : Nat) : Port :=
  { x with seq := (x.seq + n) % 2 ^ 32, window := x.window ++ newFlits x.seq core op n, units := x.units - n }

/-- The audits that are due leave while units and replay buffer have room (R315). -/
def Port.audits (x : Port) : Nat → Port
  | 0 => x
  | n + 1 => match x.due with
    | [] => x
    | t :: ts => if x.units = 0 ∨ 512 ≤ x.window.length then x else ({ x.sent 0 (.audit t) 1 with due := ts }).audits n

/-- An operation's flits are sent over a port; how many there are is a free value. None while no port is up, units or
replay buffer lack room, or the core's flits on the port from which its traffic moves are not acknowledged (R314, R424;
log 4). -/
def State.sendFlits (s : State) (core dev : Nat) (op : FlitOp) : Option State :=
  let n := 1 + Config.choice 20 s.free 64 % 64
  match s.portFor core dev with
  | none => none
  | some p =>
    let x := s.port p
    if x.units < n ∨ 512 < x.window.length + n ∨ s.elsewhere core dev p then none
    else some (((s.updPort p fun x => x.sent core op n).updDev fun d => { d with
      routes := Tab.put d.routes (core * 256 + dev) p }).drew)

/-- A link note of a launch (R183, R304). -/
def State.noteLink (s : State) (launch : Nat) : State :=
  s.updLaunch launch fun l => { l with nlink := satAdd 8 l.nlink 1 }

/-- A port with a flit accepted and drained: its unit returns, and after every 4,096 an audit of the units returned is due
(R314, R315). -/
def Port.accept (x : Port) : Port :=
  let n := (x.accepted + 1) % 2 ^ 32
  let r := (x.returned + 1) % 2 ^ 32
  let y := { x with rseq := (x.rseq + 1) % 2 ^ 16, accepted := n, returned := r, asked := false }
  if n % 4096 = 0 then ({ y with due := y.due ++ [r] }).audits 1 else y

/-- EZLEY_FLIT_RECEIVE: the flit in sequence is accepted; one after a gap is discarded and a replay asked for; one whose
CRC fails is dropped (R314). -/
def execEzleyFlitReceive (port : Nat) (seq : BitVec 16) (good : Bool) (s : State) : Out :=
  .next (
    let x := s.port port
    if !x.up ∨ !good then s
    else if seq.toNat = x.rseq then
      s.updPort port Port.accept
    else s.updPort port fun x => { x with asked := true })

/-- EZLEY_ACK: a cumulative acknowledgement frees the flits up to a number and returns units, which never pass 512 (R314,
R395). -/
def execEzleyAck (port : Nat) (upTo : BitVec 16) (units : Nat) (s : State) : Out :=
  .next (
    let x := s.port port
    let left := if x.window.any fun f => f.seq == upTo.toNat then (x.window.dropWhile fun f => f.seq != upTo.toNat).drop 1
      else x.window
    if !x.up then s
    else s.updPort port fun x => ({ x with window := left, units := min 512 (x.units + units) }).audits x.due.length)

/-- EZLEY_AUDIT: the count of free units is corrected by the total that the receiver has returned (R315). -/
def execEzleyAudit (port : Nat) (returned : BitVec 32) (s : State) : Out :=
  .next (
    let x := s.port port
    let free := 512 - (x.seq + 2 ^ 32 - returned.toNat) % 2 ^ 32
    if !x.up ∨ x.units = free then s
    else s.updPort port fun x => ({ x with units := free, audit := satAdd 32 x.audit 1 }).audits x.due.length)

/-- A group's bit. -/
def groupBit (k : Nat) : BitVec 8 := 1#8 <<< k

/-- TH[k] of a port (R425). -/
def Port.threshold (x : Port) (k : Nat) : Nat := Tab.get 0 x.th k

/-- EZLEY_GROUP_WAKE: occupancy above TH[k] wakes group k (R425). -/
def execEzleyGroupWake (port k : Nat) (s : State) : Out :=
  .next (
    let x := s.port port
    if 1 ≤ k ∧ k ≤ 7 ∧ x.threshold k < x.window.length ∧ !(x.lit ||| x.waking).getLsbD k then
      s.updPort port fun x => { x with waking := x.waking ||| groupBit k }
    else s)

/-- EZLEY_GROUP_LIT: a waking group is lit 2 µs after it woke (R425). -/
def execEzleyGroupLit (port k : Nat) (s : State) : Out :=
  .next (if (s.port port).waking.getLsbD k then
      s.updPort port fun x => { x with waking := x.waking &&& ~~~(groupBit k), lit := x.lit ||| groupBit k }
    else s)

/-- EZLEY_GROUP_DARK: occupancy has stayed at or below TH[k] for DARK µs (R425). -/
def execEzleyGroupDark (port k : Nat) (s : State) : Out :=
  .next (
    let x := s.port port
    if 1 ≤ k ∧ k ≤ 7 ∧ x.window.length ≤ x.threshold k then
      s.updPort port fun x => { x with lit := x.lit &&& ~~~(groupBit k), waking := x.waking &&& ~~~(groupBit k) }
    else s)

/-- EZLEY_PORT_UP: a retrained port comes up anew and event 6 is raised (R422, R426). -/
def execEzleyPortUp (port : Nat) (s : State) : Out :=
  .next (if (s.port port).up ∨ port ≥ 16 then s
    else (s.updPort port fun x => { x with
      up := true, seq := 0, rseq := 0, window := [], units := 512, returned := 0, due := [], accepted := 0, asked := false }).event 6 6 port
        0xFF 0)

end Sys2Proof.Machine
end

