-- ==== Sys2Proof/Machine/Queues.lean ====
section
/-! DEFINITION. Register queues, yoke windows and remote-writable registers (R91, R98 to R108, R182 to R184, R289 to
R293, R380). -/

namespace Sys2Proof.Machine

/-! ### FIFOs -/

/-- A lane's empty FIFO. -/
def Fifo.blank : Fifo := ⟨0, 0, 0, []⟩

/-- The key of a lane's FIFO. -/
def fifoKey (q l : Nat) : Nat := q * 32 + l

/-- A lane's FIFO. -/
def Wave.fifo (w : Wave) (q l : Nat) : Fifo := Tab.get Fifo.blank w.fifos (fifoKey q l)

/-- Free positions of a lane's FIFO of depth `d`: those neither filled nor kept by an open scope (R292). -/
def Fifo.free (f : Fifo) (d : Nat) : Nat := d - f.count - f.held

/-- The register of a FIFO's position. -/
def QSlot.reg (s : QSlot) (pos : Nat) : Nat := s.base + pos % s.depth

/-- The wave with a value appended to a lane's FIFO. -/
def Wave.push (w : Wave) (q : Nat) (s : QSlot) (l : Nat) (v : Word) : Wave :=
  let f := w.fifo q l
  let w1 := w.put1 1 (s.reg (f.head + f.count)) l v
  { w1 with fifos := Tab.put w1.fifos (fifoKey q l) { f with count := f.count + 1 } }

/-- The head entry of a lane's FIFO. -/
def Wave.head (w : Wave) (q : Nat) (s : QSlot) (l : Nat) : Word := w.word (s.reg (w.fifo q l).head) l

/-- The wave with a lane's head entry popped: inside a scope its position stays occupied (R292). -/
def Wave.pop (w : Wave) (q : Nat) (s : QSlot) (l : Nat) (scope : Bool) : Wave :=
  let f := w.fifo q l
  let f' := { f with head := (f.head + 1) % s.depth, count := f.count - 1, held := if scope then f.held + 1 else 0 }
  { w with fifos := Tab.put w.fifos (fifoKey q l) f' }

/-- A block has yokemates (R19, R302). -/
def State.yoked (s : State) (blk : Nat) : Bool := !(s.block blk).spawned && (s.lpb blk).flags % 2 == 1

/-- Slot 0 of a wave is a yoke window (R100). -/
def State.yokeWindow (s : State) (k q : Nat) : Bool :=
  q == 0 && decide ((s.wave k).wib < 32) && s.yoked (s.wave k).block

/-! ### QCFG -/

/-- QUEUE, with TADDR where R99 gives the register. -/
def Iss.queueFault (i : Iss) (mask : Mask) : Eff := i.raise .queue none mask

/-- A wave's queue slot configured, every FIFO empty (R289). -/
def Wave.configure (w : Wave) (q base depth : Nat) : Wave :=
  { w with
    queues := Tab.put w.queues q ⟨base, depth⟩
    fifos := Tab.sub w.fifos fun n _ => n / 32 != q }

/-- A wave's queue slot released: its range reads zero, P, E and X clear (R289). -/
def Wave.release (w : Wave) (q : Nat) (s : QSlot) : Wave :=
  let rs := (List.range s.depth).map (s.base + ·)
  let w1 := w.putWords 1 (rs.flatMap fun r => (List.range 32).map fun l => (r, l, 0))
  { w1 with
    pend := Tab.sub w1.pend fun r _ => !rs.contains r
    expt := Tab.sub w1.expt fun r _ => !rs.contains r
    queues := Tab.del w1.queues q
    fifos := Tab.sub w1.fifos fun n _ => n / 32 != q }

/-- QCFG (R289). -/
def execQcfg (h : Hdr) (q : BitVec 2) (base : Reg) (dm1 : BitVec 6) (s : State) : Out :=
  let rs := runOf base (dm1.toNat + 1)
  issue s { h := h, srcs := [], dsts := [], names := rs } fun i =>
    let pend := fun r => Tab.get 0 i.w.pend r &&& i.w.live
    let expt := fun r => Tab.get 0 i.w.expt r &&& i.w.live
    if i.idle then .done i.t
    else if Tab.has i.w.queues q.toNat || i.s.yokeWindow i.k q.toNat || rs.any (fun r => expt r != 0) ||
      decide (i.b.depth ≠ 0) then i.queueFault i.act
    else if rs.any fun r => pend r != 0 then .stall
    else .done (i.t.updWave i.k fun w => w.configure q.toNat base.toNat (dm1.toNat + 1))

/-- QCFG.rel (R289). -/
def execQcfgRel (h : Hdr) (q : BitVec 2) (s : State) : Out :=
  issue s { h := h, srcs := [], dsts := [] } fun i =>
    if i.idle then .done i.t
    else match Tab.find i.w.queues q.toNat with
      | none => i.queueFault i.act
      | some sl =>
        if i.s.yokeWindow i.k q.toNat || decide (i.b.depth ≠ 0) then i.queueFault i.act
        else if (List.range sl.depth).any fun n => Tab.get 0 i.w.pend (sl.base + n) &&& i.w.live != 0 then .stall
        else .done (i.t.updWave i.k fun w => w.release q.toNat sl)

/-! ### QPOP -/

/-- The first pop of a slot in a scope records every lane's head and count (R292, R377). -/
def State.recordFifos (s : State) (k q : Nat) : State :=
  let w := s.wave k
  s.record w.block w.wib (.fifo k q) (.fifo ((List.range 32).map fun l => w.fifo q l))

/-- Entries popped in lanes. -/
def State.popLanes (s : State) (k q : Nat) (sl : QSlot) (ls : List Nat) : State :=
  let scope := decide ((s.block (s.wave k).block).depth ≠ 0)
  (s.recordFifos k q).updWave k fun w => ls.foldl (fun w l => w.pop q sl l scope) w

/-- The register that holds the head entry of a lane's FIFO. -/
def Wave.headReg (w : Wave) (q : Nat) (s : QSlot) (l : Nat) : Nat := s.reg (w.fifo q l).head

/-- The registers whose words a pop reads in lanes, and the lanes that read each. -/
def Wave.headLanes (w : Wave) (q : Nat) (s : QSlot) (ls : List Nat) : List (Nat × Mask) :=
  ((ls.map fun l => w.headReg q s l).eraseDups).map fun r => (r, Mask.of fun l => ls.contains l && w.headReg q s l == r)

/-- UNCORRECTABLE, then POISON, on the entries that a pop reads: the register that comes first, and its lanes (R92, R291;
log 64). -/
def Wave.badHeads (w : Wave) (hs : List (Nat × Mask)) : Option FaultInfo :=
  ((hs.findSome? fun h => (w.badRead h.2 [h.1]).filter fun f => f.cause == .uncorrectable)).orElse fun _ =>
    hs.findSome? fun h => w.badRead h.2 [h.1]

/-- The entries of a pop read: a bad one of a popping lane faults, a word found bad in another lane is marked (R92). -/
def Iss.readHeads (i : Iss) (q : Nat) (sl : QSlot) (ls : List Nat) (go : State → Eff) : Eff :=
  let hs := i.w.headLanes q sl ls
  let settle := fun (s : State) => hs.foldl (fun s h => s.settleEcc i.k h.2 [h.1]) s
  match i.w.badHeads hs with
  | some f => .fault (settle i.s) f
  | none => go (settle i.t)

/-- The slot of a pop, or QUEUE (R291). -/
def Iss.popSlot (i : Iss) (q : Nat) (go : QSlot → Eff) : Eff :=
  if i.idle then .done i.t
  else match Tab.find i.w.queues q with
    | none => i.queueFault i.act
    | some sl => go sl

/-- QPOP (R291, R292). -/
def execQpop (h : Hdr) (d : Reg) (q : BitVec 2) (s : State) : Out :=
  issue s { h := h, srcs := [], dsts := [d.toNat] } fun i => i.popSlot q.toNat fun sl =>
    let empty := Mask.of fun l => i.act.getLsbD l && decide ((i.w.fifo q.toNat l).count = 0)
    if empty = 0 then
      i.readHeads q.toNat sl i.lanes fun t =>
        i.later (t.popLanes i.k q.toNat sl i.lanes) (i.each d.toNat fun l => i.w.head q.toNat sl l)
    else if i.s.yokeWindow i.k q.toNat && (i.s.waveIn i.blk (i.w.wib + 32)).isNone then i.queueFault empty
    else .stall

/-- QPOP.try (R291, R292). -/
def execQpopTry (h : Hdr) (d p : Reg) (q : BitVec 2) (s : State) : Out :=
  issue s { h := h, srcs := [], dsts := [d.toNat, p.toNat] } fun i => i.popSlot q.toNat fun sl =>
    let has := fun l => decide ((i.w.fifo q.toNat l).count ≠ 0)
    i.readHeads q.toNat sl (i.lanes.filter has) fun t =>
      i.later (t.popLanes i.k q.toNat sl (i.lanes.filter has))
        (i.each d.toNat (fun l => if has l then i.w.head q.toNat sl l else 0) ++
         i.each p.toNat fun l => if has l then 1 else 0)

/-! ### Sends -/

/-- The target lanes and values of a send: of several lanes with one target the highest supplies it (R183, R290). -/
def Iss.sendVals (i : Iss) (wide : Bool) (b : Reg) (c : Option Reg) : Tab DWord :=
  i.lanes.foldl (fun t l =>
    let at_ := c.elim l fun r => (i.rd r.toNat l).toNat % 32
    Tab.put t at_ (if wide then i.rd2 b.toNat l else (i.rd b.toNat l).setWidth 64)) []

/-- The own part of RSEND and QSEND: one arrival leaves (R103, R183, R290). -/
def Iss.send (i : Iss) (queue wide : Bool) (d a b : Reg) (c : Option Reg) (off : Nat) : Eff :=
  if i.idle then .done i.t
  else i.uniform (i.differ fun l => i.rd2 a.toNat l) (i.afterPublish (
    let vals := i.sendVals wide b c
    let lanes := Mask.of fun l => Tab.has vals l
    let (id, t) := (i.t.pendWords i.k (i.lanes.map fun l => (d.toNat, l))).named
    let x : Arrival :=
      ⟨i.k, i.core, i.w.ctx, i.s.dev.id, i.low2 a, queue, c.isSome, wide, off, lanes, vals, d.toNat, i.act, none, i.b.depth, false⟩
    .done (t.updFly fun f => { f with arrivals := Tab.put f.arrivals id x })))

/-- The value registers of a send. -/
def valRegs (wide : Bool) (b : Reg) : List Nat := if wide then pairOf b else [b.toNat]

/-- QSEND (R290). -/
def execQsend (h : Hdr) (d a b : Reg) (s : State) : Out :=
  issue s { h := h, srcs := pairOf a ++ [b.toNat], dsts := [d.toNat] } fun i => i.send true false d a b none 0

/-- QSEND.idx (R290). -/
def execQsendIdx (h : Hdr) (d a b c : Reg) (s : State) : Out :=
  issue s { h := h, srcs := pairOf a ++ [b.toNat, c.toNat], dsts := [d.toNat] } fun i => i.send true false d a b (some c) 0

/-- QSEND.yoke: it stalls while the wave's earlier push is held (R293). -/
def execQsendYoke (h : Hdr) (d b : Reg) (s : State) : Out :=
  issue s { h := h, srcs := [b.toNat], dsts := [d.toNat] } fun i =>
    if i.idle then .done i.t
    else if i.w.wib < 32 then i.queueFault i.act
    else match i.s.waveIn i.blk (i.w.wib - 32) with
      | none => .stall
      | some c =>
        if i.s.fly.pushes.any fun p => p.2.yoke == i.k then .stall
        else i.afterPublish (
          let (id, t) := (i.t.pendWords i.k (i.lanes.map fun l => (d.toNat, l))).named
          let vals := i.lanes.foldl (fun m l => Tab.put m l (i.rd b.toNat l)) []
          let x : YokePush := ⟨i.k, c, i.act, vals, d.toNat, i.b.depth⟩
          .done (t.updFly fun f => { f with pushes := Tab.put f.pushes id x }))

/-- RSEND (R183). -/
def execRsend (h : Hdr) (wide : Bool) (d a b : Reg) (off : BitVec 8) (s : State) : Out :=
  issue s { h := h, srcs := pairOf a ++ valRegs wide b, dsts := [d.toNat] } fun i => i.send false wide d a b none off.toNat

/-- RSEND.idx (R183). -/
def execRsendIdx (h : Hdr) (wide : Bool) (d a b c : Reg) (off : BitVec 8) (s : State) : Out :=
  issue s { h := h, srcs := pairOf a ++ valRegs wide b ++ [c.toNat], dsts := [d.toNat] } fun i =>
    i.send false wide d a b (some c) off.toNat

/-! ### EXPECT -/

/-- Words set expecting (R91). -/
def Wave.expect (w : Wave) (ws : List (Nat × Nat)) : Wave :=
  let w1 := w.pendWords ws
  { w1 with expt := ws.foldl (fun t x => Tab.set 0 t x.1 (setBit (Tab.get 0 t x.1) x.2)) w1.expt }

/-- EXPECT (R182). -/
def execExpect (h : Hdr) (d : Reg) (nm1 : BitVec 8) (s : State) : Out :=
  let rs := runOf d (nm1.toNat + 1)
  issue s { h := h, srcs := [], dsts := [], names := rs } fun i =>
    let owed := fun r => Tab.get 0 i.w.pend r &&& ~~~(Tab.get 0 i.w.expt r) &&& i.act
    let ws := rs.flatMap fun r => i.lanes.map fun l => (r, l)
    if rs.any fun r => owed r != 0 then .stall
    else .done ((i.t.recordWords i.k ws).updWave i.k fun w => w.expect ws)

/-! ### Arrivals -/

/-- The outcome codes of R102. -/
def outDelivered : Nat := 0
/-- REPLACED. -/
def outReplaced : Nat := 1
/-- OVERWRITE. -/
def outOverwrite : Nat := 2
/-- CAPABILITY. -/
def outCapability : Nat := 3
/-- GONE. -/
def outGone : Nat := 4
/-- FULL. -/
def outFull : Nat := 5

/-- The device whose index ranges hold an index (R354). -/
def State.rangeOf (s : State) (index : Nat) : Option Nat :=
  (s.dev.ranges.find? fun r => decide (r.1 ≤ index) && decide (index < r.1 + r.2.1)).map fun r => r.2.2

/-- A sender's context is allowed by an entry (R353). -/
def Cap.allows (c : Cap) (ctx : Nat) (local_ : Bool) : Bool :=
  if c.scope = 0 then local_ && c.ctx == ctx else if c.scope = 1 then local_ else c.scope == 2

/-- The wave that lives under a handle. -/
def State.waveOf (s : State) (h : Word) : Option Nat := (s.waves.find? fun p => p.2.handle == h).map Prod.fst

/-- The entry that an arrival's capability names, after check 1 of R102. -/
def State.capOf (s : State) (a : Arrival) : Option Cap :=
  let n := handleLow a.cap
  match Tab.find s.dev.caps n with
  | none => none
  | some c =>
    if c.live ∧ c.gen = handleGen a.cap ∧ handleTag a.cap = s.tag .cap n c.gen c.ctx ∧
      c.allows a.ctx (a.dev == s.dev.id) then some c else none

/-- The target registers of an arrival into a register range. -/
def Arrival.regs (a : Arrival) (c : Cap) : List Nat :=
  let r := c.first + a.off
  if a.wide then [r, r + 1] else [r]

/-- Check 2 of R102 for a register range: rights, range, lanes, pair alignment, queue ranges. -/
def regAllowed (a : Arrival) (c : Cap) (w : Option Wave) : Bool :=
  let rs := a.regs c
  c.kind == 1 && (if a.idx then c.rights / 2 % 2 == 1 else c.rights % 2 == 1) && a.lanes &&& ~~~c.lanes == 0 &&
  rs.all (fun r => decide (r ≤ c.first + c.count)) && (!a.wide || rs.headD 0 % 2 == 0) &&
  rs.all fun r => (w.bind fun w => w.queueAt r).isNone

/-- The state of the target words (R91, R104): any clear, any local-pending. -/
def Wave.anyClear (w : Wave) (m : Mask) (rs : List Nat) : Bool := rs.any fun r => m &&& ~~~(Tab.get 0 w.pend r) != 0
/-- A target word is local-pending. -/
def Wave.anyLocal (w : Wave) (m : Mask) (rs : List Nat) : Bool :=
  rs.any fun r => m &&& Tab.get 0 w.pend r &&& ~~~(Tab.get 0 w.expt r) != 0

/-- The words that an arrival writes. -/
def Arrival.words (a : Arrival) (c : Cap) : List (Nat × Nat × Word) :=
  (a.regs c).zipIdx.flatMap fun r => (Mask.lanes a.lanes).map fun l =>
    (r.1, l, (Tab.get 0 a.vals l).extractLsb' (32 * r.2) 32)

/-- A record of a word that an external arrival lands on keeps the arrival (R380). -/
def keepArrival (k : Nat) (ws : List (Nat × Nat × Word)) (x : PRec) : PRec :=
  match x.loc with
  | .reg k' r l =>
    if k' = k then match ws.find? fun y => y.1 == r && y.2.1 == l with
      | some y => { x with val := .reg y.2.2 false false false, kept := true }
      | none => x
    else x
  | _ => x

/-- An arrival's words land: recorded at the capability's depth, or kept through a rollback; one that is delivered clears P
and E, one that replaces leaves them (R104, R107, R380). -/
def State.landArrival (s : State) (k : Nat) (c : Cap) (ws : List (Nat × Nat × Word)) (delivered : Bool) : State :=
  let w := s.wave k
  let s1 :=
    if c.rlv ≥ 1 then ws.foldl (fun s x => s.recordAt w.block w.wib c.rlv (.reg k x.1 x.2.1) (w.wordRec x.1 x.2.1)) s
    else s.updRcv w.block fun r => { r with recs := r.recs.map (keepArrival k ws) }
  let s2 := s1.updWave k fun w =>
    let w1 := w.putWords 1 ws
    if !delivered then w1 else { w1 with
      pend := ws.foldl (fun t x => Tab.set 0 t x.1 (clrBit (Tab.get 0 t x.1) x.2.1)) w1.pend
      expt := ws.foldl (fun t x => Tab.set 0 t x.1 (clrBit (Tab.get 0 t x.1) x.2.1)) w1.expt }
  s2.updBlock w.block fun b => { b with arrived := b.arrived || b.st == .saved }

/-- The target owes an OVERWRITE fault (R105, R459). -/
def State.oweOverwrite (s : State) (k reg : Nat) (m : Mask) : State :=
  s.owe k ⟨.overwrite, BitVec.ofNat 64 reg, m, 0, false, 0⟩

/-- AN ARRIVAL INTO REGISTERS at its target: check 4 of R102 (R104, R105). -/
def State.arriveReg (s : State) (a : Arrival) (c : Cap) (k : Nat) : State × Nat :=
  let w := s.wave k
  let rs := a.regs c
  let pol := c.policy
  if w.anyLocal a.lanes rs then
    (if pol = 2 then s.oweOverwrite k (rs.headD 0) a.lanes else s, outOverwrite)
  else if w.anyClear a.lanes rs then
    if pol = 1 then (s.landArrival k c (a.words c) false, outReplaced)
    else (if pol = 2 then s.oweOverwrite k (rs.headD 0) a.lanes else s, outOverwrite)
  else (s.landArrival k c (a.words c) true, outDelivered)

/-- AN ARRIVAL INTO A QUEUE at its target (R104, R290). -/
def State.arriveQueue (s : State) (a : Arrival) (q k : Nat) (sl : QSlot) : State × Nat :=
  let w := s.wave k
  let ls := Mask.lanes a.lanes
  if ls.any fun l => decide ((w.fifo q l).free sl.depth = 0) then (s, outFull)
  else
    ((s.updWave k fun w => ls.foldl (fun w l => w.push q sl l ((Tab.get 0 a.vals l).setWidth 32)) w).updBlock w.block
      fun b => { b with arrived := b.arrived || b.st == .saved }, outDelivered)

/-- The four checks of an arrival, in order, and its effect (R102). -/
def State.applyArrival (s : State) (a : Arrival) : State × Nat :=
  match s.capOf a with
  | none => (s, outCapability)
  | some c =>
    let k := s.waveOf c.owner
    let live := fun k => a.lanes &&& ~~~(s.wave k).live == 0
    if a.queue then
      if c.kind ≠ 2 || a.lanes &&& ~~~c.lanes != 0 || (k.any fun k => s.yokeWindow k c.first) then (s, outCapability)
      else match k with
        | none => (s, outGone)
        | some k => match Tab.find (s.wave k).queues c.first with
          | none => (s, outGone)
          | some sl => if live k then s.arriveQueue a c.first k sl else (s, outGone)
    else if !regAllowed a c (k.map s.wave) then (s, outCapability)
    else match k with
      | none => (s, outGone)
      | some k => if live k then s.arriveReg a c k else (s, outGone)

/-- The core to which an arrival goes: that of the wave that its capability names. -/
def State.arrivalCore (s : State) (a : Arrival) : Option Nat :=
  (Tab.find s.dev.caps (handleLow a.cap)).bind fun c => (s.waveOf c.owner).map fun k => (s.block (s.wave k).block).core

/-- The messages of cluster networks not yet delivered: name, source core, destination core (R295). -/
def State.messages (s : State) : List (Nat × Nat × Nat) :=
  (s.fly.arrivals.filterMap fun p =>
    if p.2.outcome.isNone && p.2.dev == s.dev.id then (s.arrivalCore p.2).map fun d => (p.1, p.2.src, d) else none) ++
  s.fly.frees.map fun p => (p.1, p.2.src, (s.block p.2.block).core)

/-- A message that is no earlier than `id` waits: an earlier one of its source core to its destination core is not yet
delivered, or 64 earlier ones fill the inbound queue of the destination core (R288, R295). -/
def State.messageWaits (s : State) (id src dst : Nat) : Bool :=
  src / 8 == dst / 8 && (let before := s.messages.filter fun m => decide (m.1 < id) && m.2.2 == dst
    decide (64 ≤ before.length) || before.any fun m => m.2.1 == src)

/-- An earlier arrival of the same thread through the same capability waits, or its cluster's network holds it back (R106,
R295). -/
def State.arrivalWaits (s : State) (id : Nat) (a : Arrival) : Bool :=
  (s.fly.arrivals.any fun p => decide (p.1 < id) && p.2.outcome.isNone && p.2.dev == a.dev && p.2.wave == a.wave && p.2.cap == a.cap &&
    p.2.tokLanes &&& a.tokLanes != 0) ||
  (a.dev == s.dev.id && (s.arrivalCore a).any fun d => s.messageWaits id a.src d)

/-- An arrival for another device: its flits leave through a port; once they are acknowledged, the outcome that the
target reports is a free value (R102, R314, R354, R424; log 4). -/
def State.sendArrival (s : State) (id : Nat) (a : Arrival) (dev : Nat) : State :=
  if !a.sent then
    match s.sendFlits a.src dev (.arrival id) with
    | none => s
    | some s1 => s1.updFly fun f => { f with arrivals := Tab.upd f.arrivals id fun x => { x with sent := true } }
  else if s.unacked (.arrival id) then s
  else (s.updFly fun f => { f with arrivals := Tab.upd f.arrivals id fun x =>
    { x with outcome := some (Config.choice 8 s.free 6 % 6) } }).drew

/-- AN ARRIVAL REACHES ITS TARGET, or leaves for the device that holds it (R102 to R108, R354). -/
def execRemoteArrival (id : Nat) (s : State) : Out :=
  .next (match Tab.find s.fly.arrivals id with
    | none => s
    | some a =>
      if a.outcome.isSome || s.arrivalWaits id a then s
      else
        let done := fun (p : State × Nat) =>
          p.1.updFly fun f => { f with arrivals := Tab.upd f.arrivals id fun x => { x with outcome := some p.2 } }
        match s.rangeOf (handleLow a.cap) with
        | none => done (s, outCapability)
        | some dev => if dev = s.dev.id then done (s.applyArrival a) else s.sendArrival id a dev)

/-- AN ARRIVAL'S OUTCOME REACHES THE SENDER: its code is written into the token, or its flits leave for the sender's device
from the core of the target wave, core 0 where none lives, once they can be sent (R102, R183, R424; log 66). -/
def execArrivalOutcome (id : Nat) (s : State) : Out :=
  .next (match Tab.find s.fly.arrivals id with
    | none => s
    | some a => match a.outcome with
      | none => s
      | some o =>
        let gone := fun (s : State) => s.updFly fun f => { f with arrivals := Tab.del f.arrivals id }
        if a.dev = s.dev.id then (gone s).landToken a.wave a.token a.tokLanes (BitVec.ofNat 32 o)
        else ((s.sendFlits ((s.arrivalCore a).getD 0) a.dev .reply).map gone).getD s)

/-- Free slots for a gang member (R262). -/
def Block.free (b : Block) (g : Nat) : Nat := Tab.get 4 b.slots g

/-- A slot returned, at most 4 (R262). -/
def Block.giveSlot (b : Block) (g : Nat) : Block := { b with slots := Tab.set 4 b.slots g (min 4 (b.free g + 1)) }

/-- A CPYQ.FREE REACHES ITS CORE, in the order of the cluster's network: a free slot returns (R262, R295). -/
def State.freeArrives (s : State) (id : Nat) : State :=
  match Tab.find s.fly.frees id with
  | none => s
  | some m =>
    if s.messageWaits id m.src (s.block m.block).core then s
    else (s.updFly fun f => { f with frees := Tab.del f.frees id }).updBlock m.block fun b => b.giveSlot m.slot

/-- A message of one core to another of its cluster that leaves now waits: an earlier one is not yet delivered (R295). -/
def State.networkBusy (s : State) (src dst : Nat) : Bool := s.messageWaits (s.serial + 1) src dst

/-- A HELD PUSH OF A YOKEMATE LANDS once every remaining target lane has a free position (R293, R387). -/
def execYokePushLand (id : Nat) (s : State) : Out :=
  .next (match Tab.find s.fly.pushes id with
    | none => s
    | some p =>
      let w := s.wave p.compute
      match Tab.find w.queues 0 with
      | none => s
      | some sl =>
        let ls := (Mask.lanes p.lanes).filter fun l => w.live.getLsbD l
        if ls.any fun l => decide ((w.fifo 0 l).free sl.depth = 0) then s
        else
          let s1 := s.updWave p.compute fun w => ls.foldl (fun w l =>
            let w1 := w.push 0 sl l (Tab.get 0 p.vals l)
            if p.depth = 0 then w1
            else
              let f := w1.fifo 0 l
              let f' := { f with pushed := Tab.put f.pushed p.depth (Tab.get 0 f.pushed p.depth + 1) }
              { w1 with fifos := Tab.put w1.fifos (fifoKey 0 l) f' }) w
          (s1.updFly fun f => { f with pushes := Tab.del f.pushes id }).landToken p.yoke p.token p.lanes 0)

end Sys2Proof.Machine
end

