-- ==== Sys2Proof/Machine/Place.lean ====
section
/-! DEFINITION. What a block needs of a core and the tests of placement (R11, R13, R15, R17, R185, R189 to R191, R196,
R316 to R323). -/

namespace Sys2Proof.Machine

/-- What a block needs of a core: wave slots, register bytes, scratch granules, and bytes of w, a and c. -/
structure Shape where
  slots : Nat
  regs : Nat
  scratch : Nat
  w : Nat
  a : Nat
  c : Nat
  deriving DecidableEq, Repr

/-- A number rounded up to a multiple. -/
def roundUp (n m : Nat) : Nat := (n + m - 1) / m * m

/-- What each block of a launch needs (R11, R19, R185). -/
def Lpb.shape (l : Lpb) : Shape :=
  let yoke := l.flags % 2 == 1
  ⟨l.waves * (if yoke then 2 else 1), l.waves * l.regs * 128 + (if yoke then l.waves * (l.yokeRegs * 8) * 128 else 0),
    roundUp l.scratch 4096 / 4096, roundUp l.wbuf 16384, roundUp l.abuf 16384, roundUp l.cbuf 65536⟩

/-- What a spawned child needs (R301, R302). -/
def childShape (waves regs scratch : Nat) : Shape := ⟨waves, waves * regs * 128, roundUp scratch 4096 / 4096, 0, 0, 0⟩

/-- What a block needs. -/
def State.shapeOf (s : State) (blk : Nat) : Shape :=
  let b := s.block blk
  if b.spawned then childShape b.nwaves b.foot b.s.size else (s.lpb blk).shape

/-- Two needs together. -/
def Shape.add (x y : Shape) : Shape :=
  ⟨x.slots + y.slots, x.regs + y.regs, x.scratch + y.scratch, x.w + y.w, x.a + y.a, x.c + y.c⟩

/-- A need lies within a supply. -/
def Shape.within (x y : Shape) : Bool :=
  decide (x.slots ≤ y.slots) && decide (x.regs ≤ y.regs) && decide (x.scratch ≤ y.scratch) && decide (x.w ≤ y.w) &&
  decide (x.a ≤ y.a) && decide (x.c ≤ y.c)

/-- The scratch ways in which a core may allocate (R196, R249). -/
def Core.scratchWays (c : Core) : BitVec 16 := c.sways.foldl (fun m x => m &&& x.ways) c.scratch

/-- What an empty core of a way split has (R8, R11, R185, R196). -/
def emptyCore (ways : BitVec 16) : Shape := ⟨64, 2 ^ 21, 16 * ones 16 ways, 2 ^ 21, 2 ^ 20, 2 ^ 19⟩

/-- What the blocks named use of their core. -/
def State.used (s : State) (bs : List Nat) : Shape := bs.foldl (fun x b => x.add (s.shapeOf b)) ⟨0, 0, 0, 0, 0, 0⟩

/-- A need that no empty core of the device meets (R15, R302). -/
def State.tooBig (s : State) (x : Shape) : Bool :=
  !(x.within (emptyCore Core.reset.scratch) && decide (s.cores.length < 256)) &&
  !(s.cores.any fun c => x.within (emptyCore c.2.scratchWays))

/-- A core serves a context's blocks (R316). -/
def State.eligible (s : State) (ctx core : Nat) : Bool := (s.ctx ctx).cores.getLsbD core

/-- Test 1 of R320: the room of a core, without the blocks that would leave it. -/
def State.fits (s : State) (blk core : Nat) (leaving : List Nat) : Bool :=
  let stay := (s.blocksOn core).filter fun b => !leaving.contains b
  ((s.used stay).add (s.shapeOf blk)).within (emptyCore (s.core core).scratchWays) && decide (stay.length < 32)

/-- Test 2 of R320: the pool of the launch's class, and no cap. -/
def State.inPool (s : State) (blk core : Nat) : Bool :=
  (s.cluster (core / 8)).pool == (s.lpb blk).opclass && !(s.core core).capped

/-- The band of a temperature in units of 1/16 degree (R189). -/
def bandOf (t : Int) : Nat := if t ≤ 1040 then 0 else if t ≤ 1200 then 1 else if t ≤ 1360 then 2 else if t ≤ 1520 then 3 else 4

/-- Waves that a block adds to a core: of a Saved one those that still live (R321). -/
def State.wavesNeeded (s : State) (blk : Nat) : Nat :=
  let b := s.block blk
  if b.st = .offered then (s.shapeOf blk).slots else b.waves.length

/-- The band that the scheduler predicts for the vault above a core (R321). -/
def State.predicted (s : State) (blk core : Nat) (leaving : List Nat) : Nat :=
  let l := s.lpb blk
  let d := (Tab.get 0 s.dev.heat (4 * l.opclass + l.heatClass)).toNat % 256
  let gone : Nat := (leaving.map s.wavesNeeded).foldl (· + ·) 0
  let v := s.vault core
  max v.band (bandOf (v.temp + (d : Int) * ((s.wavesNeeded blk : Int) - (gone : Int))))

/-- Test 3 of R320: the refresh ceiling (R191). -/
def State.coolEnough (s : State) (blk core : Nat) (leaving : List Nat) : Bool :=
  let b := s.predicted blk core leaving
  decide (b ≤ (s.vault core).ceiling) && decide (b < 4)

/-- A waiting block for which test 3 only ranks its candidates: Offered for 50 µs (R323). -/
def Block.relieved (b : Block) : Bool := decide (50 ≤ b.waited)

/-- The first of tests 1 to 3 that a block fails on a core (R320, R323). -/
def State.failing (s : State) (blk core : Nat) : Option Nat :=
  if !s.fits blk core [] then some 1
  else if !s.inPool blk core then some 2
  else if !s.coolEnough blk core [] && !(s.block blk).relieved then some 3
  else none

/-- A launch is a gang launch (R17, R299). -/
def Lpb.gang (l : Lpb) : Bool := l.flags / 32 % 2 == 1

/-- The flag that lets a launch's blocks be pre-empted or migrated (R299). -/
def Lpb.preemptible (l : Lpb) : Bool := l.flags / 8 % 2 == 1

/-- The base priority of a block's launch (R316). -/
def State.basePriority (s : State) (blk : Nat) : Nat := min (s.lpb blk).priority (s.ctx (s.block blk).ctx).pceil

/-- The effective priority of an offered block (R317). -/
def State.effective (s : State) (blk : Nat) : Nat := min 23 (s.basePriority blk + (s.block blk).ticks)

end Sys2Proof.Machine
end

