-- ==== Sys2Proof/Machine/Tasks.lean ====
section
/-! DEFINITION. Capabilities, launching and spawning, the work heap (R15, R21, R250 to R253, R298, R300 to R302, R308 to
R312, R353 to R357). -/

namespace Sys2Proof.Machine

/-! ### Capabilities -/

/-- An index that a device may allocate: in its own ranges, not 0, free (R353, R354). -/
def State.capFree (s : State) (n : Nat) : Bool :=
  n != 0 && s.rangeOf n == some s.dev.id && (Tab.get Cap.reset s.dev.caps n).kind == 0

/-- The lowest index that the device may allocate. -/
def State.lowestFree (s : State) : Option Nat :=
  ((s.dev.ranges.filter fun r => r.2.2 == s.dev.id).filterMap fun r =>
    ((List.range (min r.2.1 (s.dev.caps.length + 2))).find? fun i => s.capFree (r.1 + i)).map (r.1 + ·)).head?

/-- The index that a GRANT takes: which free one the spec leaves open, and the free constant `Config.choice` names it
(R356; log 4). -/
def State.takeIndex (s : State) : Option Nat :=
  let n := Config.choice 6 s.free (2 ^ 20) % 2 ^ 20
  if s.capFree n then some n else s.lowestFree

/-- A capability entry made for a wave; the capability, 0 when refused (R353, R356). -/
def State.grant (s : State) (k kind rights policy first count scope : Nat) (lanes : Mask) : State × DWord :=
  let w := s.wave k
  let c := s.ctx w.ctx
  if c.caps ≥ c.capq then (s, 0)
  else match s.takeIndex with
    | none => (s, 0)
    | some n =>
      let gen := (Tab.get Cap.reset s.dev.caps n).gen
      let e : Cap := ⟨w.handle, gen, kind, rights, policy, first, count, scope, lanes, w.ctx, (s.block w.block).depth⟩
      let s1 := s.updDev fun d => { d with caps := Tab.put d.caps n e }
      (s1.updCtx w.ctx fun c => { c with caps := c.caps + 1 }, handleOf (s.tag .cap n gen w.ctx) gen n)

/-- The own part of GRANT (R356). -/
def Iss.grant (i : Iss) (d a : Reg) (kind rights policy first count scope : Nat) : Eff :=
  if i.idle then .done i.t
  else i.uniform (i.differ fun l => i.rd a.toNat l) (
    let (t, cap) := i.t.grant i.k kind rights policy first count scope (i.rd a.toNat i.low)
    i.later t (i.each2 d.toNat fun _ => cap))

/-- GRANT.reg (R356). -/
def execGrantReg (h : Hdr) (d a : Reg) (first cm1 : BitVec 8) (send idx : Bool) (pol scope : BitVec 2) (s : State) : Out :=
  issue s { h := h, srcs := [a.toNat], dsts := pairOf d, spans := runOf first (cm1.toNat + 1) } fun i =>
    i.grant d a 1 (send.toNat + 2 * idx.toNat) pol.toNat first.toNat cm1.toNat scope.toNat

/-- GRANT.q (R356). -/
def execGrantQ (h : Hdr) (d a : Reg) (slot : BitVec 2) (pol scope : BitVec 2) (s : State) : Out :=
  issue s { h := h, srcs := [a.toNat], dsts := pairOf d } fun i =>
    i.grant d a 2 4 pol.toNat slot.toNat 0 scope.toNat

/-- A capability that a context may revoke here (R357). -/
def State.revocable (s : State) (ctx : Nat) (cap : DWord) : Bool :=
  let n := handleLow cap
  match Tab.find s.dev.caps n with
  | none => false
  | some c => c.live && c.gen == handleGen cap && handleTag cap == s.tag .cap n c.gen c.ctx && c.ctx == ctx

/-- One entry revoked (R355). -/
def State.revokeIndex (s : State) (n : Nat) : State :=
  match Tab.find s.dev.caps n with
  | none => s
  | some c =>
    let s1 := s.updDev fun d => { d with caps := Tab.put d.caps n c.bumped }
    s1.updCtx c.ctx fun x => { x with caps := x.caps - 1 }

/-- A revocation leaves for the device that holds its capability; once its flits are acknowledged the status that the device
answers, a free value, returns (R357; log 4). -/
def State.revokeGoes (s : State) (id : Nat) : State :=
  match Tab.find s.fly.revokes id with
  | none => s
  | some x =>
    if !x.sent then
      match s.sendFlits x.src x.dev (.revoke id) with
      | none => s
      | some t => t.updFly fun f => { f with revokes := Tab.upd f.revokes id fun y => { y with sent := true } }
    else if s.unacked (.revoke id) then s
    else
      let t := s.updFly fun f => { f with revokes := Tab.del f.revokes id }
      (t.landToken x.wave x.token x.lanes (BitVec.ofNat 32 (Config.choice 10 s.free 2 % 2))).drew

/-- Another device's REVOKE of a capability of this one; its answer leaves from core 0 (R357; log 66). -/
def State.foreignRevoke (s : State) (cap : DWord) (ctx src : Nat) : State :=
  if src = s.dev.id then s
  else match s.sendFlits 0 src .reply with
    | none => s
    | some t => if t.revocable ctx cap then t.revokeIndex (handleLow cap) else t

/-- REVOKE: the entry of this device is revoked at once, one of another device there (R357). -/
def execRevoke (h : Hdr) (d a : Reg) (s : State) : Out :=
  issue s { h := h, srcs := pairOf a, dsts := [d.toNat] } fun i =>
    if i.idle then .done i.t
    else i.uniform (i.differ fun l => i.rd2 a.toNat l) (
      let cap := i.low2 a
      match i.s.rangeOf (handleLow cap) with
      | some dev =>
        if dev ≠ i.s.dev.id then
          let (id, t) := (i.t.pendWords i.k (i.lanes.map fun l => (d.toNat, l))).named
          .done (t.updFly fun f => { f with
            revokes := Tab.put f.revokes id ⟨i.k, i.core, i.w.ctx, cap, dev, d.toNat, i.act, false⟩ })
        else if i.s.revocable i.w.ctx cap then i.status (i.t.revokeIndex (handleLow cap)) d 0
        else i.status i.t d 1
      | none => i.status i.t d 1)

/-- REVOKE.all (R357). -/
def execRevokeAll (h : Hdr) (d : Reg) (s : State) : Out :=
  issue s { h := h, srcs := [], dsts := [d.toNat] } fun i =>
    if i.idle then .done i.t else i.status (i.t.revokeIf fun c => c.owner == i.w.handle) d 0

/-! ### Tokens of operations that end at their issue -/

/-- What an engine reports of a cause at a virtual address: an uncorrectable word by its vault, else the unit (R188,
R253, R303). -/
def State.engineErr (s : State) (kind core ctx : Nat) (c : Cause) (va done : Nat) : Err :=
  match c with
  | .uncorrectable | .poison =>
    match s.unitXlate core ctx va .read with
    | .ok x => ⟨6, 4, vaultOf (placeOf x.pa), va, done⟩
    | .error _ => ⟨6, 4, 0, va, done⟩
  | _ => ⟨c.cls, kind, if kind = 5 then 0 else core, va, done⟩

/-- The token of an operation that ends at once: complete, or stopped by an error with its entry (R251 to R253). -/
def Iss.token (i : Iss) (t : State) (d : Reg) (e : Err) : Eff :=
  let l := i.s.launch i.b.launch
  let entry := if e.cls = 0 then none else some (l.lpb.cq, opEntry i.w.handle.toNat 1 i.w.ctx e)
  .done (t.deliverToken i.k d.toNat i.act (tokenWord e (if e.cls = 0 then 0 else 1) e.detail) entry)

/-- A descriptor run agrees across ACTIVE (R250). -/
def Iss.runUniform (i : Iss) (a : Reg) (n : Nat) (go : Eff) : Eff :=
  i.uniform (i.differ fun l => (List.range n).map fun j => i.rd (a.toNat + j) l) go

/-- A register of a descriptor run. -/
def Iss.desc (i : Iss) (a : Reg) (j : Nat) : Word := i.rd (a.toNat + j) i.low

/-- A 64-bit value of a descriptor run. -/
def Iss.desc2 (i : Iss) (a : Reg) (j : Nat) : DWord := i.desc a (j + 1) ++ i.desc a j

/-! ### LAUNCH and SPAWN -/

/-- The own part of LAUNCH (R298, R300). -/
def Iss.launch (i : Iss) (d : Reg) (va q : Nat) : Eff :=
  let stop := fun (cls addr : Nat) => i.token i.t d ⟨cls, 2, i.core, addr, 0⟩
  match i.t.unitRead i.core i.w.ctx va 256 with
  | .error (c, at_) => i.token i.t d (i.s.engineErr 2 i.core i.w.ctx c at_ 0)
  | .ok (lpb, t) =>
    let lq := t.lq i.w.ctx q
    if ctlEn lq.ctl && ctlDevfed lq.ctl && !lq.held.isEmpty then stop 9 0
    else match t.lqAppend i.w.ctx q lpb none with
      | (t1, .done) => i.token t1 d Err.none
      | (_, .full) => stop 9 0
      | (_, .unusable) => stop 1 0
      | (_, .unwritable c) => stop c.cls (lq.base + 256 * lq.tail)

/-- LAUNCH: an address beyond 48 bits, or no multiple of 256, faults at issue (R250, R253, R300). -/
def execLaunch (h : Hdr) (d a : Reg) (lq : BitVec 3) (s : State) : Out :=
  issue s { h := h, srcs := runOf a 2, dsts := [d.toNat] } fun i =>
    if i.idle then .done i.t
    else i.runUniform a 2 (
      let va := i.desc2 a 0
      if va.toNat ≥ 2 ^ 48 then i.raise .translation (some va) i.act
      else if va.toNat % 256 ≠ 0 then i.raise .misaligned (some va) i.act
      else i.afterPublish (i.launch d va.toNat lq.toNat))

/-- Children offered on a die (R302). -/
def State.childrenOffered (s : State) (die : Nat) : Nat :=
  (s.blocks.filter fun p => p.2.spawned && p.2.st == .offered && (p.2.prefer.elim 0 coreDie) == die).length

/-- An allocation of a size rounded to its granule, all zero (R185, R200). -/
def Buffer.fresh (size granule : Nat) : Buffer := ⟨roundUp size granule, [], [], []⟩

/-- The scratch of a child with its argument words (R301). -/
def childScratch (size : Nat) (args : List Word) : Buffer :=
  let b := Buffer.fresh size 4096
  if size ≥ 16 then b.put 0 (args.flatMap fun w => leBytes 4 w.toNat) else b

/-- The child block that a wave's SPAWN offers (R21, R301, R302). -/
def State.child (s : State) (k : Nat) (entry : Ctr) (waves foot scr : Nat) (args : List Word) (ctr : DWord) : Block :=
  let p := s.block (s.wave k).block
  { Block.blank with
    launch := p.launch
    ctx := p.ctx
    lin := p.lin
    x := p.x
    y := p.y
    z := p.z
    spawned := true
    parent := if p.depth = 0 then none else some ((s.wave k).block, p.depth)
    st := .offered
    prefer := some p.core
    offeredAt := s.serial + 1
    spawnDepth := p.spawnDepth + 1
    parentCtr := ctr
    nwaves := waves
    foot := foot
    entry := entry
    args := args
    s := childScratch scr args }

/-- Offered blocks of a die (R318). -/
def State.offeredOn (s : State) (die : Nat) : Nat :=
  (s.blocks.filter fun p => (p.2.st == .offered || p.2.st == .saved) && p.2.die == die).length

/-- The die on which a block is offered (R318). -/
def State.dieFor (s : State) (prefer : Option Nat) : Nat :=
  match prefer with
  | some c => coreDie c
  | none => [1, 2, 3].foldl (fun d e => if s.offeredOn e < s.offeredOn d then e else d) 0

/-- A block offered on a die: it joins its launch's blocks still to retire (R21, R23, R318). -/
def State.offerOn (s : State) (b : Block) (die : Nat) : State :=
  let (id, s1) := s.named
  { s1 with blocks := Tab.put s1.blocks id { b with die := die } }.updLaunch b.launch fun l => { l with left := l.left + 1 }

/-- A block offered on the die of its preferred core, or the one with the fewest offers. -/
def State.offer (s : State) (b : Block) : State := s.offerOn b (s.dieFor b.prefer)

/-- The own part of SPAWN (R301, R302). -/
def Iss.spawn (i : Iss) (d a : Reg) : Eff :=
  let shape := i.desc a 2
  let waves := (shape.extractLsb' 0 6).toNat
  let regs := (shape.extractLsb' 8 6).toNat
  let scr := ((i.desc a 3).extractLsb' 0 21).toNat
  let err := fun cls => i.token i.t d ⟨cls, 0, i.core, 0, 0⟩
  if i.b.spawnDepth + 1 > min 4 (i.s.lpb i.blk).spawnDepth then i.raise .spawnDepth none i.act
  else if waves = 0 ∨ waves > 32 ∨ regs < 2 ∨ regs > 32 ∨ scr > 2 ^ 20 ∨
    i.s.tooBig (childShape waves (8 * regs) scr) then err 1
  else if i.s.childrenOffered (coreDie i.core) ≥ 4096 then err 9
  else
    let b := i.s.child i.k ((i.desc2 a 0).setWidth 48) waves (8 * regs) scr
      [i.desc a 4, i.desc a 5, i.desc a 6, i.desc a 7] (i.desc2 a 8)
    i.token (i.t.offer b) d Err.none

/-- SPAWN: an ENTRY that is no counter faults with MISALIGNED (R63, R250, R301, R302). -/
def execSpawn (h : Hdr) (d a : Reg) (s : State) : Out :=
  issue s { h := h, srcs := runOf a 10, dsts := [d.toNat] } fun i =>
    if i.idle then .done i.t
    else i.runUniform a 10 (
      let e := i.desc2 a 0
      if !isCounter e then i.raise .misaligned (some ((e.extractLsb' 0 48).setWidth 64)) i.act
      else i.afterPublish (i.spawn d a))

/-! ### The work heap -/

/-- The instance that an instruction names: its own, or the launch's default (R308). -/
def Iss.heapNamed (i : Iss) (inst : Option (BitVec 7)) : Option Nat :=
  let l := i.s.lpb i.blk
  match inst with
  | some n => some n.toNat
  | none => if l.flags / 4 % 2 = 1 then some (l.heap % 128) else none

/-- A heap instance. -/
def State.heap (s : State) (n : Nat) : Heap := Tab.get Heap.reset s.dev.heaps n

/-- The state with a heap instance changed. -/
def State.updHeap (s : State) (n : Nat) (f : Heap → Heap) : State :=
  s.updDev fun d => { d with heaps := Tab.put d.heaps n (f (Tab.get Heap.reset d.heaps n)) }

/-- The instance that a context may use (R308). -/
def Iss.heapOf (i : Iss) (inst : Option (BitVec 7)) : Option Nat :=
  (i.heapNamed inst).filter fun n => (i.s.heap n).bound == some i.w.ctx

/-- Entries in the instances of a die (R309). -/
def State.heapEntries (s : State) (die : Nat) : Nat :=
  (s.dev.heaps.filter fun p => p.1 / 32 == die).foldl (fun n p => n + p.2.entries.length) 0

/-- One insertion, and its status (R309). -/
def State.heapPut (s : State) (n key val : Nat) : State × Nat :=
  if key = 0xFFFFFFFF then (s, 4)
  else if (s.heap n).st = 2 then (s, 2)
  else if s.heapEntries (n / 32) ≥ 65536 then (s, 1)
  else
    let (id, s1) := s.named
    (s1.updHeap n fun h => { h with entries := h.entries ++ [(key, val, id)] }, 0)

/-- HEAPPUT (R309). -/
def execHeapput (h : Hdr) (d a b : Reg) (inst : Option (BitVec 7)) (s : State) : Out :=
  issue s { h := h, srcs := [a.toNat, b.toNat], dsts := [d.toNat] } fun i =>
    if i.idle then .done i.t
    else i.afterPublish (match i.heapOf inst with
      | none => i.status i.t d 3
      | some n =>
        let (t, rs) := i.lanes.foldl (fun (p : State × List (Nat × Nat × Word)) l =>
          let (t, st) := p.1.heapPut n (i.rd a.toNat l).toNat (i.rd b.toNat l).toNat
          (t, p.2 ++ [(d.toNat, l, BitVec.ofNat 32 st)])) (i.t, [])
        i.later t rs)

/-- HEAPPUT.open (R308, R309). -/
def execHeapputOpen (h : Hdr) (d : Reg) (inst : Option (BitVec 7)) (s : State) : Out :=
  issue s { h := h, srcs := [], dsts := [d.toNat] } fun i =>
    if i.idle then .done i.t
    else i.afterPublish (match i.heapOf inst with
      | none => i.status i.t d 3
      | some n =>
        let x := i.s.heap n
        if x.st = 2 then i.status i.t d 2
        else if x.opens ≥ 65535 then i.status i.t d 1
        else i.status (i.t.updHeap n fun h => { h with opens := h.opens + 1, st := 1 }) d 0)

/-- HEAPPUT.close (R308, R309). -/
def execHeapputClose (h : Hdr) (d : Reg) (inst : Option (BitVec 7)) (s : State) : Out :=
  issue s { h := h, srcs := [], dsts := [d.toNat] } fun i =>
    if i.idle then .done i.t
    else i.afterPublish (match i.heapOf inst with
      | none => i.status i.t d 3
      | some n =>
        if (i.s.heap n).opens = 0 then i.status i.t d 5
        else i.status (i.t.updHeap n fun h =>
          { h with opens := h.opens - 1, st := if h.opens = 1 then 2 else h.st }) d 0)

/-- HEAPGET: a request joins its instance's queue (R310). -/
def execHeapget (h : Hdr) (d a : Reg) (inst : Option (BitVec 7)) (s : State) : Out :=
  issue s { h := h, srcs := [a.toNat], dsts := [d.toNat] } fun i =>
    if i.idle then .done i.t
    else i.runUniform a 1 (
      let addr := (i.desc a 0).toNat
      let die := (i.heapNamed inst).elim (coreDie i.core) (· / 32)
      if addr % 8 ≠ 0 then i.raise .misaligned (some (BitVec.ofNat 64 addr)) i.act
      else match i.b.beyond .s addr 8 with
        | some x => i.raise .bufferPermission (some (BitVec.ofNat 64 x)) i.act
        | none => i.afterPublish (match i.heapOf inst with
          | none => i.token i.t d ⟨4, 3, 16 * die, 0, 0⟩
          | some n =>
            let (id, t) := (i.t.pendWords i.k (i.lanes.map fun l => (d.toNat, l))).named
            let r : HeapReq := ⟨n, i.k, i.blk, d.toNat, i.act, addr, i.b.depth, id⟩
            .done (t.updFly fun f => { f with heap := Tab.put f.heap id r })))

/-- The entries that may answer a request: keys up to the 64th smallest (R311). -/
def heapChoices (es : List (Nat × Nat × Nat)) : List (Nat × Nat × Nat) :=
  es.filter fun e => decide ((es.filter fun x => decide (x.1 < e.1)).length < 64)

/-- THE HEAP ANSWERS the earliest request of an instance with one of the entries that may answer it, `entry` saying
which; a Sealed empty instance answers end-of-work (R310 to R312). -/
def execHeapgetServe (inst entry : Nat) (s : State) : Out :=
  .next (match s.fly.heap.find? fun p => p.2.inst == inst with
    | none => s
    | some (id, r) =>
      let h := s.heap inst
      let c := heapChoices h.entries
      let answer := fun (s : State) (key val : Nat) =>
        let s1 := s.bufWrite r.block 0 r.depth .s r.addr (leBytes 4 key ++ leBytes 4 val)
        (s1.updFly fun f => { f with heap := Tab.del f.heap id }).landToken r.wave r.token r.lanes 0
      match c.drop (entry % max 1 c.length) |>.head? with
      | none => if h.st = 2 then answer s 0xFFFFFFFF 0 else s
      | some e =>
        let s1 := s.updHeap inst fun h => { h with entries := h.entries.filter (· != e) }
        let s2 := if r.depth = 0 then s1 else
          s1.updRcv r.block fun x => { x with taken := x.taken ++ [⟨r.depth, inst, e.1, e.2.1⟩] }
        answer s2 e.1 e.2.1)

end Sys2Proof.Machine
end

