-- ==== Sys2Proof/Machine/Engine.lean ====
section
/-! DEFINITION. What the engines share: reads and writes of global memory at the homes, frames, shadow pages, tokens of
operations that end later, signals (R187, R188, R201, R204, R219, R221, R251 to R254, R400). -/

namespace Sys2Proof.Machine

/-! ### Frames -/

/-- A free frame of a context's pool under a leaf's vault policy: above the requesting core, else on its die, else any; which
of several is free, since no rule gives distances or an order (R187; log 4). -/
def State.findFrame (s : State) (ctx core size : Nat) (leaf : DWord) : Option (Nat × Nat) :=
  let fit := (s.ctx ctx).pool.filter fun f => f.2 == size && inWindow leaf f.1
  let vault := fun (f : Nat × Nat) => vaultOf (placeOf f.1)
  let above := fit.filter fun f => vault f == core
  let near := fit.filter fun f => vault f / 64 == coreDie core
  let from_ := if !above.isEmpty then above else if !near.isEmpty then near else fit
  from_[Config.choice 25 s.free from_.length % from_.length]?

/-- A frame leaves a context's pool. -/
def State.takeFrame (s : State) (ctx : Nat) (f : Nat × Nat) : State :=
  s.updCtx ctx fun c => { c with pool := c.pool.erase f }

/-- A frame returns to a context's pool with its contents (R201). -/
def State.freeFrame (s : State) (ctx pa size : Nat) : State :=
  s.updCtx ctx fun c => { c with pool := c.pool ++ [(pa, size)] }

/-- A free frame moves from one context's pool to another's: it is zero-filled before it can be mapped (R201). -/
def State.moveFrame (s : State) (src dst n : Nat) : State :=
  match (s.ctx src).pool[n]? with
  | none => s
  | some (pa, size) =>
    if src = dst ∨ dst ≥ 64 then s
    else ((s.homeWrite ((List.range size).map fun i => (placeOf (pa + i), 0))).updCtx src fun c =>
      { c with pool := c.pool.eraseIdx n }).updCtx dst fun c => { c with pool := c.pool ++ [(pa, size)] }

/-- Bytes as writes at the places of consecutive physical addresses. -/
def fromPa (pa : Nat) (bs : List Byte) : List (Nat × Byte) := bs.zipIdx.map fun p => (placeOf (pa + p.2), p.1)

/-! ### Shadow pages -/

/-- The position of the binding that takes an engine write named `order` (R204, R268). -/
def Context.bindingAt (c : Context) (order va : Nat) : Option Nat :=
  (c.binds.zipIdx.find? fun b => decide (b.1.base ≤ va) && decide (va < b.1.base + b.1.size) &&
    decide (b.1.since ≤ order) && (b.1.until_.all fun u => decide (order < u))).map Prod.snd

/-- The state with one of a context's bindings changed. -/
def State.updBind (s : State) (ctx n : Nat) (f : Binding → Binding) : State :=
  s.updCtx ctx fun c => { c with binds := c.binds.zipIdx.map fun b => if b.2 = n then f b.1 else b.1 }

/-- The first byte of a page whose word is bad at its home. -/
def State.badIn (s : State) (pa size : Nat) : Option Nat :=
  (List.range size).find? fun i => s.mem.uncorr (placeOf (pa + i)) || s.mem.poisoned (placeOf (pa + i))

/-- The shadow of a page, made at its first engine write from the pool as a copy of the visible page: no frame, or a bad word
of that page, stops the write (R188, R204). -/
def State.shadowPage (s : State) (kind ctx core n va : Nat) (x : Xlat) : Except Err (Nat × State) :=
  let b := (s.ctx ctx).binds[n]?
  match b.bind fun b => Tab.find b.pages x.base with
  | some f => .ok (f, s)
  | none => match s.findFrame ctx core x.size x.leaf, s.badIn (ptePa x.leaf) x.size with
    | none, _ => .error ⟨9, kind, core, va, 0⟩
    | some _, some j => .error ⟨6, 4, vaultOf (placeOf (ptePa x.leaf + j)), x.base + j, 0⟩
    | some f, none =>
      let old := s.mem.bytesAt (ptePa x.leaf) x.size
      let s1 := (s.takeFrame ctx f).updBind ctx n fun b => { b with pages := Tab.put b.pages x.base f.1 }
      .ok (f.1, (s1.homeWrite (fromPa f.1 old)).drew)

/-! ### Reads and writes -/

/-- An engine's read of bytes within a page (R188, R219). -/
def State.engRead (s : State) (kind core ctx va n : Nat) : Except Err (List Byte × State) :=
  match s.unitRead core ctx va n with
  | .error (c, at_) => .error (s.engineErr kind core ctx c at_ 0)
  | .ok r => .ok r

/-- An engine's write of bytes within a page, named `order`, for work of a block at depth `d`: into the page, or into its
shadow where the range is bound (R204, R219, R226). -/
def State.engWrite (s : State) (kind core ctx blk d order va : Nat) (bs : List Byte) : Except Err State :=
  match s.unitXlate core ctx va .write with
  | .error c => .error (s.engineErr kind core ctx c va 0)
  | .ok x =>
    let s1 := s.marked core ctx x
    match (s1.ctx ctx).bindingAt order va with
    | none => .ok (s1.homeWriteFor blk 0 d (fromPa x.pa bs))
    | some n => match s1.shadowPage kind ctx core n va x with
      | .error e => .error e
      | .ok (f, s2) => .ok (s2.homeWriteFor blk 0 d (fromPa (f + (va - x.base)) bs))

/-! ### Ends -/

/-- The completion entry of an operation that ended with an error, at its launch's queue (R253, R304). -/
def State.opEnd (s : State) (launch ident src ctx : Nat) (e : Err) : State :=
  if e.cls = 0 then s else s.cqPut ctx (s.launch launch).lpb.cq (opEntry ident src ctx e)

/-- The end of an operation, where its entry need not wait; else the operation waits (R306). -/
def State.endOr (s : State) (id launch ctx : Nat) (e : Err) (end_ : State) : State :=
  let cq := (s.launch launch).lpb.cq
  if e.cls != 0 && s.cqHolds ctx cq id then s.cqJoin ctx cq id else end_

/-- A decrement by an engine or by retirement: applied, or the error that reports why not (R397, R400). -/
def State.engDec (s : State) (core ctx kind : Nat) (handle : DWord) (n : Nat) : State × Option Err :=
  let h := handle.toNat
  let bad := fun (cls : Nat) => some ⟨cls, kind, if kind = 5 then 0 else core, h % 2 ^ 48, 0⟩
  match s.counterPlace core ctx h with
  | .error c => (s, bad (counterCls c))
  | .ok (place, s1) =>
    if s.heldAt core ctx h 32 then (s, bad 4)
    else if s.mem.uncorr place || s.mem.poisoned place then (s, some ⟨6, 4, vaultOf place, h % 2 ^ 48, 0⟩)
    else ((s1.counterDec place h n).1, none)

/-- A first error stands. -/
def firstErr (a b : Option Err) : Option Err := a.orElse fun _ => b

/-- Bytes of a buffer are bad for an engine (R188, R199). -/
def Buffer.badFor (b : Buffer) (addr n : Nat) : Bool := (b.bad addr n).isSome

end Sys2Proof.Machine
end

