-- ==== Sys2Proof/Machine/Copy.lean ====
section
/-! DEFINITION. The copy family: the collective copy movers, their packets, cancellation, shadow bindings and PUBLISH
(R204, R221, R250 to R269, R364). -/

namespace Sys2Proof.Machine

/-! ### Rows and packets -/

/-- Where row `r` of a run of rows starts, modulo 2^64 (R257). -/
def rowAt (base : Nat) (str r : Int) : Nat := (((base : Int) + r * str) % 2 ^ 64).toNat

/-- The row number that an index array gives, or the row itself (R260). -/
def Slice.row (x : Slice) (indexed : Bool) (r : Nat) : Int := if indexed then x.xs.getD r 0 else r

/-- Where row `r` is read. -/
def Slice.srcRow (x : Slice) (op : CopyOp) (r : Nat) : Nat := rowAt x.src x.sstr (x.row (op == .gather) r)

/-- Where row `r` is written. -/
def Slice.dstRow (x : Slice) (op : CopyOp) (r : Nat) : Nat := rowAt x.dst x.dstr (x.row (op == .scatter) r)

/-- Bytes up to the next boundary that no packet crosses: a page of g, or a granule (R199, R257). -/
def cutTo (sp : Space) (addr : Nat) : Nat := let u := if sp = .g ∨ sp = .s then 4096 else 16384; u - addr % u

/-- The packets of a row from an offset on: at most 256 bytes each, cut at the boundaries of both sides, whole elements
of `es` bytes that become `ed` (R257; DESIGN CHOICE, log 30). -/
def packetsFrom (ssp dsp : Space) (src dst rowb es ed : Nat) : Nat → Nat → List (Nat × Nat)
  | 0, _ => []
  | fuel + 1, off =>
    if off ≥ rowb then []
    else
      let n0 := min (min 256 (rowb - off)) (min (cutTo ssp (src + off)) (cutTo dsp (dst + off / es * ed) / ed * es))
      let n := max (min es (rowb - off)) (n0 / es * es)
      (off, n) :: packetsFrom ssp dsp src dst rowb es ed fuel (off + n)

/-- The entry that governs an engine's source byte, with its index (R199, R230). -/
def State.engFormat (s : State) (core ctx blk : Nat) (sp : Space) (va : Nat) : Option (Fdt × Nat) :=
  match sp with
  | .g => match s.unitXlate core ctx va .read with
    | .ok x => some (s.fdt core ctx (pteFdt x.leaf), pteFdt x.leaf)
    | .error _ => none
  | _ =>
    let n := ((s.block blk).buf sp).index sp va
    some (s.fdt core ctx n, n)

/-- Bytes of an element of a format that a converting copy reads; none for a format that stops it (R258). -/
def convBytes (f : Fdt) : Option Nat :=
  let w := fmtWidth f.fmt
  if f.bad || fmtBlock f.fmt || f.fmt == 0 || decide (w < 8) then none else some (w / 8)

/-- Element sizes of a row: source and destination bytes, 1 and 1 without conversion (R258). -/
def State.rowElems (s : State) (core ctx blk : Nat) (a : CopyArg) (src : Nat) : Option (Nat × Nat) :=
  match a.cvf with
  | none => some (1, 1)
  | some c => ((s.engFormat core ctx blk a.ssp src).bind fun f => convBytes f.1).map fun es => (es, fmtWidth c.toNat / 8)

/-- The packets of a slice's row. -/
def State.rowPackets (s : State) (c : Copy) (x : Slice) (r : Nat) : List (Nat × Nat) :=
  let b := s.block c.block
  let src := x.srcRow c.op r
  let (es, ed) := (s.rowElems b.core b.ctx c.block c.arg src).getD (1, 1)
  packetsFrom c.arg.ssp c.arg.dsp src (x.dstRow c.op r) x.rowb es ed x.rowb 0

/-- Rows that a slice moves: none when it is empty (R256). -/
def Slice.count (x : Slice) : Nat := if x.rowb = 0 then 0 else x.rows

/-- The packets of a copy that have not landed. -/
def State.unlanded (s : State) (c : Copy) : List (Nat × Nat × Nat) :=
  c.slices.zipIdx.flatMap fun x => (List.range x.1.count).flatMap fun r =>
    ((List.range (s.rowPackets c x.1 r).length).filter fun p => !c.landed.contains (x.2, r, p)).map fun p => (x.2, r, p)

/-! ### Issue -/

/-- The A run of a copy mover as a slice (R256, R258). -/
def Iss.slice (i : Iss) (d a : Reg) (idx : Option Reg) (x : CopyArg) (order : Nat) : Slice :=
  let cfg := i.w.tcfg
  ⟨i.k, i.w.wib, d.toNat, i.act, (i.desc2 a 0).toNat, (i.desc2 a 2).toNat, (i.desc a 4).toNat % 2 ^ 24,
    (i.desc a 5).toNat % 2 ^ 16, (i.desc a 6).toInt, (i.desc a 7).toInt, (idx.elim 0 fun r => (i.desc r 0).toNat), [],
    i.w.mode x.m, x.sat, cfg.extractLsb' 64 32, cfg.extractLsb' 96 32, order⟩

/-- Copy movers read g, s and a and write g, s, w and a (R198, R256). -/
def copySrcs : List Space := [.g, .s, .a]
/-- The spaces that copy movers write. -/
def copyDsts : List Space := [.g, .s, .w, .a]

/-- The least of a list, if any. -/
def least (xs : List Nat) : Option Nat := xs.foldl (fun a x => match a with
  | none => some x
  | some y => some (min x y)) none

/-- The lowest address past 2^48 − 1 of rows in g (R229, R253). -/
def rowsFar (sp : Space) (starts : List Nat) (n : Nat) : Option Nat :=
  if sp = .g ∧ n ≠ 0 then least (starts.filterMap fun a => if a + n > 2 ^ 48 then some (max a (2 ^ 48)) else none) else none

/-- The lowest address of rows that lies beyond an allocation (R185, R257). -/
def Block.rowsBeyond (b : Block) (sp : Space) (starts : List Nat) (n : Nat) : Option Nat :=
  if sp = .g ∨ n = 0 then none else least (starts.filterMap fun a => b.beyond sp a n)

/-- The checks of a copy mover's descriptor at its issue, in the order of R232, each with its lowest address (R253, R256, R257,
R260, R261). -/
def Iss.copyChecks (i : Iss) (op : CopyOp) (x : CopyArg) (sl : Slice) : Option (Cause × Nat) :=
  let rows := List.range sl.count
  let srcs := if op = .gather then [] else rows.map fun r => sl.srcRow op r
  let dsts := if op = .scatter ∨ op = .window then [] else rows.map fun r => sl.dstRow op r
  let indexed := op == .gather || op == .scatter
  let (es, ed) := (i.s.rowElems i.core i.w.ctx i.blk x sl.src).getD (1, 0)
  let n' := sl.rowb / es * ed
  let when_ := fun (c : Bool) (r : Cause × Nat) => if c then some r else none
  let lowest := fun (cause : Cause) (xs : List (Option Nat)) => (least (xs.filterMap id)).map fun a => (cause, a)
  ([lowest .translation [rowsFar x.ssp srcs sl.rowb, rowsFar x.dsp dsts n'],
    when_ (indexed && sl.idx % 4 != 0) (.misaligned, sl.idx),
    when_ (!copySrcs.contains x.ssp) (.bufferPermission, sl.src),
    when_ (!copyDsts.contains x.dsp || (op == .multi && (i.b.gang.isNone || !(x.dsp == .w || x.dsp == .a))))
      (.bufferPermission, sl.dst),
    lowest .bufferPermission [i.b.rowsBeyond x.ssp srcs sl.rowb, i.b.rowsBeyond x.dsp dsts n',
      if indexed ∧ sl.rows ≠ 0 then i.b.beyond .s sl.idx (4 * sl.rows) else none]
  ].filterMap id).head?

/-- The waves of a copy's set that are live. -/
def State.copySet (s : State) (c : Copy) : List Nat := s.setOf c.block c.yoke

/-- Every live wave of a copy's set has arrived (R255). -/
def State.gathered (s : State) (c : Copy) : Bool := (s.copySet c).all fun k => decide (c.k < (s.wave k).copies)

/-- The collective that the issuing wave's next copy mover joins (R255). -/
def Iss.collective (i : Iss) : Option (Nat × Copy) :=
  i.s.fly.copies.find? fun p =>
    p.2.block == i.blk && p.2.yoke == decide (i.w.wib ≥ 32) && p.2.k == i.w.copies

/-- An arrival agrees with its collective (R255). -/
def Copy.agrees (c : Copy) (op : CopyOp) (x : CopyArg) (dec : Nat) (sig : Bool) (runs : Option (Nat × DWord)) : Bool :=
  c.op == op && c.arg.ssp == x.ssp && c.arg.dsp == x.dsp && c.arg.dfdt == x.dfdt && c.arg.cvf == x.cvf && c.dec == dec &&
  c.sig == sig && (match c.runs, runs with
    | some a, some b => a == b
    | _, _ => true)

/-- The members of a receiver mask. -/
def maskMembers (m : Nat) : List Nat := (List.range 8).filter fun g => m / 2 ^ g % 2 == 1

/-- Slots of a block taken for the members of a mask. -/
def Block.takeSlots (b : Block) (m : Nat) : Block :=
  { b with slots := (maskMembers m).foldl (fun t g => Tab.set 4 t g (Tab.get 4 t g - 1)) b.slots }

/-- A wave arrives: its count of arrivals, and STO_SEQ where the copy converts, rise by one (R255, R258). -/
def Iss.arrives (i : Iss) (t : State) (x : CopyArg) : State :=
  let t1 := t.updWave i.k fun w => { w with copies := w.copies + 1 }
  if x.cvf.isNone then t1 else t1.stepSto i.k x.m

/-- An arrival at a cancelled collective ends cancelled; its place is forgotten once every wave has passed it (R266). -/
def Iss.joinEnded (i : Iss) (id : Nat) (c : Copy) (d : Reg) (x : CopyArg) : Eff :=
  let t1 := i.arrives i.t x
  let t2 := if t1.gathered c then t1.updFly fun f => { f with copies := Tab.del f.copies id } else t1
  .done (if i.idle then t2 else t2.deliverToken i.k d.toNat i.act (tokenWord Err.none 2 0) none)

/-- An arrival at a gathering collective, or the first of a new one (R255). -/
def Iss.joinCopy (i : Iss) (op : CopyOp) (d : Reg) (x : CopyArg) (dec : Nat) (sig : Bool) (runs : Option (Nat × DWord))
    (sl : Option (Nat → Slice)) : Eff :=
  let old := i.collective
  let mask := if op = .multi then runs.elim 0 Prod.fst else 0
  let first := op == .multi && runs.isSome && (old.all fun p => p.2.runs.isNone)
  match old with
  | some (id, c) => if c.stage = .ended then i.joinEnded id c d x else go old mask first
  | none => go old mask first
where
  /-- The arrival itself. -/
  go (old : Option (Nat × Copy)) (mask : Nat) (first : Bool) : Eff :=
    if first && (maskMembers mask).any (fun g => i.b.free g == 0) then .stall
    else
      let (order, t0) := i.t.named
      let t1 := i.arrives t0 x
      let t2 := if first then t1.updBlock i.blk fun b => b.takeSlots mask else t1
      let t3 := if i.idle then t2 else t2.pendWords i.k (i.lanes.map fun l => (d.toNat, l))
      let new := (sl.map fun f => f order).toList
      let t4 := match old with
        | some (id, c) =>
          let c1 := { c with
            slices := c.slices ++ new
            agree := c.agree && c.agrees op x dec sig runs
            runs := c.runs.orElse fun _ => runs }
          t3.updFly fun f => { f with copies := Tab.put f.copies id c1 }
        | none =>
          let c0 : Copy := ⟨op, x, dec, sig, runs, true, i.blk, decide (i.w.wib ≥ 32), i.w.copies, .gathering, new, [],
            none, 0, 0, i.b.depth, false, false, []⟩
          t3.updFly fun f => { f with copies := Tab.put f.copies order c0 }
      .done t4

/-- The own part of a copy mover; one that reads or writes g, or signals, follows the wave's publishes, with an empty ACTIVE
too (R212, R255, R256). -/
def Iss.copy (i : Iss) (op : CopyOp) (d a : Reg) (b c : Option Reg) (bN cN : Nat) (dec : Nat) (x : CopyArg) : Eff :=
  let sig := op == .multi && c.isSome
  let ordered := fun (go : Eff) => if x.ssp = .g ∨ x.dsp = .g ∨ op = .signal ∨ sig then i.afterPublish go else go
  if i.idle then ordered (i.joinCopy op d x dec sig none none)
  else
    let words := fun l => (List.range 8).map (fun j => i.rd (a.toNat + j) l) ++
      (b.elim [] fun r => (List.range bN).map fun j => i.rd (r.toNat + j) l) ++
      (c.elim [] fun r => (List.range cN).map fun j => i.rd (r.toNat + j) l)
    i.uniform (i.differ words) (
      let idx := if op = .gather ∨ op = .scatter then b else none
      match i.copyChecks op x (i.slice d a idx x 0) with
      | some (cause, at_) => i.raise cause (some (BitVec.ofNat 64 at_)) i.act
      | none =>
        let mask := if op = .multi then b.elim 0 fun r => (i.desc r 0).toNat % 256 else 0
        let ctr := c.elim (0 : DWord) fun r => i.desc2 r 0
        ordered (i.joinCopy op d x dec sig (some (mask, ctr)) (some fun order => i.slice d a idx x order)))

/-- The registers of a copy mover. -/
def copyRegs (a : Reg) (b c : Option Reg) (bN cN : Nat) : List Nat :=
  runOf a 8 ++ (b.elim [] fun r => runOf r bN) ++ c.elim [] fun r => runOf r cN

/-- CPY (R255 to R259). -/
def execCpy (h : Hdr) (d a : Reg) (x : CopyArg) (s : State) : Out :=
  issue s { h := h, srcs := copyRegs a none none 0 0, dsts := [d.toNat] } fun i => i.copy .plain d a none none 0 0 0 x

/-- CPYM (R261, R262). -/
def execCpym (h : Hdr) (d a b : Reg) (sig : Option Reg) (x : CopyArg) (s : State) : Out :=
  issue s { h := h, srcs := copyRegs a (some b) sig 1 2, dsts := [d.toNat] } fun i =>
    i.copy .multi d a (some b) sig 1 2 0 x

/-- CPYX.gather (R260). -/
def execCpyxGather (h : Hdr) (d a b : Reg) (x : CopyArg) (s : State) : Out :=
  issue s { h := h, srcs := copyRegs a (some b) none 1 0, dsts := [d.toNat] } fun i =>
    i.copy .gather d a (some b) none 1 0 0 x

/-- CPYX.scatter (R260). -/
def execCpyxScatter (h : Hdr) (d a b : Reg) (x : CopyArg) (s : State) : Out :=
  issue s { h := h, srcs := copyRegs a (some b) none 1 0, dsts := [d.toNat] } fun i =>
    i.copy .scatter d a (some b) none 1 0 0 x

/-- CPYS (R263). -/
def execCpys (h : Hdr) (d a c : Reg) (dec : BitVec 12) (x : CopyArg) (s : State) : Out :=
  issue s { h := h, srcs := copyRegs a none (some c) 0 2, dsts := [d.toNat] } fun i =>
    i.copy .signal d a none (some c) 0 2 dec.toNat x

/-- CPYW (R264). -/
def execCpyw (h : Hdr) (d a c : Reg) (x : CopyArg) (s : State) : Out :=
  issue s { h := h, srcs := copyRegs a none (some c) 0 2, dsts := [d.toNat] } fun i =>
    i.copy .window d a none (some c) 0 2 0 x

/-- CPYQ.tok: a P bit is read without a stall (R265). -/
def execCpyqTok (h : Hdr) (d a : Reg) (s : State) : Out :=
  issue s { h := h, srcs := [], dsts := [d.toNat], names := [a.toNat] } fun i =>
    i.later i.t (i.each d.toNat fun l => if (Tab.get 0 i.w.pend a.toNat).getLsbD l then 0 else 1)

/-- BUFFER_PERMISSION outside a gang (R265). -/
def Iss.inGang (i : Iss) (go : Nat → Eff) : Eff :=
  match i.b.gang with
  | some g => go g
  | none => i.raise .bufferPermission none i.act

/-- CPYQ.slots (R265). -/
def execCpyqSlots (h : Hdr) (d : Reg) (r : BitVec 3) (s : State) : Out :=
  issue s { h := h, srcs := [], dsts := [d.toNat] } fun i =>
    if i.idle then .done i.t
    else i.inGang fun _ => i.later i.t (i.each d.toNat fun _ => BitVec.ofNat 32 (i.b.free r.toNat))

/-- The block that is member `g` of a block's gang, if it has not retired (R17). -/
def State.member (s : State) (blk g : Nat) : Option Nat :=
  let b := s.block blk
  (s.blocks.find? fun p => p.2.launch == b.launch && !p.2.spawned && p.2.lin == b.lin / 8 * 8 + g && p.2.st != .retired).map
    Prod.fst

/-- CPYQ.free: a message leaves that returns a slot to a gang member (R262, R265, R295). -/
def execCpyqFree (h : Hdr) (r : BitVec 3) (s : State) : Out :=
  issue s { h := h, srcs := [], dsts := [] } fun i =>
    if i.idle then .done i.t
    else i.inGang fun g => .done (match i.s.member i.blk r.toNat with
      | some m =>
        let (id, t) := i.t.named
        t.updFly fun f => { f with frees := Tab.put f.frees id ⟨i.core, m, g⟩ }
      | none => i.t)

/-! ### Cancellation -/

/-- The tokens of a collective end together (R255). -/
def State.endTokens (s : State) (c : Copy) (word : Word) : State :=
  c.slices.foldl (fun s x => s.landToken x.wave x.token x.lanes word) s

/-- One copy mover cancelled: a gathering one ends at once, a running one moves no further packet (R266). -/
def State.cancelCopy (s : State) (id : Nat) (c : Copy) : State :=
  match c.stage with
  | .gathering =>
    let s1 := s.endTokens c (tokenWord Err.none 2 0)
    let gone := s1.gathered c
    let c1 : Copy := { c with stage := .ended, slices := [] }
    s1.updFly fun f => { f with copies := if gone then Tab.del f.copies id else Tab.put f.copies id c1 }
  | .running =>
    if c.ending = 0 then s.updFly fun f => { f with copies := Tab.put f.copies id { c with ending := 2 } } else s
  | .ended => s

/-- The copy movers that satisfy a condition cancelled. -/
def State.cancelCopies (s : State) (p : Copy → Bool) : State :=
  (Tab.keys s.fly.copies).foldl (fun s id => match Tab.find s.fly.copies id with
    | some c => if p c then s.cancelCopy id c else s
    | none => s) s

/-- CPYC (R266). -/
def execCpyc (h : Hdr) (a : Reg) (s : State) : Out :=
  issue s { h := h, srcs := [], dsts := [], names := [a.toNat] } fun i =>
    if i.idle then .done i.t
    else .done (i.t.cancelCopies fun c => c.slices.any fun x =>
      x.wave == i.k && x.token == a.toNat && x.lanes &&& Tab.get 0 i.w.pend a.toNat != 0)

/-- CPYC.all (R266). -/
def execCpycAll (h : Hdr) (s : State) : Out :=
  issue s { h := h, srcs := [], dsts := [] } fun i =>
    if i.idle then .done i.t else .done (i.t.cancelCopies fun c => c.block == i.blk)

/-! ### Running -/

/-- The state with a copy changed. -/
def State.updCopy (s : State) (id : Nat) (f : Copy → Copy) : State :=
  s.updFly fun y => { y with copies := Tab.upd y.copies id f }

/-- A copy stops with an error of one of its slices. -/
def Copy.stop (c : Copy) (slice : Nat) (e : Err) : Copy := { c with err := firstErr c.err (some e), errBy := slice, ending := 1 }

/-- The copies of a core that run. -/
def State.copiesRunning (s : State) (core : Nat) : Nat :=
  (s.fly.copies.filter fun p => p.2.stage == .running && (s.block p.2.block).core == core).length

/-- A collective waits in the copy queue: all have arrived, and it has not started (R259). -/
def State.copyQueued (s : State) (c : Copy) : Bool := c.stage == .gathering && s.gathered c

/-- When a collective entered its queue: its last arrival. -/
def Copy.since (c : Copy) : Nat := c.slices.foldl (fun n x => max n x.order) 0

/-- The DEVICE_ID of a window handle (R364). -/
def windowDevice (h : DWord) : Nat := handleLow h / 4096

/-- The inbound window that a put from this device to itself names, for its checks at the target (R364). -/
def State.putWindow (s : State) (h : DWord) : Option WinIn :=
  (Tab.find s.dev.winIn (handleLow h % 4096)).filter fun w =>
    w.open_ && w.gen == handleGen h && handleTag h == s.tag .window (handleLow h % 4096) w.gen w.ctx && w.src == s.dev.id

/-- The port by which a put leaves: the unit of an error of kind 6 (R303, R424). -/
def State.putPort (s : State) (c : Copy) : Nat :=
  (s.portFor (s.block c.block).core (windowDevice (c.runs.elim 0 Prod.snd))).getD 0

/-- What a put meets before it sends, none where no arrival read a handle (R250, R264, R364); whether another device's window
holds it is a free value (log 4). -/
def State.putRefused (s : State) (c : Copy) : Option Nat :=
  let h := c.runs.elim (0 : DWord) Prod.snd
  let b := s.block c.block
  if c.runs.isNone then none
  else if (s.outWindow b.ctx h).isNone then some 5
  else if windowDevice h = s.dev.id then
    match s.putWindow h with
    | none => some 5
    | some w =>
      let outside := c.slices.any fun x => (List.range x.count).any fun r =>
        let (es, ed) := (s.rowElems b.core b.ctx c.block c.arg (x.srcRow c.op r)).getD (1, 1)
        decide (x.dstRow c.op r + x.rowb / es * ed > w.size)
      if outside then some 4 else none
  else if Config.choice 11 s.free 2 % 2 = 1 then some 4 else none

/-- The index array of a slice as its collective starts (R260). -/
def State.readIndices (s : State) (c : Copy) (x : Slice) : List Int :=
  let b := (s.block c.block).s
  (List.range x.rows).map fun r => (BitVec.ofNat 32 (leNat (b.take (x.idx + 4 * r) 4))).toInt

/-- A collective starts: its arrivals are compared, its window checked, its indices read (R255, R260, R264). -/
def State.startCopy (s : State) (c : Copy) : Copy :=
  let run := { c with stage := .running }
  let core := (s.block c.block).core
  let indexed := c.op == .gather || c.op == .scatter
  if !c.agree then run.stop (Config.choice 13 s.free c.slices.length % max 1 c.slices.length) ⟨1, 2, core, 0, 0⟩
  else if c.op = .window then
    match s.putRefused c with
    | some cls => run.stop 0 ⟨cls, 6, s.putPort c, 0, 0⟩
    | none => run
  else if indexed then
    let bad := c.slices.zipIdx.filterMap fun x => ((s.block c.block).s.bad x.1.idx (4 * x.1.rows)).map fun y => (x.2, y.2)
    let run := { run with slices := c.slices.map fun x => { x with xs := s.readIndices c x } }
    match bad.head? with
    | some (n, at_) => run.stop n ⟨6, 4, core, at_, 0⟩
    | none => run
  else run

/-- A COPY STARTS when every live wave of its set has arrived, its core runs fewer than 96 and it is first in the queue
(R255, R259). -/
def execCopyQueueStart (id : Nat) (s : State) : Out :=
  .next (match Tab.find s.fly.copies id with
    | none => s
    | some c =>
      let core := (s.block c.block).core
      let ahead := s.fly.copies.any fun p => (s.block p.2.block).core == core && s.copyQueued p.2 && decide (p.2.since < c.since)
      if s.copyQueued c && !ahead && decide (s.copiesRunning core < 96) then
        (s.updCopy id fun _ => s.startCopy c).drew
      else s)

/-- The bytes of a packet at its source (R188, R257). -/
def State.packetRead (s : State) (c : Copy) (va n : Nat) : Except Err (List Byte × State) :=
  let b := s.block c.block
  match c.arg.ssp with
  | .g => s.engRead 2 b.core b.ctx va n
  | sp =>
    match b.beyond sp va n with
    | some x => .error ⟨1, 2, b.core, x % 2 ^ 48, 0⟩
    | none => match (b.buf sp).bad va n with
      | some x => .error ⟨6, 4, b.core, x.2, 0⟩
      | none => .ok ((b.buf sp).take va n, s)

/-- The bits of an element converted by a copy (R48, R258). -/
def convElem (m : RMode) (sat : Bool) (h : Nat) (from_ to_ bits : Nat) : Nat × Flags :=
  let v := elemVal from_ 0 bits
  let (c, f) := elemOfVal to_ ⟨m, h⟩ sat v
  (c, f ||| sigFlags [v])

/-- The converted bytes of a packet: element `e0 + j` of row `r` (R258). -/
def convBytesOf (x : Slice) (from_ to_ es ed r e0 : Nat) (bs : List Byte) : List Byte × Flags :=
  let es' := (List.range (bs.length / es)).map fun j =>
    let h := (gen (r % 65536) ((e0 + j) % 65536) (x.seedLo ^^^ BitVec.ofNat 32 (0x33330000 + x.wib)) x.seedHi).toNat
    convElem x.m x.sat h from_ to_ (leNat ((bs.drop (es * j)).take es))
  (es'.flatMap fun p => leBytes ed p.1, es'.foldl (fun f p => f ||| p.2) 0)

/-- Bytes written into the buffer of block `owner` by a copy of block `blk` at depth `d`, and its granules stamped (R257,
R377). -/
def State.copyInto (s : State) (blk d owner : Nat) (sp : Space) (addr idx : Nat) (bs : List Byte) : State :=
  let s1 := if owner = blk then s.recordBuf blk 0 d sp addr bs.length
    else (unitsOfSpan addr bs.length 128).foldl (fun s g => s.recordGranule blk 0 d owner sp g) s
  (s1.updBuf owner sp fun b => b.put addr bs).stampGranules owner sp addr bs.length idx

/-- The FDT index that a packet stamps (R257). -/
def Copy.stampOf (c : Copy) (srcIdx : Nat) : Nat :=
  if c.arg.dfdt ≠ 0 then c.arg.dfdt.toNat else if c.arg.cvf.isSome then 0 else srcIdx

/-- A packet of a multicast at its receivers: one that has retired fails its share (R261). -/
def State.packetCast (s : State) (c : Copy) (dva idx : Nat) (bs : List Byte) : State × List Nat :=
  (maskMembers (c.runs.elim 0 Prod.fst)).foldl (fun p g =>
    match s.member c.block g with
    | some m => (p.1.copyInto c.block c.depth m c.arg.dsp dva idx bs, p.2)
    | none => (p.1, g :: p.2)) (s, [])

/-- A packet's bytes at its destination; the receivers that failed. -/
def State.packetWrite (s : State) (c : Copy) (x : Slice) (dva idx : Nat) (bs : List Byte) :
    Except Err (State × List Nat) :=
  let b := s.block c.block
  match c.op, c.arg.dsp with
  | .window, _ =>
    let h := c.runs.elim (0 : DWord) Prod.snd
    if windowDevice h ≠ s.dev.id then .ok (s, [])
    else match s.putWindow h with
      | none => .error ⟨5, 6, s.putPort c, 0, 0⟩
      | some w =>
        match s.engWrite 6 farUnit w.ctx c.block c.depth x.order (w.base + dva) bs with
        | .error e => .error (if e.kind = 6 then { e with unit := s.putPort c } else e)
        | .ok s' => .ok (s', [])
  | .multi, _ => .ok (s.packetCast c dva idx bs)
  | _, .g =>
    match s.engWrite 2 b.core b.ctx c.block c.depth x.order dva bs with
    | .error e => .error e
    | .ok s' => .ok (s', [])
  | _, sp =>
    match b.beyond sp dva bs.length with
    | some y => .error ⟨1, 2, b.core, y % 2 ^ 48, 0⟩
    | none => .ok (s.copyInto c.block c.depth c.block sp dva idx bs, [])

/-- One packet: read, converted, written; the flags it raised and the receivers that failed. An element below ORIGIN, or of a
format that does not convert, stops the copy (R257, R258, R346). -/
def State.packet (s : State) (c : Copy) (x : Slice) (r off n : Nat) : Except Err (State × Flags × List Nat) :=
  let b := s.block c.block
  let src := x.srcRow c.op r
  let va := src + off
  let fmt := s.engFormat b.core b.ctx c.block c.arg.ssp va
  let srcIdx := fmt.elim 0 Prod.snd
  match s.packetRead c va n with
  | .error e => .error e
  | .ok (bs, s1) =>
    match c.arg.cvf with
    | none =>
      match s1.packetWrite c x (x.dstRow c.op r + off) (c.stampOf srcIdx) bs with
      | .error e => .error e
      | .ok (s2, no) => .ok (s2, 0, no)
    | some to_ =>
      let es := (s.rowElems b.core b.ctx c.block c.arg src).map Prod.fst
      match fmt.bind fun f => (convBytes f.1).map fun w => (f.1.fmt, w) with
      | none => .error ⟨1, 2, b.core, va, 0⟩
      | some (from_, w) =>
        if es ≠ some w ∨ x.rowb % w ≠ 0 ∨ fmt.any (fun f => decide (va < f.1.origin)) then .error ⟨1, 2, b.core, va, 0⟩
        else
          let ed := fmtWidth to_.toNat / 8
          let (out, fl) := convBytesOf x from_ to_.toNat w ed r (off / w) bs
          match s1.packetWrite c x (x.dstRow c.op r + off / w * ed) (c.stampOf srcIdx) out with
          | .error e => .error e
          | .ok (s2, no) => .ok (s2, fl, no)

/-- A multicast's packet waits for earlier messages of its core to a receiver's (R295). -/
def State.castWaits (s : State) (c : Copy) : Bool :=
  let core := (s.block c.block).core
  c.op == .multi && (maskMembers (c.runs.elim 0 Prod.fst)).any fun g => match s.member c.block g with
    | some m => (s.block m).core != core && s.networkBusy core (s.block m).core
    | none => false

/-- A PACKET OF A COPY is read, converted if asked, and written (R257, R258, R261, R295). -/
def execCopyPacket (id slice row packet : Nat) (s : State) : Out :=
  .next (match Tab.find s.fly.copies id with
    | none => s
    | some c => match c.slices[slice]? with
      | none => s
      | some x =>
        if c.stage ≠ .running ∨ c.ending ≠ 0 ∨ row ≥ x.count ∨ c.landed.contains (slice, row, packet) ∨ s.castWaits c then s
        else match (s.rowPackets c x row)[packet]? with
          | none => s
          | some (off, n) => match s.packet c x row off n with
            | .error e => s.updCopy id fun c => c.stop slice e
            | .ok (s1, fl, no) =>
              let b := s.block c.block
              let s2 := (s1.spend b.core (some c.block) b.ctx (s.weight 6)).orFlags x.wave fl
              s2.updCopy id fun c => { c with
                landed := (slice, row, packet) :: c.landed
                failed := no ++ c.failed.filter fun g => !no.contains g
                err := if no.isEmpty then c.err else firstErr c.err (some ⟨1, 2, b.core, 0, 0⟩) })

/-- Every packet of a copy has landed. -/
def State.allLanded (s : State) (c : Copy) : Bool := (s.unlanded c).isEmpty

/-- The token's word of a copy (R251). -/
def Copy.word (c : Copy) : Word :=
  tokenWord { c.err.getD Err.none with detail := c.landed.length } c.ending c.landed.length

/-- A COLLECTIVE ENDS: its tokens and its entry are written together, and it is gone (R252, R253, R255). -/
def State.finishCopy (s : State) (id : Nat) (c : Copy) : State :=
  let b := s.block c.block
  let s1 := (s.endTokens c c.word).updFly fun f => { f with copies := Tab.del f.copies id }
  match c.err with
  | none => s1
  | some e =>
    let ident := (c.slices[c.errBy]?).elim 0 fun x => s.refHandle x.wave
    s1.opEnd b.launch ident 1 b.ctx { e with detail := min c.landed.length 0x3FFFFF }

/-- The decrements of a copy's counter, none where no arrival read its handle, with the error that a failing one reports
(R250, R261, R263, R400). -/
def State.copySignals (s : State) (c : Copy) : State × Option Err :=
  let b := s.block c.block
  let h := c.runs.elim (0 : DWord) Prod.snd
  if c.runs.isNone then (s, none) else
  match c.op with
  | .signal => if c.ending = 2 ∨ !c.agree then (s, none) else s.engDec b.core b.ctx 2 h c.dec
  | .multi =>
    if c.ending ≠ 0 ∨ !c.sig then (s, none)
    else ((maskMembers (c.runs.elim 0 Prod.fst)).filter fun g => !c.failed.contains g).foldl (fun p _ =>
      let (s1, e) := p.1.engDec b.core b.ctx 2 h 1
      (s1, firstErr p.2 e)) (s, none)
  | _ => (s, none)

/-- A COPY ENDS after its last packet, an error or its cancellation: its counter is decremented, then its tokens are
written (R255, R261, R263, R266). A put ends by its acknowledgement. -/
def execCopyComplete (id : Nat) (s : State) : Out :=
  .next (match Tab.find s.fly.copies id with
    | none => s
    | some c =>
      let done := c.stage == .running && (c.ending != 0 || (s.allLanded c && (c.op != .window || c.runs.isNone)))
      if !done then s
      else
        let (s1, e) := s.copySignals c
        let c' := { c with err := firstErr c.err e }
        let b := s.block c.block
        s.endOr id b.launch b.ctx (c'.err.getD Err.none) (s1.finishCopy id c'))

/-- A PUT HAS MERGED at its target: the window's counter steps once. One to another device first leaves through a port,
and its flits are acknowledged (R224, R264, R314, R408, R424). -/
def execWindowPutMerge (id : Nat) (s : State) : Out :=
  .next (match Tab.find s.fly.copies id with
    | none => s
    | some c =>
      if c.op ≠ .window ∨ c.runs.isNone ∨ c.stage ≠ .running ∨ c.ending ≠ 0 ∨ c.merged ∨ !s.allLanded c then s
      else
        let h := c.runs.elim (0 : DWord) Prod.snd
        let s1 := s.updCopy id fun c => { c with merged := true }
        if windowDevice h ≠ s.dev.id then
          (if !c.sent then
            match s.sendFlits (s.block c.block).core (windowDevice h) (.put id) with
            | none => s
            | some s2 => s2.updCopy id fun c => { c with sent := true }
          else if s.unacked (.put id) then s else s1)
        else (s1.updDev fun d => { d with winIn := Tab.upd d.winIn (handleLow h % 4096) fun w =>
          { w with tcnt := (w.tcnt + 1) % 2 ^ 64 } }).retest)

/-- A PUT IS ACKNOWLEDGED: the source's counter steps and the token is written. Of a put to another device the answer is
a free value: acknowledged, refused, or a translation failure there (R264, R364; log 4). -/
def execWindowPutAck (id : Nat) (s : State) : Out :=
  .next (match Tab.find s.fly.copies id with
    | none => s
    | some c =>
      let h := c.runs.elim (0 : DWord) Prod.snd
      let b := s.block c.block
      if c.op ≠ .window ∨ c.stage ≠ .running ∨ c.ending ≠ 0 ∨ !c.merged then s
      else
        let answer := if windowDevice h = s.dev.id then 0 else Config.choice 12 s.free 3 % 3
        let cls := [0, 5, 3].getD answer 0
        if cls = 0 then
          let step := fun d : Device => (s.outWindow b.ctx h).elim d.winOut fun n =>
            Tab.upd d.winOut n fun w => { w with scnt := (w.scnt + 1) % 2 ^ 64 }
          let s1 := s.updDev fun d => { d with winOut := step d }
          (s1.retest.finishCopy id c).drew
        else
          let e : Err := ⟨cls, 6, s.putPort c, 0, 0⟩
          s.endOr id b.launch b.ctx e (s.finishCopy id (c.stop 0 e)).drew)

/-! ### Shadow bindings -/

/-- The bindings of a context in force (R204). -/
def Context.current (c : Context) : List (Binding × Nat) := c.binds.zipIdx.filter fun b => b.1.until_.isNone

/-- The checks of SHADOW's descriptor (R253, R267). -/
def shadowChecks (base size : Nat) : Option Cause :=
  if base + size > 2 ^ 48 then some .translation
  else if base % 4096 ≠ 0 ∨ size % 4096 ≠ 0 ∨ size = 0 ∨ size > 2 ^ 30 then some .misaligned
  else none

/-- A run of SHADOW read and checked (R250, R267). -/
def Iss.shadowRun (i : Iss) (a : Reg) (go : Nat → Nat → Eff) : Eff :=
  if i.idle then .done i.t
  else i.runUniform a 3 (
    let base := (i.desc2 a 0).toNat
    let size := (i.desc a 2).toNat
    match shadowChecks base size with
    | some c => i.raise c (some (BitVec.ofNat 64 base)) i.act
    | none => i.afterPublish (go base size))

/-- SHADOW (R204, R267). -/
def execShadow (h : Hdr) (d a : Reg) (s : State) : Out :=
  issue s { h := h, srcs := runOf a 3, dsts := [d.toNat] } fun i => i.shadowRun a fun base size =>
    let cur := (i.s.ctx i.w.ctx).current
    if cur.any fun b => decide (b.1.base < base + size) && decide (base < b.1.base + b.1.size) then
      i.raise .permission (some (BitVec.ofNat 64 base)) i.act
    else if cur.length ≥ 256 then i.token i.t d ⟨9, 2, i.core, 0, 0⟩
    else
      let (n, t) := i.t.named
      i.token (t.updCtx i.w.ctx fun c => { c with binds := c.binds ++ [⟨base, size, [], i.blk, i.b.depth, n, none⟩] }) d Err.none

/-- A PUBLISH or a drop on its way, its token pending in `lanes`. -/
def State.addShadowing (s : State) (id : Nat) (x : Shadowing) : State :=
  s.updFly fun f => { f with shadows := Tab.put f.shadows id x }

/-- A binding takes no engine write named from `n` on; for PUBLISH.keep a fresh one follows it (R268). -/
def State.closeBind (s : State) (ctx at_ n : Nat) (keep : Bool) : State :=
  match (s.ctx ctx).binds[at_]? with
  | none => s
  | some b =>
    let s1 := s.updBind ctx at_ fun b => { b with until_ := some n }
    if keep then s1.updCtx ctx fun c => { c with binds := c.binds ++ [{ b with pages := [], since := n, until_ := none }] }
    else s1

/-- SHADOW.drop (R267). -/
def execShadowDrop (h : Hdr) (d a : Reg) (s : State) : Out :=
  issue s { h := h, srcs := runOf a 3, dsts := [d.toNat] } fun i => i.shadowRun a fun base size =>
    match (i.s.ctx i.w.ctx).current.find? fun b => b.1.base == base && b.1.size == size with
    | none => i.token i.t d ⟨1, 2, i.core, 0, 0⟩
    | some (_, at_) =>
      let (n, t) := (i.t.pendWords i.k (i.lanes.map fun l => (d.toNat, l))).named
      .done ((t.closeBind i.w.ctx at_ n false).addShadowing n
        ⟨i.w.ctx, i.blk, i.k, d.toNat, i.act, base, false, true, false, none, i.b.depth, n⟩)

/-- The own part of PUBLISH (R268, R269). -/
def Iss.publishRange (i : Iss) (d a : Reg) (sig : Option Reg) (keep : Bool) : Eff :=
  let words := fun l => (List.range 2).map (fun j => i.rd (a.toNat + j) l) ++
    (sig.elim [] fun r => (List.range 2).map fun j => i.rd (r.toNat + j) l)
  if i.idle then .done i.t
  else i.uniform (i.differ words) (i.afterPublish (
    let base := (i.desc2 a 0).toNat
    let ctr := sig.map fun r => i.desc2 r 0
    match (i.s.ctx i.w.ctx).current.find? fun b => b.1.base == base with
    | none => i.token i.t d ⟨1, 2, i.core, 0, 0⟩
    | some (_, at_) =>
      if i.b.depth ≠ 0 then
        let (n, t) := (i.t.deliverToken i.k d.toNat i.act (tokenWord Err.none 3 0) none).named
        .done ((t.addShadowing n ⟨i.w.ctx, i.blk, i.k, d.toNat, 0, base, keep, false, true, ctr, i.b.depth, n⟩).updRcv i.blk
          fun r => r.updFrame i.b.depth fun f => { f with defer := true })
      else
        let (n, t) := (i.t.pendWords i.k (i.lanes.map fun l => (d.toNat, l))).named
        .done ((t.closeBind i.w.ctx at_ n keep).addShadowing n
          ⟨i.w.ctx, i.blk, i.k, d.toNat, i.act, base, keep, false, false, ctr, 0, n⟩)))

/-- PUBLISH (R268, R269). -/
def execPublish (h : Hdr) (d a : Reg) (sig : Option Reg) (s : State) : Out :=
  issue s { h := h, srcs := runOf a 2 ++ (sig.elim [] fun r => runOf r 2), dsts := [d.toNat] } fun i =>
    i.publishRange d a sig false

/-- PUBLISH.keep (R268, R269). -/
def execPublishKeep (h : Hdr) (d a : Reg) (sig : Option Reg) (s : State) : Out :=
  issue s { h := h, srcs := runOf a 2 ++ (sig.elim [] fun r => runOf r 2), dsts := [d.toNat] } fun i =>
    i.publishRange d a sig true

/-- A copy may still write a range of g by a slice that issued before `n`; of a scatter that has not started, whose indices
are not read yet, any row may (R260, R267, R268). -/
def State.copyInRange (s : State) (c : Copy) (ctx base size n : Nat) : Bool :=
  c.stage != .ended && c.arg.dsp == .g && c.op != .window && (s.block c.block).ctx == ctx && c.slices.any fun x =>
    decide (x.order < n) && (c.op == .scatter && c.stage == .gathering && x.count != 0 || (List.range x.count).any fun r =>
      let a := x.dstRow c.op r
      let (es, ed) := (s.rowElems (s.block c.block).core ctx c.block c.arg (x.srcRow c.op r)).getD (1, 8)
      decide (a < base + size) && decide (base < a + x.rowb / es * ed))

/-- Engine writes into a range that issued before `n` are in flight. -/
def State.writesInto (s : State) (ctx base size n : Nat) : Bool :=
  (s.fly.copies.any fun p => s.copyInRange p.2 ctx base size n) ||
  s.fly.tiles.any fun p => decide (p.1 < n) && (s.block p.2.block).ctx == ctx && (match p.2.op with
    | .drain x _ _ _ _ _ _ _ => x.toG || x.out.isSome
    | _ => false)

/-- A page's entries name its shadow from now on, for every observer; the old frame returns to the pool (R204, R221). -/
def State.swapPage (s : State) (ctx page frame : Nat) : State :=
  match walk s.mem (fun _ => none) (s.rootOf ctx) page with
  | .error _ => s.freeFrame ctx frame 4096
  | .ok w =>
    let n := w.size / 2 ^ levelShift w.level
    let old := ptePa w.leaf
    let s1 := (List.range n).foldl (fun s j =>
      let at_ := w.entry + 8 * j
      let e : DWord := BitVec.ofNat 64 (s.mem.leAt at_ 8)
      let e' := (e &&& ~~~(0x000FFFFFFFFFF000 : DWord)) ||| BitVec.ofNat 64 frame
      s.homeWrite (placeBytes at_ 8 e'.toNat)) s
    (s1.invalidateRange ctx page w.size).freeFrame ctx old w.size

/-- The binding that a PUBLISH or a drop closed is gone: its shadows swapped in, or freed. -/
def State.settleBind (s : State) (ctx base n : Nat) (publish : Bool) : State :=
  match (s.ctx ctx).binds.find? fun b => b.base == base && b.until_ == some n with
  | none => s
  | some b =>
    let s1 := b.pages.foldl (fun s p =>
      if publish then s.swapPage ctx p.1 p.2
      else match walk s.mem (fun _ => none) (s.rootOf ctx) p.1 with
        | .ok w => s.freeFrame ctx p.2 w.size
        | .error _ => s.freeFrame ctx p.2 4096) s
    s1.updCtx ctx fun c => { c with binds := c.binds.filter fun x => !(x.base == base && x.until_ == some n) }

/-- A PUBLISH SWAPS, or a drop frees its shadows, after every earlier engine write into the range; then the counter is
decremented and the token written (R204, R221, R267, R268, R400). -/
def execShadowPublishSwap (id : Nat) (s : State) : Out :=
  .next (match Tab.find s.fly.shadows id with
    | none => s
    | some x =>
      let size := (((s.ctx x.ctx).binds.find? fun b => b.base == x.base && b.until_ == some x.order).map (·.size)).getD 0
      let b := s.block x.block
      if x.deferred || s.writesInto x.ctx x.base size x.order then s
      else
        let s1 := s.settleBind x.ctx x.base x.order (!x.drop)
        let (s2, e) := match x.ctr with
          | some h => s1.engDec b.core x.ctx 2 h 1
          | none => (s1, none)
        let e' := e.getD Err.none
        let s3 := (s2.updFly fun f => { f with shadows := Tab.del f.shadows id }).landToken x.wave x.token x.lanes
          (tokenWord e' 0 0)
        s.endOr id b.launch x.ctx e' (s3.opEnd b.launch (s.refHandle x.wave) 1 x.ctx e'))

end Sys2Proof.Machine
end

