-- ==== Sys2Proof/Machine/CrossLane.lean ====
section
/-! DEFINITION. Cross-lane instructions (R59, R60, R165 to R169). -/

namespace Sys2Proof.Machine

/-- The lanes of ACTIVE whose source lane has a bit of the register's mask set; an exited source is not examined (R165). -/
def Iss.sourced (i : Iss) (src : Nat → Option Nat) (m : Mask) : Mask :=
  Mask.of fun l => i.act.getLsbD l &&
    match src l with
    | some j => i.w.live.getLsbD j && m.getLsbD j
    | none => false

/-- The source lanes in ACTIVE with a bit of the mask set. -/
def Iss.sources (i : Iss) (src : Nat → Option Nat) (m : Mask) : Mask :=
  i.lanes.foldl (fun a l =>
    match src l with
    | some j => if i.act.getLsbD j && m.getLsbD j then setBit a j else a
    | none => a) 0

/-- The checks of the source words that active lanes fetch from other lanes: a pending one stalls, an uncorrectable one
of an active lane faults, any other bad one faults with POISON in its receivers (R92, R93, R165). -/
def Iss.fetch (i : Iss) (rs : List Nat) (src : Nat → Option Nat) (go : Eff) : Eff :=
  let pend := fun r => i.sourced src (Tab.get 0 i.w.pend r)
  let ecc := fun r => i.sources src (Tab.get 0 i.w.ecc r)
  let bad := fun r => i.sourced src (Tab.get 0 i.w.pois r ||| Tab.get 0 i.w.ecc r)
  if rs.any fun r => pend r != 0 then .stall
  else match rs.find? fun r => ecc r != 0 with
    | some r => i.raise .uncorrectable (some (BitVec.ofNat 64 r)) (ecc r)
    | none => match rs.find? fun r => bad r != 0 with
      | some r => i.raise .poison (some (BitVec.ofNat 64 r)) (bad r)
      | none => go

/-- The bits of a lane's operand as another lane reads them: zero when that lane has exited (R165). -/
def Iss.across (i : Iss) (t : RType) (a : Reg) (j : Nat) : Nat := if i.w.live.getLsbD j then i.raw t a j else 0

/-- A shuffle: each active lane takes the word of its source lane, or its fill (R167). -/
def Iss.shuffle (i : Iss) (t : RType) (d a : Reg) (fill : Option Reg) (idx : Nat → Int) : Eff :=
  let src := fun l =>
    let j := idx l
    if 0 ≤ j ∧ j < 32 then some j.toNat
    else match fill with
      | some _ => none
      | none => some (j % 32).toNat
  i.fetch (regsOf t a) src (i.lanesT 4 t d fun l =>
    match src l with
    | some j => i.across t a j
    | none => match fill with
      | some c => i.raw t c l
      | none => 0)

/-- The registers of a fill. -/
def fillRegs (t : RType) : Option Reg → List Nat
  | some c => regsOf t c
  | none => []

/-- SHFL (R167). -/
def execShfl (h : Hdr) (t : RType) (d a b : Reg) (fill : Option Reg) (s : State) : Out :=
  issue s { h := h, srcs := b.toNat :: fillRegs t fill, dsts := regsOf t d, cross := regsOf t a } fun i =>
    i.shuffle t d a fill fun l => (i.rd b.toNat l).toNat

/-- SHFLX (R167). -/
def execShflx (h : Hdr) (t : RType) (d a : Reg) (mask : BitVec 5) (s : State) : Out :=
  issue s { h := h, srcs := [], dsts := regsOf t d, cross := regsOf t a } fun i =>
    i.shuffle t d a none fun l => ((l ^^^ mask.toNat : Nat) : Int)

/-- SHFLUP (R167). -/
def execShflup (h : Hdr) (t : RType) (d a : Reg) (n : BitVec 5) (fill : Option Reg) (s : State) : Out :=
  issue s { h := h, srcs := fillRegs t fill, dsts := regsOf t d, cross := regsOf t a } fun i =>
    i.shuffle t d a fill fun l => (l : Int) - n.toNat

/-- SHFLDN (R167). -/
def execShfldn (h : Hdr) (t : RType) (d a : Reg) (n : BitVec 5) (fill : Option Reg) (s : State) : Out :=
  issue s { h := h, srcs := fillRegs t fill, dsts := regsOf t d, cross := regsOf t a } fun i =>
    i.shuffle t d a fill fun l => (l : Int) + n.toNat

/-- BCAST (R168). -/
def execBcast (h : Hdr) (t : RType) (d a : Reg) (src : LaneSel) (s : State) : Out :=
  let rs := match src with
    | .imm _ => []
    | .reg b => [b.toNat]
  issue s { h := h, srcs := rs, dsts := regsOf t d, cross := regsOf t a } fun i =>
    match src with
    | .imm n => i.shuffle t d a none fun _ => (n.toNat : Int)
    | .reg b =>
      i.uniform (i.differ fun l => i.rd b.toNat l)
        (i.shuffle t d a none fun _ => ((i.rd b.toNat i.low).toNat % 32 : Nat))

/-- The identity of a reduction as bits of the type (R59, R169). -/
def redIdentity (op : RedOp) (t : RType) : Nat :=
  let f := RType.ffmt t
  let (lo, hi) := intBounds (RType.ew t) t.isSigned
  match op with
  | .add => if RType.isFloat t then f.signBit true else 0
  | .min => if RType.isFloat t then f.infCode false else bitsOfInt (RType.ew t) hi
  | .max => if RType.isFloat t then f.infCode true else bitsOfInt (RType.ew t) lo
  | .and => 2 ^ RType.ew t - 1
  | .or | .xor => 0

/-- One step of a reduction on bits of the type, with its flags (R59, R60, R169). -/
def redStep (op : RedOp) (t : RType) (r : Rnd) (sat : Bool) (a b : Nat) : Nat × Flags :=
  if RType.isFloat t then
    let f := RType.ffmt t
    let x := f.decode a
    let y := f.decode b
    match op with
    | .add =>
      let (v, fl) := FVal.add r.mode x y
      let (c, fr) := f.ofVal r sat v
      (c, fl ||| fr)
    | .min => let (v, fl) := FVal.minmax false x y; ((f.ofVal Rnd.rne false v).1, fl)
    | _ => let (v, fl) := FVal.minmax true x y; ((f.ofVal Rnd.rne false v).1, fl)
  else
    let x := RType.int t a 0
    let y := RType.int t b 0
    (match op with
      | .add => bitsOfInt (RType.ew t) (x + y)
      | .min => bitsOfInt (RType.ew t) (min x y)
      | .max => bitsOfInt (RType.ew t) (max x y)
      | .and => a &&& b
      | .or => a ||| b
      | .xor => a ^^^ b, 0)

/-- One level of the tree: neighbours combined, `col` numbering the steps (R59, R169). -/
def redLevel (step : Nat → Nat → Nat → Nat × Flags) : Nat → List Nat → List Nat × Flags
  | col, a :: b :: vs =>
    let (v, f) := step col a b
    let (ws, g) := redLevel step (col + 1) vs
    (v :: ws, f ||| g)
  | _, _ => ([], 0)

/-- The tree of R59: `n` levels from `col` on, over `2^n` values. -/
def redTree (step : Nat → Nat → Nat → Nat × Flags) : Nat → Nat → List Nat → Nat × Flags
  | 0, _, vs => (vs.headD 0, 0)
  | n + 1, col, vs =>
    let (ws, f) := redLevel step col vs
    let (v, g) := redTree step n (col + 2 ^ n) ws
    (v, f ||| g)

/-- The fold of R60: every prefix, with flags. The first value, which no step combines, stands as it is, a NaN too, and sets
no flag (DESIGN CHOICE, log 65). -/
def redScan (step : Nat → Nat → Nat → Nat × Flags) : Nat → Nat → List Nat → List Nat × Flags
  | _, _, [] => ([], 0)
  | col, acc, v :: vs =>
    let (a, f) := if col = 0 then (v, 0) else step col acc v
    let (ws, g) := redScan step (col + 1) a vs
    (a :: ws, f ||| g)

/-- The 32 values that a reduction combines: the identity outside ACTIVE (R59, R169). -/
def Iss.redVals (i : Iss) (op : RedOp) (t : RType) (a : Reg) : List Nat :=
  (List.range 32).map fun l => if i.act.getLsbD l then i.raw t a l else redIdentity op t

/-- A reduction's step with the generator's column (R169). -/
def Iss.redStep (i : Iss) (op : RedOp) (t : RType) (m : RMode) (sat : Bool) (col a b : Nat) : Nat × Flags :=
  Machine.redStep op t (i.w.rnd m col) sat a b

/-- A reduction rounds: it adds floats. -/
def redRounds (op : RedOp) (t : RType) : Bool := op == .add && RType.isFloat t

/-- The result of a reduction written, with its flags. -/
def Iss.redDone (i : Iss) (op : RedOp) (t : RType) (m : RMode) (d : Reg) (f : Nat → Nat) (fl : Flags) : Eff :=
  let s1 := i.t.putWords i.k 6 (i.lanes.foldr (fun l ws => RType.words t d l (f l) ++ ws) [])
  let s2 := s1.orFlagsAt i.k 6 i.path fl
  .done (if i.idle then s1 else if redRounds op t then s2.stepSto i.k m else s2)

/-- WRED (R59, R169). -/
def execWred (h : Hdr) (op : RedOp) (t : RType) (m : RMode) (sat : Bool) (d a : Reg) (s : State) : Out :=
  issue s (need3 h t d [a]) fun i =>
    let r := redTree (i.redStep op t m sat) 5 0 (i.redVals op t a)
    i.redDone op t m d (fun _ => r.1) r.2

/-- WSCAN (R60, R169). -/
def execWscan (h : Hdr) (op : RedOp) (t : RType) (m : RMode) (sat : Bool) (d a : Reg) (s : State) : Out :=
  issue s (need3 h t d [a]) fun i =>
    let r := redScan (i.redStep op t m sat) 0 0 (i.redVals op t a)
    i.redDone op t m d (fun l => r.1.getD l 0) r.2

end Sys2Proof.Machine
end

