-- ==== Sys2Proof/Machine/Tile.lean ====
section
/-! DEFINITION. Tile operations and the matrix engine (R52, R55 to R58, R110, R111, R198, R270 to R281). -/

namespace Sys2Proof.Machine

/-! ### Configurations and tiles -/

/-- Tile rows of a configuration version (R273). -/
def cfgRows (c : BitVec 128) : Nat := 16 * ((c.extractLsb' 0 3).toNat + 1)
/-- Tile columns. -/
def cfgCols (c : BitVec 128) : Nat := 16 * ((c.extractLsb' 4 3).toNat + 1)
/-- The dropout threshold. -/
def cfgThr (c : BitVec 128) : Nat := (c.extractLsb' 16 16).toNat
/-- The keep factor. -/
def cfgKeep (c : BitVec 128) : FVal := ffF32.decode (c.extractLsb' 32 32).toNat
/-- The generator's low seed. -/
def cfgLo (c : BitVec 128) : Word := c.extractLsb' 64 32
/-- The generator's high seed. -/
def cfgHi (c : BitVec 128) : Word := c.extractLsb' 96 32

/-- The tiles of a block's accumulator allocation (R270). -/
def Block.tileCount (b : Block) : Nat := min 8 ((b.c.size + 65535) / 65536)

/-- Bytes of an accumulator element. -/
def accBytes (wide : Bool) : Nat := if wide then 8 else 4

/-- Where a row of a tile starts in c; `wide` for an f64 tile (R270). -/
def accAddr (tile row : Nat) (wide : Bool) : Nat := tile * 65536 + row * (128 * accBytes wide)

/-- The stored bits of the first `n` elements of a row. -/
def Block.accRow (b : Block) (tile row : Nat) (wide : Bool) (n : Nat) : List Nat :=
  (List.range n).map fun j => leNat (b.c.take (accAddr tile row wide + accBytes wide * j) (accBytes wide))

/-- The sum of elements' bits that a checksum holds: both halves of an f64 element (R271). -/
def checkSum (wide : Bool) (vs : List Nat) : Word :=
  vs.foldl (fun (a : Word) v => a + BitVec.ofNat 32 v + (if wide then BitVec.ofNat 32 (v / 2 ^ 32) else 0)) 0

/-- The key of a row's checksum. -/
def sumKey (tile row : Nat) : Nat := tile * 128 + row

/-- A row's checksum agrees with its elements (R271). -/
def Block.rowOk (b : Block) (tile row : Nat) (wide : Bool) : Bool :=
  checkSum wide (b.accRow tile row wide 128) == Tab.get 0 b.sums (sumKey tile row)

/-- The status word of a tile (R270). -/
def Block.tileStatus (b : Block) (tile : Nat) : Word := Tab.get 0 b.tiles tile

/-- The state with a tile's status word changed. -/
def State.updTile (s : State) (blk tile : Nat) (f : Word → Word) : State :=
  s.updBlock blk fun b => { b with tiles := Tab.set 0 b.tiles tile (f (b.tileStatus tile)) }

/-- The status word of a freshly written tile of an accumulator type. -/
def freshStatus (cls : Nat) : Word := BitVec.ofNat 32 (cls * 16)

/-- The record of an accumulator segment, with the row's checksum and, for the tile's first, its status (R377). -/
def State.recordAcc (s : State) (blk d tile row seg : Nat) : State :=
  let b := s.block blk
  let known := b.rcv.recs.any fun r => r.depth == d && match r.val with
    | .acc _ _ _ (some (t, _)) => t == tile
    | _ => false
  let k := sumKey tile row
  s.recordAt blk 0 d (.acc seg) (.acc (b.c.take (128 * seg) 128) k (Tab.get 0 b.sums k)
    (if known then none else some (tile, b.tileStatus tile)))

/-- Elements of a row written from its first on, recorded, with the checksum kept (R271, R377). -/
def State.accWrite (s : State) (blk d tile row : Nat) (wide : Bool) (vs : List Nat) : State :=
  let at_ := accAddr tile row wide
  let s1 := (unitsOfSpan at_ (accBytes wide * vs.length) 128).foldl (fun s g => s.recordAcc blk d tile row g) s
  s1.updBlock blk fun b =>
    let k := sumKey tile row
    let sum := Tab.get 0 b.sums k - checkSum wide (b.accRow tile row wide vs.length) + checkSum wide vs
    { b with
      c := b.c.put at_ (vs.flatMap fun v => leBytes (accBytes wide) v)
      sums := Tab.set 0 b.sums k sum }

/-! ### Issue -/

/-- The accumulator type that TLOADC loads, as CLS (R270, R274). -/
def TileKind.cls : TileKind → Nat
  | .f32 => 1
  | .s32 => 2
  | .f64 => 3

/-- CLS of a tile as it will stand after every operation issued before (R272; log 40). -/
def State.clsAhead (s : State) (blk tile : Nat) : Nat :=
  s.fly.tiles.foldl (fun c p =>
    if p.2.block = blk ∧ p.2.tile = tile then match p.2.op with
      | .zero => 0
      | .load k _ _ _ _ => TileKind.cls k
      | .mmt _ _ _ _ _ _ _ n => if c = 0 then n else c
      | _ => c
    else c) ((s.block blk).cls tile)

/-- The tiles that an operation takes its turn among: an f64 tile is two (R270). -/
def tilesOf (tile : Nat) (wide : Bool) : List Nat := if wide then [tile, tile + 1] else [tile]

/-- The step and address first in the order of R232, the lowest address within a step. -/
def leastMiss (ms : List (Option Miss)) : Option Miss :=
  ms.foldl (fun a m => match a, m with
    | some x, some y => if y.step < x.step ∨ (y.step = x.step ∧ y.addr < x.addr) then some y else some x
    | none, y => y
    | x, none => x) none

/-- The checks of a tile instruction, in the order of R232 from step 5 on, with TILE_CONFIG after them (R253). -/
def Iss.tileChecks (i : Iss) (ms : List (Option Miss)) (go : Eff) : Eff :=
  match leastMiss ms with
  | none => go
  | some m => i.raise m.cause (if m.cause = .tileConfig then none else some (BitVec.ofNat 64 m.addr)) i.act

/-- TILE_CONFIG under a condition. -/
def badTile (c : Bool) : Option Miss := missIf c 12 0 .tileConfig 0

/-- BUFFER_PERMISSION of tiles beyond the allocation (R270). -/
def Iss.tileMiss (i : Iss) (tiles : List Nat) : Option Miss :=
  (tiles.find? fun t => decide (i.b.tileCount ≤ t)).map fun t => ⟨8, 0, .bufferPermission, t * 65536⟩

/-- A tile operation issued: its token or destination pends (R252, R272). -/
def Iss.tileOp (i : Iss) (d : Reg) (op : TileKindOp) (tile : Nat) (tiles : List Nat) : State :=
  let (order, t1) := i.t.named
  let o : TileOp := ⟨op, tile, tiles, i.blk, i.k, d.toNat, i.act, i.w.tcfg, i.w.tcur, 0, none, 0, i.b.depth,
    i.w.trap.level, none⟩
  (t1.pendWords i.k (i.lanes.map fun l => (d.toNat, l))).updFly fun f => { f with tiles := Tab.put f.tiles order o }

/-- The version slots that are free: not current, and recorded by no tile operation in flight (R111). -/
def State.freeVersion (s : State) (k : Nat) : Option Nat :=
  (List.range 4).find? fun v => v != (s.wave k).tcur && !(s.fly.tiles.any fun p => p.2.wave == k && p.2.ver == v)

/-- TCFG (R111, R250, R273). -/
def execTcfg (h : Hdr) (a : Reg) (s : State) : Out :=
  issue s { h := h, srcs := runOf a 4, dsts := [] } fun i =>
    if i.idle then .done i.t
    else i.uniform (i.differ fun l => (List.range 4).map fun j => i.rd (a.toNat + j) l) (
      let w := fun j => i.desc a j
      if w 0 &&& 0xFF88 ≠ 0 then i.raise .tileConfig none i.act
      else match i.s.freeVersion i.k with
        | none => .stall
        | some v => .done (i.t.updWave i.k fun x =>
            { x with tcfgs := Tab.set 0 x.tcfgs v (w 3 ++ w 2 ++ w 1 ++ w 0), tcur := v }))

/-- TZERO (R274). -/
def execTzero (h : Hdr) (d : Reg) (tile : BitVec 3) (s : State) : Out :=
  issue s { h := h, srcs := [], dsts := [d.toNat] } fun i =>
    if i.idle then .done i.t
    else
      let t := tile.toNat
      i.tileChecks [i.tileMiss [t]] (.done (i.tileOp d .zero t (tilesOf t (i.s.clsAhead i.blk t == 3))))

/-- The misses of rows of `nel` elements in a buffer: group or block boundaries where they are asked for, the allocation,
the origin, the scales (R185, R230, R275, R280, R346). -/
def Block.rowMisses (b : Block) (sp : Space) (f : Fdt) (starts : List Nat) (nel : Nat) (group whole : Bool) :
    List (Option Miss) :=
  let w := fmtWidth f.fmt
  let n := (nel * w + 7) / 8
  let sz := fmtScaleBytes f.fmt
  let unit : Int := if w = 6 then 3 else 1
  missIf f.bad 10 1 .format 0 :: starts.flatMap fun (a : Nat) =>
    let off : Int := (a : Int) - f.origin
    let blocks := if fmtBlock f.fmt ∧ 0 ≤ off then unitsOfSpan (off.toNat * 8 / w) nel 32 else []
    [missIf (group && !f.bad && off % unit != 0) 6 0 .misaligned a,
     missIf (whole && !f.bad && fmtBlock f.fmt && off * 8 % (32 * w) != 0) 6 0 .misaligned a,
     (b.beyond sp a n).map fun x => ⟨8, 0, .bufferPermission, x⟩,
     missIf (f.fmt != 0 && decide (off < 0)) 10 1 .format a] ++
    blocks.map fun k => (b.beyond sp (f.scaleAt k sz) sz).map fun x => ⟨8, 0, .bufferPermission, x⟩

/-- The starts of rows (R257, R274, R275). -/
def rowStarts (base : Nat) (str : Int) (rows : Nat) : List Nat := (List.range rows).map fun (r : Nat) => rowAt base str (r : Int)

/-- A format that TLOADC and a residual take: a plain element format (R274, R279). -/
def plainFmt (c : Nat) : Bool := c != 0 && !fmtBlock c

/-- The own part of TLOADC (R274). -/
def Iss.tloadc (i : Iss) (k : TileKind) (m : RMode) (d a : Reg) (t : Nat) : Eff :=
  let addr := (i.desc a 0).toNat
  let str := (i.desc a 1).toInt
  let n := (i.b.buf .a).index .a addr
  let f := i.s.fdt i.core i.w.ctx n
  let wide := k == .f64
  let cfg := i.w.tcfg
  i.tileChecks
    ([i.tileMiss (tilesOf t (wide && t % 2 == 0)), badTile (wide && t % 2 == 1), badTile (!f.bad && !plainFmt f.fmt)] ++
     i.b.rowMisses .a f (rowStarts addr str (cfgRows cfg)) (cfgCols cfg) false false)
    (let t1 := i.tileOp d (.load k (i.w.mode m) addr str f) t (tilesOf t wide)
     .done ((t1.fdtUsed i.core i.w.ctx n).stepSto i.k m))

/-- TLOADC (R274). -/
def execTloadc (h : Hdr) (k : TileKind) (m : RMode) (d a : Reg) (tile : BitVec 3) (s : State) : Out :=
  issue s { h := h, srcs := runOf a 2, dsts := [d.toNat] } fun i =>
    if i.idle then .done i.t
    else i.uniform (i.differ fun l => (i.rd a.toNat l, i.rd (a.toNat + 1) l)) (i.tloadc k m d a tile.toNat)

/-- A format of the exact-sum class (R55). -/
def exactFmt (c : Nat) : Bool := (decide (3 ≤ c) && decide (c ≤ 9)) || fmtBlock c

/-- The accumulator type of a pair of operand formats, 0 outside R55. -/
def mmtCls (a b : Nat) : Nat :=
  if (exactFmt a && exactFmt b) || (a == 2 && b == 2) then 1
  else if (fmtInt a).isSome && (fmtInt b).isSome then 2
  else if a == 1 && b == 1 then 3
  else 0

/-- The block that holds an operand: the issuing one or a gang member, none once that has retired (R275, R277). -/
def State.operandBlock (s : State) (blk : Nat) (m : Option (BitVec 3)) : Option Nat :=
  match m with
  | none => some blk
  | some g => s.member blk g.toNat

/-- The space of operand A (R275). -/
def mmtSpace (x : MmtArg) : Space := if x.aInW then .w else .a

/-- An operand of an MMT at issue: its FDT index, entry and misses (R275). -/
def Iss.operand (i : Iss) (m : Option (BitVec 3)) (sp : Space) (base : Nat) (str : Int) (rows k : Nat) :
    Nat × Option Fdt × List (Option Miss) :=
  match i.s.operandBlock i.blk m with
  | none => (0, none, [])
  | some blk =>
    let b := i.s.block blk
    let n := (b.buf sp).index sp base
    let f := i.s.fdt i.core i.w.ctx n
    (n, some f, b.rowMisses sp f (rowStarts base str rows) k true false)

/-- AMEM or BMEM outside a gang, or the issuing block's own member (R275). -/
def Iss.strayMember (i : Iss) (m : Option (BitVec 3)) : Bool :=
  m.any fun g => i.b.gang.isNone || i.b.gang == some g.toNat

/-- The own part of MMT (R272, R275). -/
def Iss.mmt (i : Iss) (d a b : Reg) (x : MmtArg) : Eff :=
  let t := x.tile.toNat
  let k := 32 * (x.km1.toNat + 1)
  let cfg := i.w.tcfg
  let (aOff, aStr) := ((i.desc a 0).toNat, (i.desc a 1).toInt)
  let (bOff, bStr) := ((i.desc b 0).toNat, (i.desc b 1).toInt)
  let (an, af, am) := i.operand x.amem (mmtSpace x) aOff aStr (cfgRows cfg) k
  let (bn, bf, bm) := i.operand x.bmem .w bOff bStr (cfgCols cfg) k
  let known := af.isSome && bf.isSome
  let cls := mmtCls (af.elim 0 (·.fmt)) (bf.elim 0 (·.fmt))
  let now := i.s.clsAhead i.blk t
  let wide := cls == 3
  i.tileChecks
    ([i.tileMiss (tilesOf t (wide && t % 2 == 0)), badTile (i.strayMember x.amem || i.strayMember x.bmem),
      badTile (known && (cls == 0 || (now != 0 && now != cls) || (wide && t % 2 == 1)))] ++ am ++ bm)
    (let fmt := fun (f : Option Fdt) => f.getD Fdt.raw
     let t1 := i.tileOp d (.mmt x aOff bOff aStr bStr (fmt af) (fmt bf) cls) t (tilesOf t wide)
     .done ((t1.fdtUsed i.core i.w.ctx an).fdtUsed i.core i.w.ctx bn))

/-- MMT (R275). -/
def execMmt (h : Hdr) (d a b : Reg) (x : MmtArg) (s : State) : Out :=
  issue s { h := h, srcs := runOf a 2 ++ runOf b 2, dsts := [d.toNat] } fun i =>
    if i.idle then .done i.t
    else i.uniform (i.differ fun l => (i.rd a.toNat l, i.rd (a.toNat + 1) l, i.rd b.toNat l, i.rd (b.toNat + 1) l))
      (i.mmt d a b x)

/-- The words of a drain's runs: five of A, three of B, three of C, zero where a run is absent (R279). -/
def drainDesc (rd : Nat → Word) (a : Reg) (x : DrainArg) : List Word :=
  (List.range 5).map (fun j => rd (a.toNat + j)) ++
  (List.range 3).map (fun j => x.res.elim 0 fun r => rd (r.run.toNat + j)) ++
  (List.range 3).map (fun j => x.out.elim 0 fun r => rd (r.toNat + j))

/-- A word of a drain's runs. -/
def dword (desc : List Word) (j : Nat) : Nat := (desc.getD j 0).toNat
/-- A pair of words of a drain's runs. -/
def dpair (desc : List Word) (j : Nat) : Nat := dword desc j + 2 ^ 32 * dword desc (j + 1)
/-- Destination, residual and outlier addresses and the row strides (R279). -/
def drainDst (desc : List Word) : Nat := dpair desc 0
/-- The destination's row stride. -/
def drainStr (desc : List Word) : Int := (desc.getD 2 0).toInt
/-- The residual's address. -/
def drainRes (desc : List Word) : Nat := dpair desc 5
/-- The residual's row stride. -/
def drainRstr (desc : List Word) : Int := (desc.getD 7 0).toInt
/-- The outlier list. -/
def drainList (desc : List Word) : Nat := dpair desc 8

/-- The entry that governs a g address, if its page translates (R230). -/
def Iss.pageFdt (i : Iss) (va : Nat) (acc : Access) : Option Fdt :=
  match i.s.unitXlate i.core i.w.ctx va acc with
  | .ok x => some (i.s.fdt i.core i.w.ctx (pteFdt x.leaf))
  | .error _ => none

/-- TILE_CONFIG of a destination format (R279). -/
def badDest (f n : Nat) (out : Bool) : Bool := f == 0 || (fmtBlock f && (n % 32 != 0 || out))

/-- The misses of a drain's destination (R279, R280). -/
def Iss.drainDestMisses (i : Iss) (x : DrainArg) (desc : List Word) : List (Option Miss) :=
  let starts := rowStarts (drainDst desc) (drainStr desc) (cfgRows i.w.tcfg)
  let n := cfgCols i.w.tcfg
  if x.toG then
    let f := i.pageFdt (drainDst desc) .write
    [(rowsFar .g starts 1).map fun a => ⟨6, 0, .translation, a⟩,
     missIf (f.any (·.bad)) 10 1 .format (drainDst desc),
     badTile (f.any fun f => !f.bad && badDest f.fmt n x.out.isSome)]
  else
    let f := i.s.fdt i.core i.w.ctx x.dfdt.toNat
    badTile (!f.bad && badDest f.fmt n x.out.isSome) :: i.b.rowMisses .a f starts n true true

/-- The misses of a drain's residual, with the index of its granule in a (R279). -/
def Iss.drainResMisses (i : Iss) (x : DrainArg) (desc : List Word) : Nat × List (Option Miss) :=
  let base := drainRes desc
  let starts := rowStarts base (drainRstr desc) (cfgRows i.w.tcfg)
  let n := cfgCols i.w.tcfg
  match x.res with
  | none => (0, [])
  | some r =>
    if r.rsp = 0 then
      let k := (i.b.buf .a).index .a base
      let f := i.s.fdt i.core i.w.ctx k
      (k, badTile (!f.bad && !plainFmt f.fmt) :: i.b.rowMisses .a f starts n false false)
    else if r.rsp = 1 then
      let t := base / 65536
      (0, [badTile (base % 65536 != 0 || desc.getD 7 0 != 0 || decide (i.b.tileCount ≤ t) || i.s.clsAhead i.blk t != 1)])
    else
      let f := i.pageFdt base .read
      (0, [(rowsFar .g starts 1).map fun a => ⟨6, 0, .translation, a⟩,
        missIf (f.any (·.bad)) 10 1 .format base, badTile (f.any fun f => !f.bad && !plainFmt f.fmt)])

/-- The misses of a drain's outlier list: its alignment and reach (R279). -/
def drainListMisses (x : DrainArg) (desc : List Word) : List (Option Miss) :=
  if x.out.isNone then []
  else [missIf (decide (2 ^ 48 ≤ drainList desc)) 6 0 .translation (drainList desc),
    missIf (drainList desc % 8 != 0) 6 1 .misaligned (drainList desc)]

/-- A drain reads or writes global memory, and so follows the wave's publishes (R212). -/
def drainGlobal (x : DrainArg) : Bool := x.toG || x.out.isSome || x.res.any fun r => r.rsp == 2

/-- The own part of TDRAIN (R272, R279). -/
def Iss.tdrain (i : Iss) (m : RMode) (sat : Bool) (d a : Reg) (x : DrainArg) : Eff :=
  let t := x.tile.toNat
  let desc := drainDesc (fun r => i.rd r i.low) a x
  let cls := i.s.clsAhead i.blk t
  let (n, rm) := i.drainResMisses x desc
  let resTile := (x.res.filter fun r => r.rsp == 1).toList.map fun _ => drainRes desc / 65536
  let go : Eff :=
    let f := fun n => i.s.fdt i.core i.w.ctx n
    let slot := x.chk.elim 0 fun c => i.frame c.toNat
    let t1 := i.tileOp d (.drain x (i.w.mode m) sat desc (f x.dfdt.toNat) (f n) slot ((i.b.tileStatus t).getLsbD 2)) t
      (tilesOf t (cls == 3) ++ resTile)
    .done (((t1.fdtUsed i.core i.w.ctx x.dfdt.toNat).fdtUsed i.core i.w.ctx n).stepSto i.k m)
  i.tileChecks ([i.tileMiss (tilesOf t (cls == 3)), badTile (cls == 0)] ++ i.drainDestMisses x desc ++ rm ++ drainListMisses x desc)
    (if drainGlobal x then i.afterPublish go else go)

/-- The registers of a drain's runs. -/
def drainRegs (a : Reg) (x : DrainArg) : List Nat :=
  runOf a 5 ++ (x.res.elim [] fun r => runOf r.run 3) ++ x.out.elim [] fun r => runOf r 3

/-- TDRAIN (R279). -/
def execTdrain (h : Hdr) (m : RMode) (sat : Bool) (d a : Reg) (x : DrainArg) (s : State) : Out :=
  issue s { h := h, srcs := drainRegs a x, dsts := [d.toNat] } fun i =>
    if i.idle then .done i.t
    else i.uniform (i.differ fun l => drainDesc (fun r => i.rd r l) a x) (i.tdrain m sat d a x)

/-- The own part of TCHK and TSTAT (R272, R281). -/
def Iss.tileRead (i : Iss) (op : TileKindOp) (d : Reg) (tile : BitVec 3) : Eff :=
  if i.idle then .done i.t
  else
    let t := tile.toNat
    i.tileChecks [i.tileMiss [t]] (.done (i.tileOp d op t (tilesOf t (i.s.clsAhead i.blk t == 3))))

/-- TCHK (R281). -/
def execTchk (h : Hdr) (d : Reg) (tile : BitVec 3) (s : State) : Out :=
  issue s { h := h, srcs := [], dsts := [d.toNat] } fun i => i.tileRead .check d tile

/-- TSTAT (R281). -/
def execTstat (h : Hdr) (d : Reg) (tile : BitVec 3) (s : State) : Out :=
  issue s { h := h, srcs := [], dsts := [d.toNat] } fun i => i.tileRead (.status false) d tile

/-- TSTAT.clr (R281). -/
def execTstatClr (h : Hdr) (d : Reg) (tile : BitVec 3) (s : State) : Out :=
  issue s { h := h, srcs := [], dsts := [d.toNat] } fun i => i.tileRead (.status true) d tile

/-! ### Turns -/

/-- A block's engines work while it resides and is not being carried (R23, R276). -/
def Block.working (b : Block) : Bool := b.st == .running || b.st == .draining || b.st == .starting

/-- It is a tile operation's turn: every earlier one on its tiles has ended (R272). -/
def State.tileTurn (s : State) (id : Nat) (o : TileOp) : Bool :=
  (s.block o.block).working && o.err.isNone && o.ending == 0 &&
  !(s.fly.tiles.any fun p => decide (p.1 < id) && p.2.block == o.block && p.2.tiles.any o.tiles.contains)

/-- The state with a tile operation changed. -/
def State.updTileOp (s : State) (id : Nat) (f : TileOp → TileOp) : State :=
  s.updFly fun y => { y with tiles := Tab.upd y.tiles id f }

/-- A tile operation stops with an error (R251). -/
def TileOp.stop (o : TileOp) (e : Err) : TileOp := { o with err := some e, ending := 1 }

/-- Bits of element `j` of `w` bits from an address on (R37). -/
def Buffer.elemBits (b : Buffer) (addr w j : Nat) : Nat :=
  let first := j * w / 8
  let n := (j * w + w + 7) / 8 - first
  leNat (b.take (addr + first) n) / 2 ^ (j * w % 8) % 2 ^ w

/-! ### The matrix engine -/

/-- Thirty-two elements of an operand row: values, integers, the exponent U, a scale that is NaN or infinite, and the
address of a bad byte (R56, R57). -/
structure KRow where
  vals : List FVal
  ints : List Int
  u : Int
  odd : Bool
  bad : Option Nat
  deriving DecidableEq, Repr

/-- A scale entry that is NaN or infinite (R40, R42, R44). -/
def scaleOdd (c scale : Nat) : Bool :=
  if fmtMx c then scale % 256 == 255
  else if fmtDx c then scale % 256 == 255 || scale / 256 % 256 == 255
  else c == 24 && match ffF16.decode (scale % 65536) with
    | .fin _ _ _ => false
    | _ => true

/-- The k block at `k0` of the row that starts at an address (R37, R39, R56, R57). -/
def Buffer.kRow (b : Buffer) (f : Fdt) (addr k0 : Nat) : KRow :=
  let w := fmtWidth f.fmt
  let sz := fmtScaleBytes f.fmt
  let e0 := ((addr : Int) - f.origin).toNat * 8 / max w 1 + k0
  let scale := fun k => leNat (b.take (f.scaleAt k sz) sz)
  let blocks := if fmtBlock f.fmt then unitsOfSpan e0 32 32 else []
  let bits := fun t => b.elemBits addr w (k0 + t)
  let us := if fmtBlock f.fmt then blocks.map fun k => suspectU f.fmt (scale k) else [suspectU f.fmt 0]
  let bad := (b.bad (addr + k0 * w / 8) (4 * w)).orElse fun _ =>
    (blocks.filterMap fun k => b.bad (f.scaleAt k sz) sz).head?
  ⟨(List.range 32).map fun t => elemVal f.fmt (if fmtBlock f.fmt then scale ((e0 + t) / 32) else 0) (bits t),
   (List.range 32).map fun t => (fmtInt f.fmt).elim 0 fun p => intOfBits p.1 p.2 (bits t),
   us.tail.foldl max (us.headD 0), blocks.any fun k => scaleOdd f.fmt (scale k), bad.map Prod.snd⟩

/-- The exact sum of the products of a k block (R56). -/
def exactSum (a b : KRow) : FVal :=
  match List.zipWith (fun x y => (x.mul y).1) a.vals b.vals with
  | [] => .fin false 0 0
  | p :: ps => ps.foldl (fun x y => (x.add .rne y).1) p

/-- The check of R57 finds a sum beyond its bound. -/
def suspect (a b : KRow) (s : FVal) : Bool :=
  match s with
  | .fin _ m e => m != 0 && !a.odd && !b.odd && decide (a.u + b.u + 5 ≤ topExp m e)
  | _ => false

/-- The step result of an element (R56). -/
def stepElem (cls : Nat) (exact : Bool) (old : Nat) (a b : KRow) : Nat :=
  if cls = 2 then
    let d := (List.zipWith (· * ·) a.ints b.ints).foldl (· + ·) 0
    bitsOfInt 32 ((old : Int) + d)
  else
    let f := if cls = 3 then ffF64 else ffF32
    if exact then (f.ofVal Rnd.rne false ((f.decode old).add .rne (exactSum a b)).1).1
    else (List.zip a.vals b.vals).foldl (fun c p =>
      (f.ofVal Rnd.rne false (FVal.fma .rne p.1 p.2 (f.decode c)).1).1) old

/-- The sticky status bits that an element's change sets (R270, R276). -/
def statusOf (cls old new : Nat) : Word :=
  if cls = 2 then 0
  else
    let f := if cls = 3 then ffF64 else ffF32
    let (x, y) := (f.decode old, f.decode new)
    (if y.isNan && !x.isNan then 2 else 0) ||| (if y.isInf && !x.isInf && !x.isNan then 1 else 0)

/-- One row of an MMT step: the new elements and the status bits (R56, R57, R276). -/
def stepRow (cls : Nat) (exact check : Bool) (old : List Nat) (a : KRow) (bs : List KRow) : List Nat × Word :=
  let es := List.zipWith (fun x b =>
    let y := stepElem cls exact x a b
    (y, statusOf cls x y ||| (if check && suspect a b (exactSum a b) then 4 else 0))) old bs
  (es.map Prod.fst, es.foldl (fun w e => w ||| e.2) 0)

/-- The weight of an MMT step by its operands' width (R411). -/
def mmtWeight (w : Nat) : Nat := if w ≤ 8 then 2 else if w ≤ 16 then 3 else if w ≤ 32 then 4 else 5

/-- The step of an MMT with both operands at hand (R276). -/
def State.mmtRows (s : State) (id : Nat) (o : TileOp) (fa fb : Nat) (ra rb : List KRow) : State :=
  let b := s.block o.block
  let cls := mmtCls fa fb
  let wide := cls == 3
  let exact := exactFmt fa
  let check := fmtMx fa || fmtDx fa || fmtMx fb || fmtDx fb
  let (m, n) := (ra.length, rb.length)
  let (s1, st) := ra.zipIdx.foldl (fun (p : State × Word) r =>
    let (vs, w) := stepRow cls exact check (b.accRow o.tile r.2 wide n) r.1 rb
    (p.1.accWrite o.block o.depth o.tile r.2 wide vs, p.2 ||| w)) (s, 0)
  let units := s.weight (mmtWeight (max (fmtWidth fa) (fmtWidth fb))) * ((m * n * 32 + 16383) / 16384)
  let s2 := (s1.updTile o.block o.tile fun w => w ||| st).spend b.core (some o.block) b.ctx units
  s2.updTileOp id fun o => { o with next := o.next + 1 }

/-- An operand's block can be read: it resides (R277). -/
def State.held (s : State) (blk : Nat) : Bool := (s.block blk).working

/-- A remote operand's read or its reply waits in the cluster's network for earlier messages (R295). -/
def State.operandWaits (s : State) (core blk : Nat) : Bool :=
  let far := (s.block blk).core
  far != core && (s.networkBusy core far || s.networkBusy far core)

/-- AN MMT STEP: one k block, or the end of the operation at a bad operand or a retired member (R56, R57, R276, R277, R295). -/
def execMmtStep (id : Nat) (s : State) : Out :=
  .next (match Tab.find s.fly.tiles id with
    | none => s
    | some o => match o.op with
      | .mmt x aOff bOff aStr bStr fa fb _ =>
        let b := s.block o.block
        if !s.tileTurn id o || decide (x.km1.toNat < o.next) then s
        else match s.operandBlock o.block x.amem, s.operandBlock o.block x.bmem with
          | some ab, some bb =>
            if !s.held ab || !s.held bb || s.operandWaits b.core ab || s.operandWaits b.core bb then s
            else
              let k0 := 32 * o.next
              let ra := (rowStarts aOff aStr (cfgRows o.cfg)).map fun a => ((s.block ab).buf (mmtSpace x)).kRow fa a k0
              let rb := (rowStarts bOff bStr (cfgCols o.cfg)).map fun a => ((s.block bb).buf .w).kRow fb a k0
              let cls := mmtCls fa.fmt fb.fmt
              if cls = 0 ∨ (b.cls o.tile ≠ 0 ∧ b.cls o.tile ≠ cls) then
                s.updTileOp id fun o => o.stop ⟨1, 1, b.core, 0, 0⟩
              else match ((ra ++ rb).filterMap (·.bad)).head? with
                | some at_ => s.updTileOp id fun o => o.stop ⟨6, 1, b.core, at_, 0⟩
                | none => s.mmtRows id o fa.fmt fb.fmt ra rb
          | _, _ => s.updTileOp id fun o => o.stop ⟨1, 1, b.core, 0, 0⟩
      | _ => s)

/-! ### TLOADC -/

/-- One element converted to an accumulator type (R159, R274). -/
def loadElem (k : TileKind) (r : Rnd) (fmt bits : Nat) : Nat × Flags :=
  let v := elemVal fmt 0 bits
  match k with
  | .s32 => match fmtInt fmt with
    | some (w, sg) => (bitsOfInt 32 (intOfBits w sg bits), 0)
    | none =>
      let (n, f) := intOfVal ⟨.rz, 0⟩ (-(2 ^ 31)) (2 ^ 31 - 1) v
      (bitsOfInt 32 n, f)
  | .f32 => let (c, f) := ffF32.ofVal r false v; (c, f ||| sigFlags [v])
  | .f64 => let (c, f) := ffF64.ofVal r false v; (c, f ||| sigFlags [v])

/-- A load's rows read and converted, with their flags; the address of a bad byte (R274). -/
def State.loadRows (s : State) (o : TileOp) (k : TileKind) (m : RMode) (addr : Nat) (str : Int) (f : Fdt) :
    List (List Nat) × Flags × Option Nat :=
  let b := s.block o.block
  let w := fmtWidth f.fmt
  let cols := cfgCols o.cfg
  let rows := (rowStarts addr str (cfgRows o.cfg)).zipIdx.map fun a => (List.range cols).map fun j =>
    let h := (gen a.2 j (cfgLo o.cfg ^^^ 0xAAAAAAAA) (cfgHi o.cfg)).toNat
    loadElem k ⟨m, h⟩ f.fmt (b.a.elemBits a.1 w j)
  let bad := (rowStarts addr str (cfgRows o.cfg)).findSome? fun a => b.a.bad a ((cols * w + 7) / 8)
  (rows.map fun r => r.map Prod.fst, rows.foldl (fun f r => r.foldl (fun f e => f ||| e.2) f) 0, bad.map Prod.snd)

/-- The effect of TLOADC on its tile (R271, R274). -/
def State.tileLoad (s : State) (o : TileOp) (k : TileKind) (m : RMode) (addr : Nat) (str : Int) (f : Fdt) :
    State × Option Err :=
  let b := s.block o.block
  let (rows, fl, bad) := s.loadRows o k m addr str f
  match bad with
  | some at_ => (s, some ⟨6, 4, b.core, at_, 0⟩)
  | none =>
    let wide := k == .f64
    let s1 := rows.zipIdx.foldl (fun s r => s.accWrite o.block o.depth o.tile r.2 wide r.1) s
    let s2 := s1.updTile o.block o.tile fun _ => freshStatus (TileKind.cls k)
    let bytes := cfgRows o.cfg * cfgCols o.cfg * accBytes wide
    ((s2.orFlags o.wave fl).spend b.core (some o.block) b.ctx (s.weight 6 * ((bytes + 255) / 256)), none)

/-- The effect of TZERO on its tile (R271, R274). -/
def State.tileZero (s : State) (o : TileOp) : State :=
  let wide := (s.block o.block).cls o.tile == 3
  let s1 := (List.range 128).foldl (fun s i => s.accWrite o.block o.depth o.tile i wide (List.replicate 128 0)) s
  s1.updBlock o.block fun b => { b with
    sums := Tab.sub b.sums fun k _ => k / 128 != o.tile
    tiles := Tab.del b.tiles o.tile }

/-! ### TDRAIN -/

/-- The value check of R110: the value as it goes on and the flags, or none where the drain stops. ±VMAX is |VMAX| with the
value's sign (R110; DESIGN CHOICE, log 65). -/
def valueCheck (slot : BitVec 128) (v : FVal) : Option (FVal × Flags) :=
  let vmax := ffF32.decode (slot.extractLsb' 96 32).toNat
  let ok := !v.isNan && !vmax.isNan && !(vmax.sign && !vmax.isZero) && decide ((v.withSign false).cmp (vmax.withSign false) ≤ 0)
  if ok then some (v, 0)
  else if slot.extractLsb' 51 2 = 1 then some (vmax.withSign (!v.isNan && v.sign), fSAT)
  else none

/-- What a drain does to one element before the destination format: scale, residual, dropout, ReLU, value check (R280). -/
def drainElem (o : TileOp) (x : DrainArg) (m : RMode) (sat wide : Bool) (desc : List Word) (slot : BitVec 128) (i j : Nat)
    (acc res : FVal) : Option FVal × Flags :=
  let f := if wide then ffF64 else ffF32
  let row := dword desc 4 % 65536 + i
  let col := dword desc 4 / 65536 + j
  let r : Rnd := ⟨m, (gen row col (cfgLo o.cfg ^^^ 0x55555555) (cfgHi o.cfg)).toNat⟩
  let (p, f1) := FVal.fma m acc (ffF32.decode (dword desc 3)) res
  let (c, f2) := f.ofVal r sat p
  let v := f.decode c
  let (v, f3) : FVal × Flags :=
    if !x.drop then (v, 0)
    else if (gen row col (cfgLo o.cfg) (cfgHi o.cfg)).toNat % 65536 < cfgThr o.cfg then (.fin false 0 0, 0)
    else
      let (q, g1) := v.mul (cfgKeep o.cfg)
      let (c, g2) := f.ofVal r sat q
      (f.decode c, g1 ||| g2)
  let v := if x.relu && !v.isNan && v.sign then FVal.fin false 0 0 else v
  let fl := f1 ||| f2 ||| f3
  match x.chk with
  | none => (some v, fl)
  | some _ => match valueCheck slot v with
    | some (u, g) => (some u, fl ||| g)
    | none => (none, fl)

/-- A drain's row as it will be written: the format, where, its codes with each would-be outlier's f32 bits and flags, the
block scales, the flags raised before the destination format (R58, R280). -/
structure DrainRow where
  addr : Nat
  fdt : Fdt
  codes : List (Nat × Flags × Option Nat)
  scales : List (Nat × Nat)
  flags : Flags
  deriving DecidableEq, Repr

/-- How a row ends before it is written: an error, with the address of a failing value check, and flags. -/
structure DrainStop where
  err : Err
  trap : Option Nat
  sum : Bool
  flags : Flags
  deriving DecidableEq, Repr

/-- A stop by an error alone. -/
def drainErr (e : Err) : DrainStop := ⟨e, none, false, 0⟩

/-- The residual's values for a row, with the state that their read leaves (R279, R280, R343). -/
def State.drainResidual (s : State) (o : TileOp) (x : DrainArg) (desc : List Word) (f : Fdt) (i n : Nat) :
    Except Err (List FVal × State) :=
  let b := s.block o.block
  let at_ := rowAt (drainRes desc) (drainRstr desc) i
  match x.res with
  | none => .ok (List.replicate n (.fin false 0 0), s)
  | some r =>
    if r.rsp = 1 then .ok ((b.accRow (drainRes desc / 65536) i false n).map ffF32.decode, s)
    else if r.rsp = 0 then
      let w := fmtWidth f.fmt
      match b.a.bad at_ ((n * w + 7) / 8) with
      | some (_, y) => .error ⟨6, 4, b.core, y, 0⟩
      | none => .ok ((List.range n).map fun j => elemVal f.fmt 0 (b.a.elemBits at_ w j), s)
    else match s.unitXlate b.core b.ctx at_ .read with
      | .error c => .error (s.engineErr 1 b.core b.ctx c at_ 0)
      | .ok y =>
        let f := s.fdt b.core b.ctx (pteFdt y.leaf)
        let w := fmtWidth f.fmt
        if f.bad then .error (s.engineErr 1 b.core b.ctx .format at_ 0)
        else if !plainFmt f.fmt ∨ at_ < f.origin then .error ⟨1, 1, b.core, at_, 0⟩
        else match s.engRead 1 b.core b.ctx at_ ((n * w + 7) / 8) with
          | .error e => .error e
          | .ok (bs, t) => .ok ((List.range n).map fun j => elemVal f.fmt 0 (leNat bs / 2 ^ (j * w) % 2 ^ w), t)

/-- The entry that governs a destination row, with the checks of its start (R279, R280). -/
def State.drainFormat (s : State) (o : TileOp) (x : DrainArg) (dst : Fdt) (addr n : Nat) : Except Err Fdt :=
  let b := s.block o.block
  if !x.toG then .ok dst
  else match s.unitXlate b.core b.ctx addr .write with
    | .error c => .error (s.engineErr 1 b.core b.ctx c addr 0)
    | .ok y =>
      let f := s.fdt b.core b.ctx (pteFdt y.leaf)
      let w := fmtWidth f.fmt
      let off : Int := (addr : Int) - f.origin
      if f.bad then .error (s.engineErr 1 b.core b.ctx .format addr 0)
      else if badDest f.fmt n x.out.isSome ∨ off < 0 ∨ off % (if w = 6 then 3 else 1) ≠ 0 ∨
          (fmtBlock f.fmt ∧ off * 8 % (32 * w) ≠ 0) then .error ⟨1, 1, b.core, addr, 0⟩
      else .ok f

/-- The values of a row folded in order, up to the first that the value check stops. -/
def drainVals (vs : List (Option FVal × Flags)) : List FVal × Flags × Option Nat :=
  let ok := vs.takeWhile fun v => v.1.isSome
  let used := vs.take (ok.length + 1)
  (ok.filterMap Prod.fst, used.foldl (fun f v => f ||| v.2) 0, if ok.length = vs.length then none else some ok.length)

/-- One element in a plain destination format, with its f32 bits where it would be an outlier; an f64 value enters the list
rounded by rne (R58; DESIGN CHOICE, log 65). -/
def drainCode (fmt : Nat) (r : Rnd) (sat out : Bool) (v : FVal) : Nat × Flags × Option Nat :=
  let (c, f) := elemOfVal fmt r sat v
  let f := f ||| sigFlags [v]
  (c, f, if out && !v.isNan && f &&& fSAT != 0 then some (ffF32.ofVal Rnd.rne false v).1 else none)

/-- Row `i` of a drain: verified, transformed, encoded, with the state that its reads leave. An f64 tile's values go into a DX
block as R43 encodes f32 ones (R43, R280; DESIGN CHOICE, log 65). -/
def State.drainRow (s : State) (o : TileOp) (x : DrainArg) (m : RMode) (sat : Bool) (desc : List Word) (dst resF : Fdt)
    (slot : BitVec 128) (i : Nat) : Except DrainStop (DrainRow × State) :=
  let b := s.block o.block
  let cls := b.cls o.tile
  let wide := cls == 3
  let n := cfgCols o.cfg
  let addr := rowAt (drainDst desc) (drainStr desc) i
  match s.drainFormat o x dst addr n with
  | .error e => .error (drainErr e)
  | .ok f =>
    if !b.rowOk o.tile i wide then .error ⟨⟨6, 1, b.core, 0, 0⟩, none, true, 0⟩
    else match s.drainResidual o x desc resF i n with
      | .error e => .error (drainErr e)
      | .ok (res, t) =>
        let acc := (b.accRow o.tile i wide n).map fun v =>
          if cls = 2 then FVal.ofInt (intOfBits 32 true v) else (if wide then ffF64 else ffF32).decode v
        let vs := (acc.zip res).zipIdx.map fun p => drainElem o x m sat wide desc slot i p.2 p.1.1 p.1.2
        let (ok, fl, stop) := drainVals vs
        let w := fmtWidth f.fmt
        match stop with
        | some j => .error ⟨⟨2, 1, b.core, (addr + j * w / 8) % 2 ^ 48, 0⟩, some (addr + j * w / 8), false, fl⟩
        | none =>
          let row := dword desc 4 % 65536 + i
          let rnd := fun j : Nat =>
            (⟨m, (gen row (dword desc 4 / 65536 + j) (cfgLo o.cfg ^^^ 0x55555555) (cfgHi o.cfg)).toNat⟩ : Rnd)
          if fmtBlock f.fmt then
            let bs := (List.range (n / 32)).map fun g =>
              blockEncode f.fmt 0x3C00 (fun k => rnd (32 * g + k)) ((ok.drop (32 * g)).take 32)
            let b0 := ((addr : Int) - f.origin).toNat * 8 / (32 * w)
            .ok (⟨addr, f, bs.flatMap fun c => c.codes.map fun k => (k, 0, none),
              bs.zipIdx.map fun c => (f.scaleAt (b0 + c.2) (fmtScaleBytes f.fmt), c.1.scale),
              bs.foldl (fun f c => f ||| c.flags) fl⟩, t)
          else .ok (⟨addr, f, ok.zipIdx.map fun v => drainCode f.fmt (rnd v.2) sat x.out.isSome v.1, [], fl⟩, t)

/-- The outliers that a row would list. -/
def DrainRow.outliers (r : DrainRow) : Nat := (r.codes.filter fun c => c.2.2.isSome).length

/-- The outliers of the rows from `i` on, up to the first row that stops (R58). -/
def State.countOutliers (s : State) (o : TileOp) (x : DrainArg) (m : RMode) (sat : Bool) (desc : List Word) (dst resF : Fdt)
    (slot : BitVec 128) : Nat → Nat → Nat
  | 0, _ => 0
  | k + 1, i =>
    match s.drainRow o x m sat desc dst resF slot i with
    | .error _ => 0
    | .ok (r, _) => r.outliers + s.countOutliers o x m sat desc dst resF slot k (i + 1)

/-- An engine's write of bytes that may cross a page. -/
def State.engWriteAll (s : State) (kind core ctx blk d order va : Nat) (bs : List Byte) : Except Err State :=
  let n := 4096 - va % 4096
  match s.engWrite kind core ctx blk d order va (bs.take n) with
  | .error e => .error e
  | .ok s1 => if bs.length ≤ n then .ok s1 else s1.engWrite kind core ctx blk d order (va + n) (bs.drop n)

/-- A drain reserves its run of the outlier list: an atomic addition to the count at its home, never past the capacity
(R58; log 41). -/
def State.reserveRun (s : State) (id : Nat) (o : TileOp) (desc : List Word) (want : Nat) : Except Err State :=
  let b := s.block o.block
  let base := drainList desc
  match s.engRead 1 b.core b.ctx base 4 with
  | .error e => .error e
  | .ok (bs, s1) =>
    let count := leNat bs
    let n := min want (dword desc 10 - count)
    match (if n = 0 then .ok s1 else s1.engWriteAll 1 b.core b.ctx o.block o.depth id base (leBytes 4 (count + n))) with
    | .error e => .error e
    | .ok s2 => .ok (s2.updTileOp id fun o => { o with run := some (count, n) })

/-- The codes of a row with the outliers that the run takes: codes, flags, entries (R58). -/
def takeOutliers (row : Nat) : List (Nat × Flags × Option Nat) → Nat → Nat → List Nat × Flags × List Nat
  | [], _, _ => ([], 0, [])
  | (c, f, none) :: cs, j, room =>
    let (ks, g, es) := takeOutliers row cs (j + 1) room
    (c :: ks, f ||| g, es)
  | (_, _, some v) :: cs, j, room + 1 =>
    let (ks, g, es) := takeOutliers row cs (j + 1) room
    (0 :: ks, g, (v * 2 ^ 32 + j * 2 ^ 16 + row) :: es)
  | (c, f, some _) :: cs, j, 0 =>
    let (ks, g, es) := takeOutliers row cs (j + 1) 0
    (c :: ks, f ||| fSAT ||| fOLF ||| g, es)

/-- Bytes of a drain at their destination (R226, R257, R279, R377). -/
def State.drainWrite (s : State) (id : Nat) (o : TileOp) (x : DrainArg) (addr : Nat) (bs : List Byte) (stamp : Bool) :
    Except Err State :=
  let b := s.block o.block
  if x.toG then s.engWriteAll 1 b.core b.ctx o.block o.depth id addr bs
  else
    let s1 := s.bufWrite o.block 0 o.depth .a addr bs
    .ok (if stamp then s1.stampGranules o.block .a addr bs.length x.dfdt.toNat else s1)

/-- A row written: its data, scales and outlier entries. DFDT stamps the granules of the data, not of the scales (R58, R199,
R280; DESIGN CHOICE, log 65). -/
def State.drainPut (s : State) (id : Nat) (o : TileOp) (x : DrainArg) (desc : List Word) (i : Nat) (r : DrainRow) :
    Except Err (State × Flags) :=
  let b := s.block o.block
  let (at_, room) := o.run.getD (0, 0)
  let (codes, fl, es) := takeOutliers i r.codes 0 room
  let w := fmtWidth r.fdt.fmt
  let data := leBytes ((codes.length * w + 7) / 8) (packElems w codes)
  match s.drainWrite id o x r.addr data true with
  | .error e => .error e
  | .ok s1 =>
    let put := r.scales.foldl (fun (p : Except Err State) c => match p with
      | .error e => .error e
      | .ok s => s.drainWrite id o x c.1 (leBytes (fmtScaleBytes r.fdt.fmt) c.2) false) (.ok s1)
    match put with
    | .error e => .error e
    | .ok s2 =>
      match (if es.isEmpty then .ok s2 else s2.engWriteAll 1 b.core b.ctx o.block o.depth id (drainList desc + 8 + 8 * at_)
          (es.flatMap fun e => leBytes 8 e)) with
      | .error e => .error e
      | .ok s3 => .ok (s3.updTileOp id fun o => { o with run := o.run.map fun p => (p.1 + es.length, p.2 - es.length) },
          r.flags ||| fl)

/-- A drain stops before a row (R233, R280). -/
def State.drainStop (s : State) (id : Nat) (o : TileOp) (d : DrainStop) : State :=
  let s1 := (s.updTileOp id fun o => o.stop d.err).orFlags o.wave d.flags
  let s2 := if d.sum then s1.updTile o.block o.tile fun w => w ||| 8 else s1
  match d.trap with
  | none => s2
  | some at_ => s2.owe o.wave ⟨.frameTrap, BitVec.ofNat 64 at_, o.lanes, o.level, true, o.depth⟩

/-- A ROW IS DRAINED. A tile that was suspect at issue, or one without an accumulator type, drains nothing (R58, R279, R280). -/
def execTdrainRow (id : Nat) (s : State) : Out :=
  .next (match Tab.find s.fly.tiles id with
    | none => s
    | some o => match o.op with
      | .drain x m sat desc dst resF slot susp =>
        let b := s.block o.block
        let rows := cfgRows o.cfg
        if !s.tileTurn id o || decide (rows ≤ o.next) then s
        else if susp then s.updTileOp id fun o => o.stop ⟨7, 1, b.core, 0, 0⟩
        else if b.cls o.tile = 0 then s.updTileOp id fun o => o.stop ⟨1, 1, b.core, 0, 0⟩
        else match s.drainRow o x m sat desc dst resF slot o.next with
          | .error d => s.drainStop id o d
          | .ok (r, s) =>
            let ready : Except Err State :=
              if x.out.isSome ∧ o.run.isNone then
                s.reserveRun id o desc (s.countOutliers o x m sat desc dst resF slot (rows - o.next) o.next)
              else .ok s
            let done : Except Err (State × Flags) := match ready with
              | .error e => .error e
              | .ok s1 => s1.drainPut id ((Tab.find s1.fly.tiles id).getD o) x desc o.next r
            match done with
            | .error e => s.drainStop id o (drainErr e)
            | .ok (s2, fl) =>
              ((s2.orFlags o.wave fl).spend b.core (some o.block) b.ctx (s.weight 7)).updTileOp id fun o =>
                { o with next := o.next + 1 }
      | _ => s)

/-! ### Ends -/

/-- The work of a tile operation is done, or it has stopped. -/
def TileOp.finished (o : TileOp) : Bool :=
  o.ending != 0 || match o.op with
    | .mmt x _ _ _ _ _ _ _ => decide (x.km1.toNat < o.next)
    | .drain _ _ _ _ _ _ _ _ => decide (cfgRows o.cfg ≤ o.next)
    | _ => true

/-- A tile operation's effect at its end, with the error that it meets: TZERO, TLOADC, and the type that an MMT sets
(R274, R276). -/
def State.tileEffect (s : State) (o : TileOp) : State × Option Err :=
  if o.ending ≠ 0 then (s, none)
  else match o.op with
    | .zero => (s.tileZero o, none)
    | .load k m addr str f => s.tileLoad o k m addr str f
    | .mmt _ _ _ _ _ _ _ cls =>
      (if (s.block o.block).cls o.tile = 0 then s.updTile o.block o.tile fun w => w ||| freshStatus cls else s, none)
    | .check =>
      let b := s.block o.block
      let ok := (List.range 128).all fun i => b.rowOk o.tile i (b.cls o.tile == 3)
      (if ok then s else s.updTile o.block o.tile fun w => w ||| 8, none)
    | _ => (s, none)

/-- The status word read by TCHK and TSTAT lands; TSTAT.clr then clears bits 3:0 (R281). -/
def State.tileValue (s : State) (id : Nat) (o : TileOp) : State :=
  let s1 := (s.landToken o.wave o.token o.lanes ((s.block o.block).tileStatus o.tile)).updFly fun f =>
    { f with tiles := Tab.del f.tiles id }
  (match o.op with
    | .status true => s1.updTile o.block o.tile fun w => w &&& ~~~(0xF : Word)
    | _ => s1).unpark o.wave

/-- The token of a tile operation, with its entry after an error; it is gone (R251 to R253). -/
def State.tileEnd (s : State) (id : Nat) (o : TileOp) (e : Option Err) : State :=
  let b := s.block o.block
  let er := e.getD Err.none
  let ending := if e.isSome then 1 else o.ending
  let s1 := (s.landToken o.wave o.token o.lanes (tokenWord er ending o.next)).updFly fun f =>
    { f with tiles := Tab.del f.tiles id }
  s1.opEnd b.launch (s.refHandle o.wave) 1 b.ctx { er with detail := o.next }

/-- A TILE OPERATION ENDS at its turn, and its token is written (R251 to R253, R272 to R281). -/
def execTileOpComplete (id : Nat) (s : State) : Out :=
  .next (match Tab.find s.fly.tiles id with
    | none => s
    | some o =>
      let turn := o.ending != 0 || s.tileTurn id o
      if !turn || !o.finished then s
      else
        let (s1, e) := s.tileEffect o
        if o.op.reads then s1.tileValue id o
        else
          let er := firstErr o.err e
          let b := s.block o.block
          s.endOr id b.launch b.ctx (er.getD Err.none) (s1.tileEnd id o er))

end Sys2Proof.Machine
end

