-- ==== Sys2Proof/Machine/Sheepdog.lean ====
section
/-! DEFINITION. Sheepdog: parking, recalling and dropping pages (R201, R205, R282 to R286, R313, R344, R363). -/

namespace Sys2Proof.Machine

/-! ### Slots and page entries -/

/-- The Fold slot that a handle of a context names (R363). -/
def State.foldSlot (s : State) (ctx : Nat) (h : DWord) : Option FoldSlot :=
  (Tab.find s.dev.fold (handleLow h)).filter fun f =>
    f.st != 0 && f.ctx == ctx && f.gen == handleGen h && handleTag h == s.tag .fold (handleLow h) f.gen f.ctx

/-- The state with a Fold slot changed. -/
def State.updSlot (s : State) (n : Nat) (f : FoldSlot → FoldSlot) : State :=
  s.updDev fun d => { d with fold := Tab.upd d.fold n f }

/-- The slot with a page taken out of it (R363). -/
def FoldSlot.without (f : FoldSlot) (page : Nat) : FoldSlot :=
  let ps := Tab.del f.pages page
  { f with pages := ps, st := if ps.isEmpty then 1 else 2 }

/-- Bytes of a parked page's size. -/
def pageBytes (p64 : Bool) : Nat := if p64 then 65536 else 4096

/-- Bytes that a stored page takes (log 43). -/
def Stored.bytes (x : Stored) : Nat := x.data.length + x.scales.length

/-- LBAs that a stored page takes; none for a zero page. -/
def bodyLbas (lba : Nat) (b : Option Stored) : Nat := b.elim 0 fun x => (x.bytes + lba - 1) / lba

/-- LBA size of a drive (R313, R420). -/
def State.lbaOf (s : State) (drive : Nat) : Nat := 2 ^ ((Tab.find s.dev.drives drive).elim 9 (·.lbash))

/-- LBAs of a slot in use. -/
def FoldSlot.used (f : FoldSlot) (lba : Nat) : Nat := f.pages.foldl (fun n p => n + bodyLbas lba p.2.body) 0

/-- The commands of a stored page after its first: each moves as many LBAs as the drive's largest transfer holds, one at least
(R427; log 42). -/
def State.splitRest (s : State) (drive : Nat) (b : Option Stored) : Nat :=
  let lba := s.lbaOf drive
  (bodyLbas lba b - 1) / max 1 ((Tab.find s.dev.drives drive).elim 0 (·.mdts) / lba)

/-- The physical address of the level-0 entry of a page, whatever it holds, through table entries that pass a walk's
checks; `held` is a walk cache's content (R341, R342, R348). -/
def leafEntryFrom (m : Memory) (held : Nat → Option DWord) (va : Nat) : Nat → Nat → Option Nat
  | 0, tbl => some (tbl + 8 * (va / 4096 % 512))
  | n + 1, tbl =>
    let at_ := tbl + 8 * (va / 2 ^ levelShift (n + 1) % 512)
    let e : DWord := (held (n + 1)).getD (BitVec.ofNat 64 (m.leAt at_ 8))
    if ((held (n + 1)).isSome || !m.uncorr (placeOf at_)) && pteTable e && !pteReserved e then
      leafEntryFrom m held va n (ptePa e)
    else none

/-- The level-0 entries of a page with their addresses. -/
def State.pageEntries (s : State) (walker ctx va : Nat) (p64 : Bool) : Option (List (Nat × Nat)) :=
  (leafEntryFrom s.mem (walkFind s walker ctx va) va 3 (s.rootOf ctx).ptroot).map fun at_ =>
    (List.range (if p64 then 16 else 1)).map fun j => (at_ + 8 * j, s.mem.leAt (at_ + 8 * j) 8)

/-- The entries hold what Sheepdog wrote when it parked the page (R285, R344). -/
def State.stillParked (s : State) (walker ctx va : Nat) (p : Parked) : Option (List (Nat × Nat)) :=
  (s.pageEntries walker ctx va p.p64).filter fun es => es.map Prod.snd == p.entries

/-- Entries written, and no TLB keeps the page. -/
def State.putEntries (s : State) (ctx va size : Nat) (es : List (Nat × Nat)) : State :=
  (s.homeWrite (es.flatMap fun e => placeBytes e.1 8 e.2)).invalidateRange ctx va size

/-! ### Formats of parked pages -/

/-- The block format of a park (R283). -/
def parkCode : ParkFmt → Nat
  | .keep => 0 | .dx6 => 21 | .dx4 => 22 | .mxe4m3 => 14

/-- A page's elements as blocks of 32, rounded to nearest, with the flags (R41, R43, R283). -/
def packPage (code src : Nat) (bs : List Byte) : Stored × Flags :=
  let w := fmtWidth src / 8
  let n := bs.length / w
  let blocks := (List.range (n / 32)).map fun b =>
    blockEncode code 0x3C00 (fun _ => Rnd.rne) ((List.range 32).map fun j => elemVal src 0 (leNat ((bs.drop ((32 * b + j) * w)).take w)))
  (⟨code, src, blocks.flatMap fun c => leBytes (32 * fmtWidth code / 8) (packElems (fmtWidth code) c.codes),
    blocks.flatMap fun c => leBytes (fmtScaleBytes code) c.scale⟩, blocks.foldl (fun f c => f ||| c.flags) 0)

/-- What the Fold stores of a page, none for a zero page that is elided (R283). -/
def storePage (f : Fdt) (fmt : ParkFmt) (elide : Bool) (bs : List Byte) : Option Stored × Flags :=
  if elide && bs.all (· == 0) then (none, 0)
  else if fmt != .keep && !f.bad && (f.fmt == 2 || f.fmt == 3 || f.fmt == 4) then
    let (x, fl) := packPage (parkCode fmt) f.fmt bs
    (some x, fl)
  else (some ⟨0, 0, bs, []⟩, 0)

/-- Free bytes where the spec gives a recalled page no contents (log 4). -/
def freeBytes (n from_ len : Nat) : List Byte := (List.range len).map fun j => Config.freeByte 3 (from_ + j) n

/-- A stored page as the format that its entry names: converted to nearest; what the format leaves open of the page is
free (R48, R284; log 43). -/
def recallPage (f : Fdt) (size n : Nat) : Option Stored → List Byte × Flags
  | none => (List.replicate size 0, 0)
  | some x =>
    if x.code = 0 then (x.data, 0)
    else if f.bad || f.fmt == 0 || fmtBlock f.fmt then (freeBytes n 0 size, 0)
    else
      let w := fmtWidth x.code
      let sz := fmtScaleBytes x.code
      let data := leNat x.data
      let es := (List.range (x.data.length * 8 / w)).map fun j =>
        elemOfVal f.fmt Rnd.rne false
          (elemVal x.code (leNat ((x.scales.drop (j / 32 * sz)).take sz)) (data / 2 ^ (j * w) % 2 ^ w))
      let out := leBytes ((es.length * fmtWidth f.fmt + 7) / 8) (packElems (fmtWidth f.fmt) (es.map Prod.fst))
      (out.take size ++ freeBytes n out.length (size - out.length), es.foldl (fun g e => g ||| e.2) 0)

/-! ### Commands -/

/-- The state with a command changed. -/
def State.updSd (s : State) (id : Nat) (f : SdCmd → SdCmd) : State := s.updFly fun y => { y with sd := Tab.upd y.sd id f }

/-- It is a command's turn at its slot (R282). -/
def State.sdTurn (s : State) (id : Nat) (c : SdCmd) : Bool :=
  !(s.fly.sd.any fun p => decide (p.1 < id) && handleLow p.2.handle == handleLow c.handle)

/-- A page of a command goes into progress. -/
def State.addNvme (s : State) (x : Nvme) : State :=
  let (n, s1) := s.named
  s1.updFly fun f => { f with nvme := Tab.put f.nvme n x }

/-- A command stops with an error of a page; pages in progress are as they were (R283, R313). -/
def State.sdStop (s : State) (id : Nat) (e : Err) : State :=
  let mine := s.fly.nvme.filter fun x => x.2.cmd == id
  ((mine.foldl (fun s x => s.unpark1 x.2) s).updFly fun f =>
    { f with nvme := Tab.sub f.nvme fun _ x => x.cmd != id }).updSd id fun c =>
      { c with err := firstErr c.err (some e), ending := 1, pages := [] }

/-- The next page of a park: checked, marked parked, read and submitted; a format descriptor that cannot be used stops the
command as FORMAT does (R187, R283, R345). -/
def State.parkPage (s : State) (id : Nat) (c : SdCmd) (fmt : ParkFmt) (elide : Bool) (va : Nat) : State :=
  let size := pageBytes c.p64
  let bad := fun (cls : Nat) => s.sdStop id ⟨cls, 5, 0, va, 0⟩
  match s.walkBy (walkerUnit c.core) c.ctx va with
  | .error .uncorrectable => s.sdStop id (s.engineErr 5 (walkerUnit c.core) c.ctx .uncorrectable va 0)
  | .error _ => bad 1
  | .ok w =>
    let s := s.walked (walkerUnit c.core) c.ctx va w.marks w.tables
    if w.level ≠ 0 ∨ w.size ≠ size ∨ pteVp w.leaf = 2 then bad 1
    else
      let pa := ptePa w.leaf
      let old := (List.range (size / 4096)).map fun j => (w.entry + 8 * j, s.mem.leAt (w.entry + 8 * j) 8)
      match (List.range size).find? fun j => s.mem.uncorr (placeOf (pa + j)) || s.mem.poisoned (placeOf (pa + j)) with
      | some j => s.sdStop id ⟨6, 4, vaultOf (placeOf (pa + j)), va + j, 0⟩
      | none =>
        let f := s.fdt (walkerUnit c.core) c.ctx (pteFdt w.leaf)
        let bytes := s.mem.bytesAt pa size
        let (body, fl) := storePage f fmt elide bytes
        let n := handleLow c.handle
        let slot := Tab.find s.dev.fold n
        let lba := s.lbaOf (slot.elim 0 (·.drive))
        if f.bad && fmt != .keep && body.isSome then bad 1
        else if slot.any fun f => decide (f.nlba < f.used lba + bodyLbas lba body) then bad 11
        else
          let pos := BitVec.ofNat 64 (Config.choice 14 s.free (2 ^ 40) % 2 ^ 40 * 4096)
          let mark := fun (e : Nat) =>
            ((BitVec.ofNat 64 e &&& ~~~(0x000FFFFFFFFFF001 : DWord)) ||| ptePk ||| pos).toNat
          let s1 := s.putEntries c.ctx va size (old.map fun e => (e.1, mark e.2))
          ((s1.orFlags c.wave fl).addNvme ⟨id, va, 0, body.isNone, old, old.map fun e => mark e.2, pa, body,
            s.splitRest (slot.elim 0 (·.drive)) body⟩).drew

/-- The drive of a command's slot. -/
def State.sdDrive (s : State) (c : SdCmd) : Nat := (Tab.find s.dev.fold (handleLow c.handle)).elim 0 (·.drive)

/-- A drive's queue pairs have room for a page command (R288, R313). -/
def State.driveRoom (s : State) (drive : Nat) : Bool :=
  let busy := s.fly.nvme.filter fun x => !x.2.acked && (Tab.find s.fly.sd x.2.cmd).any fun c => s.sdDrive c == drive
  decide (busy.length < (Tab.find s.dev.drives drive).elim 0 fun d => d.nqp * max 2 d.qdepth)

/-- What a drive holds of a page of a recall or a drop: none where it has no work (R284, R285). -/
def State.onDrive (s : State) (c : SdCmd) (va : Nat) : Option Stored :=
  ((Tab.find s.dev.fold (handleLow c.handle)).bind fun f => Tab.find f.pages va).bind fun p => if p.p64 = c.p64 then p.body else none

/-- Pages of a recall or a drop go into progress in order, while their drive's pairs have room (R282, R284, R285, R313). -/
def State.submit (s : State) (id : Nat) (c : SdCmd) : List Nat → State
  | [] => s
  | va :: vas =>
    if s.fly.nvme.any fun x => x.2.cmd == id && x.2.page == va then s.submit id c vas
    else
      let body := s.onDrive c va
      if body.isSome && !s.driveRoom (s.sdDrive c) then s
      else (s.addNvme ⟨id, va, 0, body.isNone, [], [], 0, none, if c.kind = .call then s.splitRest (s.sdDrive c) body else 0⟩).submit
        id c vas

/-- A command starts at its turn: its slot is checked again (R205, R282, R363). -/
def State.sdStart (s : State) (id : Nat) (c : SdCmd) : State :=
  match s.foldSlot c.ctx c.handle with
  | none => s.sdStop id ⟨5, 5, 0, 0, 0⟩
  | some f =>
    if f.st = 3 then s.sdStop id ⟨11, 5, 0, 0, 0⟩
    else s.updSd id fun c => { c with started := true }

/-- A command has nothing left to do. -/
def State.sdOver (s : State) (id : Nat) (c : SdCmd) : Bool :=
  c.ending != 0 || (c.started && c.pages.isEmpty && !(s.fly.nvme.any fun x => x.2.cmd == id))

/-- The end of a command: its token and its entry; a passed-over error ends with END 0 (R251 to R253, R284). -/
def State.sdEnd (s : State) (id : Nat) (c : SdCmd) : State :=
  let e := c.err.getD Err.none
  let s1 := (s.landToken c.wave c.token c.lanes (tokenWord e c.ending c.moved)).updFly fun f =>
    { f with sd := Tab.del f.sd id }
  s.endOr id c.launch c.ctx e
    (s1.opEnd c.launch (c.handle.extractLsb' 0 32).toNat 2 c.ctx { e with detail := if e.cls = 11 then e.detail else c.moved })

/-- What Sheepdog does for one command without waiting: start it, submit its next pages, a park's one by one, or end it. -/
def State.sdAdvance (s : State) (id : Nat) : State :=
  match Tab.find s.fly.sd id with
  | none => s
  | some c =>
    if !s.sdTurn id c then s
    else
      let s1 := if c.started ∨ c.ending ≠ 0 then s else s.sdStart id c
      match Tab.find s1.fly.sd id with
      | none => s1
      | some c1 =>
        let s2 := match c1.kind, c1.pages with
          | .park f e, va :: _ =>
            if c1.ending ≠ 0 ∨ (s1.fly.nvme.any fun x => x.2.cmd == id) ∨ !s1.driveRoom (s1.sdDrive c1) then s1
            else s1.parkPage id c1 f e va
          | .park _ _, [] => s1
          | _, vas => if c1.started ∧ c1.ending = 0 then s1.submit id c1 vas else s1
        match Tab.find s2.fly.sd id with
        | none => s2
        | some c2 => if s2.sdOver id c2 then s2.sdEnd id c2 else s2

/-- The commands in the order in which Sheepdog serves their pages: decreasing priority, then request order (R282). -/
def State.sdOrder (s : State) : List Nat :=
  (List.range 24).reverse.flatMap fun p => (s.fly.sd.filter fun c => min c.2.prio 23 == p).map Prod.fst

/-- Sheepdog goes on as far as it can without its drives: every command once, and once more for the slots that ended
commands left. -/
def State.sdServe (s : State) : State :=
  let once := fun (s : State) => s.sdOrder.foldl State.sdAdvance s
  (List.range (s.fly.sd.length + 1)).foldl (fun s _ => once s) s

/-! ### Issue -/

/-- A Sheepdog token that ends at its issue (R253, R282). -/
def Iss.sdToken (i : Iss) (d : Reg) (h : DWord) (e : Err) : Eff :=
  let l := i.s.launch i.b.launch
  let entry := if e.cls = 0 then none else some (l.lpb.cq, opEntry (h.extractLsb' 0 32).toNat 2 i.w.ctx e)
  .done (i.t.deliverToken i.k d.toNat i.act (tokenWord e (if e.cls = 0 then 0 else 1) 0) entry)

/-- The priority of a recall: that of the continuation that its counter names, else the launch's; with the state that the
reads leave (R282, R316, R343). -/
def Iss.recallPriority (i : Iss) (h : DWord) : Nat × State :=
  let base := i.s.basePriority i.blk
  match i.t.unitRead (walkerUnit i.core) i.w.ctx h.toNat 32 with
  | .error _ => (base, i.t)
  | .ok (bs, t) =>
    if leNat ((bs.drop 4).take 1) % 2 = 0 then (base, t)
    else
      let ctx := leNat ((bs.drop 21).take 1)
      match t.unitRead (walkerUnit i.core) ctx (leNat ((bs.drop 8).take 8) + 0x44) 1 with
      | .error _ => (base, t)
      | .ok (p, u) => (min (leNat p) (i.s.ctx ctx).pceil, u)

/-- The own part of a Sheepdog command (R205, R250, R253, R282, R363). -/
def Iss.sheepdog (i : Iss) (kind : SdKind) (d a b : Reg) (c : Option Reg) (p64 : Bool) : Eff :=
  let words := fun l => (List.range 3).map (fun j => i.rd (a.toNat + j) l) ++
    (List.range 2).map (fun j => i.rd (b.toNat + j) l) ++ c.elim [] fun r => (List.range 2).map fun j => i.rd (r.toNat + j) l
  if i.idle then .done i.t
  else i.uniform (i.differ words) (
    let base := (i.desc2 a 0).toNat
    let n := (i.desc a 2).toNat % 65536
    let size := pageBytes p64
    let h := i.desc2 b 0
    if n ≠ 0 ∧ base + n * size > 2 ^ 48 then
      i.raise .translation (some (BitVec.ofNat 64 (max base (2 ^ 48 / size * size)))) i.act
    else if base % size ≠ 0 then i.raise .misaligned (some (BitVec.ofNat 64 base)) i.act
    else i.afterPublish (
      if n = 0 then i.sdToken d h Err.none
      else match i.s.foldSlot i.w.ctx h with
        | none => i.sdToken d h ⟨5, 5, 0, 0, 0⟩
        | some f =>
          if f.st = 3 then i.sdToken d h ⟨11, 5, 0, 0, 0⟩
          else
            let ctr := c.map fun r => i.desc2 r 0
            let (prio, t0) := match kind with
              | .call => i.recallPriority (ctr.getD 0)
              | _ => (i.s.basePriority i.blk, i.t)
            let (id, t) := (t0.pendWords i.k (i.lanes.map fun l => (d.toNat, l))).named
            let cmd : SdCmd := ⟨kind, i.blk, i.k, i.w.ctx, i.core, i.b.launch, d.toNat, i.act, h, p64,
              (List.range n).map fun j => base + j * size, false, 0, ctr, prio, none, 0, i.b.depth⟩
            .done (t.updFly fun y => { y with sd := Tab.put y.sd id cmd }).sdServe))

/-- SDPARK (R282, R283). -/
def execSdpark (h : Hdr) (d a b : Reg) (p64 : Bool) (f : ParkFmt) (elide : Bool) (sig : Option Reg) (s : State) : Out :=
  issue s { h := h, srcs := runOf a 3 ++ runOf b 2 ++ (sig.elim [] fun r => runOf r 2), dsts := [d.toNat] } fun i =>
    i.sheepdog (.park f elide) d a b sig p64

/-- SDCALL (R282, R284). -/
def execSdcall (h : Hdr) (d a b c : Reg) (p64 : Bool) (s : State) : Out :=
  issue s { h := h, srcs := runOf a 3 ++ runOf b 2 ++ runOf c 2, dsts := [d.toNat] } fun i =>
    i.sheepdog .call d a b (some c) p64

/-- SDDROP (R282, R285). -/
def execSddrop (h : Hdr) (d a b : Reg) (p64 : Bool) (s : State) : Out :=
  issue s { h := h, srcs := runOf a 3 ++ runOf b 2, dsts := [d.toNat] } fun i => i.sheepdog .drop d a b none p64

/-- What SDSTAT answers of a handle (R286). -/
def State.slotStatus (s : State) (ctx : Nat) (h : DWord) : Word :=
  match s.foldSlot ctx h with
  | none => 0
  | some f =>
    let busy := s.fly.sd.any fun c => handleLow c.2.handle == handleLow h
    let st := if f.st = 3 then 3 else if busy then 2 else if f.pages.isEmpty then 0 else 1
    BitVec.ofNat 32 (st * 2 ^ 30 + min f.pages.length (2 ^ 24 - 1))

/-- SDSTAT (R286). -/
def execSdstat (h : Hdr) (d a : Reg) (s : State) : Out :=
  issue s { h := h, srcs := pairOf a, dsts := [d.toNat] } fun i =>
    i.later i.t (i.each d.toNat fun l => i.s.slotStatus i.w.ctx (i.rd2 a.toNat l))

/-! ### Pages -/

/-- A page of a command that its drive has acknowledged, where Sheepdog serves it now: no command ahead of it has one
(R282). -/
def State.sdReady (s : State) (id : Nat) (page : Nvme → Bool) : Option (Nat × Nvme) :=
  let ready := s.fly.nvme.filter fun x => x.2.acked
  match s.sdOrder.find? fun c => ready.any fun x => x.2.cmd == c with
  | none => none
  | some first => if first = id then ready.find? fun x => x.2.cmd == id && page x.2 else none

/-- A page is no longer in progress and counts as moved, or not. -/
def State.pageDone (s : State) (id n page : Nat) (moved : Bool) : State :=
  (s.updFly fun f => { f with nvme := Tab.del f.nvme n }).updSd id fun c =>
    { c with pages := c.pages.filter (· != page), moved := if moved then c.moved + 1 else c.moved }

/-- A command's counter falls by 1 for a page; a failing handle is reported once (R400). -/
def State.sdDec (s : State) (id : Nat) (c : SdCmd) : State :=
  match c.ctr with
  | none => s
  | some h =>
    let (s1, e) := s.engDec c.core c.ctx 5 h 1
    s1.updSd id fun c => { c with err := firstErr c.err e }

/-- A PAGE IS PARKED: the drive has acknowledged it, its frame returns to the pool, the counter falls (R283). -/
def execSdPageParked (id : Nat) (s : State) : Out :=
  .next (match Tab.find s.fly.sd id, s.sdReady id fun _ => true with
    | some c, some (n, x) => match c.kind with
      | .park _ _ =>
        let s1 := s.updSlot (handleLow c.handle) fun f =>
          { f with pages := Tab.put f.pages x.page ⟨c.p64, x.entries, x.body⟩, st := 2 }
        (((s1.freeFrame c.ctx x.frame (pageBytes c.p64)).sdDec id c).pageDone id n x.page true).sdServe
      | _ => s
    | _, _ => s)

/-- A recalled page lands in a frame of the pool, or the command stops for want of one, or at a format descriptor that cannot be
used (R284, R345). -/
def State.recall1 (s : State) (id : Nat) (c : SdCmd) (n page : Nat) (es : List (Nat × Nat)) (p : Parked) : State :=
  let leaf : DWord := BitVec.ofNat 64 ((es.head?).elim 0 Prod.snd)
  let size := pageBytes c.p64
  match s.findFrame c.ctx c.core size leaf with
  | none => s.sdStop id ⟨9, 5, 0, page, 0⟩
  | some f =>
    let format := s.fdt (walkerUnit c.core) c.ctx (pteFdt leaf)
    if format.bad && p.body.any (fun x => x.code != 0) then s.sdStop id ⟨1, 5, 0, page, 0⟩
    else
    let (bs, fl) := recallPage format size s.free p.body
    let s1 := (s.takeFrame c.ctx f).homeWrite (fromPa f.1 bs)
    let entry := fun (e : Nat) =>
      ((BitVec.ofNat 64 e &&& ~~~(0x800FFFFFFFFFF000 : DWord)) ||| pteV ||| BitVec.ofNat 64 f.1).toNat
    let s2 := s1.putEntries c.ctx page size (es.map fun e => (e.1, entry e.2))
    let s3 := (s2.updSlot (handleLow c.handle) fun f => f.without page).orFlags c.wave fl
    ((s3.sdDec id c).pageDone id n page true).drew

/-- A PAGE IS RECALLED: read, converted, written and mapped, and the counter falls; a page that the slot does not hold
parked is passed over (R201, R284, R344). -/
def execSdPageRecalled (id page : Nat) (s : State) : Out :=
  .next (match Tab.find s.fly.sd id, s.sdReady id fun x => x.page == page with
    | some c, some (n, _) => match c.kind with
      | .call =>
        let held := ((Tab.find s.dev.fold (handleLow c.handle)).bind fun f => Tab.find f.pages page).filter fun p =>
          p.p64 == c.p64
        (match held.bind fun p => (s.stillParked (walkerUnit c.core) c.ctx page p).map fun es => (es, p) with
          | some (es, p) => s.recall1 id c n page es p
          | none => (s.updSd id fun c => { c with err := firstErr c.err (some ⟨1, 5, 0, page, 0⟩) }).pageDone id n page
              false).sdServe
      | _ => s
    | _, _ => s)

/-- A PAGE IS DROPPED: the Fold releases it, and an entry that is still as Sheepdog wrote it becomes invalid; a page that
the slot does not hold is left alone (R285, R344). -/
def execSdPageDropped (id page : Nat) (s : State) : Out :=
  .next (match Tab.find s.fly.sd id, s.sdReady id fun x => x.page == page with
    | some c, some (n, _) => match c.kind with
      | .drop =>
        let held := ((Tab.find s.dev.fold (handleLow c.handle)).bind fun f => Tab.find f.pages page).filter fun p =>
          p.p64 == c.p64
        (match held with
          | none => s.pageDone id n page false
          | some p =>
            let s1 := match s.stillParked (walkerUnit c.core) c.ctx page p with
              | none => s
              | some es => s.putEntries c.ctx page (pageBytes c.p64) (es.map fun (e : Nat × Nat) =>
                  (e.1, (BitVec.ofNat 64 e.2 &&& ~~~ptePk).toNat))
            (s1.updSlot (handleLow c.handle) fun f => f.without page).pageDone id n page true).sdServe
      | _ => s
    | _, _ => s)

/-- A DRIVE COMPLETES a page command: acknowledged, or followed by the page's next one; resubmitted up to three times, or failed
(R313, R427; the places of the fields in `status` PRESUMED, log 42). -/
def execNvmeCompletion (id : Nat) (status : BitVec 16) (s : State) : Out :=
  .next (match Tab.find s.fly.nvme id with
    | none => s
    | some x =>
      if x.acked then s
      else if status.extractLsb' 0 11 = 0 then
        if x.rest ≠ 0 then s.updFly fun f => { f with nvme := Tab.upd f.nvme id fun y => { y with tries := 0, rest := y.rest - 1 } }
        else (s.updFly fun f => { f with nvme := Tab.upd f.nvme id fun y => { y with acked := true } }).sdServe
      else if !status.getLsbD 14 ∧ x.tries < 3 then
        s.updFly fun f => { f with nvme := Tab.upd f.nvme id fun y => { y with tries := y.tries + 1 } }
      else (s.sdStop x.cmd ⟨11, 5, 0, x.page, (status.extractLsb' 0 11).toNat⟩).sdServe)

/-- A DRIVE DOES NOT COMPLETE a page command within a second (R313). -/
def execNvmeTimeout (id : Nat) (s : State) : Out :=
  .next (match Tab.find s.fly.nvme id with
    | none => s
    | some x => if x.acked then s else (s.sdStop x.cmd ⟨11, 5, 0, x.page, 0xFFFF⟩).sdServe)

end Sys2Proof.Machine
end

