-- ==== Sys2Proof/Machine/Rollback.lean ====
section
/-! DEFINITION. Opening barriers, commit, rollback and cycle limits of recovery scopes (R225, R226, R254, R292, R312, R375,
R376, R381, R383, R386 to R391, R407, R461). -/

namespace Sys2Proof.Machine

/-- The waves of a block changed. -/
def State.mapBlock (s : State) (blk : Nat) (f : Nat → Wave → Wave) : State :=
  { s with waves := Tab.mapVals s.waves fun k w => if w.block = blk then f k w else w }

/-- The lowest WAVE_IN_BLOCK that lives in a block. -/
def State.lowestWib (s : State) (blk : Nat) : Nat := (s.block blk).waves.foldl (fun m k => min m (s.wave k).wib) 63

/-! ### Opening -/

/-- A frame opens at a block, with the operands of its lowest wave (R375). -/
def State.openFrame (s : State) (blk : Nat) (sit : Bool) : State :=
  let b := s.block blk
  match b.rcv.opening with
  | [] => s
  | (_, a) :: _ =>
    let f : Frame := ⟨a.next, a.fmask, a.limit, 0, 0, 0, sit, false, false, false, b.rcv.recs.length⟩
    let s1 := s.updRcv blk fun r => { r with frames := r.frames ++ [f], opening := [] }
    s1.mapBlock blk fun _ w =>
      { w with wait := none, saves := Tab.put w.saves (b.depth + 1) ⟨w.flags, w.copies⟩ }

/-- Every live wave of a block has arrived at its opening barrier. -/
def State.openingFull (s : State) (blk : Nat) : Bool :=
  let b := s.block blk
  b.st == .running && b.rcv.failing.isNone && !b.rcv.opening.isEmpty && s.allIn blk (Tab.keys b.rcv.opening)

/-- AN OPENING BARRIER COMPLETES: of a block, or of a sitting's round when it is ready and every member has arrived
(R375, R390). -/
def execOpeningBarrierComplete (blk : Nat) (s : State) : Out :=
  .next (if !s.openingFull blk then s
    else match (if (s.block blk).depth = 0 then s.sittingOf blk else none) with
      | none => s.openFrame blk false
      | some (n, x) =>
        if x.st = 2 ∧ x.members.all (fun m => s.openingFull m) then
          (x.members.foldl (fun s m => s.openFrame m true) s).updSit n fun x =>
            { x with st := 3, opened := [], accepted := [], restored := [], ended := [] }
        else s)

/-! ### Commit -/

/-- The records after frame `d` commits (R381): those of a location recorded at `d` - 1 go, a home line's bytes that are
new to the outer record are added to it, and the others move out. -/
def mergeRecs (d : Nat) (rs : List PRec) : List PRec :=
  if d ≤ 1 then []
  else
    let outer := fun (l : RecLoc) => rs.any fun x => x.depth == d - 1 && x.loc == l
    let grown := rs.map fun x => match x.val with
      | .home t =>
        if x.depth = d - 1 then
          { x with val := .home ((rs.filter fun y => y.depth == d && y.loc == x.loc).foldl (fun t y => match y.val with
            | .home u => u.foldl (fun t p => if Tab.has t p.1 then t else Tab.put t p.1 p.2) t
            | _ => t) t) }
        else x
      | _ => x
    grown.filterMap fun x =>
      if x.depth = d then (if outer x.loc then none else some { x with depth := d - 1 }) else some x

/-- Work of frame `d` passes one scope out (R388). -/
def outward (d n : Nat) : Nat := if n = d then d - 1 else n

/-- What a block has on its way passes from frame `d` one scope out (R388). -/
def Flight.outward (f : Flight) (blk d : Nat) (mine : Nat → Bool) : Flight :=
  let o := fun (b n : Nat) => if b = blk then Machine.outward d n else n
  { f with
    results := Tab.mapVals f.results fun _ x => { x with
      depth := o x.block x.depth
      owes := x.owes.map fun y => { y with depth := o x.block y.depth } }
    arrivals := Tab.mapVals f.arrivals fun _ x => if mine x.wave then { x with depth := Machine.outward d x.depth } else x
    pushes := Tab.mapVals f.pushes fun _ x => if mine x.yoke then { x with depth := Machine.outward d x.depth } else x
    copies := Tab.mapVals f.copies fun _ x => { x with depth := o x.block x.depth }
    tiles := Tab.mapVals f.tiles fun _ x => { x with depth := o x.block x.depth }
    sd := Tab.mapVals f.sd fun _ x => { x with depth := o x.block x.depth }
    heap := Tab.mapVals f.heap fun _ x => { x with depth := o x.block x.depth }
    shadows := Tab.mapVals f.shadows fun _ x => { x with depth := o x.block x.depth } }

/-- A wave after its block's frame `d` has committed (R292, R388, R459). -/
def Wave.committed (w : Wave) (d : Nat) : Wave :=
  { w with
    wait := none
    saves := Tab.del w.saves d
    owed := w.owed.map fun f => { f with depth := outward d f.depth }
    resv := Tab.mapVals w.resv fun _ r => { r with depth := outward d r.depth }
    fifos := Tab.mapVals w.fifos fun _ f =>
      if d = 1 then { f with held := 0, pushed := [] }
      else
        let n := Tab.get 0 f.pushed d
        if n = 0 then f else { f with pushed := Tab.put (Tab.del f.pushed d) (d - 1) (Tab.get 0 f.pushed (d - 1) + n) } }

/-- Bytes of a core's L1 that a block holds at HDEPTH `d` pass one scope out, or become ordinary dirty bytes (R388,
R462). -/
def L1Line.committed (l : L1Line) (blk d : Nat) : L1Line :=
  { l with bytes := Tab.mapVals l.bytes fun _ b => match b.holder with
    | some (h, n) =>
      if h = blk ∧ d = 1 then { b with holder := none } else if h = blk ∧ n = d then { b with holder := some (h, d - 1) } else b
    | none => b }

/-- The lines of a block's core after its frame `d` has committed; a line that was in the spill area comes back when no
scope holds it any more (R225). -/
def State.commitLines (s : State) (blk d : Nat) : State :=
  let core := (s.block blk).core
  let s1 := s.updCore core fun c => { c with l1 := Tab.mapVals c.l1 fun _ l => l.committed blk d }
  let back := ((s1.core core).l1.filter fun p => p.2.out && !p.2.hasHeld).map Prod.fst
  back.foldl (fun s k => s.allocate core k) s1

/-- A deferred PUBLISH is carried out: it swaps like one issued now (R269, R388). -/
def State.activate (s : State) (id : Nat) (x : Shadowing) : State :=
  let (n, s1) := s.named
  let s2 := match (s1.ctx x.ctx).current.find? fun b => b.1.base == x.base with
    | some (_, at_) => s1.closeBind x.ctx at_ n x.keep
    | none => s1
  s2.updFly fun f => { f with shadows := Tab.put f.shadows id { x with deferred := false, depth := 0, order := n } }

/-- What a block has made or started in frame `d`, its capabilities, children, bindings, work and SWAYS, passes one scope out
(R388, R459). -/
def State.passOut (s : State) (blk d : Nat) : State :=
  let ws := (s.block blk).waves
  let owners := ws.map fun k => (s.wave k).handle
  let move := fun (_ : Nat) (c : Cap) => if owners.contains c.owner then { c with rlv := outward d c.rlv } else c
  let s2 := s.updDev fun dev => { dev with caps := Tab.mapVals dev.caps move }
  let up : Option (Nat × Nat) → Option (Nat × Nat)
    | some (p, n) => if p = blk ∧ n = d then (if d = 1 then none else some (p, d - 1)) else some (p, n)
    | none => none
  let s3 := { s2 with blocks := Tab.mapVals s2.blocks fun _ b => { b with parent := up b.parent } }
  let ctx := (s.block blk).ctx
  let bind := fun (b : Binding) => if b.block = blk then { b with depth := outward d b.depth } else b
  let s4 := s3.updCtx ctx fun c => { c with binds := c.binds.map bind }
  let sways := fun (x : Sways) => if ws.contains x.wave then { x with depth := outward d x.depth } else x
  let s5 := { s4 with cores := Tab.mapVals s4.cores fun _ c => { c with sways := c.sways.map sways } }
  ((s5.updFly fun f => f.outward blk d fun k => ws.contains k).mapBlock blk fun _ w => w.committed d).commitLines blk d

/-- COMMIT of a block's innermost frame; a deferred PUBLISH defers to the next frame out (R269, R372, R381, R388). -/
def State.commit (s : State) (blk : Nat) : State :=
  let d := (s.block blk).depth
  let s1 := s.updRcv blk fun r =>
    let defer := (r.frame d).any (·.defer)
    { r.updFrame (d - 1) fun f => { f with defer := f.defer || defer } with
      frames := (r.updFrame (d - 1) fun f => { f with defer := f.defer || defer }).frames.take (d - 1)
      recs := mergeRecs d r.recs
      accepting := []
      held := if d = 1 then false else r.held
      spilled := if d = 1 then false else r.spilled
      spill := if d = 1 then 0 else r.spill
      taken := if d = 1 then [] else r.taken.map fun t => { t with depth := outward d t.depth } }
  let s5 := s1.passOut blk d
  if d = 1 then (s5.fly.shadows.filter fun p => p.2.deferred && p.2.block == blk).foldl (fun s p => s.activate p.1 p.2) s5
  else s5

/-- Every live wave of a block has arrived at its accept barrier. -/
def State.acceptFull (s : State) (blk : Nat) : Bool :=
  let b := s.block blk
  b.st == .running && b.rcv.failing.isNone && decide (b.depth ≠ 0) && !b.rcv.accepting.isEmpty && s.allIn blk b.rcv.accepting

/-- AN ACCEPT BARRIER COMPLETES: the frame commits, or, for a sitting's round, every member's (R386, R390). -/
def execAcceptBarrierComplete (blk : Nat) (s : State) : Out :=
  .next (if !s.acceptFull blk then s
    else match (if (s.block blk).depth = 1 ∧ (s.block blk).rcv.inRound then s.sittingOf blk else none) with
      | none => s.commit blk
      | some (n, x) =>
        if x.members.all (fun m => s.acceptFull m) then
          (x.members.foldl (fun s m => s.commit m) s).updSit n fun x =>
            { x with st := 2, round := (x.round + 1) % 2 ^ 16, opened := [], accepted := [], restored := [], ended := [] }
        else s)

/-! ### Restoring -/

/-- One byte of an L1 line at a rollback of frame `d` of a block: as recorded, and as it is (R461). -/
def restoreByte (blk d : Nat) (old now : Option L1Byte) : Option L1Byte :=
  match now with
  | none => none
  | some b => match b.holder with
    | some (h, n) =>
      if h ≠ blk then some b
      else if d ≤ n then old.map fun r => ⟨r.val, none, none⟩
      else old.map fun r => { b with val := r.val }
    | none => if b.dirty.isNone && old.isNone then none else some b

/-- The held bytes of a line that is in spill areas, as they are now, go there (R203). -/
def State.writeOut (s : State) (core key : Nat) : State :=
  let l := s.line core key
  s.updFly fun f => { f with spills := f.spills ++ l.outAt.flatMap fun a => a.2.zip (lineBytes (l.heldBy a.1)) }

/-- A recorded line put back in the L1 (R461). -/
def State.restoreLine (s : State) (blk d core key : Nat) (old : Tab L1Byte) : State :=
  let bytes : Tab L1Byte := (List.range 128).filterMap fun i =>
    (restoreByte blk d (Tab.find old i) (Tab.find (s.line core key).bytes i)).map fun b => (i, b)
  match Tab.find (s.core core).l1 key with
  | none => s
  | some l =>
    let kept := if l.out then bytes.filter fun p => p.2.holder.isSome else bytes
    if kept.isEmpty then s.updCore core fun c => { c with l1 := Tab.del c.l1 key }
    else (s.updLine core key fun l => { l with bytes := kept }).writeOut core key

/-- A recorded line of a sitting's round: its bytes are written at their home, and the member's copy of them is invalid
(R391). -/
def State.restoreRound (s : State) (blk core key : Nat) (old : Tab L1Byte) : State :=
  let s1 := match s.unitXlate core (keyCtx key) (keyVa key) .write with
    | .error _ => s
    | .ok x => (s.marked core (keyCtx key) x).homeWrite (old.map fun p => (placeOf x.pa + p.1, p.2.val))
  match Tab.find (s1.core core).l1 key with
  | none => s1
  | some _ =>
    let keep := fun (i : Nat) (b : L1Byte) => !Tab.has old i || b.holder.any (fun h => h.1 != blk)
    s1.updLine core key fun l => { l with bytes := Tab.sub l.bytes keep }

/-- The record is its location's oldest from depth `d` on. -/
def oldestRec (rs : List PRec) (d : Nat) (r : PRec) : Bool :=
  rs.all fun x => x.loc != r.loc || decide (x.depth < d) || decide (r.depth ≤ x.depth)

/-- One record put back (R292, R377, R380, R383). -/
def State.restoreRec (s : State) (blk d : Nat) (oldest round : Bool) (r : PRec) : State :=
  match r.loc, r.val with
  | .reg k n l, .reg v p e x => s.updWave k fun w =>
    let bit := fun (t : Tab Mask) (on : Bool) =>
      Tab.set 0 t n (if on then setBit (Tab.get 0 t n) l else clrBit (Tab.get 0 t n) l)
    let w1 := w.put1 1 n l v
    { w1 with pend := bit w1.pend p, expt := bit w1.expt e, pois := bit w1.pois x }
  | .fifo k q, .fifo fs => s.updWave k fun w => fs.zipIdx.foldl (fun w p =>
      let now := w.fifo q p.2
      let f' := { now with head := p.1.head, count := now.count + (now.held - p.1.held), held := p.1.held }
      { w with fifos := Tab.put w.fifos (fifoKey q p.2) f' }) w
  | .scratch n, .scratch v fdt => s.updBlock blk fun b =>
      let b1 := b.updBuf .s fun x => x.put (4 * n) (leBytes 4 v.toNat)
      match fdt with
      | some f => b1.updBuf .s fun x => { x with fdt := Tab.set 0 x.fdt (4 * n / 4096) f }
      | none => b1
  | .slot n, .slot v old => s.updBlock blk fun b =>
      let kept := if old.isSuffixOf (Tab.get [] b.frameOld n) then old else []
      { b with
        frames := Tab.set 0 b.frames n v
        frameOld := if kept.isEmpty then Tab.del b.frameOld n else Tab.put b.frameOld n kept }
  | .granule owner sp seg, .granule bs fdt => s.updBuf owner sp fun x =>
      let y := x.put (128 * seg) bs
      { y with fdt := Tab.set 0 y.fdt (128 * seg / Space.granule sp) fdt }
  | .acc seg, .acc bs row sum st => s.updBlock blk fun b =>
      { b with
        c := b.c.put (128 * seg) bs
        sums := Tab.set 0 b.sums row sum
        tiles := match st with
          | some (t, v) => Tab.set 0 b.tiles t v
          | none => b.tiles }
  | .line core key, .line old =>
    if !oldest then s else if round then s.restoreRound blk core key old else s.restoreLine blk d core key old
  | .home line, .home t => s.homeWrite (t.map fun p => (128 * line + p.1, p.2))
  | _, _ => s

/-- The records of depths from `d` on put back, the newest first, those in the spill area read back from there; unreadable ones
are passed over (R203, R383). -/
def State.restoreRecs (s : State) (blk d : Nat) : State :=
  let r := (s.block blk).rcv
  let rs := r.recs.filter fun x => decide (d ≤ x.depth)
  rs.reverse.foldl (fun s x => match s.reread x with
    | none => s
    | some y => s.restoreRec blk d (oldestRec rs d x) r.inRound y) s

/-! ### Rollback -/

/-- A wave as a rollback of frame `d` finds it stopped: no wait, no barrier of its own, no reservation whose LR issued in the
scope, nothing staged (R78, R96, R244, R383). -/
def Wave.halted (w : Wave) (d : Nat) : Wave :=
  { w.drained with
    wait := none
    cwaits := []
    parked := false
    nap := 0
    resv := Tab.sub w.resv fun _ r => decide (r.depth < d)
    adopting := none
    stalled := 0
    owed := w.owed.filter fun f => !f.deferred || decide (f.depth < d) }

/-- A copy mover of the scope is cancelled: its slots return (R262, R266, R387). -/
def State.undoCopy (s : State) (id : Nat) (c : Copy) : State :=
  let s1 := s.updFly fun f => { f with copies := Tab.del f.copies id }
  if c.op = .multi then s1.updBlock c.block fun b => (maskMembers (c.runs.elim 0 Prod.fst)).foldl Block.giveSlot b else s1

/-- Completion entries of operations whose tokens a rollback takes back (R253). -/
def State.putEntries2 (s : State) (blk d : Nat) : State :=
  (s.fly.results.filter fun p => p.2.block == blk && decide (d ≤ p.2.depth)).foldl (fun s p => match p.2.entry with
    | some (cq, e) => s.cqReport e.ctx cq e
    | none => s) s

/-- A SHADOW.drop of the scope is cancelled: its binding is in force again. Where another binding outside the scope has taken
its range since, it goes on and writes no token (R204, R254, R267; log 65). -/
def State.cancelDrop (s : State) (blk d id : Nat) (x : Shadowing) : State :=
  let taken := fun (b : Binding) => (s.ctx x.ctx).binds.any fun o => o.until_.isNone &&
    !(o.block == blk && decide (d ≤ o.depth)) && decide (o.base < b.base + b.size) && decide (b.base < o.base + o.size)
  let mine := fun (b : Binding) => b.base == x.base && b.until_ == some x.order
  if ((s.ctx x.ctx).binds.find? mine).any taken then s.updFly fun f => { f with shadows := Tab.put f.shadows id { x with lanes := 0 } }
  else (s.updCtx x.ctx fun c => { c with binds := c.binds.map fun b => if mine b then { b with until_ := none } else b }).updFly
    fun f => { f with shadows := Tab.del f.shadows id }

/-- The engine work of frames from `d` on is cancelled, and what heaps answered to it goes back (R254, R312, R387). -/
def State.cancelWork (s : State) (blk d : Nat) : State :=
  let mine := fun (b n : Nat) => b == blk && decide (d ≤ n)
  let s1 := (s.fly.copies.filter fun p => mine p.2.block p.2.depth).foldl (fun s p => s.undoCopy p.1 p.2) s
  let s2 := (s1.cancelSd fun x => mine x.block x.depth).putEntries2 blk d
  let ws := (s.block blk).waves
  let s3 := s2.updFly fun f => { f with
    results := Tab.sub f.results fun _ x => !mine x.block x.depth
    tiles := Tab.sub f.tiles fun _ x => !mine x.block x.depth
    heap := Tab.sub f.heap fun _ x => !mine x.block x.depth
    pushes := Tab.sub f.pushes fun _ x => !(ws.contains x.yoke && decide (d ≤ x.depth))
    shadows := Tab.sub f.shadows fun _ x => !(mine x.block x.depth && x.deferred) }
  let s3 := (s3.fly.shadows.filter fun p => mine p.2.block p.2.depth).foldl (fun s p => s.cancelDrop blk d p.1 p.2) s3
  let lose := fun (x : Sways) =>
    if ws.contains x.wave ∧ d ≤ x.depth then { x with wave := deadRef (s3.wave x.wave).handle } else x
  let s4 := { s3 with cores := Tab.mapVals s3.cores fun _ c => { c with sways := c.sways.map lose } }
  let back := (s.block blk).rcv.taken.filter fun t => decide (d ≤ t.depth)
  let s5 := back.foldl (fun s t =>
    let (n, s1) := s.named
    s1.updHeap t.inst fun h => { h with entries := h.entries ++ [(t.key, t.val, n)] }) s4
  s5.updRcv blk fun r => { r with taken := r.taken.filter fun t => decide (t.depth < d) }

/-- Shadow bindings that the scope made are gone, unpublished: their frames return to the pool (R204, R267, R387). -/
def State.dropBinds (s : State) (blk d : Nat) : State :=
  let ctx := (s.block blk).ctx
  let mine := fun (b : Binding) => b.block == blk && decide (d ≤ b.depth)
  let s1 := ((s.ctx ctx).binds.filter mine).foldl (fun s b => b.pages.foldl (fun s p =>
    let size := match walk s.mem (fun _ => none) (s.rootOf ctx) p.1 with
      | .ok w => w.size
      | .error _ => 4096
    s.freeFrame ctx p.2 size) s) s
  s1.updCtx ctx fun c => { c with binds := c.binds.filter fun b => !mine b }

/-- Children that the scope offered and that are not placed are withdrawn (R302, R387). -/
def State.withdraw (s : State) (blk d : Nat) : State :=
  let gone := s.blocks.filter fun p => p.2.st == .offered && p.2.parent.any fun q => q.1 == blk && decide (d ≤ q.2)
  gone.foldl (fun s p => ({ s with blocks := Tab.del s.blocks p.1 }).updLaunch p.2.launch fun l =>
    { l with left := l.left - 1 }) s

/-- The yokemates' pushes of the scope are taken out of the windows (R387). -/
def Wave.unpush (w : Wave) (d : Nat) : Wave :=
  { w with fifos := Tab.mapVals w.fifos fun _ f =>
    let n := (f.pushed.filter fun p => decide (d ≤ p.1)).foldl (fun n p => n + p.2) 0
    if n = 0 then f else { f with count := f.count - n, pushed := f.pushed.filter fun p => decide (p.1 < d) } }

/-- The block's arrivals at its barriers that still lack one are withdrawn (R407). -/
def State.unarrive (s : State) (blk : Nat) : State :=
  let one := fun (s : State) (y : Bool) =>
    if s.barrierFull blk y then s else s.updBlock blk fun b => b.updBarrier y fun r => { r with arrived := [] }
  one (one s false) true

/-- Steps 1 to 4 of a rollback: the waves stop, the scope's work is cancelled, its capabilities are revoked, its records
are put back (R383, R387, R407). -/
def State.undo (s : State) (blk d : Nat) : State :=
  let s1 := (s.unarrive blk).mapBlock blk fun _ w => w.halted d
  let s2 := (((s1.cancelWork blk d).dropBinds blk d).withdraw blk d).updRcv blk fun r =>
    { r with opening := [], accepting := [] }
  let owners := (s2.block blk).waves.map fun k => (s2.wave k).handle
  let s3 := s2.revokeIf fun c => owners.contains c.owner && decide (d ≤ c.rlv)
  (s3.restoreRecs blk d).mapBlock blk fun _ w => w.unpush d

/-- FLAGS and the copy-mover count of a wave as they were when frame `d` opened; TLEVEL 0 (R383). -/
def Wave.reopened (w : Wave) (d : Nat) : Wave :=
  match Tab.find w.saves d with
  | none => { w with trap := { w.trap with level := 0 } }
  | some x => { w with
      flags := x.flags
      copies := x.copies
      saves := Tab.sub w.saves fun n _ => decide (n ≤ d)
      trap := { w.trap with level := 0 } }

/-- The frame after a rollback of it (R383, R384). -/
def Frame.rolled (f : Frame) : Frame :=
  { f with
    rank := if f.rank ≥ 15 then f.rank else f.rank + 1
    skip := f.skip || decide (f.rank ≥ 15)
    rollbacks := satAdd 8 f.rollbacks 1
    count := 0
    defer := false
    served := false }

/-- Steps 5 to 8 of a rollback (R383, R412). -/
def State.reopen (s : State) (blk d : Nat) (cause : Word) : State :=
  let s1 := s.mapBlock blk fun _ w => w.reopened d
  let clear := decide (d = 1) && !(s.block blk).rcv.inRound
  let s2 := s1.updRcv blk fun r =>
    let r1 := { r with
      frames := r.frames.take d
      recs := r.recs.filter fun x => decide (x.depth < d)
      rcause := cause
      held := if clear then false else r.held
      spilled := if clear then false else r.spilled }
    r1.updFrame d Frame.rolled
  s2.updCtx (s.block blk).ctx fun c => { c with rollback := satAdd 64 c.rollback 1 }

/-- Step 9 for one wave: every live lane at NEXT, whose TGT bit is checked (R66, R383). -/
def State.dispatch1 (s : State) (k : Nat) (next : Ctr) : State :=
  let s1 := s.updWave k fun w =>
    { w.setPcs w.live fun _ => next with lineOk := 0, entering := 0, dispatch := true }
  let w := s1.wave k
  let (clear, s2) := s1.targetClear (s1.coreOf k) w.ctx (s1.block w.block).launch next
  if clear then s2.trap k .branchTarget false (next.setWidth 64) w.live fun _ => next else s2

/-- Step 9 of a rollback: the block's waves dispatch, and COUNT is 0 (R376). -/
def State.dispatch (s : State) (blk d : Nat) : State :=
  let s1 := s.updRcv blk fun r => { r.updFrame d fun f => { f with count := 0 } with failing := none }
  match (s1.block blk).rcv.frame d with
  | none => s1
  | some f => (s1.block blk).waves.foldl (fun s k => s.dispatch1 k f.next) s1

/-- A rollback that meets an unreadable record: every open frame is discarded, what outer frames have started belongs to none,
their deferred PUBLISHes are cancelled, and each wave traps (R233, R269, R383). -/
def State.abandonFrames (s : State) (blk d pos : Nat) : State :=
  let all := (s.block blk).rcv.frames.length
  let s1 := s.mapBlock blk fun _ w => { w.reopened d with saves := [], dispatch := false, wait := none }
  let s2 := (((List.range all).reverse.foldl (fun s n => s.passOut blk (n + 1)) s1).updRcv blk fun r =>
    { r with frames := [], recs := [], held := false, spilled := false, spill := 0, taken := [], failing := none }).updFly fun f =>
    { f with shadows := Tab.sub f.shadows fun _ x => !(x.block == blk && x.deferred) }
  (s2.block blk).waves.foldl (fun s k =>
    let w := s.wave k
    s.trap k .uncorrectable true (BitVec.ofNat 64 pos) w.live w.pc) s2

/-- The other members of a sitting fail their frame 1 with SITTING (R391). -/
def State.failMembers (s : State) (blk : Nat) (x : Sitting) : State :=
  (x.members.filter (· != blk)).foldl (fun s m =>
    if !(s.block m).rcv.inRound || ((s.block m).rcv.failing.any fun f => f.depth == 1) then s
    else s.failScope m 1 (s.lowestWib m) 0 rcSitting) s

/-- When the restorations of all members that are still in the round have merged, all dispatch together; SKIP of one is SKIP
of all; a round with no member left ends (R391). -/
def State.roundDone (s1 : State) (n : Nat) : State :=
  match Tab.find s1.dev.sits n with
  | none => s1
  | some x =>
    let skip := x.members.any fun m => ((s1.block m).rcv.frame 1).any (·.skip)
    let s2 := if skip then x.members.foldl (fun s m => s.updRcv m fun r => r.updFrame 1 fun f => { f with skip := true }) s1
      else s1
    if x.members.all fun m => x.restored.contains m || x.ended.contains m then
      (x.members.foldl (fun s m => if x.restored.contains m then s.dispatch m 1 else s) s2).updSit n fun y =>
        if x.members.all fun m => x.ended.contains m then { y with st := 2, ended := [], restored := [], accepted := [] }
        else { y with st := 3, restored := [], accepted := [] }
    else s2

/-- The restoration of a member has merged (R391). -/
def State.roundRestored (s : State) (blk n : Nat) : State :=
  (s.updSit n fun x => { x with st := 4, restored := blk :: x.restored.filter (· != blk) }).roundDone n

/-- A member of a round has lost its frames to an unreadable record: the others fail, and it takes no part in what is left of
the round (R383, R391). -/
def State.roundLost (s : State) (blk n : Nat) (x : Sitting) : State :=
  ((s.failMembers blk x).updSit n fun x => { x with st := 4, ended := blk :: x.ended.filter (· != blk) }).roundDone n

/-- A rollback may take place: no arrival that the scope sent is without its outcome, and in a round the write-backs of
the recorded lines have merged (R383, R391). -/
def State.mayRestore (s : State) (blk d : Nat) : Bool :=
  let b := s.block blk
  !(s.fly.arrivals.any fun p => b.waves.contains p.2.wave && decide (d ≤ p.2.depth)) &&
  (!b.rcv.inRound || b.rcv.recs.all fun r => decide (r.depth < d) || match r.loc with
    | .line core key => (s.inFlight core key).isEmpty
    | _ => true)

/-- A ROLLBACK: the scope that fails is restored and its waves dispatch to its next alternate; in a sitting's round all
members restore before any dispatches (R383, R387, R391). -/
def execRollback (blk : Nat) (s : State) : Out :=
  .next (match (s.block blk).rcv.failing with
    | none => s
    | some f =>
      let b := s.block blk
      let d := f.depth
      let round := if d = 1 ∧ b.rcv.inRound then s.sittingOf blk else none
      if d = 0 ∨ b.depth < d then s.updRcv blk fun r => { r with failing := none }
      else if round.any fun p => p.2.restored.contains blk then
        match round with
        | some (n, _) => s.roundRestored blk n
        | none => s
      else if b.st ≠ .running ∨ !s.mayRestore blk d then s
      else
        let broken := (b.rcv.recs.zipIdx.find? fun p => (s.reread p.1).isNone && decide (d ≤ p.1.depth)).map Prod.snd
        let s1 := s.undo blk d
        match broken with
        | some pos => match (if b.rcv.inRound then s.sittingOf blk else none) with
          | none => s1.abandonFrames blk d pos
          | some (n, x) => (s1.abandonFrames blk d pos).roundLost blk n x
        | none =>
          let s2 := s1.reopen blk d f.rcause
          match round with
          | none => s2.dispatch blk d
          | some (n, x) => (s2.failMembers blk x).roundRestored blk n)

/-- A CYCLE LIMIT EXPIRES (R376, R382). -/
def execRecoveryLimitExpiry (blk depth : Nat) (s : State) : Out :=
  .next (match (s.block blk).rcv.frame depth with
    | none => s
    | some f =>
      if f.limit ≠ 0 ∧ f.limit ≤ f.count ∧ (s.block blk).st = .running then
        s.failScope blk depth (s.lowestWib blk) 0 rcLimit
      else s)

end Sys2Proof.Machine
end

