-- ==== Sys2Proof/Machine/Waves.lean ====
section
/-! DEFINITION. The steps of waves and cores that no instruction takes: owed faults, returning results, publishes, held
continuations, the selector's exchanges, naps, the end of SWAYS (R25 to R27, R77, R78, R178, R196, R207, R211, R223, R233,
R249, R298, R328, R410, R459). -/

namespace Sys2Proof.Machine

/-! ### Owed faults and results -/

/-- The earliest owed fault that a wave takes at its level, with its place (R459). -/
def Wave.duty (w : Wave) : Option (OwedFault × Nat) := w.owed.zipIdx.find? fun p => decide (w.trap.level ≤ p.1.level)

/-- A WAVE TAKES ITS EARLIEST OWED FAULT where a path of it is ready to issue: TEPC is each lane's own counter (R105,
R233, R459). -/
def execTakeOwedFault (wave : Nat) (s : State) : Out :=
  .next (match (s.wave wave).duty with
    | none => s
    | some (f, n) =>
      if !s.waveReady wave then s
      else
        let s1 := s.updWave wave fun w => { w with owed := w.owed.eraseIdx n }
        s1.raise wave f.cause f.deferred f.addr f.mask (s1.wave wave).pc)

/-- A RESULT RETURNS: its words take their values and are no longer pending, or are marked poisoned, and the wave owes
the deferred fault; the entry of an operation with an error is written first (R77, R78, R93, R233, R252, R253). -/
def State.resultReturns (s : State) (id : Nat) : State :=
  match Tab.find s.fly.results id with
  | none => s
  | some r =>
    if r.entry.any fun e => s.cqHolds e.2.ctx e.1 id then r.entry.elim s fun e => s.cqJoin e.2.ctx e.1 id
    else
      let s1 := s.updFly fun f => { f with results := Tab.del f.results id }
      let s2 := match r.entry with
        | some (cq, e) => s1.cqPut e.ctx cq e
        | none => s1
      let s3 := s2.updWave r.wave fun w =>
        let w1 := w.land r.writes r.bad
        { w1 with owed := w1.owed ++ r.owes }
      s3.unpark r.wave

/-- VARIABLE_RESULT_RETURN (R77, R78). -/
def execVariableResultReturn (id : Nat) (s : State) : Out := .next (s.resultReturns id)

/-- The links of a path's lanes that are on their way return: its first issue at the target is due (R174). -/
def State.linksReturn (s : State) (k : Nat) (path : Mask) : State :=
  (s.fly.results.filter fun p => p.2.wave == k && p.2.link && p.2.writes.any fun x => path.getLsbD (x.1 % 32)).foldl
    (fun s p => s.resultReturns p.1) s

/-! ### Publishes -/

/-- A captured line's dirty bytes merge at the home in one step (R207, R211). -/
def execPublishLineMerge (id : Nat) (s : State) : Out :=
  .next (match Tab.find s.fly.lines id with
    | none => s
    | some l => if s.mayMerge id l then s.mergeLine id l else s)

/-- A BRIDGE SWITCH ACCEPTS the lines of a core's oldest publish that went to a die: its fence counter equals the
publish's count; a parity error delays the report and is counted (R211, R223, R410). -/
def execBridgePublishAccept (core die : Nat) (s : State) : Out :=
  .next (match s.oldestPublish core with
    | none => s
    | some p =>
      let x := Tab.get ⟨core, none, [], []⟩ s.fly.publishes p
      let n := bridgeOf (coreDie core) die
      let key := fenceKey core die
      let count := Tab.get 0 x.crossed die
      let b := s.bridge n
      if !x.lines.isEmpty ∨ count = 0 ∨ Tab.get 0 b.counts key ≠ count then s
      else
        let s1 := s.updBridge n fun b => { b with
          counts := Tab.del b.counts key
          parity := false
          fencepar := if b.parity then satAdd 32 b.fencepar 1 else b.fencepar }
        (s1.updFly fun f => { f with
          publishes := Tab.upd f.publishes p fun x => { x with crossed := Tab.del x.crossed die } }).settle core)

/-! ### Held continuations -/

/-- A CONTINUATION HELD AT A FULL QUEUE is appended once a slot is free (R298, R398). -/
def execHeldContinuationAppend (ctx q : Nat) (s : State) : Out :=
  .next (match (s.lq ctx q).held with
    | [] => s
    | h :: hs =>
      if (s.ctx ctx).st ≠ 1 then s else
      let s1 := s.updLq ctx q fun l => { l with held := hs }
      match s1.lqAppend ctx q h.bytes (some h.core) with
      | (s2, .done) => s2
      | (_, .unwritable c) => s1.contFails ⟨0, 0, q, h.core, 0, h.ident, h.cq, ctx⟩ h.handle c.cls 2
      | (_, _) => s)

/-! ### The selector -/

/-- THE FAIRNESS TIMER REACHES FAIR: a sweep begins, which the vote follows (R26, R328). -/
def execFairnessSweep (wave : Nat) (s : State) : Out :=
  .next (
    let w := s.wave wave
    let out := (s.readyPaths wave).length - 2
    if out ≠ 0 ∧ (s.ctx w.ctx).fair ≤ (w.fcount.extractLsb' 0 13).toNat + out then
      s.updWave wave fun w => { w with fcount := w.fcount ||| 0x8000 }
    else s)

/-- The active wave that has issued longest since it entered the active set. -/
def Core.longest (c : Core) : Option Nat :=
  c.active.foldl (fun best k => match best with
    | none => some k
    | some j => if Tab.get 0 c.issued j < Tab.get 0 c.issued k then some k else some j) none

/-- A READY WAVE THAT HAS WAITED 2,048 CYCLES in the pending set changes places with the active wave that has issued
longest (R27). -/
def State.ageExchange (s : State) (core : Nat) : State :=
  let c := s.core core
  match c.pending.find? (fun x => decide (2048 ≤ x.2) && s.waveReady x.1), c.longest with
  | some (p, _), some a => s.updCore core fun c => c.swap a p
  | _, _ => s

/-- PENDING_AGE_EXCHANGE (R27). -/
def execPendingAgeExchange (core : Nat) (s : State) : Out := .next (s.ageExchange core)

/-- A NAP ENDS: the wave ranks as before (R178). -/
def execNapExpiry (wave : Nat) (s : State) : Out :=
  .next (s.updWave wave fun w => { w with nap := if w.nap = 1 then 0 else w.nap })

/-! ### The end of SWAYS -/

/-- A span of scratch addresses meets a granule, by its position in the allocation. -/
def meets (granule start len : Nat) : Bool :=
  decide (0 < len) && decide (start < 4096 * (granule + 1)) && decide (4096 * granule < start + len)

/-- A slice of a copy reads or writes the `n`th granule of its block's scratch. -/
def State.sliceMeets (s : State) (c : Copy) (x : Slice) (n : Nat) : Bool :=
  let (es, ed) := (s.rowElems (s.block c.block).core (s.block c.block).ctx c.block c.arg x.src).getD (1, 1)
  (List.range x.count).any fun r =>
    (c.arg.ssp == .s && meets n (x.srcRow c.op r) x.rowb) || (c.arg.dsp == .s && meets n (x.dstRow c.op r) (x.rowb / es * ed)) ||
    ((c.op == .gather || c.op == .scatter) && meets n x.idx (4 * x.rows))

/-- A copy in flight has a source or destination in a way of a core (R196). -/
def State.wayBusy (s : State) (core way : Nat) : Bool :=
  s.fly.copies.any fun p =>
    let b := s.block p.2.block
    b.core == core && b.granules.zipIdx.any fun g => g.1 / 16 == way && p.2.slices.any fun x => s.sliceMeets p.2 x g.2

/-- The ways of a core that its oldest SWAYS turns to cache and that copies still use. -/
def State.busyWays (s : State) (core : Nat) : BitVec 16 :=
  let c := s.core core
  let toCache := c.scratch &&& ~~~(c.sways.head?.elim c.scratch (·.ways))
  BitVec.ofNat 16 ((List.range 16).foldl (fun n w => if toCache.getLsbD w && s.wayBusy core w then n + 2 ^ w else n) 0)

/-- A core's oldest SWAYS ENDS: its status lands in its register. -/
def State.endSways (s : State) (core : Nat) (x : Sways) (v : Word) : State :=
  let s1 := s.updCore core fun c => { c with sways := c.sways.tail }
  (s1.landToken x.wave x.dst x.lanes v).unpark x.wave

/-- SWAYS TIMES OUT after 65,536 cycles: the split is unchanged, vD holds 1, and the wave owes a deferred PERMISSION
(R233, R249). -/
def execSwaysTimeout (core : Nat) (s : State) : Out :=
  .next (match (s.core core).sways with
    | [] => s
    | x :: _ =>
      let busy := s.busyWays core
      if busy = 0 ∨ x.cycles < 65536 then s
      else (s.endSways core x 1).owe x.wave ⟨.permission, busy.setWidth 64 ||| 0x10000, x.lanes, x.level, true, x.depth⟩)

/-- SWAYS COMPLETES: no copy uses the ways that become cache; the new split takes effect, vD holds 0 (R196, R249). -/
def execSwaysComplete (core : Nat) (s : State) : Out :=
  .next (match (s.core core).sways with
    | [] => s
    | x :: _ =>
      if s.busyWays core ≠ 0 then s
      else (s.updCore core fun c => { c with scratch := x.ways }).endSways core x 0)

end Sys2Proof.Machine
end

