-- ==== Sys2Proof/Machine/Schedule.lean ====
section
/-! DEFINITION. Admission of launches, offers, placement, staggered start and pools (R12 to R19, R23, R29, R100, R297 to
R299, R301, R316 to R325, R337 to R339, R358 to R360, R365). -/

namespace Sys2Proof.Machine

/-! ### Admission -/

/-- The LPB of 256 bytes (R299). -/
def Lpb.ofBytes (bs : List Byte) : Lpb :=
  let at_ (o n : Nat) : Nat := leNat ((bs.drop o).take n)
  { version := at_ 0 4, flags := at_ 4 4, entry := at_ 8 8, yokeEntry := at_ 0x10 8, gx := at_ 0x18 4, gy := at_ 0x1C 4
    gz := at_ 0x20 4, waves := at_ 0x24 2, regs := at_ 0x26 2, scratch := at_ 0x28 4, wbuf := at_ 0x2C 4
    abuf := at_ 0x30 4, cbuf := at_ 0x34 4, spillBase := at_ 0x38 8, spillSize := at_ 0x40 4, priority := at_ 0x44 1
    opclass := at_ 0x45 1, heatClass := at_ 0x46 1, rdepth := at_ 0x47 1, args := at_ 0x48 8, groups := at_ 0x50 8
    groupCount := at_ 0x58 2, yokeDepth := at_ 0x5A 2, heap := at_ 0x5C 2, yokeRegs := at_ 0x5E 1, spawnDepth := at_ 0x5F 1
    blockCtr := at_ 0x60 8, cq := at_ 0x68 8, tvec := at_ 0x70 8, tsave := at_ 0x78 8, rlimit := at_ 0x80 4
    leaseUs := at_ 0x84 4, reserved := (bs.drop 0x88).any fun b => b != 0 }

/-- The yoke flag (R299). -/
def Lpb.yoke (l : Lpb) : Bool := l.flags % 2 == 1
/-- The recovery flag. -/
def Lpb.recoverable (l : Lpb) : Bool := l.flags / 2 % 2 == 1
/-- The heap flag. -/
def Lpb.heaped (l : Lpb) : Bool := l.flags / 4 % 2 == 1
/-- The boost lease flag. -/
def Lpb.boosted (l : Lpb) : Bool := l.flags / 16 % 2 == 1
/-- Blocks of the grid (R16). -/
def Lpb.blocks (l : Lpb) : Nat := l.gx * l.gy * l.gz

/-- A completion queue that an LPB names is usable (R299). -/
def State.cqUsable (s : State) (ctx : Nat) (l : Lpb) : Bool := decide (l.cq < 16) && ctlEn (s.cq ctx l.cq).ctl

/-- The checks of an LPB but the group table's (R15, R100, R299). -/
def State.lpbBad (s : State) (ctx : Nat) (l : Lpb) : Bool :=
  l.version != 1 || l.blocks == 0 || decide (l.blocks > 2 ^ 32 - 1) || l.waves == 0 || decide (l.waves > 32) ||
  decide (l.regs < 16) || decide (l.regs > 256) || l.regs % 8 != 0 ||
  (l.yoke && (decide (l.yokeRegs * 8 < 16) || decide (l.yokeRegs * 8 > 256) || l.yokeDepth == 0 || decide (l.yokeDepth > 64) ||
    decide (l.regs < 16 + l.yokeDepth))) ||
  s.tooBig l.shape || (l.gang && l.blocks % 8 != 0) || decide (l.priority > 23) || decide (l.opclass > 7) ||
  l.opclass == 4 || l.opclass == 5 || (l.opclass == 7 && !(Tab.get 0 s.dev.opclass 7).getLsbD 32) ||
  decide (l.heatClass > 3) || decide (l.rdepth > 8) || (!l.recoverable && l.rdepth != 0) || decide (l.spawnDepth > 4) ||
  decide (l.groupCount > 256) || l.reserved || decide (l.flags ≥ 64) || decide (l.heap ≥ 128) ||
  (l.heaped && (s.heap l.heap).bound != some ctx) || !s.cqUsable ctx l

/-- Strictly rising. -/
def rising : List Nat → Bool
  | [] => true
  | [_] => true
  | a :: b :: xs => decide (a < b) && rising (b :: xs)

/-- 32-bit words of bytes. -/
def words32 : Nat → List Byte → List Nat
  | 0, _ => []
  | n + 1, bs => leNat (bs.take 4) :: words32 n (bs.drop 4)

/-- The members and ROUTE of a group table's entry, read at the homes, with the state that its reads leave; none for what
refuses the launch (R343, R359). -/
def State.groupAtVa (s : State) (ctx va total : Nat) : Option (List Nat × Bool) × State :=
  match s.unitRead farUnit ctx va 16 with
  | .error _ => (none, s)
  | .ok (e, t) =>
    let at_ (o n : Nat) : Nat := leNat ((e.drop o).take n)
    let count := at_ 8 4
    if at_ 0 8 % 4 ≠ 0 ∨ count = 0 ∨ count > total ∨ at_ 0xC 1 > 1 ∨ at_ 0xD 3 ≠ 0 then (none, t)
    else match t.unitRead farUnit ctx (at_ 0 8) (4 * count) with
      | .error _ => (none, t)
      | .ok (bs, u) =>
        let xs := words32 count bs
        (if rising xs && xs.all (fun x => decide (x < total)) then some (xs, at_ 0xC 1 == 1) else none, u)

/-- The entries of a group table from index `i` on. -/
def State.groupsFrom (s : State) (ctx : Nat) (l : Lpb) : Nat → Nat → Option (List (List Nat × Bool)) × State
  | _, 0 => (some [], s)
  | i, n + 1 =>
    match s.groupAtVa ctx (l.groups + 16 * i) l.blocks with
    | (none, t) => (none, t)
    | (some g, t) =>
      let (gs, u) := t.groupsFrom ctx l (i + 1) n
      (gs.map (g :: ·), u)

/-- The group table of a launch, with the state that its reads leave (R15, R359). -/
def State.groupTable (s : State) (ctx : Nat) (l : Lpb) : Option (List (List Nat × Bool)) × State :=
  if l.groups % 16 ≠ 0 ∧ l.groupCount ≠ 0 then (none, s)
  else
    let (gs, t) := s.groupsFrom ctx l 0 l.groupCount
    (gs.filter fun ok =>
      let all := ok.flatMap Prod.fst
      !all.any fun b => decide ((all.filter (· == b)).length > 4), t)

/-- A free route tag (R360). -/
def freeTag (tags : BitVec 8) : Option Nat := (List.range 8).find? fun i => !tags.getLsbD i

/-- The groups of an admitted launch: those that ask take the free route tags (R360). -/
def takeTags : BitVec 8 → List (List Nat × Bool) → List Group × BitVec 8
  | tags, [] => ([], tags)
  | tags, (m, route) :: gs =>
    match (if route then freeTag tags else none) with
    | some t =>
      let (rest, tags') := takeTags (tags ||| (1#8 <<< t)) gs
      (⟨m, some t, [], 0, []⟩ :: rest, tags')
    | none =>
      let (rest, tags') := takeTags tags gs
      (⟨m, none, [], 0, []⟩ :: rest, tags')

/-- Block `i` of a launch's grid, as it is offered (R14, R16, R17, R19, R185). -/
def gridBlock (launch ctx i : Nat) (l : Lpb) (prefer : Option Nat) (at_ : Nat) : Block :=
  { Block.blank with
    launch := launch
    ctx := ctx
    lin := i
    x := i % l.gx
    y := i / l.gx % l.gy
    z := i / l.gx / l.gy
    st := .offered
    prefer := prefer
    offeredAt := at_
    gang := if l.gang then some (i % 8) else none
    nwaves := l.waves
    foot := l.regs
    entry := BitVec.ofNat 48 l.entry
    s := Buffer.fresh l.scratch 4096
    w := Buffer.fresh l.wbuf 16384
    a := Buffer.fresh l.abuf 16384
    c := Buffer.fresh l.cbuf 65536 }

/-- The blocks of a grid from `i` on, offered in increasing linear index; a gang's on one die (R16, R318). -/
def State.offerGrid (s : State) (launch ctx : Nat) (l : Lpb) (prefer : Option Nat) (i die : Nat) : Nat → State
  | 0 => s
  | n + 1 =>
    let d := if l.gang && i % 8 != 0 then die else s.dieFor prefer
    (s.offerOn (gridBlock launch ctx i l prefer (s.serial + 1)) d).offerGrid launch ctx l prefer (i + 1) d n

/-- A refused launch: its entry at its completion queue, or at queue 0 when that is unusable (R15, R299, R304, R305). -/
def State.refuseLaunch (s : State) (ctx cq ident : Nat) (e : Err) : State :=
  s.cqReport ctx cq ⟨ident, 3, e, 0, 0, 0, 0, ctx⟩

/-- A launch is admitted: its groups, its record, its offers (R16, R298, R360). -/
def State.admitted (s : State) (ctx q ident : Nat) (l : Lpb) (gs : List (List Nat × Bool)) (prefer : Option Nat) : State :=
  let (id, s1) := s.named
  let (groups, tags) := takeTags s1.dev.tags gs
  let s2 := s1.updDev fun d => { d with tags := tags }
  let r : Launch := ⟨ctx, q, ident, l, groups, 0, none, 0, 0, 0, 0, 0, 0, prefer, false⟩
  ({ s2 with launches := Tab.put s2.launches id r }).offerGrid id ctx l prefer 0 0 l.blocks

/-- The slot at the head of a queue is taken: HEAD and the admission count move on (R297, R304). -/
def State.takeSlot (s : State) (ctx q : Nat) : State :=
  (s.updLq ctx q fun l => { l with
    head := (l.head + 1) % ctlSize l.ctl
    prefer := Tab.del l.prefer l.head
    count := (l.count + 1) % 2 ^ 29 }).updCtx ctx fun c => { c with nextq := (q + 1) % 8 }

/-- A launch queue has a slot to read. -/
def LaunchQueue.waiting (q : LaunchQueue) : Bool := ctlEn q.ctl && q.head != q.tail

/-- The queue that a context's rotation serves next (R298). -/
def State.nextQueue (s : State) (ctx : Nat) : Option Nat :=
  ((List.range 8).map fun i => ((s.ctx ctx).nextq + i) % 8).find? fun q => (s.lq ctx q).waiting

/-- The device reads a context's launch queues: it runs, fewer than 64 of its launches are not complete, and no
completion queue holds 256 entries back (R298, R306, R352). -/
def State.admits (s : State) (ctx : Nat) : Bool :=
  (s.ctx ctx).st == 1 && decide ((s.launches.filter fun p => p.2.ctx == ctx).length < 64) &&
  !((List.range 16).any fun c => s.cqFull ctx c)

/-- LAUNCH_ADMIT: the queue whose turn it is gives its next slot, which is checked, and offered or refused (R15, R297 to
R299, R316, R359). -/
def execLaunchAdmit (ctx q : Nat) (s : State) : Out :=
  .next (if !s.admits ctx ∨ s.nextQueue ctx ≠ some q then s
    else
      let lq := s.lq ctx q
      let ident := q * 2 ^ 29 + lq.count
      let at_ := lq.base + 256 * lq.head
      let prefer := Tab.find lq.prefer lq.head
      let t := s.takeSlot ctx q
      match t.unitRead farUnit ctx at_ 256 with
      | .error (c, _) => t.refuseLaunch ctx 0 ident ⟨c.cls, 0, 0, at_ % 2 ^ 48, 0⟩
      | .ok (bs, t) =>
        let l := Lpb.ofBytes bs
        let cq := if s.cqUsable ctx l then l.cq else 0
        if s.lpbBad ctx l then t.refuseLaunch ctx cq ident ⟨1, 0, 0, 0, 0⟩
        else match t.groupTable ctx l with
          | (none, t) => t.refuseLaunch ctx cq ident ⟨1, 0, 0, 0, 0⟩
          | (some gs, t) =>
            if (s.ctx ctx).cores = 0 then t.refuseLaunch ctx cq ident ⟨9, 0, 0, 0, 0⟩
            else t.admitted ctx q lq.count l gs prefer)

/-! ### The order of offers and of cores -/

/-- A block that waits to be placed (R23, R336). -/
def Block.waiting (b : Block) : Bool := b.st == .offered || b.st == .saved

/-- Offer `a` is considered before offer `b` (R318). -/
def State.ahead (s : State) (a b : Nat) : Bool :=
  let x := s.block a
  let y := s.block b
  let p := s.effective a
  let q := s.effective b
  decide (p > q) || (p == q && (decide (x.offeredAt < y.offeredAt) || (x.offeredAt == y.offeredAt &&
    (decide (x.ctx < y.ctx) || (x.ctx == y.ctx && decide (x.lin < y.lin))))))

/-- Placed in a list by a rank that rises, after its equals. -/
def insertBy (f : Nat → Int) (x : Nat) : List Nat → List Nat
  | [] => [x]
  | y :: ys => if f x < f y then x :: y :: ys else y :: insertBy f x ys

/-- A list in the order of a rank; equals stay as they were. -/
def sortBy (f : Nat → Int) (xs : List Nat) : List Nat := xs.foldl (fun ys x => insertBy f x ys) []

/-- The eligible cores of a block on its die, in the order in which they are tried; a saved gang member's own core alone
(R319, R336). -/
def State.coreOrder (s : State) (blk : Nat) : List Nat :=
  let b := s.block blk
  if b.st = .saved ∧ b.gang.isSome then [b.core].filter fun c => s.eligible b.ctx c
  else
    let cs := ((List.range 64).map fun i => 64 * b.die + i).filter fun c => s.eligible b.ctx c
    let first := cs.filter fun c => b.prefer == some c
    first ++ sortBy (fun c => (s.vault c).temp) (cs.filter fun c => b.prefer != some c)

/-- The members of an offered block's gang, by GANG_ID, which are placed together; none for any other block (R17). -/
def State.gangOf (s : State) (blk : Nat) : Option (List Nat) :=
  let b := s.block blk
  if b.st = .offered ∧ b.gang.isSome then
    some ((List.range 8).filterMap fun g => (s.blocks.find? fun p =>
      p.2.launch == b.launch && !p.2.spawned && p.2.lin == b.lin / 8 * 8 + g).map Prod.fst)
  else none

/-- The hottest vault of a cluster. -/
def State.hottest (s : State) (cluster : Nat) : Int :=
  (List.range 8).foldl (fun m g => max m (s.vault (8 * cluster + g)).temp) (s.vault (8 * cluster)).temp

/-- The clusters of a gang's die whose every core is eligible, in the order in which they are tried (R319, R322). -/
def State.clusterOrder (s : State) (blk : Nat) : List Nat :=
  let b := s.block blk
  let cs := ((List.range 8).map fun i => 8 * b.die + i).filter fun c => (List.range 8).all fun g => s.eligible b.ctx (8 * c + g)
  let mine := fun c => b.prefer.any fun p => p / 8 == c
  cs.filter mine ++ sortBy s.hottest (cs.filter fun c => !mine c)

/-- A gang's members with their cores on a cluster (R17). -/
def gangCores (ms : List Nat) (cluster : Nat) : List (Nat × Nat) := ms.zipIdx.map fun p => (p.1, 8 * cluster + p.2)

/-- The eligible cores of the device, coolest first; a saved gang member's own core alone (R323, R336). -/
def State.coolest (s : State) (blk : Nat) : List Nat :=
  let b := s.block blk
  if b.st = .saved ∧ b.gang.isSome then [b.core].filter fun c => s.eligible b.ctx c
  else sortBy (fun c => (s.vault c).temp) ((List.range 256).filter fun c => s.eligible b.ctx c)

/-- The cores that a block, or its gang as a whole, is tried on in order: those of its die, or once relieved every eligible one,
coolest first (R319, R322, R323). -/
def State.tries (s : State) (blk : Nat) : List (List (Nat × Nat)) :=
  let b := s.block blk
  match s.gangOf blk with
  | none => (if b.relieved then s.coolest blk else s.coreOrder blk).map fun c => [(blk, c)]
  | some ms =>
    let all := (List.range 32).filter fun c => (List.range 8).all fun g => s.eligible b.ctx (8 * c + g)
    if ms.length ≠ 8 then [] else (if b.relieved then sortBy s.hottest all else s.clusterOrder blk).map (gangCores ms)

/-- A try fails: a member is refused at one of tests 1 to 3 (R320, R322). -/
def State.tryFails (s : State) (t : List (Nat × Nat)) : Bool := t.any fun p => (s.failing p.1 p.2).isSome

/-- The cores on which a block, or its gang, would be placed now, if anywhere (R320, R322, R323). -/
def State.placement (s : State) (blk : Nat) : Option (List (Nat × Nat)) := (s.tries blk).find? fun t => !s.tryFails t

/-- A waiting block of the same die goes first: it is ahead and can be placed (R318). -/
def State.yields (s : State) (blk : Nat) : Bool :=
  let b := s.block blk
  s.blocks.any fun p => p.2.waiting && p.2.die == b.die && s.ahead p.1 blk && (s.placement p.1).isSome

/-- A refusal is counted once for each core and failing test (R323). -/
def State.refuse (s : State) (blk core test : Nat) : State :=
  let b := s.block blk
  if b.refused.contains (core, test) then s
  else
    let s1 := s.updBlock blk fun b => { b with refused := (core, test) :: b.refused.filter fun r => r.1 != core }
    s1.updCtx b.ctx fun c => { c with refuse := satAdd 64 c.refuse 1 }

/-- The refusals of a try that fails: of a gang, the members that pass tests 1 to 3 are refused at test 4 (R320, R322, R323). -/
def State.refuseAll (s : State) (ps : List (Nat × Nat)) : State :=
  ps.foldl (fun s p => s.refuse p.1 p.2 ((s.failing p.1 p.2).getD 4)) s

/-- The refusals of every try that comes before a placement. -/
def State.refuseTries (s : State) (blk : Nat) : State := ((s.tries blk).takeWhile s.tryFails).foldl State.refuseAll s

/-! ### A placement -/

/-- An index of the wave location table that is free: which one is a free value (R12, R358; log 4). -/
def State.freeLoc (s : State) : Nat :=
  let n := Config.choice 15 s.free (2 ^ 20) % 2 ^ 20
  if !Tab.has s.waves n then n else ((List.range (s.waves.length + 1)).find? fun i => !Tab.has s.waves i).getD 0

/-- A free wave slot of a core: which one is a free value (R8; log 4). -/
def State.freeSlot (s : State) (core : Nat) : Nat :=
  let taken := (s.wavesOn core).map fun k => (s.wave k).slot
  let from_ := Config.choice 16 s.free 64 % 64
  (((List.range 64).map fun i => (from_ + i) % 64).find? fun i => !taken.contains i).getD 0

/-- A wave as it is created; an entry that is no counter faults with MISALIGNED in place of its first issue (R14, R63,
R365). -/
def newWave (h : Word) (slot ctx blk wib foot : Nat) (entry tvec tsave : DWord) : Wave :=
  let pc : Ctr := entry.setWidth 48
  { Wave.blank with
    handle := h
    slot := slot
    ctx := ctx
    block := blk
    wib := wib
    foot := foot
    pcs := (List.range 32).map fun l => (l, pc)
    live := BitVec.allOnes 32
    trap := { Wave.blank.trap with vec := tvec, save := tsave }
    entering := BitVec.allOnes 32
    owed := if isCounter entry then [] else [⟨.misaligned, pc.setWidth 64, BitVec.allOnes 32, 0, false, 0⟩] }

/-- One wave of a block is created, in a slot of its core (R12, R13, R14, R19, R100). -/
def State.createWave (s : State) (blk wib foot : Nat) (entry : DWord) : State :=
  let b := s.block blk
  let l := s.lpb blk
  let loc := s.freeLoc
  let slot := s.freeSlot b.core
  let h : Word := BitVec.ofNat 32 (b.ctx * 2 ^ 26 + loc)
  let tsave := if b.spawned then 0 else BitVec.ofNat 64 (l.tsave + 512 * (64 * b.lin + wib))
  let w0 := newWave h slot b.ctx blk wib foot entry (BitVec.ofNat 64 l.tvec) tsave
  let w := if l.yoke && !b.spawned && decide (wib < 32) then w0.configure 0 (foot - l.yokeDepth) l.yokeDepth else w0
  let s1 := { s with
    waves := Tab.put s.waves loc w
    dev := { s.dev with locs := Tab.put s.dev.locs loc (.resident b.core slot) } }
  ((s1.updBlock blk fun b => { b with waves := b.waves ++ [loc] }).updCore b.core fun c => c.enter loc).drew

/-- The waves of a block are created together (R13, R19). -/
def State.createWaves (s : State) (blk : Nat) : State :=
  let b := s.block blk
  let l := s.lpb blk
  let entry := if b.spawned then b.entry.setWidth 64 else BitVec.ofNat 64 l.entry
  let s1 := (List.range b.nwaves).foldl (fun s i => s.createWave blk i b.foot entry) s
  if l.yoke && !b.spawned then
    (List.range b.nwaves).foldl (fun s i => s.createWave blk (32 + i) (l.yokeRegs * 8) (BitVec.ofNat 64 l.yokeEntry)) s1
  else s1

/-- The scratch granules that a block takes on a core: the lowest free ones (R196; DESIGN CHOICE, log 12). -/
def State.freeGranules (s : State) (core n : Nat) : List Nat :=
  let c := s.core core
  let taken := (s.blocksOn core).flatMap fun b => (s.block b).granules
  ((List.range 256).filter fun g => c.scratchWays.getLsbD (g / 16) && !taken.contains g).take n

/-- A core's cluster wakes from its clock gate, core `g` 32 × `g` cycles later, and the core's matrix engine starts
(R324). -/
def State.wakeCore (s : State) (core : Nat) : State :=
  let cl := core / 8
  let s1 := if (s.cluster cl).gated then
      (List.range 8).foldl (fun s g => s.updCore (8 * cl + g) fun c => { c with wake := 32 * g })
        (s.updCluster cl fun c => { c with gated := false })
    else s
  s1.updCore core fun c => if c.ramp = 0 then { c with ramp := 1, started := 0 } else c

/-- The lease that an LPB asks for at its launch's first placement; its class is a free value (R338; log 4). -/
def State.firstLease (s : State) (blk core : Nat) : State :=
  let l := s.lpb blk
  let n := (s.block blk).launch
  if (s.launch n).placed || !l.boosted then s
  else (s.lease n core (4 + Config.choice 17 s.free 2 % 2) l.leaseUs).1.drew

/-- A BLOCK IS PLACED on a core: it takes its granules and a block place, its waves are created (R13, R14, R23, R324). -/
def State.place (s : State) (blk core : Nat) : State :=
  let (n, s0) := s.named
  let s1 := (s0.wakeCore core).firstLease blk core
  let s2 := s1.updBlock blk fun b => { b with
    st := .starting
    core := core
    granules := s1.freeGranules core (s1.shapeOf blk).scratch
    placedAt := n
    waited := 0
    refused := []
    claim := none }
  (s2.updLaunch (s2.block blk).launch fun l => { l with placed := true }).createWaves blk

/-- BLOCK_PLACE: the die scheduler tests an offered block, or its gang, on the eligible cores of its die in order, and
places it on the first that accepts; refused on all of them, it is offered to the next die (R16 to R18, R318 to R323). -/
def execBlockPlace (offer : Nat) (s : State) : Out :=
  .next (
    let b := s.block offer
    if b.st ≠ .offered ∨ b.relieved ∨ s.yields offer then s
    else
      let s1 := s.refuseTries offer
      match s.placement offer with
      | some ps => ps.foldl (fun s p => s.place p.1 p.2) s1
      | none => ((s.gangOf offer).getD [offer]).foldl (fun s m => s.updBlock m fun b => { b with die := (b.die + 1) % 4 }) s1)

/-- 25 µs MORE OF AN OFFER raise its effective priority by one, by at most four (R317). -/
def execPriorityAgeTick (offer : Nat) (s : State) : Out :=
  .next (s.updBlock offer fun b =>
    if b.waiting && decide (b.ticks < 4) && decide (25 * (b.ticks + 1) ≤ b.age) then { b with ticks := b.ticks + 1 } else b)

/-- The save pool space of a block is free again (R336). -/
def State.freeImage (s : State) (blk : Nat) : State :=
  let b := s.block blk
  match b.image with
  | none => s
  | some (at_, _) =>
    (s.updBlock blk fun b => { b with image := none, arrived := false }).updCtx b.ctx fun c =>
      { c with saves := c.saves.filter fun x => x.1 != at_ }

/-- STAGGERED_START: a Starting block whose core has woken becomes Running; a restored one's image is freed (R23, R324,
R336). -/
def execStaggeredStart (blk : Nat) (s : State) : Out :=
  .next (
    let b := s.block blk
    if b.st ≠ .starting ∨ (s.core b.core).wake ≠ 0 ∨ (s.cluster (b.core / 8)).moving then s
    else (s.freeImage blk).updBlock blk fun b => { b with st := .running })

/-- MATRIX_ENGINE_RAMP: every 256 cycles a starting engine's rate rises by one eighth (R324). -/
def execMatrixEngineRamp (core : Nat) (s : State) : Out :=
  .next (s.updCore core fun c =>
    if decide (0 < c.ramp) && decide (c.ramp < 8) && decide (256 * c.ramp ≤ c.started) then { c with ramp := c.ramp + 1 } else c)

/-! ### Pools -/

/-- A cluster has no resident block and is in no move. -/
def State.idleCluster (s : State) (cluster : Nat) : Bool :=
  !(s.cluster cluster).moving && (List.range 8).all fun g => (s.blocksOn (8 * cluster + g)).isEmpty

/-- A waiting block of a class fails test 2 on every eligible core (R316, R325). -/
def State.poolless (s : State) (blk : Nat) : Bool :=
  (s.block blk).waiting && (List.range 256).all fun c => !s.eligible (s.block blk).ctx c || !s.inPool blk c

/-- The idle cluster that moves to the class of a waiting block: of those with an eligible core, the one whose hottest
vault is coolest (R316, R325). -/
def State.poolChoice (s : State) (blk : Nat) : Option Nat :=
  let cs := (List.range 32).filter fun c => s.idleCluster c && (s.cluster c).pool != (s.lpb blk).opclass &&
    (List.range 8).any fun g => s.eligible (s.block blk).ctx (8 * c + g)
  (sortBy s.hottest cs).head?

/-- POOL_MOVE: an idle cluster moves to the pool of a class whose waiting block no eligible core serves; boosted while a
lease of that pool runs (R325, R338). -/
def execPoolMove (cluster cls : Nat) (s : State) : Out :=
  .next (
    let asks := s.blocks.any fun p => (s.lpb p.1).opclass == cls && s.poolless p.1 && s.poolChoice p.1 == some cluster
    if asks then s.movePoint cluster fun c => { c with pool := cls, boost := s.poolBoost cls } else s)

/-- POOL_MOVE_COMPLETE: voltage and clock hold; the cores restart one every 32 cycles, the engines ramp (R325). -/
def execPoolMoveComplete (cluster : Nat) (s : State) : Out :=
  .next (if !(s.cluster cluster).moving then s
    else
      let s1 := s.updCluster cluster fun c => { c with moving := false }
      (List.range 8).foldl (fun s g =>
        let busy := !(s.blocksOn (8 * cluster + g)).isEmpty
        s.updCore (8 * cluster + g) fun c => { c with wake := 32 * g, ramp := if busy then 1 else 0, started := 0 }) s1)

end Sys2Proof.Machine
end

