-- ==== Sys2Proof/Machine/Image.lean ====
section
/-! DEFINITION. Pre-emption, the save image, restore, relief and migration (R23, R28, R29, R107, R220, R225, R234, R244,
R323, R330 to R337, R339, R358). -/

namespace Sys2Proof.Machine

/-! ### The image -/

/-- Bytes of a wave's record (R334). -/
def recordBytes (n : Nat) : Nat := roundUp (0x500 + 140 * n) 128

/-- Bytes of a format in the block section. -/
def Fdt.bytes (f : Fdt) : List Byte :=
  leBytes 1 f.fmt ++ leBytes 2 f.rowblk ++ leBytes 4 f.sstride ++ leBytes 6 f.origin ++ leBytes 6 f.sbase ++ leBytes 1 f.bad.toNat

/-- Bytes of a suspended tile operation in the block section. -/
def TileOp.bytes (o : TileOp) : List Byte :=
  let words := fun (xs : List Nat) => xs.flatMap (leBytes 8)
  let kind := match o.op with
    | .zero => words [0]
    | .load _ _ addr str f => words [1, addr, (str % 2 ^ 64).toNat] ++ f.bytes
    | .mmt _ a b aStr bStr f g cls => words [2, a, b, (aStr % 2 ^ 64).toNat, (bStr % 2 ^ 64).toNat, cls] ++ f.bytes ++ g.bytes
    | .drain _ _ _ desc f g slot susp => words [3, susp.toNat] ++ leBytes 16 slot.toNat ++ f.bytes ++ g.bytes ++
      desc.flatMap fun w => leBytes 4 w.toNat
    | .check => words [4]
    | .status clear => words [5, clear.toNat]
  (words [o.tile, o.wave, o.token, o.lanes.toNat, o.ver, o.next, o.depth, o.level] ++ leBytes 16 o.cfg.toNat ++ kind ++
    List.replicate 256 0).take 256

/-- Bytes of a recovery frame in the block section. -/
def Frame.bytes (f : Frame) : List Byte :=
  leBytes 6 f.next.toNat ++ leBytes 4 f.fmask.toNat ++ leBytes 4 f.limit ++ leBytes 4 f.count ++ leBytes 4 f.rollbacks ++
    leBytes 1 f.rank ++ leBytes 1 (f.sit.toNat + 2 * f.skip.toNat + 4 * f.defer.toNat + 8 * f.served.toNat) ++ leBytes 8 f.rbase

/-- Bytes of an owed fault in the block section. -/
def OwedFault.bytes (f : OwedFault) : List Byte :=
  leBytes 8 f.addr.toNat ++ leBytes 4 f.mask.toNat ++ leBytes 1 f.cause.code ++ leBytes 1 f.level ++ leBytes 1 f.depth ++
    leBytes 1 0

/-- The waves of a block in increasing WAVE_IN_BLOCK. -/
def State.wavesInOrder (s : State) (blk : Nat) : List Nat := sortBy (fun k => (s.wave k).wib) (s.block blk).waves

/-- Deferred faults for which the block section has room: those owed, and those that results on their way may raise. -/
def State.owedRoom (s : State) (blk : Nat) : Nat :=
  let b := s.block blk
  let owed : Nat := (b.waves.map fun k => ((s.wave k).owed.filter OwedFault.deferred).length).foldl (· + ·) 0
  ((s.fly.results.filter fun p => b.waves.contains p.2.wave).map fun p => p.2.owes.length).foldl (· + ·) owed

/-- Where the parts of the block section with a fixed size begin: the allocations of s, w, a and c, and the tiles. -/
def Block.sectionOffsets (b : Block) : List Nat :=
  let o1 := 280
  let o2 := o1 + b.s.size + b.s.size / 4096
  let o3 := o2 + b.w.size + b.w.size / 16384
  let o4 := o3 + b.a.size + b.a.size / 16384
  [o1, o2, o3, o4, o4 + b.c.size]

/-- Bytes of the block section, whose layout is the device's own (R335; DESIGN CHOICE, log 13). -/
def State.sectionBytes (s : State) (blk : Nat) : Nat :=
  let b := s.block blk
  let tiles := (s.fly.tiles.filter fun p => p.2.block == blk).length
  let recs : Nat := ((b.rcv.recs.filter fun r => !r.spilled).map PRec.size).foldl (· + ·) 0
  b.sectionOffsets.getD 4 0 + 8 * 516 + 256 * tiles + b.depth * (32 + 8 * b.waves.length) + 4 + 4 * b.waves.length +
    16 * s.owedRoom blk + recs

/-- An allocation's bytes and its granules' FDT indices, one byte each. -/
def Buffer.image (b : Buffer) (granule : Nat) : List Byte :=
  b.take 0 b.size ++ (List.range (b.size / granule)).flatMap fun g => leBytes 1 (Tab.get 0 b.fdt g)

/-- The block section (R335; its layout DESIGN CHOICE, log 13). -/
def State.section_ (s : State) (blk : Nat) : List Byte :=
  let b := s.block blk
  let ks := s.wavesInOrder blk
  let bar := fun (x : Barrier) => leBytes 4 x.arrived.length ++ leBytes 4 x.gen
  (List.range 16).flatMap (fun n => leBytes 16 (Tab.get 0 b.frames n).toNat) ++
  (List.range 8).flatMap (fun g => leBytes 1 (b.free g)) ++ bar b.barC ++ bar b.barY ++
  b.s.image 4096 ++ b.w.image 16384 ++ b.a.image 16384 ++ b.c.take 0 b.c.size ++
  (List.range 8).flatMap (fun t => leBytes 4 (Tab.get 0 b.tiles t).toNat ++
    (List.range 128).flatMap fun r => leBytes 4 (Tab.get 0 b.sums (t * 128 + r)).toNat) ++
  (s.fly.tiles.filter fun p => p.2.block == blk).flatMap (fun p => p.2.bytes) ++
  b.rcv.frames.flatMap Frame.bytes ++
  ks.flatMap (fun k => (List.range b.depth).flatMap fun d => match Tab.find (s.wave k).saves (d + 1) with
    | some x => leBytes 4 x.flags.toNat ++ leBytes 4 x.copies
    | none => leBytes 8 0) ++
  leBytes 4 (b.rcv.sitting.elim 0 (· + 1)) ++ ks.flatMap (fun k => leBytes 4 (s.wave k).copies) ++
  ((ks.flatMap fun k => ((s.wave k).owed.filter OwedFault.deferred).flatMap OwedFault.bytes) ++
    List.replicate (16 * s.owedRoom blk) 0).take (16 * s.owedRoom blk) ++
  (b.rcv.recs.filter fun r => !r.spilled).flatMap PRec.bytes

/-- Where each wave's record begins in the image (R333, R334). -/
def State.recordOffsets (s : State) : List Nat → Nat → List (Nat × Nat)
  | [], _ => []
  | k :: ks, o => (k, o) :: s.recordOffsets ks (o + recordBytes (s.wave k).foot)

/-- Bytes of all wave records. -/
def State.recordsBytes (s : State) (blk : Nat) : Nat :=
  ((s.wavesInOrder blk).map fun k => recordBytes (s.wave k).foot).foldl (· + ·) 0

/-- BYTES of an image (R333). -/
def State.imageBytes (s : State) (blk : Nat) : Nat := roundUp (512 + s.recordsBytes blk + s.sectionBytes blk) 128

/-- The header of an image of `n` bytes (R333). -/
def State.imageHeader (s : State) (blk n : Nat) : List Byte :=
  let b := s.block blk
  let l := s.launch b.launch
  leBytes 4 1 ++
  leBytes 4 (b.arrived.toNat + (if b.imageLease = 0 then 0 else 2) + b.rcv.held.toNat * 4 + b.rcv.spilled.toNat * 8 +
    b.rcv.broken.toNat * 16) ++
  leBytes 4 l.ident32 ++ leBytes 4 b.imageLease ++ leBytes 4 b.x ++ leBytes 4 b.y ++ leBytes 4 b.z ++
  leBytes 2 b.waves.length ++ leBytes 2 (b.gang.elim 0 (· + 2 ^ 15)) ++ leBytes 8 b.heat ++ leBytes 8 b.parentCtr.toNat ++
  leBytes 4 b.age ++ leBytes 4 b.spawnDepth ++ leBytes 8 512 ++ leBytes 8 (512 + s.recordsBytes blk) ++
  leBytes 4 n ++ List.replicate 0x1B4 0

/-- A wave's record (R334). -/
def State.waveRecord (s : State) (k : Nat) : List Byte :=
  let w := s.wave k
  let b := s.block w.block
  let n := w.foot
  let lanes (f : Nat → List Byte) : List Byte := (List.range 32).flatMap f
  let regs (f : Nat → List Byte) : List Byte := (List.range n).flatMap f
  let flags := (w.owed.any fun f => f.cause == .overwrite).toNat + 2 * (w.owed.any fun f => f.deferred).toNat
  let slot (q : Nat) : Nat := (Tab.find w.queues q).elim 0 fun x => x.base + (x.depth - 1) * 256 + 2 ^ 31
  leBytes 4 w.wib ++ leBytes 4 w.handle.toNat ++ leBytes 2 n ++ leBytes 2 flags ++ leBytes 4 w.live.toNat ++
  leBytes 4 w.flags.toNat ++ leBytes 2 w.fcount.toNat ++ leBytes 2 0 ++ leBytes 8 w.lastA.toNat ++ leBytes 8 w.lastB.toNat ++
  leBytes 4 w.trap.level ++ leBytes 4 w.trap.a.cause.toNat ++ leBytes 4 w.trap.b.cause.toNat ++
  leBytes 4 w.trap.a.mask.toNat ++ leBytes 4 w.trap.b.mask.toNat ++ leBytes 4 0 ++
  leBytes 8 w.trap.a.addr.toNat ++ leBytes 8 w.trap.b.addr.toNat ++ leBytes 8 w.trap.vec.toNat ++
  leBytes 8 w.trap.save.toNat ++
  leBytes 4 b.depth ++ leBytes 4 (s.rstatus k).toNat ++ leBytes 4 b.rcv.rcause.toNat ++ leBytes 4 (s.tcfgLive k).toNat ++
  (List.range 4).flatMap (fun q => leBytes 4 (slot q)) ++
  (List.range 4).flatMap (fun v => leBytes 16 (Tab.get 0 w.tcfgs v).toNat) ++ List.replicate 64 0 ++
  lanes (fun l => leBytes 8 (w.pc l).toNat) ++ lanes (fun l => leBytes 8 (Tab.get 0 w.trap.a.epc l).toNat) ++
  lanes (fun l => leBytes 8 (Tab.get 0 w.trap.b.epc l).toNat) ++
  (List.range 4).flatMap (fun q => lanes fun l => leBytes 2 ((w.fifo q l).head + (w.fifo q l).count * 64)) ++
  regs (fun r => lanes fun l => leBytes 4 (w.word r l).toNat) ++ regs (fun r => leBytes 4 (Tab.get 0 w.pend r).toNat) ++
  regs (fun r => leBytes 4 (Tab.get 0 w.expt r).toNat) ++ regs (fun r => leBytes 4 (Tab.get 0 w.pois r).toNat)

/-- Bytes written from a physical address of a save pool on; a byte that is there already, in a good word, is left (R316). -/
def State.poolWrite (s : State) (pa : Nat) (bs : List Byte) : State :=
  s.homeWrite ((bs.zipIdx.map fun p => (placeOf (pa + p.2), p.1)).filter fun p =>
    s.mem.byte p.1 != p.2 || s.mem.uncorr p.1 || s.mem.poisoned p.1)

/-- A block's wave records and block section, written in its image of `n` bytes (R332, R334, R335). -/
def State.writeBody (s : State) (blk at_ n : Nat) : State :=
  let o := 512 + s.recordsBytes blk
  ((s.recordOffsets (s.wavesInOrder blk) 512).foldl (fun t p => t.poolWrite (at_ + p.2) (s.waveRecord p.1)) s).poolWrite
    (at_ + o) ((s.section_ blk).take (n - o))

/-- An image of `n` bytes, written at its place in the save pool (R316, R332). -/
def State.writeImage (s : State) (blk at_ n : Nat) : State := (s.poolWrite at_ (s.imageHeader blk n)).writeBody blk at_ n

/-- What has landed for a Saved block goes into its image; AGE stays as it was (R107, R234, R252, R317, R332). -/
def State.refreshImage (s : State) (blk : Nat) : State :=
  match (s.block blk).image with
  | some (at_, n) => (s.poolWrite at_ ((s.imageHeader blk n).take 0x30)).writeBody blk at_ n
  | none => s

/-- A turn has changed a block, one of its waves or one of its tile operations. -/
def State.touched (s before : State) (blk : Nat) : Bool :=
  let tiles := fun (x : State) => x.fly.tiles.filter fun p => p.2.block == blk
  s.block blk != before.block blk || ((s.block blk).waves.any fun k => s.wave k != before.wave k) || tiles s != tiles before

/-- The images of the blocks that were Saved before a turn and are after it follow what the turn changed of them. -/
def State.refreshImages (s before : State) : State :=
  ((s.blocks.filter fun p => p.2.st == .saved && (before.block p.1).st == .saved && s.touched before p.1).map Prod.fst).foldl
    State.refreshImage s

/-! ### Reading an image -/

/-- A table of numbers read one by one, the default not listed. -/
def tabOf {α : Type} [DecidableEq α] (d : α) (ks : List Nat) (f : Nat → α) : Tab α :=
  ks.filterMap fun k => if f k = d then none else some (k, f k)

/-- A wave as its record has it: `at_ o n` is the number of `n` bytes at offset `o` (R334, R336). -/
def Wave.reload (w : Wave) (at_ : Nat → Nat → Nat) : Wave :=
  let word := fun o => BitVec.ofNat 32 (at_ o 4)
  let dword := fun o => BitVec.ofNat 64 (at_ o 8)
  let ctrs := fun o => tabOf (0 : Ctr) (List.range 32) fun l => BitVec.ofNat 48 (at_ (o + 8 * l) 8)
  let masks := fun i => tabOf (0 : Mask) (List.range w.foot) fun r => word (0x500 + 128 * w.foot + 4 * (i * w.foot + r))
  { w with
    live := word 0xC
    flags := word 0x10
    fcount := BitVec.ofNat 16 (at_ 0x14 2)
    lastA := BitVec.ofNat 48 (at_ 0x18 8)
    lastB := BitVec.ofNat 48 (at_ 0x20 8)
    trap := ⟨at_ 0x28 4, ⟨word 0x2C, dword 0x40, word 0x34, ctrs 0x200⟩, ⟨word 0x30, dword 0x48, word 0x38, ctrs 0x300⟩,
      dword 0x50, dword 0x58⟩
    tcur := at_ 0x6C 4 / 16 % 4
    queues := (List.range 4).filterMap fun q =>
      let x := at_ (0x70 + 4 * q) 4
      if x < 2 ^ 31 then none else some (q, ⟨x % 256, x / 256 % 64 + 1⟩)
    tcfgs := tabOf 0 (List.range 4) fun v => BitVec.ofNat 128 (at_ (0x80 + 16 * v) 16)
    pcs := ctrs 0x100
    fifos := Tab.mapVals w.fifos fun k f =>
      let x := at_ (0x400 + 64 * (k / 32) + 2 * (k % 32)) 2
      { f with head := x % 64, count := x / 64 % 128 }
    regs := tabOf 0 (List.range (32 * w.foot)) fun k => word (0x500 + 4 * k)
    pend := masks 0
    expt := masks 1
    pois := masks 2 }

/-- An allocation as the block section has it. -/
def Buffer.reload (b : Buffer) (granule : Nat) (at_ : Nat → Nat → Nat) (o : Nat) : Buffer :=
  { b with
    bytes := tabOf 0 (List.range b.size) fun i => BitVec.ofNat 8 (at_ (o + i) 1)
    fdt := tabOf 0 (List.range (b.size / granule)) fun g => at_ (o + b.size + g) 1 }

/-- A block as its section has it, as far as its layout is of words; which waves have arrived, tile operations, frames, owed
faults and records are as State holds them (R335, R336; log 13). -/
def Block.reload (b : Block) (at_ : Nat → Nat → Nat) : Block :=
  let os := b.sectionOffsets
  let o := fun n => os.getD n 0
  let word := fun o => BitVec.ofNat 32 (at_ o 4)
  let t := o 4
  { b with
    frames := tabOf 0 (List.range 16) fun n => BitVec.ofNat 128 (at_ (16 * n) 16)
    slots := tabOf 4 (List.range 8) fun g => at_ (256 + g) 1
    barC := { b.barC with gen := at_ 268 4 }
    barY := { b.barY with gen := at_ 276 4 }
    s := b.s.reload 4096 at_ (o 0)
    w := b.w.reload 16384 at_ (o 1)
    a := b.a.reload 16384 at_ (o 2)
    c := { b.c with bytes := tabOf 0 (List.range b.c.size) fun i => BitVec.ofNat 8 (at_ (o 3 + i) 1) }
    tiles := tabOf 0 (List.range 8) fun n => word (t + 516 * n)
    sums := tabOf 0 (List.range 1024) fun k => word (t + 516 * (k / 128) + 4 + 4 * (k % 128)) }

/-- A block's waves and what its section gives are read from its image, without translation (R316, R336). -/
def State.readImage (s : State) (blk : Nat) : State :=
  match (s.block blk).image with
  | none => s
  | some (at_, _) =>
    let s1 := (s.recordOffsets (s.wavesInOrder blk) 512).foldl (fun t p =>
      t.updWave p.1 fun w => w.reload fun o n => s.mem.leAt (at_ + p.2 + o) n) s
    s1.updBlock blk fun b => { b.reload fun o n => s.mem.leAt (at_ + 512 + s.recordsBytes blk + o) n with
      heat := s.mem.leAt (at_ + 0x20) 8
      parentCtr := BitVec.ofNat 64 (s.mem.leAt (at_ + 0x28) 8)
      spawnDepth := s.mem.leAt (at_ + 0x34) 4
      imageLease := s.mem.leAt (at_ + 0xC) 4 }

/-! ### The save pool -/

/-- The lowest 128-byte aligned place of `n` bytes in a pool that meets none of the spans in use (DESIGN CHOICE, log 13). -/
def firstFit (base size n : Nat) (used : List (Nat × Nat)) : Option Nat :=
  let starts := (roundUp base 128 :: used.map fun u => roundUp (u.1 + u.2) 128)
  let free := fun a => decide (base ≤ a) && decide (a + n ≤ base + size) &&
    used.all fun u => decide (a + n ≤ u.1) || decide (u.1 + u.2 ≤ a)
  (starts.filter free).foldl (fun m a => match m with
    | none => some a
    | some b => some (min a b)) none

/-- A context's save pool lies in device DRAM (R316, R330). -/
def Context.poolOk (c : Context) : Bool := decide (c.saveBase + c.saveSize ≤ hostBase)

/-- The pool of a block's context has room for its image after those of other victims (R330). -/
def State.imageRoom (s : State) (others : List Nat) (v : Nat) : Bool :=
  let ctx := (s.block v).ctx
  let c := s.ctx ctx
  let step := fun (u : Option (List (Nat × Nat))) (b : Nat) => match u with
    | none => none
    | some u => (firstFit c.saveBase c.saveSize (s.imageBytes b) u).map fun a => (a, s.imageBytes b) :: u
  c.poolOk && ((others.filter (fun b => (s.block b).ctx == ctx) ++ [v]).foldl step (some c.saves)).isSome

/-! ### Held bytes between cores -/

/-- A block's held bytes leave a core's L1 for its spill area (R225, R332). -/
def State.takeHeld (s : State) (blk core : Nat) : State :=
  let mine := fun (b : L1Byte) => b.holder.any fun h => h.1 == blk
  let ls := (s.core core).l1.filter fun p => p.2.bytes.any fun x => mine x.2
  ls.foldl (fun s p =>
    let rest := p.2.keep fun _ x => !mine x
    let s1 := s.updRcv blk fun r => { r with away := Tab.put r.away p.1 (Tab.sub p.2.bytes fun _ x => mine x), spilled := true }
    let s2 := s1.updCore core fun c => { c with
      l1 := if rest.bytes.isEmpty then Tab.del c.l1 p.1 else Tab.put c.l1 p.1 { rest with outAt := Tab.del rest.outAt blk } }
    let at_ := fun (s : State) (ps : List Nat) => s.updRcv blk fun r => { r with awayAt := Tab.put r.awayAt p.1 ps }
    if p.2.out then at_ s2 (Tab.get [] p.2.outAt blk)
    else match s2.spillTake blk (lineBytes (p.2.heldBy blk)) with
      | some (ps, s3) => at_ s3 ps
      | none => s2.noRoom blk 0) s

/-- A line with a block's held bytes, `held` of it, as its spill area has them at these places; a word that cannot be read is
bad (R188, R225, R336). -/
def State.heldBack (s : State) (l : L1Line) (held : Tab L1Byte) (at_ : List Nat) : L1Line :=
  let val := fun (p : Nat × L1Byte) => (at_[p.1]?).elim p.2.val s.spillByte
  { l with
    bytes := held.foldl (fun t p => Tab.put t p.1 { p.2 with val := val p }) l.bytes
    bad := l.bad ||| BitVec.ofNat 16 ((List.range 16).foldl (fun n i =>
      if held.any fun p => p.1 / 8 == i && (at_[p.1]?).any fun q => s.spillBad [q] then n + 2 ^ i else n) 0) }

/-- A block's held bytes are read back into a core's L1 (R225, R336). -/
def State.giveHeld (s : State) (blk core : Nat) : State :=
  let r := (s.block blk).rcv
  let put := fun (s : State) (p : Nat × Tab L1Byte) =>
    let s1 := (s.capture core p.1 none).allocate core p.1
    s1.updLine core p.1 fun l => s1.heldBack l p.2 (Tab.get [] r.awayAt p.1)
  (r.away.foldl put s).updRcv blk fun r => { r with away := [], awayAt := [] }

/-- A block's line records name its new core. -/
def Recovery.onCore (r : Recovery) (core : Nat) : Recovery :=
  let move := fun (l : RecLoc) => match l with
    | .line _ key => RecLoc.line core key
    | _ => l
  { r with recs := r.recs.map fun x => { x with loc := move x.loc } }

/-- A wave that leaves its core: its results within a fixed latency drain, its reservations end (R78, R95, R244, R332). -/
def Wave.lifted (w : Wave) : Wave := { w.drained with resv := [], nap := 0, stalled := 0, lineOk := 0 }

/-- Steps 1 to 3 of R332: the block's waves leave their core's selector, the core publishes, the held bytes go. -/
def State.lift (s : State) (blk : Nat) : State :=
  let core := (s.block blk).core
  let s1 := s.mapBlock blk fun _ w => w.lifted
  let s2 := ((s1.publish core none).takeHeld blk core)
  s2.updCore core fun c => (s2.block blk).waves.foldl Core.leave c

/-- The waves of a block take slots of its core (R12, R336, R358). -/
def State.seat (s : State) (blk : Nat) (loc : Nat → Loc) : State :=
  (s.block blk).waves.foldl (fun s k =>
    let slot := s.freeSlot (s.block blk).core
    let s1 := s.updWave k fun w => { w with slot := slot }
    let s2 := s1.updDev fun d => { d with locs := Tab.put d.locs k (loc slot) }
    (s2.updCore (s2.block blk).core fun c => c.enter k).drew) s

/-! ### Pre-emption -/

/-- A victim is saved (R107, R332, R339). -/
def State.save (s : State) (blk : Nat) : State :=
  let b := s.block blk
  let c := s.ctx b.ctx
  let size := s.imageBytes blk
  match firstFit c.saveBase c.saveSize size c.saves with
  | none => s
  | some at_ =>
    let (n, s0) := ((s.dropWant blk).lift blk).named
    let l := s0.launch b.launch
    let s1 := s0.updBlock blk fun b => { b with image := some (at_, size), imageLease := l.lease, imageCls := l.leaseCls }
    let s2 := (s1.writeImage blk at_ size).updCtx b.ctx fun c => { c with saves := c.saves ++ [(at_, size)] }
    let locs := s0.recordOffsets (s0.wavesInOrder blk) 512
    let s3 := s2.updDev fun d => { d with locs := locs.foldl (fun t p => Tab.put t p.1 (.saved (at_ + p.2))) d.locs }
    let die := if b.gang.isSome then coreDie b.core else s3.dieFor b.prefer
    let s4 := s3.updBlock blk fun b => { b with st := .saved, granules := [], offeredAt := n, waited := 0, refused := [], die := die }
    (s4.dropLease b.launch).gateIdle b.core

/-- The blocks of a core that may leave for another, in increasing base priority, then by most recent placement (R330,
R331). -/
def State.candidates (s : State) (blk core : Nat) : List Nat :=
  let p := s.basePriority blk
  let vs := (s.blocksOn core).filter fun v =>
    (s.block v).st == .running && (s.lpb v).preemptible && decide (s.basePriority v < p)
  sortBy (fun v => s.basePriority v) (sortBy (fun v => -((s.block v).placedAt : Int)) vs)

/-- Victims are added until test 1 passes; one whose pool lacks room is passed over (R330, R331). -/
def State.pick (s : State) (blk core : Nat) (others : List Nat) : List Nat → List Nat → Option (List Nat)
  | vs, chosen =>
    if s.fits blk core chosen then some chosen
    else match vs with
      | [] => none
      | v :: vs => if s.imageRoom (others ++ chosen) v then s.pick blk core others vs (chosen ++ [v]) else s.pick blk core others vs chosen

/-- The victim set of a core for a block, where the core qualifies (R330). -/
def State.victims (s : State) (blk core : Nat) (others : List Nat) : Option (List Nat) :=
  (s.pick blk core others (s.candidates blk core) []).filter fun vs =>
    s.inPool blk core && (s.coolEnough blk core vs || (s.block blk).relieved)

/-- The victim set of a cluster for a gang: the union over its cores (R330). -/
def State.gangVictims (s : State) : List (Nat × Nat) → List Nat → Option (List Nat)
  | [], vs => some vs
  | (m, c) :: ps, vs => match s.victims m c vs with
    | none => none
    | some xs => s.gangVictims ps (vs ++ xs)

/-- The keys by which victim sets are compared (R331). -/
def State.setKeys (s : State) (vs : List Nat) (core : Nat) : List Nat :=
  [(vs.map s.basePriority).foldl max 0, (vs.filter fun v => (s.block v).gang.isSome).length,
    (vs.map s.imageBytes).foldl (· + ·) 0, core]

/-- The first list comes first, key by key. -/
def keysBefore : List Nat → List Nat → Bool
  | x :: xs, y :: ys => decide (x < y) || (x == y && keysBefore xs ys)
  | _, _ => false

/-- The clusters that a gang may use. -/
def State.gangClusters (s : State) (blk : Nat) : List Nat :=
  (List.range 32).filter fun c => (List.range 8).all fun g => s.eligible (s.block blk).ctx (8 * c + g)

/-- The cores that a block may use. -/
def State.mayUse (s : State) (blk : Nat) : List Nat :=
  let b := s.block blk
  (if b.st = .saved ∧ b.gang.isSome then [b.core] else List.range 256).filter fun c => s.eligible b.ctx c

/-- A block or gang is refused at test 1 everywhere (R330). -/
def State.roomless (s : State) (blk : Nat) : Bool :=
  match s.gangOf blk with
  | none => !(s.mayUse blk).isEmpty && (s.mayUse blk).all fun c => s.failing blk c == some 1
  | some ms =>
    let tests := fun c => (gangCores ms c).filterMap fun p => s.failing p.1 p.2
    !(s.gangClusters blk).isEmpty && (s.gangClusters blk).all fun c => !(tests c).isEmpty && (tests c).all (· == 1)

/-- The victim set at a place: a core for a block, core 0 of a cluster for a gang. -/
def State.victimsAt (s : State) (blk core : Nat) : Option (List Nat) :=
  match s.gangOf blk with
  | none => s.victims blk core []
  | some ms => s.gangVictims (gangCores ms (core / 8)) []

/-- The place whose victim set ranks first (R331). -/
def State.preemptPlace (s : State) (blk : Nat) : Option Nat :=
  let places := match s.gangOf blk with
    | none => s.mayUse blk
    | some _ => (s.gangClusters blk).map (8 * ·)
  let sets := places.filterMap fun c => (s.victimsAt blk c).map fun vs => (c, s.setKeys vs c)
  (sets.foldl (fun (best : Option (Nat × List Nat)) x => match best with
    | none => some x
    | some y => if keysBefore x.2 y.2 then some x else some y) none).map Prod.fst

/-- PREEMPT: for a block or gang refused at test 1 everywhere, the next victim at the place that ranks first is saved; the
requester, a gang as a whole, keeps to that place until it has its room (R330 to R332). -/
def execPreempt (offer : Nat) (s : State) : Out :=
  .next (
    let b := s.block offer
    let claims := fun (s : State) (f : Block → Block) => ((s.gangOf offer).getD [offer]).foldl (fun s m => s.updBlock m f) s
    let place := match b.claim with
      | some c => some c
      | none => if b.waiting && s.roomless offer then s.preemptPlace offer else none
    match place with
    | none => s
    | some c =>
      match s.victimsAt offer c with
      | some (v :: _) => (claims s fun b => { b with claim := some c, die := coreDie c }).save v
      | _ => claims s fun b => { b with claim := none })

/-! ### Restore -/

/-- A Saved block comes to a core: an implicit adopt, its waves in slots, its held bytes in the L1, its lease requested
again (R215, R336, R339, R358). -/
def State.restoreOn (s : State) (blk core : Nat) : State :=
  let (n, s0) := (s.readImage blk).named
  let s1 := (s0.wakeCore core).implicitAdopt core
  let s2 := s1.updBlock blk fun b => { b with
    st := .starting
    core := core
    granules := s1.freeGranules core (s1.shapeOf blk).scratch
    placedAt := n
    waited := 0
    refused := []
    claim := none
    rcv := { b.rcv.onCore core with broken := true } }
  let s3 := ((s2.seat blk fun slot => .resident core slot).giveHeld blk core).spillRecs blk 0 (s2.block blk).rcv.recs.length
  let b := s3.block blk
  if b.imageLease = 0 then s3
  else (s3.updBlock blk fun b => { b with imageLease := 0 }).lease b.launch core b.imageCls b.imageLease |>.1

/-- RESTORE: a Saved block is tested like an offered one and comes to the first core that accepts (R318 to R321, R336). -/
def execRestore (blk : Nat) (s : State) : Out :=
  .next (
    let b := s.block blk
    if b.st ≠ .saved ∨ b.relieved ∨ s.yields blk then s
    else
      let s1 := s.refuseTries blk
      match (s.coreOrder blk).find? fun c => (s.failing blk c).isNone with
      | some c => s1.restoreOn blk c
      | none => if b.gang.isSome then s1 else s1.updBlock blk fun b => { b with die := (b.die + 1) % 4 })

/-- STARVATION_RELIEF: a block or gang that has been Offered for 50 µs is placed without test 3 (R29, R323, R336). -/
def execStarvationRelief (offer : Nat) (s : State) : Out :=
  .next (
    let b := s.block offer
    if !b.waiting ∨ !b.relieved ∨ s.yields offer then s
    else
      let s1 := s.refuseTries offer
      match s.placement offer with
      | none => s1
      | some ps => ps.foldl (fun s p => if b.st = .saved then s.restoreOn p.1 p.2 else s.place p.1 p.2) s1)

/-! ### Migration -/

/-- The scheduler empties a cluster: for a gang that may use it and is refused, or for a pool move that a waiting block asks
for (R325, R337). -/
def State.emptying (s : State) (cluster : Nat) : Bool :=
  s.blocks.any fun p =>
    let may := fun g => s.eligible p.2.ctx (8 * cluster + g)
    p.2.waiting && ((p.2.st == .offered && p.2.gang.isSome && (s.placement p.1).isNone && (List.range 8).all may) ||
      (s.poolless p.1 && (s.cluster cluster).pool != (s.lpb p.1).opclass && (List.range 8).any may))

/-- MIGRATION: a Running block of a pre-emptible launch, no gang member, leaves for a core that passes tests 1 to 3: where the
supervisor asks, or out of a cluster that is to be empty (R337, R358). -/
def execMigration (blk core : Nat) (s : State) : Out :=
  .next (
    let b := s.block blk
    let asked := b.want == some core || b.want == some 0xFFFF
    let ok := b.st == .running && (s.lpb blk).preemptible && b.gang.isNone && b.core != core && decide (core < 256) &&
      s.eligible b.ctx core && (s.failing blk core).isNone && (asked || (s.emptying (b.core / 8) && core / 8 != b.core / 8))
    if !ok then s
    else
      let s1 := (s.lift blk).wakeCore core
      let gs := s1.freeGranules core (s1.shapeOf blk).scratch
      let s2 := s1.updBlock blk fun b => { b with st := .moving, core := core, granules := gs }
      (s2.seat blk fun _ => .moving b.core core).gateIdle b.core)

/-- A launch's lease follows a block to the pool of its new core, where that is another pool of the class (R339). -/
def State.moveLease (s : State) (blk : Nat) : State :=
  let b := s.block blk
  let l := s.launch b.launch
  let pool := (s.cluster (b.core / 8)).pool
  if l.lease = 0 ∨ l.leasePool = pool then s
  else (s.updLaunch b.launch fun l => { l with leasePool := pool }).setBoost pool l.leaseCls

/-- MIGRATION_DRAIN: the forwarded arrivals have drained; the block runs on its new core (R108, R215, R337, R358). -/
def execMigrationDrain (blk : Nat) (s : State) : Out :=
  .next (
    let b := s.block blk
    if b.st ≠ .moving ∨ (s.core b.core).wake ≠ 0 ∨ (s.cluster (b.core / 8)).moving then s
    else
      let s1 := s.updBlock blk fun x => { x with st := .running, rcv := x.rcv.onCore b.core }
      let s2 := (((s1.implicitAdopt b.core).giveHeld blk b.core).spillRecs blk 0 b.rcv.recs.length).moveLease blk
      let s3 := if b.want.isSome then (s2.updBlock blk fun x => { x with want := none }).endCommand 0 else s2
      s3.updDev fun d => { d with locs := b.waves.foldl (fun t k => Tab.put t k (.resident b.core (s2.wave k).slot)) d.locs })

end Sys2Proof.Machine
end

