-- ==== Sys2Proof/Machine/Retire.lean ====
section
/-! DEFINITION. Retirement, completion queues served again, vaults, charging, leases and power (R24, R189 to R192, R220,
R305, R306, R338, R339, R360, R392, R400, R415, R423). -/

namespace Sys2Proof.Machine

/-! ### Retirement and completion queues -/

/-- Launches whose every block has retired write their entries, where their queues take them (R24, R305, R306). -/
def State.launchesDone (s : State) : State :=
  (s.launches.filter fun p => p.2.left == 0).foldl (fun s p =>
    if s.cqHolds p.2.ctx p.2.lpb.cq p.1 then s.cqJoin p.2.ctx p.2.lpb.cq p.1 else s.endLaunch p.1 false) s

/-- A decrement of a block's retirement; one that fails is its launch's error (R24, R305, R400). -/
def State.retireDec (s : State) (blk : Nat) (handle : DWord) : State :=
  if handle = 0 then s
  else
    let b := s.block blk
    let r := s.engDec b.core b.ctx 0 handle 1
    match r.2 with
    | none => r.1
    | some e => r.1.launchErr b.launch e

/-- Nothing that a draining block issued is on its way, and its core's publishes up to its implicit one are complete
(R24, R220, R306). -/
def State.drained (s : State) (blk : Nat) : Bool :=
  let b := s.block blk
  !(s.fly.copies.any fun p => p.2.block == blk && p.2.stage != .ended) && !(s.fly.tiles.any fun p => p.2.block == blk) &&
  !(s.fly.sd.any fun p => p.2.block == blk) && !(s.fly.heap.any fun p => p.2.block == blk) &&
  !(s.fly.shadows.any fun p => p.2.block == blk) &&
  !(s.fly.results.any fun p => p.2.block == blk && p.2.entry.isSome) &&
  !(s.fly.publishes.any fun p => p.2.core == b.core && decide (p.1 ≤ b.drained))

/-- A retired member counts as arrived at every later barrier of its groups (R360). -/
def Launch.without (l : Launch) (lin : Nat) : Launch :=
  { l with groups := l.groups.map fun g => if g.members.contains lin then { g with gone := lin :: g.gone } else g }

/-- BLOCK_RETIRE: the block's counters are decremented, its resources are free; its launch completes with its last block
(R24, R305, R392, R400). -/
def execBlockRetire (blk : Nat) (s : State) : Out :=
  .next (
    let b := s.block blk
    if b.st ≠ .draining ∨ !s.drained blk then s
    else
      let s1 := (s.retireDec blk (BitVec.ofNat 64 (s.lpb blk).blockCtr)).retireDec blk b.parentCtr
      let s2 := (s1.leaveSitting blk).updLaunch b.launch fun l =>
        { (if b.spawned then l else l.without b.lin) with left := l.left - 1 }
      let s3 := s2.updFly fun f => { f with copies := Tab.sub f.copies fun _ c => c.block != blk }
      (({ s3 with blocks := Tab.del s3.blocks blk }).gateIdle b.core).launchesDone)

/-- What waits for a completion queue goes on: launches that hold their entries, and Sheepdog's commands (R306). -/
def State.cqServed (s : State) : State := s.launchesDone.sdServe

/-- COMPLETION_QUEUE_RETRY: the device tries again to write an entry whose ring position was unwritable (R306). -/
def execCompletionQueueRetry (ctx cq : Nat) (s : State) : Out :=
  .next (s.cqServe ctx cq).cqServed

/-- CQ_IRQ_TIMEOUT: an entry has waited 10 µs unsignalled (R415). -/
def execCqIrqTimeout (ctx cq : Nat) (s : State) : Out :=
  .next (
    let q := s.cq ctx cq
    if q.ien && q.since != 0 then (s.updCq ctx cq fun q => { q with since := 0 }).signal ctx cq else s)

/-! ### Vaults -/

/-- The lower edge of a band in units of 1/16 degree (R189). -/
def bandEdge (band : Nat) : Int := [0, 1040, 1200, 1360, 1520].getD band 1520

/-- The band after a reading (R189). -/
def nextBand (band : Nat) (t : Int) : Nat :=
  if band < bandOf t then bandOf t else if 0 < band ∧ t ≤ bandEdge band - 32 then band - 1 else band

/-- Every lease of a pool ends (R338). -/
def State.endLeases (s : State) (pool : Nat) : State :=
  (s.launches.filter fun p => decide (p.2.lease > 0) && p.2.leasePool == pool).foldl (fun s p => s.dropLease p.1) s

/-- A temperature as an event's detail (R422). -/
def tempDetail (t : Int) : Nat := (t % 2 ^ 64).toNat

/-- VAULT_SENSOR_READ: a vault's highest sensor sets its temperature and band; band 4 caps the core beneath and raises an
event, and below it the core returns by a staggered start; band 2 ends the leases of the pool (R189, R190, R324, R338). -/
def execVaultSensorRead (vault : Nat) (temp : Int) (s : State) : Out :=
  .next (if vault ≥ 256 then s
    else
      let old := (s.vault vault).band
      let new := nextBand old temp
      let s1 := s.updVault vault fun v => { v with temp := temp, band := new }
      let s2 :=
        if new = 4 ∧ old ≠ 4 then (s1.updCore vault fun c => { c with capped := true }).event 1 4 vault 0xFF (tempDetail temp)
        else if new ≠ 4 ∧ old = 4 then
          let busy := !(s1.blocksOn vault).isEmpty
          (s1.updCore vault fun c => { c with
            capped := false, wake := 32 * (vault % 8), ramp := if busy then 1 else 0, started := 0 }).event 2 4 vault 0xFF
            (tempDetail temp)
        else s1
      if 2 ≤ new then s2.endLeases (s2.cluster (vault / 8)).pool else s2)

/-- The excess refresh of a band in bytes per interval (R189). -/
def bandExcess (band : Nat) : Nat := [0, 9375, 28125, 65625, 140625].getD band 0

/-- CHARGING_INTERVAL_CLOSE: the excess of the band at the interval's start is shared by energy among the blocks of the
core beneath; HEAT_CHARGE saturates (R192, R395). -/
def execChargingIntervalClose (vault : Nat) (s : State) : Out :=
  .next (
    let c := s.core vault
    let x := bandExcess (s.vault vault).startBand
    let s1 := c.unitsOf.foldl (fun s (p : Nat × Nat × Nat) =>
      let n := x * p.2.2 / c.units
      (s.updBlock p.1 fun b => { b with heat := satAdd 64 b.heat n }).updCtx p.2.1 fun k =>
        { k with refresh := satAdd 64 k.refresh n }) s
    (s1.updCore vault fun c => { c with units := 0, unitsOf := [] }).updVault vault fun v => { v with startBand := v.band })

/-! ### Leases and power -/

/-- LEASE_EXPIRY: a lease's last microsecond passes; with the last lease the pool returns to its class (R338). -/
def execLeaseExpiry (launch : Nat) (s : State) : Out :=
  .next (
    let l := s.launch launch
    if l.lease ≠ 1 then s
    else
      let s1 := s.updLaunch launch fun l => { l with lease := 0, leaseCls := 0 }
      if s1.leaseRuns l.leasePool then s1 else s1.setBoost l.leasePool 0)

/-- A core's ration at a tick: lower while the package draws more than its limit, higher again below 95 % of it (R423). -/
def Core.ration (c : Core) (est lim : Nat) : Core :=
  if lim < est then { c with grants := max 4 (c.grants - 1) }
  else if est * 100 < lim * 95 ∧ c.grants < c.written then { c with grants := c.grants + 1 }
  else c

/-- POWER_THROTTLE_TICK: every 10 µs the ration follows the package power estimate (R97, R116, R423). -/
def execPowerThrottleTick (pkgest : Nat) (s : State) : Out :=
  .next ((List.range 256).foldl (fun s c => s.updCore c fun k => k.ration pkgest s.dev.pkglim)
    (s.updDev fun d => { d with pkgest := pkgest }))

/-- The error that a kill by the supervisor or by a trip reports (R340, R423). -/
def killErr : Err := ⟨12, 0, 0, 0, 0⟩

/-- Every running context is killed (R421, R423). -/
def State.killAll (s : State) : State :=
  (List.range 64).foldl (fun s c => if (s.ctx c).st = 1 then s.kill c killErr else s) s

/-- Every core's class changes: BANK_GRANTS returns to 12 (R116). -/
def State.fullRation (s : State) : State :=
  { s with cores := Tab.mapVals s.cores fun _ c => { c with grants := 12, written := 12 } }

/-- JUNCTION_TRIP: a junction sensor above 110 °C kills every context, raises event 3 and holds all clusters at class 0
(R423). -/
def execJunctionTrip (temp : Int) (s : State) : Out :=
  .next (if temp ≤ 1760 then s
    else (s.killAll.updDev fun d => { d with trip := true }).fullRation.event 3 0 0 0xFF (tempDetail temp))

/-- JUNCTION_HOLD_RELEASE: once every sensor reads below 95 °C (R423). -/
def execJunctionHoldRelease (temp : Int) (s : State) : Out :=
  .next (if temp < 1520 ∧ s.dev.trip then (s.updDev fun d => { d with trip := false }).fullRation else s)

end Sys2Proof.Machine
end

