-- ==== Sys2Proof/Machine/Registers.lean ====
section
/-! DEFINITION. The register window of each function and the supervisor window of function 0: what their registers and
tables read, and what a write of one does (R296, R352, R361, R362, R411, R412, R415, R418 to R420, R423, R425). A register
is named by its BAR0 offset, or, for function 0, by 2^24 plus its BAR4 offset (log 14). -/

namespace Sys2Proof.Machine

/-! ### Tables as bytes -/

/-- A context table entry (R352). -/
def Context.bytes (c : Context) : List Byte :=
  leBytes 8 c.ptroot ++ leBytes 8 c.fdtbase ++ leBytes 32 c.cores.toNat ++ leBytes 1 c.pceil ++ leBytes 1 c.cls ++
  leBytes 2 c.fair ++ leBytes 4 c.capq ++ leBytes 8 c.saveBase ++ leBytes 8 c.saveSize ++ leBytes 8 c.dwbase ++
  leBytes 4 c.dwsize ++ leBytes 4 c.st ++ leBytes 8 c.dwframe ++ leBytes 8 c.dwfsize ++ List.replicate 0x98 0

/-- The context table (R418). -/
def State.ctxTable (s : State) : List Byte := (List.range 64).flatMap fun c => (s.ctx c).bytes

/-- The operating-class table (R361). -/
def State.opclassTable (s : State) : List Byte := (List.range 8).flatMap fun e => leBytes 8 (Tab.get 0 s.dev.opclass e).toNat

/-- The heat model (R362). -/
def State.heatTable (s : State) : List Byte := (List.range 32).flatMap fun e => leBytes 4 (Tab.get 0 s.dev.heat e).toNat

/-- DEVICE_ID and the index range map (R354, R418; the layout is log 14). -/
def State.domainTable (s : State) : List Byte :=
  leBytes 16 s.dev.id ++ (List.range 144).flatMap fun i =>
    let r := s.dev.ranges.getD i (0, 0, 0)
    leBytes 4 r.1 ++ leBytes 4 r.2.1 ++ leBytes 8 r.2.2

/-- A Fold map entry (R363). -/
def FoldSlot.bytes (x : FoldSlot) : List Byte :=
  leBytes 2 x.gen ++ leBytes 1 x.ctx ++ leBytes 1 x.st ++ leBytes 4 x.drive ++ leBytes 4 x.nsid ++ leBytes 4 x.pages.length ++
  leBytes 8 x.slba ++ leBytes 8 x.nlba

/-- A Fold drive table entry (R420). -/
def Drive.bytes (d : Drive) : List Byte :=
  leBytes 1 (d.bdf / 65536) ++ leBytes 1 (d.bdf / 256) ++ leBytes 1 d.bdf ++ leBytes 1 d.st ++ leBytes 4 d.nsid ++
  leBytes 1 d.lbash ++ leBytes 1 d.nqp ++ leBytes 2 d.qdepth ++ leBytes 4 d.mdts ++ List.replicate 48 0

/-- EZ_CTL of a port (R420, R425). -/
def Port.bytes (x : Port) : List Byte :=
  (List.range 7).flatMap (fun k => leBytes 2 (x.threshold (k + 1))) ++ leBytes 2 x.dark ++
  leBytes 4 (x.up.toNat + x.lit.toNat * 256 + x.waking.toNat * 65536) ++ List.replicate 12 0

/-- An inbound window's entry (R364; its places are log 14's). -/
def WinIn.bytes (x : WinIn) : List Byte :=
  leBytes 2 x.gen ++ leBytes 1 x.ctx ++ leBytes 1 x.open_.toNat ++ leBytes 4 x.src ++ leBytes 8 x.base ++ leBytes 8 x.size ++
  leBytes 8 x.tcnt

/-- An outbound window's entry (R364; its places are log 14's). -/
def WinOut.bytes (x : WinOut) : List Byte :=
  leBytes 8 x.handle.toNat ++ leBytes 8 x.scnt ++ leBytes 8 x.ctx ++ List.replicate 8 0

/-- A drive. -/
def State.drive (s : State) (n : Nat) : Drive := Tab.get ⟨0, 0, 0, 0, 0, 0, 0⟩ s.dev.drives n

/-- The state with a drive changed. -/
def State.updDrive (s : State) (n : Nat) (f : Drive → Drive) : State :=
  s.updDev fun d => { d with drives := Tab.put d.drives n (f (s.drive n)) }

/-! ### Accounting counters -/

/-- The accounting counter at an offset from 0x01_0000: its width in bits, its value, and the state with it cleared (R412,
R420). -/
def State.counterAt (s : State) (o : Nat) : Option (Nat × Nat × State) :=
  let core := fun (n : Nat) (f : CoreAcct → CoreAcct) => s.updCore n fun c => { c with acct := f c.acct }
  if o < 0x4000 then
    let n := o / 64
    let a := (s.core n).acct
    match o % 64 with
    | 0x00 => some (64, a.energy, core n fun a => { a with energy := 0 })
    | 0x08 => some (64, a.issue, core n fun a => { a with issue := 0 })
    | 0x10 => some (64, a.stall, core n fun a => { a with stall := 0 })
    | 0x18 => some (32, a.corr, core n fun a => { a with corr := 0 })
    | 0x1C => some (32, a.uncorr, core n fun a => { a with uncorr := 0 })
    | 0x20 => some (32, a.poison, core n fun a => { a with poison := 0 })
    | _ => none
  else if o < 0x5000 then
    let n := (o - 0x4000) / 64
    let c := s.ctx n
    match o % 64 with
    | 0x00 => some (64, c.energy, s.updCtx n fun c => { c with energy := 0 })
    | 0x08 => some (64, c.refuse, s.updCtx n fun c => { c with refuse := 0 })
    | 0x10 => some (64, c.refresh, s.updCtx n fun c => { c with refresh := 0 })
    | 0x18 => some (64, c.l2fill, s.updCtx n fun c => { c with l2fill := 0 })
    | 0x20 => some (64, c.l2wb, s.updCtx n fun c => { c with l2wb := 0 })
    | 0x28 => some (64, c.rollback, s.updCtx n fun c => { c with rollback := 0 })
    | _ => none
  else if o < 0x6000 then
    let n := (o - 0x5000) / 16
    let v := s.vault n
    match o % 16 with
    | 0x0 => some (32, v.corr, s.updVault n fun v => { v with corr := 0 })
    | 0x4 => some (32, v.uncorr, s.updVault n fun v => { v with uncorr := 0 })
    | 0x8 => some (32, v.poison, s.updVault n fun v => { v with poison := 0 })
    | _ => none
  else if o < 0x6080 then
    let n := (o - 0x6000) / 8
    match o % 8 with
    | 0 => some (32, (s.port n).replay, s.updPort n fun x => { x with replay := 0 })
    | 4 => some (32, (s.port n).audit, s.updPort n fun x => { x with audit := 0 })
    | _ => none
  else if 0x6100 ≤ o ∧ o < 0x6118 ∧ o % 4 = 0 then
    some (32, (s.bridge ((o - 0x6100) / 4)).fencepar, s.updBridge ((o - 0x6100) / 4) fun b => { b with fencepar := 0 })
  else none

/-- A write of zero clears an accounting counter; any other write is ignored (R412, R420). -/
def State.clearCounter (s : State) (o v : Nat) : State :=
  match s.counterAt o with
  | none => s
  | some (w, _, s1) => if v % 2 ^ w = 0 then s1.updDev fun d => { d with told := d.told.filter (· != o) } else s

/-- The offsets of counters that may differ from 0. -/
def State.counterOffsets (s : State) : List Nat :=
  (Tab.keys s.cores).flatMap (fun n => [0x00, 0x08, 0x10, 0x18, 0x1C, 0x20].map fun o => 64 * n + o) ++
  (Tab.keys s.ctxs).flatMap (fun n => [0x00, 0x08, 0x10, 0x18, 0x20, 0x28].map fun o => 0x4000 + 64 * n + o) ++
  (Tab.keys s.vaults).flatMap (fun n => [0, 4, 8].map fun o => 0x5000 + 16 * n + o) ++
  (Tab.keys s.dev.ports).flatMap (fun n => [0, 4].map fun o => 0x6000 + 8 * n + o) ++
  (Tab.keys s.dev.bridges).map fun n => 0x6100 + 4 * n

/-- The unit of a counter: kind, index, context (R303, R422). -/
def counterUnit (o : Nat) : Nat × Nat × Nat :=
  if o < 0x4000 then (0, o / 64, 0xFF) else if o < 0x5000 then (7, 0, (o - 0x4000) / 64)
  else if o < 0x6000 then (4, (o - 0x5000) / 16, 0xFF) else if o < 0x6080 then (6, (o - 0x6000) / 8, 0xFF)
  else (8, (o - 0x6100) / 4, 0xFF)

/-- Counters that have saturated and that no event 8 has reported (R412, R422). -/
def State.saturated (s : State) : List Nat :=
  s.counterOffsets.filter fun o => !s.dev.told.contains o && (s.counterAt o).any fun c => c.2.1 == 2 ^ c.1 - 1

/-- Event 8 for each counter newly saturated; its offset as detail (R422; the detail is log 25). -/
def State.reportSaturated (s : State) : State :=
  s.saturated.foldl (fun s o =>
    let u := counterUnit o
    (s.updDev fun d => { d with told := o :: d.told }).event 8 u.1 u.2.1 u.2.2 (0x10000 + o)) s

/-! ### Launch and completion queues -/

/-- EN of a control register set. -/
def setEn (ctl : Nat) (on : Bool) : Nat := ctl % 2 ^ 31 + if on then 2 ^ 31 else 0

/-- LQ_TAIL written: a host-fed queue's producer position (R296, R297, R298). -/
def State.putLqTail (s : State) (ctx q v : Nat) : State :=
  s.updLq ctx q fun l => if ctlDevfed l.ctl then l else { l with tail := v % ctlSize l.ctl }

/-- LQ_CTL written: EN alone while EN is 1; EN from 0 to 1 zeroes HEAD and TAIL (R296). -/
def State.putLqCtl (s : State) (ctx q v : Nat) : State :=
  let on := v / 2 ^ 31 % 2 == 1
  s.updLq ctx q fun l =>
    if ctlEn l.ctl then { l with ctl := setEn l.ctl on }
    else
      let c := v % 32 + (if v / 256 % 2 = 1 then 256 else 0) + if on then 2 ^ 31 else 0
      if on then { l with ctl := c, head := 0, tail := 0, prefer := [] } else { l with ctl := c }

/-- CQ_HEAD written: positions are free, held entries are written (R296, R306). -/
def State.putCqHead (s : State) (ctx cq v : Nat) : State :=
  let s1 := s.updCq ctx cq fun q => { q with head := v % ctlSize q.ctl }
  (s1.cqServe ctx cq).cqServed

/-- CQ_CTL written (R296, R306). -/
def State.putCqCtl (s : State) (ctx cq v : Nat) : State :=
  let on := v / 2 ^ 31 % 2 == 1
  let s1 := s.updCq ctx cq fun q =>
    if ctlEn q.ctl then { q with ctl := setEn q.ctl on }
    else
      let c := v % 32 + if on then 2 ^ 31 else 0
      if on then { q with ctl := c, head := 0, tail := 0, pass := true } else { q with ctl := c }
  (s1.cqServe ctx cq).cqServed

/-- EHEAD written: bits 11:0, and bit 31 clears OVF (R296). -/
def State.putEhead (s : State) (ctx v : Nat) : State :=
  s.updCtx ctx fun c => { c with ehead := v % 4096, ovf := c.ovf && v / 2 ^ 31 % 2 == 0 }

/-- ECTL written (R296). -/
def Context.putEctl (c : Context) (v : Nat) : Context :=
  let on := v / 2 ^ 31 % 2 == 1
  if ctlEn c.ectl then { c with ectl := setEn c.ectl on }
  else
    let e := v % 16 + if on then 2 ^ 31 else 0
    if on then { c with ectl := e, ehead := 0, etail := 0 } else { c with ectl := e }

/-- A register of a completion queue's 32 bytes written. -/
def State.putCq (s : State) (ctx cq o v : Nat) : State :=
  match o with
  | 0x00 => s.updCq ctx cq fun q => if ctlEn q.ctl then q else { q with base := v / 32 * 32 }
  | 0x08 => s.putCqCtl ctx cq v
  | 0x0C => s.putCqHead ctx cq v
  | 0x14 => s.updCq ctx cq fun q => { q with ien := v / 2 ^ 31 % 2 == 1, coal := v % 2 ^ 16 }
  | _ => s

/-- A register of a launch queue's 32 bytes written. -/
def State.putLq (s : State) (ctx q o v : Nat) : State :=
  match o with
  | 0x00 => s.updLq ctx q fun l => if ctlEn l.ctl then l else { l with base := v / 256 * 256 }
  | 0x08 => s.putLqCtl ctx q v
  | 0x10 => s.putLqTail ctx q v
  | _ => s

/-- A register of a function's window written; a read-only or reserved one ignores it (R3, R296, R415). -/
def State.putBar0 (s : State) (fn off v : Nat) : State :=
  if off = 0x10 then s.updCtx fn fun c => { c with apbase := v % 2 ^ 48 / 2 ^ 36 * 2 ^ 36 }
  else if 0x1000 ≤ off ∧ off < 0x1100 then s.putLq fn ((off - 0x1000) / 32) (off % 32) v
  else if 0x2000 ≤ off ∧ off < 0x2200 then s.putCq fn ((off - 0x2000) / 32) (off % 32) v
  else match off with
    | 0x3000 => s.updCtx fn fun c => if ctlEn c.ectl then c else { c with ebase := v / 64 * 64 }
    | 0x3008 => s.updCtx fn fun c => c.putEctl v
    | 0x300C => s.putEhead fn v
    | _ => s

/-- A register of a function's window read (R296, R415). -/
def State.bar0 (s : State) (fn off : Nat) : Nat :=
  let c := s.ctx fn
  if 0x1000 ≤ off ∧ off < 0x1100 then
    let q := s.lq fn ((off - 0x1000) / 32)
    match off % 32 with
    | 0x00 => q.base
    | 0x08 => q.ctl
    | 0x0C => q.head
    | 0x10 => q.tail
    | _ => 0
  else if 0x2000 ≤ off ∧ off < 0x2200 then
    let q := s.cq fn ((off - 0x2000) / 32)
    match off % 32 with
    | 0x00 => q.base
    | 0x08 => q.ctl
    | 0x0C => q.head
    | 0x10 => q.tail
    | 0x14 => q.coal + if q.ien then 2 ^ 31 else 0
    | _ => 0
  else match off with
    | 0x0000 => 0x1E570048
    | 0x0004 => Config.revision.toNat % 256 + if s.dev.fw.bootfail then 2 ^ 31 else 0
    | 0x0008 => c.st
    | 0x0010 => c.apbase
    | 0x3000 => c.ebase
    | 0x3008 => c.ectl
    | 0x300C => c.ehead
    | 0x3010 => c.etail + if c.ovf then 2 ^ 31 else 0
    | _ => 0

/-! ### The supervisor's tables -/

/-- 64 bits of CORES replaced. -/
def putCores (m : BitVec 256) (i : Nat) (v : Nat) : BitVec 256 :=
  BitVec.ofNat 256 (m.toNat - m.toNat / 2 ^ (64 * i) % 2 ^ 64 * 2 ^ (64 * i) + v % 2 ^ 64 * 2 ^ (64 * i))

/-- A field of a context table entry written (R352); a STATE that is no state is ignored (log 14). -/
def Context.put (c : Context) (o v : Nat) : Context :=
  match o with
  | 0x00 => { c with ptroot := v / 4096 * 4096 }
  | 0x08 => { c with fdtbase := v / 2048 * 2048 }
  | 0x10 => { c with cores := putCores c.cores 0 v }
  | 0x18 => { c with cores := putCores c.cores 1 v }
  | 0x20 => { c with cores := putCores c.cores 2 v }
  | 0x28 => { c with cores := putCores c.cores 3 v }
  | 0x30 => { c with pceil := v % 256 }
  | 0x31 => { c with cls := v % 4 }
  | 0x32 => { c with fair := v % 2 ^ 16 }
  | 0x34 => { c with capq := v % 2 ^ 32 }
  | 0x38 => { c with saveBase := v }
  | 0x40 => { c with saveSize := v }
  | 0x48 => { c with dwbase := v / 2 ^ 21 * 2 ^ 21 }
  | 0x50 => { c with dwsize := v % 2 ^ 32 }
  | 0x54 => if v % 2 ^ 32 ≤ 2 then { c with st := v % 2 ^ 32 } else c
  | 0x58 => { c with dwframe := v }
  | 0x60 => { c with dwfsize := v }
  | _ => c

/-- The clock of the fastest of classes 0 to 5 whose voltage is at or below a voltage (R361). -/
def topClock (tbl : Tab DWord) (mv : Nat) : Nat :=
  (List.range 6).foldl (fun m c =>
    let e := Tab.get 0 tbl c
    if (e.extractLsb' 0 16).toNat ≤ mv then max m (e.extractLsb' 16 16).toNat else m) 0

/-- The operating-class table written: class 7 alone, within the limits, LEASEONLY 0 among them (R361). -/
def State.putOpclass (s : State) (entry : Nat) (v : DWord) : State :=
  let mv := (v.extractLsb' 0 16).toNat
  let mhz := (v.extractLsb' 16 16).toNat
  if entry ≠ 7 ∨ v.getLsbD 33 ∨ mv < 550 ∨ mv > 800 ∨ mhz < 400 ∨ mhz > topClock s.dev.opclass mv then s
  else s.updDev fun d => { d with opclass := Tab.put d.opclass 7 (opclassEntry mv (mhz / 25 * 25) false false (v.getLsbD 32)) }

/-- PKGLIM written (R423). -/
def State.putPkglim (s : State) (v : Nat) : State := s.updDev fun d => { d with pkglim := max 1000 (min 1800 v) }

/-- An entry of the index range map written. -/
def putRange (rs : List (Nat × Nat × Nat)) (i : Nat) (f : Nat × Nat × Nat → Nat × Nat × Nat) : List (Nat × Nat × Nat) :=
  (rs ++ List.replicate (i + 1 - rs.length) (0, 0, 0)).modify i f

/-- A field of a Fold drive table entry written, while DSTATE is 0 and within its range (R420). -/
def Drive.put (d : Drive) (o v : Nat) : Drive :=
  if d.st ≠ 0 then d
  else match o with
    | 0x00 => if v % 256 ≤ 1 then { d with bdf := v % 256 * 65536 + d.bdf % 65536 } else d
    | 0x01 => { d with bdf := d.bdf / 65536 * 65536 + v % 256 * 256 + d.bdf % 256 }
    | 0x02 => { d with bdf := d.bdf / 256 * 256 + v % 256 }
    | 0x04 => { d with nsid := v % 2 ^ 32 }
    | 0x08 => if v % 256 = 9 ∨ v % 256 = 12 then { d with lbash := v % 256 } else d
    | 0x0A => if 2 ≤ v % 65536 ∧ v % 65536 ≤ 1024 then { d with qdepth := v % 65536 } else d
    | _ => d

/-- NQP written: Sheepdog identifies the drive and creates its queue pairs; one that does not answer has failed, which
event 7 reports; MDTS is what the drive says (R313, R420, R422, R427; log 4). -/
def State.putNqp (s : State) (n v : Nat) (answers : Bool) : State :=
  if n ≥ 64 ∨ (s.drive n).st ≠ 0 ∨ v = 0 ∨ v > 64 then s
  else
    let mdts := Config.choice 21 s.free (2 ^ 32) % 2 ^ 32
    let s1 := (s.updDrive n fun d => { d with nqp := v, st := if answers then 1 else 2, mdts := if answers then mdts else 0 }).drew
    if answers then s1 else s1.event 7 5 0 0xFF 0xFFFF

/-- A field of EZ_CTL written: a threshold beyond 511 is out of its range and ignored (R420, R425). -/
def Port.put (x : Port) (o v : Nat) : Port :=
  if o < 0xE ∧ o % 2 = 0 then (if v % 1024 ≤ 511 then { x with th := Tab.put x.th (o / 2 + 1) (max 1 (v % 1024)) } else x)
  else if o = 0xE then { x with dark := max 1 (v % 65536) }
  else x

/-- A heap instance's binding written (R308). -/
def Heap.bind (h : Heap) (v : Nat) : Heap := { h with bound := if v / 2 ^ 63 % 2 = 1 then some (v % 64) else none }

/-- The event ring's registers written (R296, R422). -/
def Device.putEvent (d : Device) (o v : Nat) : Device :=
  let on := v / 2 ^ 31 % 2 == 1
  match o with
  | 0x0 => if ctlEn d.evctl then d else { d with evbase := v / 64 * 64 }
  | 0x8 =>
    if ctlEn d.evctl then { d with evctl := setEn d.evctl on }
    else
      let e := v % 16 + if on then 2 ^ 31 else 0
      if on then { d with evctl := e, evhead := 0, evtail := d.evtail / 2 ^ 31 * 2 ^ 31 } else { d with evctl := e }
  | 0xC => { d with evhead := v % 4096, evtail := if on then d.evtail % 2 ^ 31 else d.evtail }
  | _ => d

/-- Bytes written into a table of bytes. -/
def putBytes (t : Tab Byte) (o : Nat) (bs : List Byte) : Tab Byte := bs.zipIdx.foldl (fun t p => Tab.set 0 t (o + p.2) p.1) t

/-- The field that a byte of a context table entry lies in: its offset and size (R352). -/
def ctxField (o : Nat) : Nat × Nat :=
  if o = 0x30 ∨ o = 0x31 then (o, 1) else if o = 0x32 ∨ o = 0x33 then (0x32, 2)
  else if 0x34 ≤ o ∧ o < 0x38 ∨ 0x50 ≤ o ∧ o < 0x58 then (o / 4 * 4, 4) else (o / 8 * 8, 8)

/-- The field that a byte of a drive table entry lies in (R420). -/
def driveField (o : Nat) : Nat × Nat :=
  if o < 4 ∨ o = 8 ∨ o = 9 then (o, 1) else if o = 0xA ∨ o = 0xB then (0xA, 2) else (o / 4 * 4, 4)

/-- The register or field that a byte of the supervisor window lies in, of a write of `len` bytes there: its offset and size.
Counters, SCMD's arguments and staging take any write as it comes (R352, R412, R418 to R420, R428). -/
def bar4Field (off len : Nat) : Nat × Nat :=
  if off < 0x4000 then ((ctxField (off % 256)).map (off / 256 * 256 + ·) id)
  else if off < 0x4040 ∨ 0x30000 ≤ off ∧ off < 0x30400 ∨ 0x600000 ≤ off ∧ off < 0x600008 then (off / 8 * 8, 8)
  else if 0x4400 ≤ off ∧ off < 0x4404 ∨ 0x50000 ≤ off ∧ off < 0x50200 then (off / 2 * 2, 2)
  else if 0x8000 ≤ off ∧ off < 0x8100 then (off, 1)
  else if 0x40000 ≤ off ∧ off < 0x41000 then (driveField (off % 64)).map (off / 64 * 64 + ·) id
  else if 0x10000 ≤ off ∧ off < 0x20000 ∨ 0x600110 ≤ off then (off, len)
  else (off / 4 * 4, 4)

/-- The register that a byte of a function's window lies in (R296, R415). -/
def bar0Field (off : Nat) : Nat × Nat :=
  if off / 8 * 8 = 0x10 ∨ off / 8 * 8 = 0x3000 ∨ (0x1000 ≤ off ∧ off < 0x1100 ∨ 0x2000 ≤ off ∧ off < 0x2200) ∧ off % 32 < 8 then
    (off / 8 * 8, 8)
  else (off / 4 * 4, 4)

/-- A field's value after a write of `v` from an offset on: the bytes of the field that the write's length, 0 for any, reaches. -/
def patch (field : Nat × Nat) (old off len v : Nat) : Nat :=
  leNat ((List.range field.2).map fun i =>
    if off ≤ field.1 + i ∧ (len = 0 ∨ field.1 + i < off + len) then BitVec.ofNat 8 (v / 256 ^ (field.1 + i - off))
    else BitVec.ofNat 8 (old / 256 ^ i))

/-- A register or table entry of the supervisor window written, SCMD.OP and the drives' NQP apart (R418 to R420). -/
def State.putBar4 (s : State) (off len v : Nat) : State :=
  if off < 0x4000 then s.updCtx (off / 256) fun c => c.put (off % 256) v
  else if off < 0x4040 then (if off % 8 = 0 then s.putOpclass ((off - 0x4000) / 8) (BitVec.ofNat 64 v) else s)
  else if 0x4100 ≤ off ∧ off < 0x4180 then
    s.updDev fun d => { d with heat := Tab.put d.heat ((off - 0x4100) / 4) (BitVec.ofNat 32 (v % 2 ^ 24)) }
  else if 0x4200 ≤ off ∧ off < 0x4220 then s.updDev fun d => { d with weights := Tab.put d.weights ((off - 0x4200) / 4) (v % 2 ^ 16) }
  else if 0x4300 ≤ off ∧ off < 0x4310 then
    s.updDev fun d => { d with l2masks := Tab.put d.l2masks ((off - 0x4300) / 4) (BitVec.ofNat 24 v) }
  else if off = 0x4400 then s.putPkglim (v % 2 ^ 16)
  else if 0x8000 ≤ off ∧ off < 0x8100 then s.updVault (off - 0x8000) fun x => { x with ceiling := v % 4 }
  else if 0x10000 ≤ off ∧ off < 0x20000 then s.clearCounter (off - 0x10000) v
  else if off = 0x20000 then s.updDev fun d => { d with id := v % 2 ^ 32 }
  else if 0x20010 ≤ off ∧ off < 0x20910 then
    let i := (off - 0x20010) / 16
    let w := v % 2 ^ 32
    s.updDev fun d => { d with ranges := putRange d.ranges i fun r => match off % 16 with
      | 0 => (w, r.2.1, r.2.2)
      | 4 => (r.1, w, r.2.2)
      | 8 => (r.1, r.2.1, w)
      | _ => r }
  else if 0x30000 ≤ off ∧ off < 0x30400 then s.updHeap ((off - 0x30000) / 8) fun h => h.bind v
  else if 0x40000 ≤ off ∧ off < 0x41000 then s.updDrive ((off - 0x40000) / 64) fun d => d.put (off % 64) v
  else if 0x50000 ≤ off ∧ off < 0x50200 then s.updPort ((off - 0x50000) / 32) fun x => x.put (off % 32) v
  else if 0x600000 ≤ off ∧ off < 0x600014 then s.updDev fun d => d.putEvent (off - 0x600000) v
  else if 0x600110 ≤ off ∧ off < 0x600140 then
    s.updDev fun d => { d with scmdArg := putBytes d.scmdArg (off - 0x600110) (leBytes (min len (0x600140 - off)) v) }
  else if 0x700000 ≤ off ∧ off < 0xF00000 then
    s.updDev fun d => { d with fw := { d.fw with staging := putBytes d.fw.staging (off - 0x700000) (leBytes (min len (0xF00000 - off)) v) } }
  else s

/-- `n` bytes of the supervisor window read at an offset within one table (R418 to R420); firmware staging begins with the
identity key's public half, bytes that the spec leaves open (R430; log 4). -/
def State.bar4 (s : State) (off n : Nat) : List Byte :=
  let cut := fun (base : Nat) (bs : List Byte) => (bs.drop (off - base)).take n
  if off < 0x4000 then cut 0 s.ctxTable
  else if off < 0x4040 then cut 0x4000 s.opclassTable
  else if 0x4100 ≤ off ∧ off < 0x4180 then cut 0x4100 s.heatTable
  else if 0x4200 ≤ off ∧ off < 0x4220 then cut 0x4200 ((List.range 8).flatMap fun e => leBytes 4 (Tab.get 0 s.dev.weights e))
  else if 0x4300 ≤ off ∧ off < 0x4310 then
    cut 0x4300 ((List.range 4).flatMap fun e => leBytes 4 (Tab.get 0 s.dev.l2masks e).toNat)
  else if 0x4400 ≤ off ∧ off < 0x4404 then cut 0x4400 (leBytes 2 s.dev.pkglim ++ leBytes 2 s.dev.pkgest)
  else if 0x8000 ≤ off ∧ off < 0x8100 then cut 0x8000 ((List.range 256).flatMap fun v => leBytes 1 (s.vault v).ceiling)
  else if 0x8200 ≤ off ∧ off < 0x8400 then
    cut 0x8200 ((List.range 256).flatMap fun v => leBytes 2 ((s.vault v).temp % 65536).toNat)
  else if 0x10000 ≤ off ∧ off < 0x20000 then
    (List.range n).map fun i =>
      let o := off - 0x10000 + i
      let part := fun (k : Nat) => (s.counterAt (o - k)).bind fun c => if k < c.1 / 8 then some (BitVec.ofNat 8 (c.2.1 / 256 ^ k)) else none
      ((List.range (min 8 (o % 8 + 1))).findSome? part).getD 0
  else if 0x20000 ≤ off ∧ off < 0x20910 then cut 0x20000 s.domainTable
  else if 0x30000 ≤ off ∧ off < 0x30400 then
    cut 0x30000 ((List.range 128).flatMap fun h => leBytes 8 ((s.heap h).bound.elim 0 (· + 2 ^ 63)))
  else if 0x40000 ≤ off ∧ off < 0x41000 then cut 0x40000 ((List.range 64).flatMap fun d => (s.drive d).bytes)
  else if 0x50000 ≤ off ∧ off < 0x50200 then cut 0x50000 ((List.range 16).flatMap fun p => (s.port p).bytes)
  else if 0x80000 ≤ off ∧ off < 0x280000 then
    (((Tab.find s.dev.fold ((off - 0x80000) / 32)).elim (List.replicate 32 0) FoldSlot.bytes).drop (off % 32)).take n
  else if 0x400000 ≤ off ∧ off < 0x420000 then
    (((Tab.find s.dev.winIn ((off - 0x400000) / 32)).elim (List.replicate 32 0) WinIn.bytes).drop (off % 32)).take n
  else if 0x420000 ≤ off ∧ off < 0x440000 then
    (((Tab.find s.dev.winOut ((off - 0x420000) / 32)).elim (List.replicate 32 0) WinOut.bytes).drop (off % 32)).take n
  else if 0x600000 ≤ off ∧ off < 0x600014 then
    cut 0x600000 (leBytes 8 s.dev.evbase ++ leBytes 4 s.dev.evctl ++ leBytes 4 s.dev.evhead ++ leBytes 4 s.dev.evtail)
  else if 0x600100 ≤ off ∧ off < 0x600140 then
    cut 0x600100 (leBytes 4 s.dev.scmdOp ++ leBytes 4 s.dev.scmdBusy.toNat ++ leBytes 4 s.dev.scmdStatus ++ leBytes 4 0 ++
      (List.range 48).map fun i => Tab.get 0 s.dev.scmdArg i)
  else if 0x700000 ≤ off ∧ off < 0xF00000 then
    (List.range n).map fun i =>
      let o := off - 0x700000 + i
      if o < 1312 then Config.freeByte 4 o 0 else Tab.get 0 s.dev.fw.staging o
  else List.replicate n 0

end Sys2Proof.Machine
end

