-- ==== Sys2Proof/Machine/Host.lean ====
section
/-! DEFINITION. The host and the supervisor: accesses through the aperture and the register windows, the commands of SCMD,
firmware, resets, and what other devices of the domain send (R102, R205, R264, R296, R308, R314, R337, R340, R363, R364,
R416, R419, R421, R424, R426 to R430). -/

namespace Sys2Proof.Machine

/-! ### The aperture -/

/-- Bytes that the host reads at the homes from a virtual address; a bad word's bytes are free (R206, R416; log 4). -/
def State.hostRead (s : State) (ctx : Nat) : Nat → Nat → Option (List Byte × State)
  | _, 0 => some ([], s)
  | va, n + 1 =>
    match s.unitXlate farUnit ctx va .read with
    | .error _ => none
    | .ok x =>
      let p := placeOf x.pa
      let b := if s.mem.uncorr p || s.mem.poisoned p then Config.freeByte 7 p s.free else s.mem.byte p
      (((s.marked farUnit ctx x).l2Read ctx [p]).hostRead ctx (va + 1) n).map fun r => (b :: r.1, r.2)

/-- An aperture access that failed: event 4 with the virtual address (R416, R422). -/
def State.apertureFails (s : State) (ctx va : Nat) : State := s.event 4 7 0 ctx va

/-- HOST_APERTURE_ACCESS: a host access at a BAR2 offset acts at the home of APBASE plus the offset; where translation
fails a read gives all ones and a write is dropped (R206, R416). -/
def execHostApertureAccess (fn : Nat) (off : BitVec 64) (write : Option (List (BitVec 8))) (len : Nat) (s : State) : Out :=
  .next (
    let va := (s.ctx fn).apbase + off.toNat
    if fn ≥ 64 ∨ off.toNat ≥ 2 ^ 36 ∨ s.dev.fw.bootfail then s
    else match write with
      | some bs =>
        (match s.unitWrite farUnit fn va bs with
        | .ok t => t
        | .error _ => s.apertureFails fn va)
      | none =>
        match s.hostRead fn va len with
        | some (bs, t) => (t.updDev fun d => { d with reply := bs }).drew
        | none => (s.apertureFails fn va).updDev fun d => { d with reply := List.replicate len 0xFF })

/-! ### Registers with a behaviour of their own -/

/-- A state changed by the host, on a device whose firmware booted (R428). -/
def State.byHost (s : State) (f : State → State) : State := if s.dev.fw.bootfail then s else f s

/-- LQ_TAIL written (R297). -/
def execLqTailWrite (ctx q : Nat) (v : BitVec 32) (s : State) : Out := .next (s.byHost fun s => s.putLqTail ctx q v.toNat)

/-- LQ_CTL written (R296). -/
def execLqCtlWrite (ctx q : Nat) (v : BitVec 32) (s : State) : Out := .next (s.byHost fun s => s.putLqCtl ctx q v.toNat)

/-- CQ_HEAD written (R306). -/
def execCqHeadWrite (ctx cq : Nat) (v : BitVec 32) (s : State) : Out := .next (s.byHost fun s => s.putCqHead ctx cq v.toNat)

/-- CQ_CTL written (R296, R306). -/
def execCqCtlWrite (ctx cq : Nat) (v : BitVec 32) (s : State) : Out := .next (s.byHost fun s => s.putCqCtl ctx cq v.toNat)

/-- EHEAD written (R296, R307). -/
def execEheadWrite (ctx : Nat) (v : BitVec 32) (s : State) : Out := .next (s.byHost fun s => s.putEhead ctx v.toNat)

/-- PKGLIM written (R423). -/
def execPkglimWrite (v : BitVec 16) (s : State) : Out := .next (s.byHost fun s => s.putPkglim v.toNat)

/-- An entry of the operating-class table written (R361). -/
def execOpclassTableWrite (entry : Nat) (v : BitVec 64) (s : State) : Out := .next (s.byHost fun s => s.putOpclass entry v)

/-- An accounting counter written, by its offset from 0x01_0000 (R412, R420). -/
def execAccountingCounterWrite (off : Nat) (v : BitVec 64) (s : State) : Out :=
  .next (s.byHost fun s => s.clearCounter off v.toNat)

/-- NQP of a drive written (R313, R420). -/
def execFoldDriveNqpWrite (drive : Nat) (v : BitVec 8) (answers : Bool) (s : State) : Out :=
  .next (s.byHost fun s => s.putNqp drive v.toNat answers)

/-! ### The supervisor's commands -/

/-- A command with its arguments, done at once: STATUS 0, or 1 where it is refused and nothing changes; ignored while
another is in progress (R419). -/
def State.command (s : State) (op : Nat) (args : List Byte) (run : State → Option State) : State :=
  if s.dev.scmdBusy ∨ s.dev.fw.bootfail then s
  else
    let s1 := s.updDev fun d => { d with scmdOp := op, scmdArg := putBytes d.scmdArg 0 args }
    match run s1 with
    | some t => t.endCommand 0
    | none => s1.endCommand 1

/-- Bytes returned in ARG. -/
def State.answer (s : State) (bs : List Byte) : State := s.updDev fun d => { d with scmdArg := putBytes d.scmdArg 0x20 bs }

/-- Kill context (R340, R419). -/
def State.cmdKill (ctx : Nat) (s : State) : Option State := if 1 ≤ ctx ∧ ctx < 64 then some (s.kill ctx killErr) else none

/-- A context's reset (R421). -/
def State.resetCtx (s : State) (ctx : Nat) : State :=
  (s.revokeIf fun c => c.ctx == ctx).updCtx ctx fun c => { c with
    lqs := Tab.mapVals c.lqs fun _ q => { q with ctl := setEn q.ctl false }
    cqs := Tab.mapVals c.cqs fun _ q => { q with ctl := setEn q.ctl false }
    ectl := setEn c.ectl false
    ovf := false
    st := 0 }

/-- Reset context: while STATE is 0 or 2 (R419, R421). -/
def State.cmdReset (ctx : Nat) (s : State) : Option State :=
  if 1 ≤ ctx ∧ ctx < 64 ∧ (s.ctx ctx).st ≠ 1 then some (s.resetCtx ctx) else none

/-- Reset heap instance: empty and Idle, its binding kept (R308). -/
def State.cmdHeap (h : Nat) (s : State) : Option State := some (s.updHeap (h % 128) fun x => { x with st := 0, opens := 0, entries := [] })

/-- A free index of a table: the device's choice, or, should it be taken, the lowest one (log 4). -/
def State.freeIndex (s : State) (code n : Nat) (free : Nat → Bool) : Option Nat :=
  let c := Config.choice code s.free n % n
  if free c then some c else (List.range n).find? free

/-- Two LBA ranges of a drive's namespaces meet. -/
def lbasMeet (drive nsid slba nlba : Nat) (h : Nat × Nat × Nat × Nat × Nat) : Bool :=
  h.1 == drive && h.2.1 == nsid && decide (slba < h.2.2.1 + h.2.2.2.1) && decide (h.2.2.1 < slba + nlba)

/-- Create Fold slot: empty, or lost where an earlier boot's slot header lies in its space (R205, R363, R419). -/
def State.cmdFold (drive ctx nsid slba nlba : Nat) (s : State) : Option State :=
  let free := fun n => (Tab.find s.dev.fold n).all fun x => x.st == 0 && decide (x.gen < 4095)
  if drive ≥ 64 ∨ (s.drive drive).st ≠ 1 ∨ ctx ≥ 64 ∨ nlba = 0 then none
  else (s.freeIndex 18 65536 free).map fun n =>
    let gen := (Tab.find s.dev.fold n).elim 0 (·.gen)
    let lost := s.dev.headers.any fun h => lbasMeet drive nsid slba nlba h && h.2.2.2.2 != s.dev.fw.boots
    let x : FoldSlot := ⟨gen, ctx, if lost then 3 else 1, drive, nsid, slba, nlba, []⟩
    let s1 := s.updDev fun d => { d with
      fold := Tab.put d.fold n x
      headers := if lost then d.headers else (drive, nsid, slba, nlba, d.fw.boots) :: d.headers }
    (s1.answer (leBytes 8 (handleOf (s.tag .fold n gen ctx) gen n).toNat)).drew

/-- Release Fold slot: GEN rises and its LBAs are deallocated; at 4,095 the entry is not used again (R363, R395, R419). -/
def State.cmdFoldRelease (n : Nat) (s : State) : Option State :=
  match Tab.find s.dev.fold n with
  | none => none
  | some x =>
    if x.st = 0 then none
    else some (s.updDev fun d => { d with
      fold := Tab.put d.fold n { x with gen := x.gen + 1, st := 0, pages := [] }
      headers := d.headers.filter fun h => !lbasMeet x.drive x.nsid x.slba x.nlba h })

/-- Open window (R364, R419). -/
def State.cmdWindow (ctx src base size : Nat) (s : State) : Option State :=
  let free := fun n => (Tab.find s.dev.winIn n).all fun x => !x.open_ && decide (x.gen < 4095)
  if ctx ≥ 64 ∨ src ≥ 144 ∨ base % 4096 ≠ 0 ∨ size % 4096 ≠ 0 ∨ size = 0 ∨ size > 2 ^ 40 then none
  else (s.freeIndex 19 4096 free).map fun n =>
    let gen := (Tab.find s.dev.winIn n).elim 0 (·.gen)
    let s1 := s.updDev fun d => { d with winIn := Tab.put d.winIn n ⟨gen, ctx, true, src, base, size, 0⟩ }
    (s1.answer (leBytes 8 (handleOf (s.tag .window n gen ctx) gen (s.dev.id % 256 * 4096 + n)).toNat)).drew

/-- Close window: GEN rises; at 4,095 the entry is not used again (R364, R395, R419). -/
def State.cmdWindowClose (n : Nat) (s : State) : Option State :=
  match Tab.find s.dev.winIn n with
  | none => none
  | some x =>
    if !x.open_ then none
    else some (s.updDev fun d => { d with winIn := Tab.put d.winIn n { x with gen := x.gen + 1, open_ := false } })

/-- Free bytes of a kind. -/
def someBytes (kind from_ n : Nat) : List Byte := (List.range n).map fun i => Config.freeByte kind i from_

/-- Fold admin pass-through: the drive runs the command; its completion, and the data of one that transfers to the host,
are the drive's (R419, R427; log 4). -/
def State.cmdAdmin (drive cmd buf len : Nat) (s : State) : Option State :=
  if drive ≥ 64 ∨ (s.drive drive).st ≠ 1 then none
  else
    let toHost := (s.mem.byte (placeOf cmd)).toNat % 4 == 2
    let data := (someBytes 6 s.free len).zipIdx.map fun p => (placeOf (buf + p.2), p.1)
    let s1 := if toHost then s.homeWrite data else s
    some (s1.answer (someBytes 5 s.free 16)).drew

/-- The firmware image that runs. -/
def Firmware.image (f : Firmware) : List Byte := if f.running = 0 then f.slotA else if f.running = 1 then f.slotB else []

/-- The attestation report (R430); the serial and the signature are the device's own (log 4). -/
def State.report (s : State) (nonce : BitVec 256) : List Byte :=
  leBytes 4 1 ++ leBytes 4 s.dev.fw.fused ++ someBytes 8 0 16 ++ sha3 s.dev.fw.image ++
  sha3 (s.ctxTable ++ s.opclassTable ++ s.heatTable ++ s.domainTable) ++ leBytes 32 nonce.toNat ++
  someBytes 9 s.free 2420

/-- Attest (R419, R430). -/
def State.cmdAttest (nonce : BitVec 256) (dst : Nat) (s : State) : Option State :=
  some (s.homeWrite ((s.report nonce).zipIdx.map fun p => (placeOf (dst + p.2), p.1))).drew

/-- Raise firmware security version: to that of the running image, never lower (R419, R428). -/
def State.cmdRaise (s : State) : Option State :=
  some (s.updDev fun d => { d with fw := { d.fw with fused := max d.fw.fused (Config.imageVersion d.fw.image) } })

/-- Enter outbound window handle: up to 4,096 of them (R364, R419). -/
def State.cmdOutbound (handle : DWord) (ctx : Nat) (s : State) : Option State :=
  if ctx ≥ 64 then none
  else ((List.range 4096).find? fun n => !Tab.has s.dev.winOut n).map fun n =>
    s.updDev fun d => { d with winOut := Tab.put d.winOut n ⟨handle, ctx, 0⟩ }

/-- Migrate block: accepted for a Running block of a pre-emptible launch that is no gang member, and a core that serves
its context; it reports when the block runs there (R337, R419). -/
def State.command3 (s : State) (waveH : Word) (core : Nat) : State :=
  if s.dev.scmdBusy ∨ s.dev.fw.bootfail then s
  else
    let s1 := s.updDev fun d => { d with scmdOp := 3, scmdArg := putBytes d.scmdArg 0 (leBytes 4 waveH.toNat ++ leBytes 2 core) }
    match s.waveOf waveH with
    | none => s1.endCommand 1
    | some k =>
      let blk := (s.wave k).block
      let b := s.block blk
      let ok := b.st == .running && (s.lpb blk).preemptible && b.gang.isNone &&
        (core == 0xFFFF || (decide (core < 256) && core != b.core && s.eligible b.ctx core))
      if ok then (s1.updBlock blk fun b => { b with want := some core }).updDev fun d => { d with scmdBusy := true }
      else s1.endCommand 1

/-- KILL_CONTEXT: SCMD 1 (R340, R419). -/
def execKillContext (ctx : Nat) (s : State) : Out := .next (s.command 1 (leBytes 1 ctx) (State.cmdKill ctx))

/-- RESET_CONTEXT: SCMD 2 (R419, R421). -/
def execResetContext (ctx : Nat) (s : State) : Out := .next (s.command 2 (leBytes 1 ctx) (State.cmdReset ctx))

/-- MIGRATE_BLOCK: SCMD 3 (R337, R419). -/
def execMigrateBlock (waveH : BitVec 32) (core : Nat) (s : State) : Out := .next (s.command3 waveH core)

/-- RESET_HEAP_INSTANCE: SCMD 4 (R308, R419). -/
def execResetHeapInstance (handle : BitVec 7) (s : State) : Out :=
  .next (s.command 4 (leBytes 1 handle.toNat) (State.cmdHeap handle.toNat))

/-- CREATE_FOLD_SLOT: SCMD 5 (R363, R419). -/
def execCreateFoldSlot (drive ctx : Nat) (nsid : BitVec 32) (slba nlba : BitVec 64) (s : State) : Out :=
  .next (s.command 5 (leBytes 1 drive ++ leBytes 3 ctx ++ leBytes 4 nsid.toNat ++ leBytes 8 slba.toNat ++ leBytes 8 nlba.toNat)
    (State.cmdFold drive ctx nsid.toNat slba.toNat nlba.toNat))

/-- RELEASE_FOLD_SLOT: SCMD 6 (R363, R419). -/
def execReleaseFoldSlot (index : Nat) (s : State) : Out := .next (s.command 6 (leBytes 4 index) (State.cmdFoldRelease index))

/-- OPEN_WINDOW: SCMD 7 (R364, R419). -/
def execOpenWindow (ctx srcdev : Nat) (base size : BitVec 64) (s : State) : Out :=
  .next (s.command 7 (leBytes 1 ctx ++ leBytes 7 srcdev ++ leBytes 8 base.toNat ++ leBytes 8 size.toNat)
    (State.cmdWindow ctx srcdev base.toNat size.toNat))

/-- CLOSE_WINDOW: SCMD 8 (R364, R419). -/
def execCloseWindow (index : Nat) (s : State) : Out := .next (s.command 8 (leBytes 4 index) (State.cmdWindowClose index))

/-- FOLD_ADMIN_PASS_THROUGH: SCMD 9 (R419, R427). -/
def execFoldAdminPassThrough (drive : Nat) (cmd buf : BitVec 64) (len : Nat) (s : State) : Out :=
  .next (s.command 9 (leBytes 8 (drive % 256) ++ leBytes 8 cmd.toNat ++ leBytes 8 buf.toNat ++ leBytes 4 len)
    (State.cmdAdmin drive cmd.toNat buf.toNat (len % 2 ^ 32)))

/-- ATTEST: SCMD 10 (R419, R430). -/
def execAttest (nonce : BitVec 256) (dst : BitVec 64) (s : State) : Out :=
  .next (s.command 10 (leBytes 32 nonce.toNat ++ leBytes 8 dst.toNat) (State.cmdAttest nonce dst.toNat))

/-- RAISE_FIRMWARE_SECURITY_VERSION: SCMD 11 (R419, R428). -/
def execRaiseFirmwareSecurityVersion (s : State) : Out := .next (s.command 11 [] State.cmdRaise)

/-- ENTER_OUTBOUND_WINDOW_HANDLE: SCMD 12 (R364, R419). -/
def execEnterOutboundWindowHandle (handle : BitVec 64) (ctx : Nat) (s : State) : Out :=
  .next (s.command 12 (leBytes 8 handle.toNat ++ leBytes 1 ctx) (State.cmdOutbound handle ctx))

/-- A field of ARG. -/
def State.arg (s : State) (o n : Nat) : Nat := leNat ((List.range n).map fun i => Tab.get 0 s.dev.scmdArg (o + i))

/-- OP written: the command that it names starts, with the arguments that ARG holds; another code is refused (R419). -/
def State.putOp (s : State) (op : Nat) : State :=
  let a := s.arg
  if op = 3 then s.command3 (BitVec.ofNat 32 (a 0 4)) (a 4 2)
  else s.command op [] (match op with
    | 1 => State.cmdKill (a 0 1)
    | 2 => State.cmdReset (a 0 1)
    | 4 => State.cmdHeap (a 0 1)
    | 5 => State.cmdFold (a 0 1) (a 1 1) (a 4 4) (a 8 8) (a 16 8)
    | 6 => State.cmdFoldRelease (a 0 4)
    | 7 => State.cmdWindow (a 0 1) (a 1 1) (a 8 8) (a 16 8)
    | 8 => State.cmdWindowClose (a 0 4)
    | 9 => State.cmdAdmin (a 0 1) (a 8 8) (a 16 8) (a 24 4)
    | 10 => State.cmdAttest (BitVec.ofNat 256 (a 0 32)) (a 32 8)
    | 11 => State.cmdRaise
    | 12 => State.cmdOutbound (BitVec.ofNat 64 (a 0 8)) (a 8 1)
    | _ => fun _ => none)

/-- The register or field at an offset of the supervisor window takes a value: SCMD's OP starts a command, NQP a drive, of
which whether it answers is a free value (R418 to R420; log 4). -/
def State.putSupervisor (s : State) (off len v : Nat) : State :=
  if off = 0x600100 then s.putOp (v % 2 ^ 32)
  else if 0x40000 ≤ off ∧ off < 0x41000 ∧ off % 64 = 9 then
    (s.putNqp ((off - 0x40000) / 64) (v % 256) (Config.choice 22 s.free 2 % 2 == 1)).drew
  else s.putBar4 off len v

/-- REGISTER_WRITE: a register or table field of a function's window, or, for function 0, of the supervisor window at 2^24
plus its BAR4 offset, written from the byte named on; `off` carries above its bit 32 how many bytes the access has, 0 for all
that the field has there, and the field's other bytes stay. Without firmware only staging takes writes (R3, R296, R352, R415,
R418 to R420, R428; log 14). -/
def execRegisterWrite (fn off : Nat) (v : BitVec 64) (s : State) : Out :=
  .next (
    let len := min 8 (off / 2 ^ 32)
    let off := off % 2 ^ 32
    let o := off - 2 ^ 24
    let staging := decide (2 ^ 24 + 0x700000 ≤ off) && decide (off < 2 ^ 24 + 0xF00000)
    if fn ≥ 64 ∨ (s.dev.fw.bootfail ∧ !(fn == 0 && staging)) then s
    else if off < 2 ^ 16 then
      let f := bar0Field off
      if off % 4 ≠ 0 then s else s.putBar0 fn f.1 (patch f (s.bar0 fn f.1) off len v.toNat)
    else if fn ≠ 0 ∨ off < 2 ^ 24 then s
    else
      let f := bar4Field o (if len = 0 then 8 else len)
      s.putSupervisor f.1 f.2 (patch f (leNat (s.bar4 f.1 f.2)) o len v.toNat))

/-! ### Firmware and resets -/

/-- An image passes the boot ROM's checks (R428). -/
def Firmware.passes (f : Firmware) (img : List Byte) : Bool := Config.imageOk img && decide (f.fused ≤ Config.imageVersion img)

/-- The boot: slot A, else slot B, else recovery with BOOTFAIL; a new device secret (R428, R429). -/
def Firmware.boot (f : Firmware) : Firmware :=
  let r := if f.passes f.slotA then 0 else if f.passes f.slotB then 1 else 2
  { f with running := r, bootfail := r == 2, boots := f.boots + 1 }

/-- The bytes written into staging. -/
def Firmware.staged (f : Firmware) : List Byte :=
  (List.range (f.staging.foldl (fun n p => max n (p.1 + 1)) 0)).map fun i => Tab.get 0 f.staging i

/-- FIRMWARE_STAGING_UPDATE: a staged image that passes the checks is copied into the slot that did not boot; which, where
neither did, is a free value (R428; log 4). -/
def execFirmwareStagingUpdate (s : State) : Out :=
  .next (
    let f := s.dev.fw
    let intoB := if f.running = 2 then Config.choice 23 s.free 2 % 2 == 1 else f.running == 0
    if !f.passes f.staged then s
    else (s.updDev fun d => { d with fw :=
      (if intoB then { f with slotB := f.staged } else { f with slotA := f.staged }) }).drew)

/-- Lines on their way home merge there. -/
def State.mergeAll (s : State) : State := s.fly.lines.foldl (fun s p => s.mergeLine p.1 p.2) s

/-- The whole device reset: every context is killed, the firmware boots anew, every table is as after reset. Memory, the
flash, the fuses and what the drives hold stay (R205, R421, R428, R429; log 44). -/
def State.restart (s : State) : State :=
  let s1 := s.killAll.mergeAll
  { State.reset with
    mem := s1.mem
    agenda := s1.agenda
    free := s1.free
    serial := s1.serial
    dev := { Device.reset with headers := s1.dev.headers, fw := { s1.dev.fw with staging := [] }.boot } }

/-- DEVICE_RESET (R421, R428, R429). -/
def execDeviceReset (s : State) : Out := .next s.restart

/-- FUNCTION_LEVEL_RESET: kills the function's context if it runs, then resets it; of function 0, the device (R421). -/
def execFunctionLevelReset (fn : Nat) (s : State) : Out :=
  .next (if fn = 0 then s.restart
    else if fn ≥ 64 ∨ s.dev.fw.bootfail then s
    else (if (s.ctx fn).st = 1 then s.kill fn killErr else s).resetCtx fn)

/-! ### The end of a port, and other devices -/

/-- An operation whose flits were not acknowledged when a port went down: a send is GONE with a link note, a put ends with
class 10 (R183, R264, R426). -/
def State.linkFails (s : State) (port : Nat) : FlitOp → State
  | .arrival id =>
    match Tab.find s.fly.arrivals id with
    | none => s
    | some a =>
      if a.outcome.isSome then s
      else (s.updFly fun f => { f with arrivals := Tab.upd f.arrivals id fun a => { a with outcome := some 4 } }).noteLink
        (s.block (s.wave a.wave).block).launch
  | .put id =>
    if Tab.has s.fly.copies id then s.updCopy id fun c => { c.stop 0 ⟨10, 6, port, 0, 0⟩ with merged := false } else s
  | .revoke _ | .reply | .audit _ => s

/-- A port goes down: the operations of its window end, event 5 (R422, R426). -/
def State.portDown (s : State) (port : Nat) : State :=
  let ops := ((s.port port).window.map (·.op)).eraseDups
  let s1 := s.updPort port fun x => { x with up := false, window := [], asked := false }
  (ops.foldl (fun s o => s.linkFails port o) s1).event 5 6 port 0xFF 0

/-- EZLEY_PORT_DOWN (R422, R426). -/
def execEzleyPortDown (port : Nat) (s : State) : Out :=
  .next (if port ≥ 16 ∨ !(s.port port).up then s else s.portDown port)

/-- EZLEY_REPLAY: the flits from the first missing one on are sent again and counted; the 16th replay of a flit takes the
port down (R314, R412, R426). -/
def execEzleyReplay (port : Nat) (fromSeq : BitVec 16) (s : State) : Out :=
  .next (
    let x := s.port port
    let resent := x.window.dropWhile fun f => f.seq != fromSeq.toNat
    if port ≥ 16 ∨ !x.up ∨ resent.isEmpty then s
    else
      let s1 := s.updPort port fun x => { x with
        replay := satAdd 32 x.replay resent.length
        window := x.window.take (x.window.length - resent.length) ++ resent.map fun f => { f with tries := f.tries + 1 } }
      if resent.any fun f => decide (16 ≤ f.tries + 1) then s1.portDown port else s1)

/-- Bytes of a put merge at their homes, in order, up to the first whose translation fails; whether all did. -/
def State.putParts (s : State) (ctx base : Nat) : List (Nat × Byte) → State × Bool
  | [] => (s, true)
  | p :: ps =>
    match s.unitWrite farUnit ctx (base + p.1) [p.2] with
    | .ok t => t.putParts ctx base ps
    | .error _ => (s, false)

/-- A put of another device arrives at a window: checked by its handle and source, its bytes merge at their homes, and the
window's counter steps once (R224, R264, R364, R408). -/
def State.foreignPut (s : State) (h : DWord) (src : Nat) (parts : List (Nat × Byte)) : State :=
  let n := handleLow h % 4096
  match Tab.find s.dev.winIn n with
  | none => s
  | some w =>
    if !w.open_ ∨ w.src ≠ src ∨ w.gen ≠ handleGen h ∨ handleLow h / 4096 ≠ s.dev.id ∨ handleTag h ≠ s.tag .window n w.gen w.ctx ∨
      parts.any (fun p => decide (w.size ≤ p.1)) then s
    else
      let r := s.putParts w.ctx w.base parts
      if r.2 then (r.1.updDev fun d => { d with winIn := Tab.upd d.winIn n fun w => { w with tcnt := (w.tcnt + 1) % 2 ^ 64 } }).retest
      else r.1

end Sys2Proof.Machine
end

