-- ==== Sys2Proof/Machine/IntArith.lean ====
section
/-! DEFINITION. Integer and address instructions (R126 to R135). -/

namespace Sys2Proof.Machine

/-- MOV (R127). -/
def execMov (h : Hdr) (t : RType) (d a : Reg) (s : State) : Out :=
  issue s (need3 h t d [a]) fun i => i.lanesT 1 t d fun l => i.raw t a l

/-- The bits that MOVI writes (R128). -/
def moviBits (t : RType) (imm : BitVec 32) : Nat :=
  if t = .s64 then (imm.signExtend 64).toNat else imm.toNat

/-- MOVI (R128). -/
def execMovi (h : Hdr) (t : RType) (d : Reg) (imm : BitVec 32) (s : State) : Out :=
  issue s (need3 h t d []) fun i => i.lanesT 1 t d fun _ => moviBits t imm

/-- MOVIH: the high half of a pair, and nothing else (R129). -/
def execMovih (h : Hdr) (d : Reg) (imm : BitVec 32) (s : State) : Out :=
  issue s { h := h, srcs := [], dsts := [d.toNat + 1], names := [d.toNat] } fun i =>
    .done (i.t.putWords i.k 1 (i.each (d.toNat + 1) fun _ => imm))

/-- ADD (R130). -/
def execAdd (h : Hdr) (t : RType) (sat : Bool) (d a b : Reg) (s : State) : Out :=
  issue s (need3 h t d [a, b]) fun i => i.lanesI 1 t sat d fun l k => i.int t a l k + i.int t b l k

/-- ADDI (R130). -/
def execAddi (h : Hdr) (t : RType) (sat : Bool) (d a : Reg) (imm : BitVec 32) (s : State) : Out :=
  issue s (need3 h t d [a]) fun i => i.lanesI 1 t sat d fun l k => i.int t a l k + imm.toInt

/-- SUB (R130). -/
def execSub (h : Hdr) (t : RType) (sat : Bool) (d a b : Reg) (s : State) : Out :=
  issue s (need3 h t d [a, b]) fun i => i.lanesI 1 t sat d fun l k => i.int t a l k - i.int t b l k

/-- NEG (R130). -/
def execNeg (h : Hdr) (t : RType) (sat : Bool) (d a : Reg) (s : State) : Out :=
  issue s (need3 h t d [a]) fun i => i.lanesI 1 t sat d fun l k => -i.int t a l k

/-- ABS (R130). -/
def execAbs (h : Hdr) (t : RType) (sat : Bool) (d a : Reg) (s : State) : Out :=
  issue s (need3 h t d [a]) fun i => i.lanesI 1 t sat d fun l k => (i.int t a l k).natAbs

/-- MIN (R131). -/
def execMin (h : Hdr) (t : RType) (d a b : Reg) (s : State) : Out :=
  issue s (need3 h t d [a, b]) fun i => i.lanesI 1 t false d fun l k => min (i.int t a l k) (i.int t b l k)

/-- MAX (R131). -/
def execMax (h : Hdr) (t : RType) (d a b : Reg) (s : State) : Out :=
  issue s (need3 h t d [a, b]) fun i => i.lanesI 1 t false d fun l k => max (i.int t a l k) (i.int t b l k)

/-- CLAMP (R131). -/
def execClamp (h : Hdr) (t : RType) (d a b c : Reg) (s : State) : Out :=
  issue s (need3 h t d [a, b, c]) fun i =>
    i.lanesI 1 t false d fun l k => min (max (i.int t a l k) (i.int t b l k)) (i.int t c l k)

/-- MUL (R132). -/
def execMul (h : Hdr) (t : RType) (sat : Bool) (d a b : Reg) (s : State) : Out :=
  issue s (need3 h t d [a, b]) fun i => i.lanesI 2 t sat d fun l k => i.int t a l k * i.int t b l k

/-- MULH: the upper half of the whole product (R132). -/
def execMulh (h : Hdr) (t : RType) (d a b : Reg) (s : State) : Out :=
  issue s (need3 h t d [a, b]) fun i =>
    i.lanesI 2 t false d fun l k => (i.int t a l k * i.int t b l k) / 2 ^ RType.ew t

/-- MAD (R132). -/
def execMad (h : Hdr) (t : RType) (sat : Bool) (d a b c : Reg) (s : State) : Out :=
  issue s (need3 h t d [a, b, c]) fun i =>
    i.lanesI 2 t sat d fun l k => i.int t a l k * i.int t b l k + i.int t c l k

/-- The 64-bit type of MADW's pairs (R133). -/
def wideOf (t : RType) : RType := if t.isSigned then .s64 else .z64

/-- MADW (R133). -/
def execMadw (h : Hdr) (t : RType) (sat : Bool) (d a b c : Reg) (s : State) : Out :=
  issue s { h := h, srcs := [a.toNat, b.toNat] ++ pairOf c, dsts := pairOf d } fun i =>
    i.lanesI 2 (wideOf t) sat d fun l _ => i.int t a l 0 * i.int t b l 0 + i.int (wideOf t) c l 0

/-- The lanes of ACTIVE whose divisor is zero (R134). -/
def Iss.zeros (i : Iss) (t : RType) (b : Reg) : Mask := Mask.of fun l => i.act.getLsbD l && i.int t b l 0 == 0

/-- DIV (R134). -/
def execDiv (h : Hdr) (t : RType) (sat : Bool) (d a b : Reg) (s : State) : Out :=
  issue s (need3 h t d [a, b]) fun i =>
    if i.zeros t b ≠ 0 then i.raise .intDivideZero (some 0) (i.zeros t b)
    else i.lanesI 8 t sat d fun l k => (i.int t a l k).tdiv (i.int t b l k)

/-- REM (R134). -/
def execRem (h : Hdr) (t : RType) (d a b : Reg) (s : State) : Out :=
  issue s (need3 h t d [a, b]) fun i =>
    if i.zeros t b ≠ 0 then i.raise .intDivideZero (some 0) (i.zeros t b)
    else i.lanesI 8 t false d fun l k => (i.int t a l k).tmod (i.int t b l k)

/-- LEA (R135). -/
def execLea (h : Hdr) (t : RType) (d a b : Reg) (sh : BitVec 4) (s : State) : Out :=
  issue s { h := h, srcs := pairOf a ++ regsOf t b, dsts := pairOf d } fun i =>
    i.lanesI 1 .z64 false d fun l k => i.int .z64 a l k + i.int t b l 0 * 2 ^ sh.toNat

end Sys2Proof.Machine
end

