-- ==== Sys2Proof/Machine/Logic.lean ====
section
/-! DEFINITION. Logic and bit instructions (R126, R136 to R141). -/

namespace Sys2Proof.Machine

/-- AND (R136). -/
def execAnd (h : Hdr) (t : RType) (d a b : Reg) (s : State) : Out :=
  issue s (need3 h t d [a, b]) fun i => i.lanesT 1 t d fun l => i.raw t a l &&& i.raw t b l

/-- OR (R136). -/
def execOr (h : Hdr) (t : RType) (d a b : Reg) (s : State) : Out :=
  issue s (need3 h t d [a, b]) fun i => i.lanesT 1 t d fun l => i.raw t a l ||| i.raw t b l

/-- XOR (R136). -/
def execXor (h : Hdr) (t : RType) (d a b : Reg) (s : State) : Out :=
  issue s (need3 h t d [a, b]) fun i => i.lanesT 1 t d fun l => i.raw t a l ^^^ i.raw t b l

/-- NOT (R136). -/
def execNot (h : Hdr) (t : RType) (d a : Reg) (s : State) : Out :=
  issue s (need3 h t d [a]) fun i => i.lanesT 1 t d fun l => 2 ^ RType.ew t - 1 - i.raw t a l

/-- The function of three bits that a code gives (R137). -/
def bool3Bit (fn : BitVec 8) (a b c : Bool) : Bool := fn.getLsbD (a.toNat + 2 * b.toNat + 4 * c.toNat)

/-- The three-input function of words of `w` bits (R137). -/
def bool3 (w : Nat) (fn : BitVec 8) (a b c : Nat) : Nat :=
  (List.range w).foldl (fun n j => if bool3Bit fn (a.testBit j) (b.testBit j) (c.testBit j) then n + 2 ^ j else n) 0

/-- BOOL3 (R137). -/
def execBool3 (h : Hdr) (t : RType) (d a b c : Reg) (fn : BitVec 8) (s : State) : Out :=
  issue s (need3 h t d [a, b, c]) fun i =>
    i.lanesT 1 t d fun l => bool3 (RType.ew t) fn (i.raw t a l) (i.raw t b l) (i.raw t c l)

/-- The registers of a shift amount (R138). -/
def shRegs : ShAmt → List Nat
  | .reg r => [r.toNat]
  | .imm _ => []

/-- A lane's shift amount (R138). -/
def Iss.shiftAmount (i : Iss) (n : ShAmt) (l : Nat) : Nat :=
  match n with
  | .reg r => (i.rd r.toNat l).toNat
  | .imm v => v.toNat

/-- What a shift needs. -/
def needSh (h : Hdr) (t : RType) (d a : Reg) (n : ShAmt) : Need :=
  { h := h, srcs := regsOf t a ++ shRegs n, dsts := regsOf t d }

/-- A left shift of `w` bits (R138). -/
def shlBits (w a n : Nat) : Nat := if n < w then a * 2 ^ n % 2 ^ w else 0

/-- An arithmetic right shift of `w` bits (R138). -/
def sarBits (w a n : Nat) : Nat := bitsOfInt w (intOfBits w true a / 2 ^ (min n w))

/-- A left rotation of `w` bits (R138). -/
def rotBits (w a n : Nat) : Nat := (a * 2 ^ (n % w)) % 2 ^ w + a / 2 ^ (w - n % w)

/-- SHL (R138). -/
def execShl (h : Hdr) (t : RType) (d a : Reg) (n : ShAmt) (s : State) : Out :=
  issue s (needSh h t d a n) fun i => i.lanesT 1 t d fun l => shlBits (RType.ew t) (i.raw t a l) (i.shiftAmount n l)

/-- SHR (R138). -/
def execShr (h : Hdr) (t : RType) (d a : Reg) (n : ShAmt) (s : State) : Out :=
  issue s (needSh h t d a n) fun i =>
    i.lanesT 1 t d fun l => if i.shiftAmount n l < RType.ew t then i.raw t a l / 2 ^ i.shiftAmount n l else 0

/-- SAR (R138). -/
def execSar (h : Hdr) (t : RType) (d a : Reg) (n : ShAmt) (s : State) : Out :=
  issue s (needSh h t d a n) fun i => i.lanesT 1 t d fun l => sarBits (RType.ew t) (i.raw t a l) (i.shiftAmount n l)

/-- ROT (R138). -/
def execRot (h : Hdr) (t : RType) (d a : Reg) (n : ShAmt) (s : State) : Out :=
  issue s (needSh h t d a n) fun i => i.lanesT 2 t d fun l => rotBits (RType.ew t) (i.raw t a l) (i.shiftAmount n l)

/-- FUNSH (R139). -/
def execFunsh (h : Hdr) (d a b c : Reg) (s : State) : Out :=
  issue s (need3 h .z32 d [a, b, c]) fun i =>
    i.lanesT 2 .z32 d fun l => (i.raw .z32 a l * 2 ^ 32 + i.raw .z32 b l) / 2 ^ (i.raw .z32 c l % 64) % 2 ^ 32

/-- The number of one bits. -/
def popcount (w v : Nat) : Nat := ((List.range w).filter fun j => v.testBit j).length

/-- Zero bits above the highest one bit; `w` for zero (R140). -/
def clz (w v : Nat) : Nat := if v = 0 then w else w - 1 - Nat.log2 v

/-- Zero bits below the lowest one bit; `w` for zero (R140). -/
def ctz (w v : Nat) : Nat := ((List.range w).find? fun j => v.testBit j).getD w

/-- What a bit count needs: its destination is one register (R121). -/
def needCount (h : Hdr) (t : RType) (d a : Reg) : Need := { h := h, srcs := regsOf t a, dsts := [d.toNat] }

/-- POPC (R140). -/
def execPopc (h : Hdr) (t : RType) (d a : Reg) (s : State) : Out :=
  issue s (needCount h t d a) fun i => i.lanesW 2 d fun l => BitVec.ofNat 32 (popcount (RType.ew t) (i.raw t a l))

/-- CLZ (R140). -/
def execClz (h : Hdr) (t : RType) (d a : Reg) (s : State) : Out :=
  issue s (needCount h t d a) fun i => i.lanesW 2 d fun l => BitVec.ofNat 32 (clz (RType.ew t) (i.raw t a l))

/-- CTZ (R140). -/
def execCtz (h : Hdr) (t : RType) (d a : Reg) (s : State) : Out :=
  issue s (needCount h t d a) fun i => i.lanesW 2 d fun l => BitVec.ofNat 32 (ctz (RType.ew t) (i.raw t a l))

/-- The registers of a field spec (R141). -/
def specRegs : FieldSpec → List Nat
  | .reg r => [r.toNat]
  | .imm _ => []

/-- A lane's field spec: position and length (R141). -/
def Iss.field (i : Iss) (sp : FieldSpec) (l : Nat) : Nat × Nat :=
  let v := match sp with
    | .reg r => (i.rd r.toNat l).toNat
    | .imm v => v.toNat
  (v % 256, v / 256 % 256)

/-- The field that BFX reads, as bits of the type (R141). -/
def bfxBits (t : RType) (a pos len : Nat) : Nat :=
  let w := RType.ew t
  let n := min len w
  let f := a / 2 ^ pos % 2 ^ n
  if n = 0 then 0 else if t.isSigned then bitsOfInt w (intOfBits n true f) else f

/-- The word that BFI makes (R141). -/
def bfiBits (w a b pos len : Nat) : Nat :=
  let n := min (min len w) (w - pos)
  if pos ≥ w then a
  else a % 2 ^ pos + b % 2 ^ n * 2 ^ pos + a / 2 ^ (pos + n) * 2 ^ (pos + n)

/-- BFX (R141). -/
def execBfx (h : Hdr) (t : RType) (d a : Reg) (sp : FieldSpec) (s : State) : Out :=
  issue s { h := h, srcs := regsOf t a ++ specRegs sp, dsts := regsOf t d } fun i =>
    i.lanesT 2 t d fun l => bfxBits t (i.raw t a l) (i.field sp l).1 (i.field sp l).2

/-- BFI (R141). -/
def execBfi (h : Hdr) (t : RType) (d a b : Reg) (sp : FieldSpec) (s : State) : Out :=
  issue s { h := h, srcs := regsOf t a ++ regsOf t b ++ specRegs sp, dsts := regsOf t d } fun i =>
    i.lanesT 2 t d fun l => bfiBits (RType.ew t) (i.raw t a l) (i.raw t b l) (i.field sp l).1 (i.field sp l).2

end Sys2Proof.Machine
end

