-- ==== Sys2Proof/Machine/Dispatch.lean ====
section
/-! DEFINITION. Which meaning each instruction and each step of a unit has: one arm for each constructor. -/

namespace Sys2Proof.Machine

open Sys2Proof

/-- The meaning of an instruction, or of a step of a unit, at a state. -/
def exec (i : Instr) (s : State) : Host.Outcome State Fault Refusal :=
  match i with
  | .nop h => Sys2Proof.Machine.execNop h s
  | .br h t => Sys2Proof.Machine.execBr h t s
  | .jmp h t => Sys2Proof.Machine.execJmp h t s
  | .call h d t => Sys2Proof.Machine.execCall h d t s
  | .calli h d a => Sys2Proof.Machine.execCalli h d a s
  | .ret h a => Sys2Proof.Machine.execRet h a s
  | .exit h => Sys2Proof.Machine.execExit h s
  | .yield h => Sys2Proof.Machine.execYield h s
  | .nap h count => Sys2Proof.Machine.execNap h count s
  | .mov h t d a => Sys2Proof.Machine.execMov h t d a s
  | .movi h t d imm => Sys2Proof.Machine.execMovi h t d imm s
  | .movih h d imm => Sys2Proof.Machine.execMovih h d imm s
  | .add h t sat d a b => Sys2Proof.Machine.execAdd h t sat d a b s
  | .addi h t sat d a imm => Sys2Proof.Machine.execAddi h t sat d a imm s
  | .sub h t sat d a b => Sys2Proof.Machine.execSub h t sat d a b s
  | .mul h t sat d a b => Sys2Proof.Machine.execMul h t sat d a b s
  | .mulh h t d a b => Sys2Proof.Machine.execMulh h t d a b s
  | .mad h t sat d a b c => Sys2Proof.Machine.execMad h t sat d a b c s
  | .madw h t sat d a b c => Sys2Proof.Machine.execMadw h t sat d a b c s
  | .div h t sat d a b => Sys2Proof.Machine.execDiv h t sat d a b s
  | .rem h t d a b => Sys2Proof.Machine.execRem h t d a b s
  | .neg h t sat d a => Sys2Proof.Machine.execNeg h t sat d a s
  | .abs h t sat d a => Sys2Proof.Machine.execAbs h t sat d a s
  | .min h t d a b => Sys2Proof.Machine.execMin h t d a b s
  | .max h t d a b => Sys2Proof.Machine.execMax h t d a b s
  | .clamp h t d a b c => Sys2Proof.Machine.execClamp h t d a b c s
  | .lea h t d a b sh => Sys2Proof.Machine.execLea h t d a b sh s
  | .and h t d a b => Sys2Proof.Machine.execAnd h t d a b s
  | .or h t d a b => Sys2Proof.Machine.execOr h t d a b s
  | .xor h t d a b => Sys2Proof.Machine.execXor h t d a b s
  | .not h t d a => Sys2Proof.Machine.execNot h t d a s
  | .bool3 h t d a b c fn => Sys2Proof.Machine.execBool3 h t d a b c fn s
  | .shl h t d a n => Sys2Proof.Machine.execShl h t d a n s
  | .shr h t d a n => Sys2Proof.Machine.execShr h t d a n s
  | .sar h t d a n => Sys2Proof.Machine.execSar h t d a n s
  | .rot h t d a n => Sys2Proof.Machine.execRot h t d a n s
  | .funsh h d a b c => Sys2Proof.Machine.execFunsh h d a b c s
  | .popc h t d a => Sys2Proof.Machine.execPopc h t d a s
  | .clz h t d a => Sys2Proof.Machine.execClz h t d a s
  | .ctz h t d a => Sys2Proof.Machine.execCtz h t d a s
  | .bfx h t d a sp => Sys2Proof.Machine.execBfx h t d a sp s
  | .bfi h t d a b sp => Sys2Proof.Machine.execBfi h t d a b sp s
  | .cmp h cc t d a b => Sys2Proof.Machine.execCmp h cc t d a b s
  | .cmpi h cc t d a imm => Sys2Proof.Machine.execCmpi h cc t d a imm s
  | .sel h t d a b c => Sys2Proof.Machine.execSel h t d a b c s
  | .ballot h d a => Sys2Proof.Machine.execBallot h d a s
  | .vany h d a => Sys2Proof.Machine.execVany h d a s
  | .vall h d a => Sys2Proof.Machine.execVall h d a s
  | .veq h t d a => Sys2Proof.Machine.execVeq h t d a s
  | .active h d => Sys2Proof.Machine.execActive h d s
  | .activePath h d => Sys2Proof.Machine.execActivePath h d s
  | .activeLive h d => Sys2Proof.Machine.execActiveLive h d s
  | .fadd h t m sat d a b => Sys2Proof.Machine.execFadd h t m sat d a b s
  | .fsub h t m sat d a b => Sys2Proof.Machine.execFsub h t m sat d a b s
  | .fmul h t m sat d a b => Sys2Proof.Machine.execFmul h t m sat d a b s
  | .ffma h t m sat d a b c => Sys2Proof.Machine.execFfma h t m sat d a b c s
  | .fdiv h t m sat d a b => Sys2Proof.Machine.execFdiv h t m sat d a b s
  | .fsqrt h t m d a => Sys2Proof.Machine.execFsqrt h t m d a s
  | .fmin h t d a b => Sys2Proof.Machine.execFmin h t d a b s
  | .fmax h t d a b => Sys2Proof.Machine.execFmax h t d a b s
  | .fneg h t d a => Sys2Proof.Machine.execFneg h t d a s
  | .fabs h t d a => Sys2Proof.Machine.execFabs h t d a s
  | .frcp h t m sat d a => Sys2Proof.Machine.execFrcp h t m sat d a s
  | .frsq h t m sat d a => Sys2Proof.Machine.execFrsq h t m sat d a s
  | .fexp2 h t m sat d a => Sys2Proof.Machine.execFexp2 h t m sat d a s
  | .flog2 h t m sat d a => Sys2Proof.Machine.execFlog2 h t m sat d a s
  | .fsin h t m sat d a => Sys2Proof.Machine.execFsin h t m sat d a s
  | .fcos h t m sat d a => Sys2Proof.Machine.execFcos h t m sat d a s
  | .ftanh h t m sat d a => Sys2Proof.Machine.execFtanh h t m sat d a s
  | .frnd h t m d a => Sys2Proof.Machine.execFrnd h t m d a s
  | .frndExact h t m d a => Sys2Proof.Machine.execFrndExact h t m d a s
  | .fscale h t m sat d a b => Sys2Proof.Machine.execFscale h t m sat d a b s
  | .fclass h t d a => Sys2Proof.Machine.execFclass h t d a s
  | .dot2 h t m sat d a b c => Sys2Proof.Machine.execDot2 h t m sat d a b c s
  | .cvt h td ts m sat d a => Sys2Proof.Machine.execCvt h td ts m sat d a s
  | .pack h f m sat d a => Sys2Proof.Machine.execPack h f m sat d a s
  | .unpack h f d a => Sys2Proof.Machine.execUnpack h f d a s
  | .dxpack h f m d a => Sys2Proof.Machine.execDxpack h f m d a s
  | .mxpack h f m d a => Sys2Proof.Machine.execMxpack h f m d a s
  | .dxunpk h f d a => Sys2Proof.Machine.execDxunpk h f d a s
  | .mxunpk h f d a => Sys2Proof.Machine.execMxunpk h f d a s
  | .flagsClr h mask => Sys2Proof.Machine.execFlagsClr h mask s
  | .flagsSet h mask => Sys2Proof.Machine.execFlagsSet h mask s
  | .flagsRm h mode => Sys2Proof.Machine.execFlagsRm h mode s
  | .flagsTake h d mask => Sys2Proof.Machine.execFlagsTake h d mask s
  | .shfl h t d a b fill => Sys2Proof.Machine.execShfl h t d a b fill s
  | .shflx h t d a mask => Sys2Proof.Machine.execShflx h t d a mask s
  | .shflup h t d a n fill => Sys2Proof.Machine.execShflup h t d a n fill s
  | .shfldn h t d a n fill => Sys2Proof.Machine.execShfldn h t d a n fill s
  | .bcast h t d a src => Sys2Proof.Machine.execBcast h t d a src s
  | .wred h op t m sat d a => Sys2Proof.Machine.execWred h op t m sat d a s
  | .wscan h op t m sat d a => Sys2Proof.Machine.execWscan h op t m sat d a s
  | .ld h t m sat d ma idx fresh => Sys2Proof.Machine.execLd h t m sat d ma idx fresh s
  | .st h t m sat d ma idx => Sys2Proof.Machine.execSt h t m sat d ma idx s
  | .ldb h code t m sat d ma => Sys2Proof.Machine.execLdb h code t m sat d ma s
  | .stb h m d ma scale => Sys2Proof.Machine.execStb h m d ma scale s
  | .zero h ma => Sys2Proof.Machine.execZero h ma s
  | .atom h op t d ma b => Sys2Proof.Machine.execAtom h op t d ma b s
  | .atomn h op t ma b => Sys2Proof.Machine.execAtomn h op t ma b s
  | .cas h t d ma b => Sys2Proof.Machine.execCas h t d ma b s
  | .lr h t d ma => Sys2Proof.Machine.execLr h t d ma s
  | .sc h t d ma b => Sys2Proof.Machine.execSc h t d ma b s
  | .phasePub h => Sys2Proof.Machine.execPhasePub h s
  | .phaseAdopt h => Sys2Proof.Machine.execPhaseAdopt h s
  | .phaseBoth h => Sys2Proof.Machine.execPhaseBoth h s
  | .fence h => Sys2Proof.Machine.execFence h s
  | .pref h ma => Sys2Proof.Machine.execPref h ma s
  | .prefL2 h ma => Sys2Proof.Machine.execPrefL2 h ma s
  | .flush h ma => Sys2Proof.Machine.execFlush h ma s
  | .sways h d a => Sys2Proof.Machine.execSways h d a s
  | .cpy h d a x => Sys2Proof.Machine.execCpy h d a x s
  | .cpym h d a b sig x => Sys2Proof.Machine.execCpym h d a b sig x s
  | .cpyxGather h d a b x => Sys2Proof.Machine.execCpyxGather h d a b x s
  | .cpyxScatter h d a b x => Sys2Proof.Machine.execCpyxScatter h d a b x s
  | .cpys h d a c dec x => Sys2Proof.Machine.execCpys h d a c dec x s
  | .cpyw h d a c x => Sys2Proof.Machine.execCpyw h d a c x s
  | .cpyqTok h d a => Sys2Proof.Machine.execCpyqTok h d a s
  | .cpyqSlots h d r => Sys2Proof.Machine.execCpyqSlots h d r s
  | .cpyqFree h r => Sys2Proof.Machine.execCpyqFree h r s
  | .cpyc h a => Sys2Proof.Machine.execCpyc h a s
  | .cpycAll h => Sys2Proof.Machine.execCpycAll h s
  | .shadow h d a => Sys2Proof.Machine.execShadow h d a s
  | .shadowDrop h d a => Sys2Proof.Machine.execShadowDrop h d a s
  | .publish h d a sig => Sys2Proof.Machine.execPublish h d a sig s
  | .publishKeep h d a sig => Sys2Proof.Machine.execPublishKeep h d a sig s
  | .sdpark h d a b p64 f elide sig => Sys2Proof.Machine.execSdpark h d a b p64 f elide sig s
  | .sdcall h d a b c p64 => Sys2Proof.Machine.execSdcall h d a b c p64 s
  | .sddrop h d a b p64 => Sys2Proof.Machine.execSddrop h d a b p64 s
  | .sdstat h d a => Sys2Proof.Machine.execSdstat h d a s
  | .tcfg h a => Sys2Proof.Machine.execTcfg h a s
  | .tzero h d tile => Sys2Proof.Machine.execTzero h d tile s
  | .tloadc h k m d a tile => Sys2Proof.Machine.execTloadc h k m d a tile s
  | .mmt h d a b x => Sys2Proof.Machine.execMmt h d a b x s
  | .tdrain h m sat d a x => Sys2Proof.Machine.execTdrain h m sat d a x s
  | .tchk h d tile => Sys2Proof.Machine.execTchk h d tile s
  | .tstat h d tile => Sys2Proof.Machine.execTstat h d tile s
  | .tstatClr h d tile => Sys2Proof.Machine.execTstatClr h d tile s
  | .qcfg h q base dm1 => Sys2Proof.Machine.execQcfg h q base dm1 s
  | .qcfgRel h q => Sys2Proof.Machine.execQcfgRel h q s
  | .qsend h d a b => Sys2Proof.Machine.execQsend h d a b s
  | .qsendIdx h d a b c => Sys2Proof.Machine.execQsendIdx h d a b c s
  | .qsendYoke h d b => Sys2Proof.Machine.execQsendYoke h d b s
  | .qpop h d q => Sys2Proof.Machine.execQpop h d q s
  | .qpopTry h d p q => Sys2Proof.Machine.execQpopTry h d p q s
  | .rsend h wide d a b off => Sys2Proof.Machine.execRsend h wide d a b off s
  | .rsendIdx h wide d a b c off => Sys2Proof.Machine.execRsendIdx h wide d a b c off s
  | .expect h d nm1 => Sys2Proof.Machine.execExpect h d nm1 s
  | .grantReg h d a first cm1 send idx pol scope => Sys2Proof.Machine.execGrantReg h d a first cm1 send idx pol scope s
  | .grantQ h d a slot pol scope => Sys2Proof.Machine.execGrantQ h d a slot pol scope s
  | .revoke h d a => Sys2Proof.Machine.execRevoke h d a s
  | .revokeAll h d => Sys2Proof.Machine.execRevokeAll h d s
  | .spawn h d a => Sys2Proof.Machine.execSpawn h d a s
  | .launch h d a lq => Sys2Proof.Machine.execLaunch h d a lq s
  | .heapput h d a b inst => Sys2Proof.Machine.execHeapput h d a b inst s
  | .heapputOpen h d inst => Sys2Proof.Machine.execHeapputOpen h d inst s
  | .heapputClose h d inst => Sys2Proof.Machine.execHeapputClose h d inst s
  | .heapget h d a inst => Sys2Proof.Machine.execHeapget h d a inst s
  | .ensure h t mask lim => Sys2Proof.Machine.execEnsure h t mask lim s
  | .elseby h t lim => Sys2Proof.Machine.execElseby h t lim s
  | .elseerr h => Sys2Proof.Machine.execElseerr h s
  | .elseerrGo h t => Sys2Proof.Machine.execElseerrGo h t s
  | .accept h => Sys2Proof.Machine.execAccept h s
  | .acceptIf h a => Sys2Proof.Machine.execAcceptIf h a s
  | .reject h code => Sys2Proof.Machine.execReject h code s
  | .abandon h code => Sys2Proof.Machine.execAbandon h code s
  | .sitjoin h d a b => Sys2Proof.Machine.execSitjoin h d a b s
  | .sitleave h d => Sys2Proof.Machine.execSitleave h d s
  | .cinit h d a => Sys2Proof.Machine.execCinit h d a s
  | .cinitCont h d a lq => Sys2Proof.Machine.execCinitCont h d a lq s
  | .cinc h d a n => Sys2Proof.Machine.execCinc h d a n s
  | .cdec h d a n => Sys2Proof.Machine.execCdec h d a n s
  | .crd h d a => Sys2Proof.Machine.execCrd h d a s
  | .crdF h d a => Sys2Proof.Machine.execCrdF h d a s
  | .cwaitLe h a b => Sys2Proof.Machine.execCwaitLe h a b s
  | .cwaitGe h a b => Sys2Proof.Machine.execCwaitGe h a b s
  | .cwaitWt h a b => Sys2Proof.Machine.execCwaitWt h a b s
  | .cwaitWs h a b => Sys2Proof.Machine.execCwaitWs h a b s
  | .bar h => Sys2Proof.Machine.execBar h s
  | .barG h slot => Sys2Proof.Machine.execBarG h slot s
  | .bara h d slot => Sys2Proof.Machine.execBara h d slot s
  | .barw h a slot => Sys2Proof.Machine.execBarw h a slot s
  | .winrdT h d a => Sys2Proof.Machine.execWinrdT h d a s
  | .winrdS h d a => Sys2Proof.Machine.execWinrdS h d a s
  | .srd h wide d num => Sys2Proof.Machine.execSrd h wide d num s
  | .swr h wide num a => Sys2Proof.Machine.execSwr h wide num a s
  | .frame h slot a => Sys2Proof.Machine.execFrame h slot a s
  | .bkpt h code => Sys2Proof.Machine.execBkpt h code s
  | .trap h code => Sys2Proof.Machine.execTrap h code s
  | .rett h => Sys2Proof.Machine.execRett h s
  | .tlbinvVa h d a ctx => Sys2Proof.Machine.execTlbinvVa h d a ctx s
  | .tlbinvCtx h d a => Sys2Proof.Machine.execTlbinvCtx h d a s
  | .tlbinvAll h d => Sys2Proof.Machine.execTlbinvAll h d s
  | .tlbinvFdt h d a => Sys2Proof.Machine.execTlbinvFdt h d a s
  | .lease h d a five => Sys2Proof.Machine.execLease h d a five s
  | .leaseRel h d => Sys2Proof.Machine.execLeaseRel h d s
  | .ill content => Sys2Proof.Machine.execIll content s
  | .takeOwedFault wave => Sys2Proof.Machine.execTakeOwedFault wave s
  | .variableResultReturn id => Sys2Proof.Machine.execVariableResultReturn id s
  | .publishLineMerge id => Sys2Proof.Machine.execPublishLineMerge id s
  | .bridgePublishAccept core die => Sys2Proof.Machine.execBridgePublishAccept core die s
  | .remoteArrival id => Sys2Proof.Machine.execRemoteArrival id s
  | .arrivalOutcome id => Sys2Proof.Machine.execArrivalOutcome id s
  | .yokePushLand id => Sys2Proof.Machine.execYokePushLand id s
  | .copyQueueStart id => Sys2Proof.Machine.execCopyQueueStart id s
  | .copyPacket id slice row packet => Sys2Proof.Machine.execCopyPacket id slice row packet s
  | .copyComplete id => Sys2Proof.Machine.execCopyComplete id s
  | .windowPutMerge id => Sys2Proof.Machine.execWindowPutMerge id s
  | .windowPutAck id => Sys2Proof.Machine.execWindowPutAck id s
  | .shadowPublishSwap id => Sys2Proof.Machine.execShadowPublishSwap id s
  | .mmtStep id => Sys2Proof.Machine.execMmtStep id s
  | .tdrainRow id => Sys2Proof.Machine.execTdrainRow id s
  | .tileOpComplete id => Sys2Proof.Machine.execTileOpComplete id s
  | .sdPageParked id => Sys2Proof.Machine.execSdPageParked id s
  | .sdPageRecalled id page => Sys2Proof.Machine.execSdPageRecalled id page s
  | .sdPageDropped id page => Sys2Proof.Machine.execSdPageDropped id page s
  | .nvmeCompletion id status => Sys2Proof.Machine.execNvmeCompletion id status s
  | .nvmeTimeout id => Sys2Proof.Machine.execNvmeTimeout id s
  | .heapgetServe inst entry => Sys2Proof.Machine.execHeapgetServe inst entry s
  | .heldContinuationAppend ctx q => Sys2Proof.Machine.execHeldContinuationAppend ctx q s
  | .barrierComplete b => Sys2Proof.Machine.execBarrierComplete b s
  | .openingBarrierComplete blk => Sys2Proof.Machine.execOpeningBarrierComplete blk s
  | .acceptBarrierComplete blk => Sys2Proof.Machine.execAcceptBarrierComplete blk s
  | .rollback blk => Sys2Proof.Machine.execRollback blk s
  | .recoveryLimitExpiry blk depth => Sys2Proof.Machine.execRecoveryLimitExpiry blk depth s
  | .fairnessSweep wave => Sys2Proof.Machine.execFairnessSweep wave s
  | .pendingAgeExchange core => Sys2Proof.Machine.execPendingAgeExchange core s
  | .napExpiry wave => Sys2Proof.Machine.execNapExpiry wave s
  | .swaysTimeout core => Sys2Proof.Machine.execSwaysTimeout core s
  | .swaysComplete core => Sys2Proof.Machine.execSwaysComplete core s
  | .launchAdmit ctx q => Sys2Proof.Machine.execLaunchAdmit ctx q s
  | .blockPlace offer => Sys2Proof.Machine.execBlockPlace offer s
  | .priorityAgeTick offer => Sys2Proof.Machine.execPriorityAgeTick offer s
  | .starvationRelief offer => Sys2Proof.Machine.execStarvationRelief offer s
  | .staggeredStart blk => Sys2Proof.Machine.execStaggeredStart blk s
  | .matrixEngineRamp core => Sys2Proof.Machine.execMatrixEngineRamp core s
  | .poolMove cluster cls => Sys2Proof.Machine.execPoolMove cluster cls s
  | .poolMoveComplete cluster => Sys2Proof.Machine.execPoolMoveComplete cluster s
  | .preempt offer => Sys2Proof.Machine.execPreempt offer s
  | .restore blk => Sys2Proof.Machine.execRestore blk s
  | .migration blk core => Sys2Proof.Machine.execMigration blk core s
  | .migrationDrain blk => Sys2Proof.Machine.execMigrationDrain blk s
  | .blockRetire blk => Sys2Proof.Machine.execBlockRetire blk s
  | .completionQueueRetry ctx cq => Sys2Proof.Machine.execCompletionQueueRetry ctx cq s
  | .cqIrqTimeout ctx cq => Sys2Proof.Machine.execCqIrqTimeout ctx cq s
  | .vaultSensorRead vault temp => Sys2Proof.Machine.execVaultSensorRead vault temp s
  | .chargingIntervalClose vault => Sys2Proof.Machine.execChargingIntervalClose vault s
  | .leaseExpiry launch => Sys2Proof.Machine.execLeaseExpiry launch s
  | .powerThrottleTick pkgest => Sys2Proof.Machine.execPowerThrottleTick pkgest s
  | .junctionTrip temp => Sys2Proof.Machine.execJunctionTrip temp s
  | .hostApertureAccess fn off write len => Sys2Proof.Machine.execHostApertureAccess fn off write len s
  | .lqTailWrite ctx q v => Sys2Proof.Machine.execLqTailWrite ctx q v s
  | .lqCtlWrite ctx q v => Sys2Proof.Machine.execLqCtlWrite ctx q v s
  | .cqHeadWrite ctx cq v => Sys2Proof.Machine.execCqHeadWrite ctx cq v s
  | .cqCtlWrite ctx cq v => Sys2Proof.Machine.execCqCtlWrite ctx cq v s
  | .eheadWrite ctx v => Sys2Proof.Machine.execEheadWrite ctx v s
  | .pkglimWrite v => Sys2Proof.Machine.execPkglimWrite v s
  | .opclassTableWrite entry v => Sys2Proof.Machine.execOpclassTableWrite entry v s
  | .accountingCounterWrite off v => Sys2Proof.Machine.execAccountingCounterWrite off v s
  | .foldDriveNqpWrite drive v answers => Sys2Proof.Machine.execFoldDriveNqpWrite drive v answers s
  | .registerWrite fn off v => Sys2Proof.Machine.execRegisterWrite fn off v s
  | .killContext ctx => Sys2Proof.Machine.execKillContext ctx s
  | .resetContext ctx => Sys2Proof.Machine.execResetContext ctx s
  | .migrateBlock waveH core => Sys2Proof.Machine.execMigrateBlock waveH core s
  | .resetHeapInstance handle => Sys2Proof.Machine.execResetHeapInstance handle s
  | .createFoldSlot drive ctx nsid slba nlba => Sys2Proof.Machine.execCreateFoldSlot drive ctx nsid slba nlba s
  | .releaseFoldSlot index => Sys2Proof.Machine.execReleaseFoldSlot index s
  | .openWindow ctx srcdev base size => Sys2Proof.Machine.execOpenWindow ctx srcdev base size s
  | .closeWindow index => Sys2Proof.Machine.execCloseWindow index s
  | .foldAdminPassThrough drive cmd buf len => Sys2Proof.Machine.execFoldAdminPassThrough drive cmd buf len s
  | .attest nonce dst => Sys2Proof.Machine.execAttest nonce dst s
  | .raiseFirmwareSecurityVersion => Sys2Proof.Machine.execRaiseFirmwareSecurityVersion s
  | .enterOutboundWindowHandle handle ctx => Sys2Proof.Machine.execEnterOutboundWindowHandle handle ctx s
  | .deviceReset => Sys2Proof.Machine.execDeviceReset s
  | .functionLevelReset fn => Sys2Proof.Machine.execFunctionLevelReset fn s
  | .ezleyFlitReceive port seq good => Sys2Proof.Machine.execEzleyFlitReceive port seq good s
  | .ezleyAck port upTo units => Sys2Proof.Machine.execEzleyAck port upTo units s
  | .ezleyReplay port fromSeq => Sys2Proof.Machine.execEzleyReplay port fromSeq s
  | .ezleyAudit port returned => Sys2Proof.Machine.execEzleyAudit port returned s
  | .ezleyPortDown port => Sys2Proof.Machine.execEzleyPortDown port s
  | .ezleyPortUp port => Sys2Proof.Machine.execEzleyPortUp port s
  | .ezleyGroupWake port k => Sys2Proof.Machine.execEzleyGroupWake port k s
  | .ezleyGroupDark port k => Sys2Proof.Machine.execEzleyGroupDark port k s
  | .ezleyGroupLit port k => Sys2Proof.Machine.execEzleyGroupLit port k s
  | .junctionHoldRelease temp => Sys2Proof.Machine.execJunctionHoldRelease temp s
  | .firmwareStagingUpdate => Sys2Proof.Machine.execFirmwareStagingUpdate s

end Sys2Proof.Machine
end

