-- ==== Sys2Proof/Machine/Cycle.lean ====
section
/-! DEFINITION. What a turn does: a cycle of a core in which a wave issues, from the choice of the wave to its instruction;
clocks; errors that strike; steps of units and of the outside; and the turn of a device that is left alone (R25 to R27,
R63 to R66, R75, R84, R92, R188, R324 to R329, R376, R383, R410, R412; log 5). -/

namespace Sys2Proof.Machine

/-! ### One path -/

/-- The outcome with no instruction being executed. -/
def settled : Out → Out
  | .next t => .next { t with cur := none }
  | o => o

/-- The line from which a path issues: the core's copy where the path has passed its checks, else fetched and checked
(R64). -/
def State.lineFor (s : State) (k : Nat) (c : Ctr) (path : Mask) : Except FaultInfo (BitVec 512) × State :=
  let w := s.wave k
  let core := s.coreOf k
  let va := lineOfPc c
  let kept := if path &&& ~~~w.lineOk = 0 then Tab.find (s.core core).icache (codeKey w.ctx va) else none
  match kept with
  | some line => (.ok line, s)
  | none => match s.fetchLine core w.ctx (s.block w.block).launch va with
    | (.error e, t) => (.error (faultAt e (some (BitVec.ofNat 64 va)) path), t)
    | (.ok line, t) => (.ok line, t.updWave k fun w => { w with lineOk := w.lineOk ||| path })

/-- The instruction of a slot for a path: bits that are no instruction raise ILLEGAL_INSTRUCTION (R83, R84). -/
def State.runSlot (s : State) (k : Nat) (c : Ctr) (path : Mask) (slot : BitVec 96) : Out :=
  let s1 := { s with cur := some ⟨k, path, c⟩ }
  settled (match decodeWord slot with
    | .ok i => exec i s1
    | .error _ => illegal s1)

/-- A PATH ISSUES, or waits: its line, the target check of an entry, its instruction (R64, R66, R84). A state whose count
of free values is unchanged says that it did not issue. -/
def State.attempt (s : State) (k : Nat) (c : Ctr) (path : Mask) : Out :=
  match s.lineFor k c path with
  | (.error f, t) => .next (t.fault k c f)
  | (.ok line, t) =>
    let first := path &&& (t.wave k).entering
    if first ≠ 0 ∧ !tgtBit line (slotOfPc c) then
      .next (t.fault k c (faultAt .branchTarget (some (c.setWidth 64)) first))
    else (t.linksReturn k path).runSlot k c path (slotBits line (slotOfPc c))

/-! ### Which paths and waves are ready -/

/-- A path that would not issue now is stalled; a wait that it meets begins (R25, R327). -/
def State.probePath (k : Nat) (s : State) (c : Ctr) : State :=
  match s.attempt k c ((s.wave k).pathAt c) with
  | .next t => if t.free = s.free then t.updWave k fun w => { w with stalled := w.stalled ||| w.pathAt c } else s
  | _ => s

/-- The paths of a wave that would not issue now. -/
def State.probeWave (s : State) (k : Nat) : State :=
  let s1 := s.updWave k fun w => { w with stalled := 0 }
  (s1.readyPaths k).foldl (State.probePath k) s1

/-- The waves of a core. -/
def State.probe (s : State) (core : Nat) : State := (s.wavesOn core).foldl State.probeWave s

/-- The first active wave that is not ready gives way to the oldest ready wave of the pending set (R27). -/
def State.exchange1 (s : State) (core : Nat) : State :=
  match (s.core core).active.find? fun k => !s.waveReady k with
  | some k => s.giveWay core k
  | none => s

/-- The selector's exchanges for stalls (R27). -/
def State.exchange (s : State) (core : Nat) : State := (List.range 8).foldl (fun s _ => s.exchange1 core) s

/-- The wave of a list that issued least recently (R326). -/
def State.leastRecent (s : State) (ks : List Nat) : Option Nat :=
  ks.foldl (fun best k => match best with
    | none => some k
    | some j => if (s.wave k).turn < (s.wave j).turn then some k else some j) none

/-- The wave that a core's selector picks: the ready active wave that issued least recently; a napping one only while no
other resident wave is ready (R178, R326). -/
def State.picked (s : State) (core : Nat) : Option Nat :=
  let ready := (s.core core).active.filter s.waveReady
  match s.leastRecent (ready.filter fun k => (s.wave k).nap == 0) with
  | some k => some k
  | none => if (s.wavesOn core).any fun k => (s.wave k).nap == 0 && s.waveReady k then none else s.leastRecent ready

/-! ### A cycle -/

/-- A core's clock passes `n` cycles: not while its cluster is gated or moves. COUNT of open frames, naps down to their last
cycle, ages in the pending set, SWAYS, the start of a core and of its engine (R27, R178, R249, R324, R325, R376). -/
def State.tick (s : State) (core n : Nat) : State :=
  let cl := s.cluster (core / 8)
  if cl.gated || cl.moving then s
  else
    let s1 := s.updCore core fun c => { c with
      cycles := (c.cycles + n) % 2 ^ 64
      wake := c.wake - n
      started := if c.ramp = 0 then c.started else c.started + n
      pending := c.pending.map fun p => (p.1, if s.waveReady p.1 then p.2 + n else 0)
      sways := c.sways.map fun x => { x with cycles := x.cycles + n } }
    { s1 with
      waves := Tab.mapVals s1.waves fun _ w =>
        if w.nap ≥ 2 && (s.block w.block).core == core then { w with nap := max 1 (w.nap - n) } else w
      blocks := Tab.mapVals s1.blocks fun _ b =>
        if b.core == core && b.st == .running && !b.rcv.frames.isEmpty then
          { b with rcv := { b.rcv with frames := b.rcv.frames.map fun f => { f with count := satAdd 32 f.count n } } }
        else b }

/-- The wave's lanes of a path took effect: their issue position moved. -/
def State.went (s t : State) (k : Nat) (path : Mask) : Bool :=
  (t.wave k).pos (Mask.low path) == (s.wave k).pos (Mask.low path) + 1

/-- A wave that issues goes on within its cycle, where a failure of its scope arose in this cycle too (R382). -/
def State.goesOn (s : State) (k : Nat) : Bool :=
  let blk := (s.wave k).block
  let now := fun (f : Failing) => f.cycle == (s.core (s.block blk).core).cycles
  s.mayRun k || ((s.block blk).rcv.failing.any now && (s.updRcv blk fun r => { r with failing := none }).mayRun k)

/-- The second port's instruction follows the main port's, where its path still stands (R327). -/
def State.secondPort (s : State) (k : Nat) (c : Ctr) (path : Mask) : Out :=
  let w := s.wave k
  if !s.goesOn k || path &&& ~~~(w.pathAt c) != 0 || w.wait.isSome then .next s
  else match s.attempt k c path with
    | .next t => .next (if t.free = s.free then s else if s.went t k path then t.updWave k fun w => { w with lastB := c } else t)
    | o => o

/-- The second member of a pair follows the first, where the wave has one path, reached it in sequence, and may issue; a
marker on either parks the wave after both (R65, R75). -/
def State.pairMate (s : State) (k : Nat) (c : Ctr) (path : Mask) : Out :=
  let w := s.wave k
  let d := nextPc c
  match Tab.find (s.core (s.coreOf k)).icache (codeKey w.ctx (lineOfPc c)) with
  | none => .next s
  | some line =>
    if slotOfPc c ≥ 4 || !pairBit line (slotOfPc c) || !s.goesOn k || w.live != path || w.counters != [d] || w.wait.isSome then
      .next s
    else match s.attempt k d path with
      | .next t => .next (if t.free = s.free then s
          else if s.went t k path && (slotBits line (slotOfPc c)).getLsbD 12 then t.park k true else t)
      | o => o

/-- A CYCLE IN WHICH A WAVE ISSUES: the vote, the main port's instruction, and the one that may follow it (R65, R327,
R328). -/
def State.cycle (s : State) (k : Nat) : Out :=
  let w := s.wave k
  match vote (s.ctx w.ctx).fair w.fcount w.lastB (s.readyPaths k) with
  | none => .next s
  | some v =>
    let s1 := s.updWave k fun w => { w with fcount := v.fcount, lastA := v.first, lastB := 0 }
    let path := w.pathAt v.first
    match s1.attempt k v.first path with
    | .next t =>
      if s1.went t k path then
        match v.second with
        | some c => t.secondPort k c (w.pathAt c)
        | none => t.pairMate k v.first path
      else .next t
    | o => o

/-- A park with nothing outstanding ends with the cycle: an exchange point of the selector (R27, R75). -/
def State.endPark (s : State) (core k : Nat) : State :=
  if (s.wave k).parked && !s.owedMarked k then
    (s.giveWay core k).updWave k fun w => { w with parked := false }
  else s

/-- The cycle is over: the wave issued last, and the core's clock passes (R326, R412). -/
def State.issued (s : State) (core k : Nat) : State :=
  let (n, s0) := s.named
  let s1 := ((s0.updWave k fun w => { w with turn := n }).endPark core k).updCore core fun c => { c with
    issued := if c.active.contains k then Tab.put c.issued k (Tab.get 0 c.issued k + 1) else c.issued
    acct := { c.acct with issue := satAdd 64 c.acct.issue 1 } }
  s1.tick core 1

/-- A core's state as its selector looks at it: its exchanges made (R27). -/
def State.looked (s : State) (core : Nat) : State := ((s.probe core).ageExchange core).exchange core

/-- A CORE'S SELECTOR issues: the picked wave takes the earliest fault that it owes, or issues (R326, R459). -/
def State.issueTurn (s : State) (core : Nat) : Out :=
  let s1 := s.looked core
  match s1.picked core with
  | none => .next s1
  | some k =>
    match if (s1.wave k).duty.isSome then execTakeOwedFault k s1 else s1.cycle k with
    | .next t => .next (t.issued core k)
    | o => o

/-- Cycles of a core pass without an issue; those with no ready wave are stalls, where its clock runs (R412). -/
def State.cyclesTurn (s : State) (core n : Nat) : State :=
  let s1 := s.looked core
  let cl := s1.cluster (core / 8)
  let idle := !((s1.wavesOn core).any s1.waveReady) && !cl.gated && !cl.moving
  (if idle then s1.updCore core fun c => { c with acct := { c.acct with stall := satAdd 64 c.acct.stall n } } else s1).tick core n

/-- Microseconds of a unit pass: the blocks offered on a die wait and age, the leases of a pool run down to their last one
(R4, R317, R323, R338, R395). -/
def State.microsTurn (s : State) (unit n : Nat) : State :=
  { s with
    blocks := Tab.mapVals s.blocks fun _ b =>
      if b.waiting && b.die == unit then { b with waited := satAdd 32 b.waited n, age := satAdd 32 b.age n } else b
    launches := Tab.mapVals s.launches fun _ l =>
      if l.lease = 0 ∨ l.leasePool + 4 ≠ unit then l else { l with lease := max 1 (l.lease - n) } }

/-! ### Errors -/

/-- A core counts an error of its own, once, when it strikes (R412; DESIGN CHOICE, log 65). -/
def State.countError (s : State) (core : Nat) (double : Bool) : State :=
  s.updCore core fun c => { c with acct :=
    if double then { c.acct with uncorr := satAdd 32 c.acct.uncorr 1 } else { c.acct with corr := satAdd 32 c.acct.corr 1 } }

/-- An error strikes a register word: corrected, or its check bits fail; counted (R92, R412). -/
def State.regError (s : State) (wave reg lane : Nat) (double : Bool) : State :=
  if !Tab.has s.waves wave || decide ((s.wave wave).foot ≤ reg) then s
  else (if double then s.updWave wave fun w => { w with ecc := Tab.set 0 w.ecc reg (setBit (Tab.get 0 w.ecc reg) lane) }
    else s).countError (s.coreOf wave) double

/-- An error strikes a 32-byte word of DRAM: corrected and counted, or uncorrectable (R188). -/
def State.dramError (s : State) (word : Nat) (double : Bool) : State :=
  if word * 32 ≥ 2 ^ 39 then s
  else if double then { s with mem := { s.mem with bad := Tab.put s.mem.bad word true } }.updVault (vaultOf (word * 32)) fun v =>
    { v with uncorr := satAdd 32 v.uncorr 1 }
  else s.updVault (vaultOf (word * 32)) fun v => { v with corr := satAdd 32 v.corr 1 }

/-- A buffer of a block changed. -/
def State.updBuffer (s : State) (blk : Nat) (sp : Space) (f : Buffer → Buffer) : State :=
  s.updBlock blk fun b => match sp with
    | .s => { b with s := f b.s }
    | .w => { b with w := f b.w }
    | .a => { b with a := f b.a }
    | .c => { b with c := f b.c }
    | .g => b

/-- An error strikes an 8-byte word of a space of a block that has a word code, scratch, w or a: corrected, or uncorrectable;
counted (R199, R412). -/
def State.bufError (s : State) (blk : Nat) (sp : Space) (word : Nat) (double : Bool) : State :=
  if !Tab.has s.blocks blk || !(sp == .s || sp == .w || sp == .a) || decide (((s.block blk).buf sp).size ≤ 8 * word) then s
  else (if double then s.updBuffer blk sp fun b => { b with pois := Tab.put b.pois word true } else s).countError
    (s.block blk).core double

/-- An error strikes an 8-byte word of an L1 line: corrected and counted, or uncorrectable (R188, R196). -/
def State.l1Error (s : State) (core key word : Nat) (double : Bool) : State :=
  if !(s.line core key).bytes.any fun b => b.1 / 8 == word then s
  else (if double then s.updLine core key fun l => { l with bad := l.bad ||| BitVec.ofNat 16 (2 ^ word) } else s).countError core
    double

/-- A bit of a block's accumulator allocation flips (R199, R280). -/
def State.accError (s : State) (blk off bit : Nat) : State :=
  s.updBuffer blk .c fun b =>
    if off < b.size then { b with bytes := Tab.set 0 b.bytes off (b.byte off ^^^ BitVec.ofNat 8 (2 ^ (bit % 8))) } else b

/-- An uncorrectable error strikes a pentimento record; its core counts it (R383, R412). -/
def State.recError (s : State) (blk n : Nat) : State :=
  if n < (s.block blk).rcv.recs.length then
    (s.updRcv blk fun r => { r with recs := r.recs.modify n fun x => { x with broken := true } }).countError (s.block blk).core
      true
  else s

/-- A bit of a copy of an instruction line flips (R64). -/
def State.lineError (s : State) (core key bit : Nat) : State :=
  s.updCore core fun c => { c with icache := Tab.upd c.icache key fun l => l ^^^ BitVec.ofNat 512 (2 ^ (bit % 512)) }

/-! ### Turns -/

/-- The core whose waves' readiness a step of a unit looks at. -/
def State.looksAt (s : State) : Instr → Option Nat
  | .takeOwedFault k => some (s.coreOf k)
  | .fairnessSweep k => some (s.coreOf k)
  | .pendingAgeExchange core => some core
  | _ => none

/-- A step of a unit or of the outside; an instruction is none of these, and does nothing here. -/
def State.eventTurn (s : State) (i : Instr) : Out :=
  if i.fields.isSome then .next s
  else exec i ((s.looksAt i).elim s s.probe)

/-- An arrival of another device comes in (R102). -/
def State.foreignArrives (s : State) (a : Arrival) : State :=
  if a.dev = s.dev.id then s
  else
    let (id, s1) := s.named
    s1.updFly fun f => { f with arrivals := Tab.put f.arrivals id { a with outcome := none, sent := false } }

/-- What one turn does, before what is on its way within it reaches memory. -/
def State.turn1 (s : State) : Turn → Out
  | .issue core => s.issueTurn core
  | .event i => s.eventTurn i
  | .cycles core n => .next (s.cyclesTurn core n)
  | .micros unit n => .next (s.microsTurn unit n)
  | .dropTlb n => .next (s.updFly fun f => { f with tlb := f.tlb.eraseIdx n })
  | .dropWalk n => .next (s.updFly fun f => { f with walks := f.walks.eraseIdx n })
  | .dropFdt n => .next (s.updFly fun f => { f with fdts := f.fdts.eraseIdx n })
  | .dropLine core key => .next (s.updCore core fun c => { c with icache := Tab.del c.icache key })
  | .evict core key =>
    .next (if Tab.has (s.core core).l1 key && !(s.line core key).out && !(s.line core key).read then s.evictLine core key else s)
  | .regError wave reg lane double => .next (s.regError wave reg lane double)
  | .dramError word double => .next (s.dramError word double)
  | .bufError blk sp word double => .next (s.bufError blk sp word double)
  | .l1Error core key word double => .next (s.l1Error core key word double)
  | .accError blk off bit => .next (s.accError blk off bit)
  | .lineError core key bit => .next (s.lineError core key bit)
  | .recError blk n => .next (s.recError blk n)
  | .bridgeError n => .next (s.updBridge n fun b => { b with parity := true })
  | .foreign a => .next (s.foreignArrives a)
  | .foreignRevoke cap ctx src => .next (s.foreignRevoke cap ctx src)
  | .free id => .next (s.freeArrives id)
  | .revoked id => .next (s.revokeGoes id)
  | .frame src dst n => .next (s.moveFrame src dst n)
  | .put h src parts => .next (s.foreignPut h src parts)
  | .hostMemory parts => .next (s.homeWrite (parts.filter fun p => decide (hostBase ≤ p.1) && decide (p.1 < 2 ^ 52)))
  | .report => .next s.reportSaturated

/-- ONE TURN: after it the spill areas hold what was spilled, and the images of Saved blocks what has landed in them (R107,
R203, R332). -/
def State.turn (s : State) (x : Turn) : Out :=
  match s.turn1 x with
  | .next t => .next (t.flushSpills.refreshImages s)
  | o => o

/-! ### A device left alone -/

/-- The steps that units could take for what is on its way. -/
def State.flightSteps (s : State) : List Instr :=
  s.fly.results.map (fun p => .variableResultReturn p.1) ++
  s.fly.lines.map (fun p => .publishLineMerge p.1) ++
  s.fly.publishes.flatMap (fun p => p.2.crossed.map fun d => .bridgePublishAccept p.2.core d.1) ++
  s.fly.arrivals.map (fun p => if p.2.outcome.isSome then .arrivalOutcome p.1 else .remoteArrival p.1) ++
  s.fly.pushes.map (fun p => .yokePushLand p.1) ++
  s.fly.copies.flatMap (fun p => [.copyQueueStart p.1] ++
    ((s.unlanded p.2).head?.toList.map fun x => .copyPacket p.1 x.1 x.2.1 x.2.2) ++
    [.windowPutMerge p.1, .windowPutAck p.1, .copyComplete p.1]) ++
  s.fly.tiles.flatMap (fun p => [.mmtStep p.1, .tdrainRow p.1, .tileOpComplete p.1]) ++
  s.fly.nvme.flatMap (fun p => [.nvmeCompletion p.1 0, .sdPageParked p.2.cmd, .sdPageRecalled p.2.cmd p.2.page,
    .sdPageDropped p.2.cmd p.2.page]) ++
  s.fly.heap.map (fun p => .heapgetServe p.2.inst 0) ++
  s.fly.shadows.map (fun p => .shadowPublishSwap p.1)

/-- The steps that blocks, launches and cores could take. -/
def State.blockSteps (s : State) : List Instr :=
  s.blocks.flatMap (fun p => [.rollback p.1, .openingBarrierComplete p.1, .acceptBarrierComplete p.1,
    .barrierComplete (.block p.1 false), .barrierComplete (.block p.1 true), .staggeredStart p.1, .migrationDrain p.1,
    .blockRetire p.1]) ++
  s.launches.flatMap (fun p => (List.range p.2.groups.length).map fun g => .barrierComplete (.group p.1 g)) ++
  s.cores.map (fun p => .swaysComplete p.1) ++
  s.clusters.map (fun p => .poolMoveComplete p.1) ++
  s.ctxs.flatMap (fun c => c.2.lqs.flatMap fun q => [.heldContinuationAppend c.1 q.1, .launchAdmit c.1 q.1]) ++
  s.blocks.flatMap (fun p => [.starvationRelief p.1, .preempt p.1]) ++
  s.waves.map (fun p => .napExpiry p.1) ++
  s.blocks.flatMap fun p => (List.range p.2.rcv.frames.length).map fun d => .recoveryLimitExpiry p.1 (d + 1)

/-- The state after the first of these steps that changes anything. -/
def State.firstStep (s : State) : List Instr → Option State
  | [] => none
  | i :: is => match s.eventTurn i with
    | .next t => if t = s then s.firstStep is else some t
    | _ => s.firstStep is

/-- The state after these steps, those that are not enabled left out. -/
def State.eventTurns (s : State) (is : List Instr) : State :=
  is.foldl (fun s i => match s.eventTurn i with
    | .next t => t
    | _ => s) s

/-- Every waiting block is offered on its die (R28, R320, R336). -/
def State.offers (s : State) : State := s.eventTurns (s.blocks.flatMap fun p => [.blockPlace p.1, .restore p.1])

/-- The core with the fewest cycles among those whose selector picks a wave. -/
def State.busyCore (s : State) : Option Nat :=
  ((Tab.keys s.cores).filter fun c => ((s.looked c).picked c).isSome).foldl (fun best c => match best with
    | none => some c
    | some b => if (s.core c).cycles < (s.core b).cycles then some c else some b) none

/-- Time passes on a device that has nothing to do: one cycle of each core, one microsecond of each die and pool. -/
def State.idleTurn (s : State) : State :=
  (List.range 12).foldl (fun s u => s.microsTurn u 1) ((Tab.keys s.cores).foldl (fun s c => s.cyclesTurn c 1) s)

/-- The turns that messages on their way could take. -/
def State.messageTurns (s : State) : List Turn := (Tab.keys s.fly.frees).map Turn.free ++ (Tab.keys s.fly.revokes).map Turn.revoked

/-- The state after the first of these turns that changes anything. -/
def State.firstTurn (s : State) : List Turn → Option State
  | [] => none
  | x :: xs => match s.turn1 x with
    | .next t => if t = s then s.firstTurn xs else some t
    | _ => s.firstTurn xs

/-- The turn of a device to which no turn is given: a unit's step; else the blocks are offered, and a core issues or time
passes (DESIGN CHOICE, log 5). -/
def State.ownTurn1 (s : State) : Out :=
  match (s.firstTurn s.messageTurns).orElse fun _ => s.firstStep (s.flightSteps ++ s.blockSteps) with
  | some t => .next t
  | none =>
    let s1 := s.offers
    match s1.busyCore with
    | some core => s1.issueTurn core
    | none => .next s1.idleTurn

/-- That turn, with what follows every turn. -/
def State.ownTurn (s : State) : Out :=
  match s.ownTurn1 with
  | .next t => .next (t.flushSpills.refreshImages s)
  | o => o

/-! ### Placing an instruction -/

/-- A page-table entry at a physical address. -/
def Memory.putEntry (m : Memory) (pa v : Nat) : Memory := m.write (placeBytes pa 8 v)

/-- The tables of context 0 that map virtual addresses 0 to 2^30 − 1 to the same DRAM addresses with every right. -/
def Memory.withTables (m : Memory) : Memory :=
  -- level 3 at 0x1000: a table at 0x2000; level 2 at 0x2000: a 1 GiB leaf, VP 1, RD, WR, EX
  (m.putEntry 0x1000 0x2001).putEntry 0x2000 (0x4F + 2 ^ 55)

/-- A slot's 96 bits in slot 0 of a line whose other slots are NOP: the opcode 0 of R81; slot 0 may be entered. -/
def lineOf (w : BitVec 96) : BitVec 512 :=
  let body : BitVec 480 := (0 : BitVec 384) ++ w
  let word (lpar : Bool) : Word := BitVec.ofNat 32 (0x10000001 + (if parity 96 w then 512 else 0) + if lpar then 2 ^ 14 else 0)
  let l := word false
  let lpar := parity 17 (l.extractLsb' 15 17) != parity 14 (l.extractLsb' 0 14)
  word lpar ++ body

/-- Where `withFetchWord` places its line. -/
def fetchVa : Nat := 0x4000

/-- The wave that `withFetchWord` lets issue: one wave of 256 registers, every lane live at the placed slot. -/
def fetchWave : Wave :=
  { Wave.blank with
    handle := 0x01000000
    foot := 256
    pcs := (List.range 32).map fun l => (l, BitVec.ofNat 48 fetchVa)
    live := BitVec.allOnes 32
    entering := BitVec.allOnes 32 }

/-- Its block, running on core 0. -/
def fetchBlock : Block :=
  { Block.blank with st := .running, nwaves := 1, foot := 256, waves := [0], entry := BitVec.ofNat 48 fetchVa }

/-- The state with an instruction of 96 bits placed where `step` fetches next: in a running block's only wave on core 0, in
context 0, whose tables map the line; the turn is core 0's (log 6). -/
def State.placed (s : State) (w : BitVec 96) : State :=
  let line := (leBytes 64 (lineOf w).toNat).zipIdx.map fun p => (placeOf (fetchVa + p.2), p.1)
  { s with
    mem := (s.mem.withTables).write line
    ctxs := Tab.put s.ctxs 0 { s.ctx 0 with st := 1, ptroot := 0x1000 }
    cores := Tab.put s.cores 0 { s.core 0 with active := [0] }
    clusters := Tab.put s.clusters 0 { s.cluster 0 with gated := false }
    launches := Tab.put s.launches 0 { Launch.blank with left := 1 }
    blocks := Tab.put s.blocks 0 fetchBlock
    waves := Tab.put s.waves 0 fetchWave
    dev := { s.dev with locs := Tab.put s.dev.locs 0 (.resident 0 0) }
    agenda := .issue 0 :: s.agenda }

end Sys2Proof.Machine
end

