-- ==== Sys2Proof/Safety/Issue.lean ====
section
/-! DEFINITION. The terms in which claims speak of one instruction: when a wave can issue it, that its path has passed it,
which words it wrote, and that everything else is as before. -/

namespace Sys2Proof.Machine

/-- The wave `w` is executing the instruction at `c`. -/
def State.Issues (s : State) (c : Cur) (w : Wave) : Prop := s.cur = some c ∧ Tab.find s.waves c.wave = some w

/-- A register that a path can use in these lanes without a fault or a wait: in the footprint, in no queue's range, and
its words neither pending nor bad (R84, R90 to R92, R98, R99). -/
def Wave.usable (w : Wave) (lanes : Mask) (r : Nat) : Bool :=
  decide (r < w.foot) && (w.queueAt r).isNone && Tab.get 0 w.pend r &&& lanes == 0 && Tab.get 0 w.ecc r == 0 &&
    Tab.get 0 w.pois r &&& lanes == 0

/-- The wave may issue an instruction with this header over registers of its own lanes and over registers that it reads
across lanes: it is not at a dispatch point, and the registers are usable (R84, R165, R374). -/
def State.ready (_ : State) (c : Cur) (w : Wave) (h : Hdr) (rs cross : List Nat) : Bool :=
  !w.dispatch && (guardRegs h ++ rs).all (w.usable c.path) && cross.all (w.usable (BitVec.allOnes 32))

/-- The wave issues, and may. -/
def State.Ready (s : State) (c : Cur) (w : Wave) (h : Hdr) (rs : List Nat) (cross : List Nat := []) : Prop :=
  s.Issues c w ∧ s.ready c w h rs cross = true

/-- The instruction as its own part sees it, before anything has changed. -/
def State.issOf (s : State) (c : Cur) (w : Wave) (h : Hdr) : Iss :=
  ⟨s, s, c.wave, w, s.coreOf c.wave, c.path, c.pc, w.active s.free c.path h, h.mark⟩

/-- Each lane of the path is at the next counter, every other lane where it was (R63). -/
def Passed (s t : State) (c : Cur) : Prop :=
  ∀ l, l < 32 → (t.wave c.wave).pc l = if c.path.getLsbD l then nextPc c.pc else (s.wave c.wave).pc l

/-- A wave without what every instruction may change: counters, issue positions, registers and their bookkeeping, FLAGS,
and the marks of its selector. -/
def Wave.rest (w : Wave) : Wave :=
  { w with
    regs := []
    pois := []
    ecc := []
    pcs := []
    flags := 0
    prefetch := []
    recent := []
    ipos := []
    window := []
    flagWin := []
    parked := false
    stalled := 0
    lineOk := 0
    entering := 0 }

/-- A core without its energy and its charging interval (R192, R411). -/
def Core.rest (c : Core) : Core := { c with units := 0, unitsOf := [], acct := { c.acct with energy := 0 } }

/-- A context without its energy counter (R412). -/
def Context.rest (c : Context) : Context := { c with energy := 0 }

/-- The memory, its poison and its bad words, the L2, tables and devices are as before, and so is every wave but `k`, every block,
core and context, energy apart; of the wave, all but what `Wave.rest` leaves out. -/
def Kept (s t : State) (k : Nat) : Prop :=
  t.mem = s.mem ∧ t.dev = s.dev ∧ t.fly = s.fly ∧ t.launches = s.launches ∧ t.clusters = s.clusters ∧
  t.vaults = s.vaults ∧ t.blocks = s.blocks ∧ t.agenda = s.agenda ∧ t.l2 = s.l2 ∧
  (∀ n, (t.core n).rest = (s.core n).rest) ∧ (∀ n, (t.ctx n).rest = (s.ctx n).rest) ∧
  (∀ j, j ≠ k → t.wave j = s.wave j) ∧ (t.wave k).rest = (s.wave k).rest

/-- A lane word with its X bit and whether its check bits fail (R91, R92). -/
def Wave.cell (w : Wave) (r l : Nat) : Word × Bool × Bool :=
  (w.word r l, (Tab.get 0 w.pois r).getLsbD l, (Tab.get 0 w.ecc r).getLsbD l)

/-- The wave holds these words (register, lane, value), good and with X clear, and every other word as it was. -/
def Holds (s t : State) (k : Nat) (ws : List (Nat × Nat × Word)) : Prop :=
  (∀ x ∈ ws, (t.wave k).cell x.1 x.2.1 = (x.2.2, false, false)) ∧
  ∀ r l, l < 32 → (∀ x ∈ ws, (x.1, x.2.1) ≠ (r, l)) → (t.wave k).cell r l = (s.wave k).cell r l

end Sys2Proof.Machine
end

