-- ==== Sys2Proof/Safety/Frame.lean ====
section
/-! DEFINITION. Frames of instructions that reach memory or start work: what stays in the waves, the blocks and the device
while lines move, translations are marked, and reservations end. -/

namespace Sys2Proof.Machine

/-- A wave without its reservations and its counter waits, which changes of memory end (R218, R404). -/
def Wave.body (w : Wave) : Wave := { w with resv := [], cwaits := [] }

/-- A wave without what its own instruction that starts work may change: `Wave.rest`, P and E bits, reservations, counter
waits, publishes that an adopt follows, the adopt that waits, and its copy count. -/
def Wave.quiet (w : Wave) : Wave :=
  { w.rest with
    pend := []
    expt := []
    resv := []
    cwaits := []
    phased := []
    adopting := none
    copies := 0 }

/-- A block without its recovery state, which evictions of held bytes change (R203, R215). -/
def Block.still (b : Block) : Block := { b with rcv := Recovery.blank }

/-- A block without its recovery state and, where it is the one named, without its scratch and its a buffer. -/
def Block.strip (o : Option Nat) (n : Nat) (b : Block) : Block :=
  if o = some n then { b.still with s := Buffer.blank, a := Buffer.blank } else b.still

/-- Waves, blocks, tables and clusters are as before, but for reservations, counter waits, recovery state, and the scratch and
the a buffer of the block named. -/
def Calm (o : Option Nat) (s t : State) : Prop :=
  (∀ j, (Tab.find t.waves j).map Wave.body = (Tab.find s.waves j).map Wave.body) ∧
  (∀ n, (Tab.find t.blocks n).map (Block.strip o n) = (Tab.find s.blocks n).map (Block.strip o n)) ∧
  t.dev = s.dev ∧ t.clusters = s.clusters ∧ t.agenda = s.agenda

/-- The bytes of memory are as before, but that a byte of a page-table entry may have gained its ACC bit (bit 7) or its
DIRTY bit (bit 0 of the entry's second byte) (R343). -/
def Memory.Grew (m m' : Memory) : Prop := ∀ a, ∃ x : Byte, (x = 0 ∨ x = 0x80 ∨ x = 1 ∨ x = 0x81) ∧ m'.byte a = m.byte a ||| x

/-- Only the issuing wave of all waves changes, it in nothing but `Wave.quiet`'s exceptions, and blocks only in their
recovery state; tables, clusters and turns are as before. -/
def Steady (s t : State) (k : Nat) : Prop :=
  (∀ j, j ≠ k → (Tab.find t.waves j).map Wave.body = (Tab.find s.waves j).map Wave.body) ∧
  (Tab.find t.waves k).map Wave.quiet = (Tab.find s.waves k).map Wave.quiet ∧
  (∀ n, (Tab.find t.blocks n).map Block.still = (Tab.find s.blocks n).map Block.still) ∧
  t.dev = s.dev ∧ t.clusters = s.clusters ∧ t.agenda = s.agenda

/-- Words of the wave wait for a result: their P bits are set, and no other P bit changes (R91). -/
def Pends (s t : State) (k : Nat) (ws : List (Nat × Nat)) : Prop :=
  ∀ r l, l < 32 → (Tab.get 0 (t.wave k).pend r).getLsbD l =
    ((Tab.get 0 (s.wave k).pend r).getLsbD l || decide ((r, l) ∈ ws))

end Sys2Proof.Machine
end

