-- ==== Sys2Proof/Safety/Results.lean ====
section
/-! DEFINITION. What the register instructions leave, family by family: the registers each one uses, the words it writes
and the FLAGS it leaves, as the spec's rules give them. -/

namespace Sys2Proof.Machine

/-- What a register instruction uses and leaves: its header, the registers of its own lanes and those read across lanes,
a condition on its operands beyond that, the words that it writes, and FLAGS after it. -/
structure RegResult where
  h : Hdr
  rs : List Nat
  cross : List Nat
  ok : Bool
  words : List (Nat × Nat × Word)
  flags : Word

/-- Registers of operands of a type. -/
def typedRegs (t : RType) (rs : List Reg) : List Nat := rs.flatMap (regsOf t)

/-- The words of one typed result of each active lane (R32, R33). -/
def Iss.typed (v : Iss) (t : RType) (d : Reg) (f : Nat → Nat) : List (Nat × Nat × Word) :=
  v.lanes.flatMap fun l => RType.words t d l (f l)

/-- FLAGS after an instruction that sets sticky bits (R50). -/
def Iss.sticky (v : Iss) (f : Nat → Flags) : Word :=
  orFlags v.w.flags (v.lanes.foldl (fun a l => a ||| f l) 0)

/-- FLAGS with STO_SEQ one further, where some lane is active and the mode is sto (R46). -/
def Iss.stepped (v : Iss) (m : RMode) (f : Word) : Word :=
  if v.act != 0 && v.w.mode m == .sto then stepSeq f else f

/-- An instruction that moves or combines bits and sets no flag. -/
def Iss.bitsResult (v : Iss) (h : Hdr) (t : RType) (d : Reg) (srcs : List Nat) (f : Nat → Nat) : RegResult :=
  ⟨h, srcs ++ regsOf t d, [], true, v.typed t d f, v.w.flags⟩

/-- An instruction with one 32-bit word in each lane and no flag. -/
def Iss.wordResult (v : Iss) (h : Hdr) (d : Reg) (srcs : List Nat) (f : Nat → Word) : RegResult :=
  ⟨h, srcs ++ [d.toNat], [], true, v.lanes.map fun l => (d.toNat, l, f l), v.w.flags⟩

/-- An instruction with bits and sticky flags in each lane. -/
def Iss.flagResult (v : Iss) (h : Hdr) (t : RType) (d : Reg) (srcs : List Nat) (f : Nat → Nat × Flags) : RegResult :=
  ⟨h, srcs ++ regsOf t d, [], true, v.typed t d fun l => (f l).1, v.sticky fun l => (f l).2⟩

/-- An integer instruction: the exact integer of each element, put into the type (R120). -/
def Iss.intResult (v : Iss) (h : Hdr) (t : RType) (sat : Bool) (d : Reg) (srcs : List Nat) (f : Nat → Nat → Int) : RegResult :=
  v.flagResult h t d srcs fun l => RType.join t fun k => putInt t sat (f l k)

/-- A float instruction: the exact value of each element, rounded once with the mode (R148). -/
def Iss.floatResult (v : Iss) (h : Hdr) (t : RType) (m : RMode) (sat : Bool) (d : Reg) (srcs : List Nat)
    (f : Nat → Nat → FVal × Flags) : RegResult :=
  let r := v.flagResult h t d srcs fun l => RType.join t fun k =>
    let x := (RType.ffmt t).ofVal (v.rnd m l k) sat (f l k).1
    (x.1, (f l k).2 ||| x.2)
  { r with flags := v.stepped m r.flags }

/-- The integer and address instructions (R127 to R135). -/
def integerResult (s : State) (c : Cur) (w : Wave) : Instr → Option RegResult
  | .mov h t d a => let v := s.issOf c w h
    some (v.bitsResult h t d (regsOf t a) fun l => v.raw t a l)
  | .movi h t d imm => let v := s.issOf c w h
    some (v.bitsResult h t d [] fun _ => if t = .s64 then (imm.signExtend 64).toNat else imm.toNat)
  | .movih h d imm => let v := s.issOf c w h
    some ⟨h, [d.toNat, d.toNat + 1], [], true, v.lanes.map fun l => (d.toNat + 1, l, imm), w.flags⟩
  | .add h t sat d a b => let v := s.issOf c w h
    some (v.intResult h t sat d (typedRegs t [a, b]) fun l k => v.int t a l k + v.int t b l k)
  | .addi h t sat d a imm => let v := s.issOf c w h
    some (v.intResult h t sat d (regsOf t a) fun l k => v.int t a l k + imm.toInt)
  | .sub h t sat d a b => let v := s.issOf c w h
    some (v.intResult h t sat d (typedRegs t [a, b]) fun l k => v.int t a l k - v.int t b l k)
  | .neg h t sat d a => let v := s.issOf c w h
    some (v.intResult h t sat d (regsOf t a) fun l k => -v.int t a l k)
  | .abs h t sat d a => let v := s.issOf c w h
    some (v.intResult h t sat d (regsOf t a) fun l k => (v.int t a l k).natAbs)
  | .min h t d a b => let v := s.issOf c w h
    some (v.intResult h t false d (typedRegs t [a, b]) fun l k => min (v.int t a l k) (v.int t b l k))
  | .max h t d a b => let v := s.issOf c w h
    some (v.intResult h t false d (typedRegs t [a, b]) fun l k => max (v.int t a l k) (v.int t b l k))
  | .clamp h t d a b e => let v := s.issOf c w h
    some (v.intResult h t false d (typedRegs t [a, b, e]) fun l k => min (max (v.int t a l k) (v.int t b l k)) (v.int t e l k))
  | .mul h t sat d a b => let v := s.issOf c w h
    some (v.intResult h t sat d (typedRegs t [a, b]) fun l k => v.int t a l k * v.int t b l k)
  | .mulh h t d a b => let v := s.issOf c w h
    some (v.intResult h t false d (typedRegs t [a, b]) fun l k => v.int t a l k * v.int t b l k / 2 ^ RType.ew t)
  | .mad h t sat d a b e => let v := s.issOf c w h
    some (v.intResult h t sat d (typedRegs t [a, b, e]) fun l k => v.int t a l k * v.int t b l k + v.int t e l k)
  | .madw h t sat d a b e => let v := s.issOf c w h
    let t2 : RType := if t.isSigned then .s64 else .z64
    some (v.intResult h t2 sat d ([a.toNat, b.toNat] ++ pairOf e) fun l _ => v.int t a l 0 * v.int t b l 0 + v.int t2 e l 0)
  | .div h t sat d a b => let v := s.issOf c w h
    some { v.intResult h t sat d (typedRegs t [a, b]) fun l k => (v.int t a l k).tdiv (v.int t b l k) with
      ok := v.lanes.all fun l => v.int t b l 0 != 0 }
  | .rem h t d a b => let v := s.issOf c w h
    some { v.intResult h t false d (typedRegs t [a, b]) fun l k => (v.int t a l k).tmod (v.int t b l k) with
      ok := v.lanes.all fun l => v.int t b l 0 != 0 }
  | .lea h t d a b sh => let v := s.issOf c w h
    some (v.intResult h .z64 false d (pairOf a ++ regsOf t b) fun l k => v.int .z64 a l k + v.int t b l 0 * 2 ^ sh.toNat)
  | _ => none

/-- A shift amount and its registers (R138). -/
def Iss.shiftBy (v : Iss) (n : ShAmt) (l : Nat) : Nat :=
  match n with
  | .reg r => (v.rd r.toNat l).toNat
  | .imm x => x.toNat

/-- The position and the length of a field spec: bits 7:0 and 15:8 (R141). -/
def Iss.posLen (v : Iss) (sp : FieldSpec) (l : Nat) : Nat × Nat :=
  let x := match sp with
    | .reg r => (v.rd r.toNat l).toNat
    | .imm x => x.toNat
  (x % 256, x / 256 % 256)

/-- The logic and bit instructions (R136 to R141). -/
def logicResult (s : State) (c : Cur) (w : Wave) : Instr → Option RegResult
  | .and h t d a b => let v := s.issOf c w h
    some (v.bitsResult h t d (typedRegs t [a, b]) fun l => v.raw t a l &&& v.raw t b l)
  | .or h t d a b => let v := s.issOf c w h
    some (v.bitsResult h t d (typedRegs t [a, b]) fun l => v.raw t a l ||| v.raw t b l)
  | .xor h t d a b => let v := s.issOf c w h
    some (v.bitsResult h t d (typedRegs t [a, b]) fun l => v.raw t a l ^^^ v.raw t b l)
  | .not h t d a => let v := s.issOf c w h
    some (v.bitsResult h t d (regsOf t a) fun l => 2 ^ RType.ew t - 1 - v.raw t a l)
  | .bool3 h t d a b e fn => let v := s.issOf c w h
    some (v.bitsResult h t d (typedRegs t [a, b, e]) fun l => bool3 (RType.ew t) fn (v.raw t a l) (v.raw t b l) (v.raw t e l))
  | .shl h t d a n => let v := s.issOf c w h
    some (v.bitsResult h t d (regsOf t a ++ shRegs n) fun l =>
      if v.shiftBy n l < RType.ew t then v.raw t a l * 2 ^ v.shiftBy n l % 2 ^ RType.ew t else 0)
  | .shr h t d a n => let v := s.issOf c w h
    some (v.bitsResult h t d (regsOf t a ++ shRegs n) fun l =>
      if v.shiftBy n l < RType.ew t then v.raw t a l / 2 ^ v.shiftBy n l else 0)
  | .sar h t d a n => let v := s.issOf c w h
    some (v.bitsResult h t d (regsOf t a ++ shRegs n) fun l => sarBits (RType.ew t) (v.raw t a l) (v.shiftBy n l))
  | .rot h t d a n => let v := s.issOf c w h
    some (v.bitsResult h t d (regsOf t a ++ shRegs n) fun l => rotBits (RType.ew t) (v.raw t a l) (v.shiftBy n l))
  | .funsh h d a b e => let v := s.issOf c w h
    some (v.bitsResult h .z32 d (typedRegs .z32 [a, b, e]) fun l =>
      (v.raw .z32 a l * 2 ^ 32 + v.raw .z32 b l) / 2 ^ (v.raw .z32 e l % 64) % 2 ^ 32)
  | .popc h t d a => let v := s.issOf c w h
    some (v.wordResult h d (regsOf t a) fun l => BitVec.ofNat 32 (popcount (RType.ew t) (v.raw t a l)))
  | .clz h t d a => let v := s.issOf c w h
    some (v.wordResult h d (regsOf t a) fun l => BitVec.ofNat 32 (clz (RType.ew t) (v.raw t a l)))
  | .ctz h t d a => let v := s.issOf c w h
    some (v.wordResult h d (regsOf t a) fun l => BitVec.ofNat 32 (ctz (RType.ew t) (v.raw t a l)))
  | .bfx h t d a sp => let v := s.issOf c w h
    some (v.bitsResult h t d (regsOf t a ++ specRegs sp) fun l => bfxBits t (v.raw t a l) (v.posLen sp l).1 (v.posLen sp l).2)
  | .bfi h t d a b sp => let v := s.issOf c w h
    some (v.bitsResult h t d (regsOf t a ++ regsOf t b ++ specRegs sp) fun l =>
      bfiBits (RType.ew t) (v.raw t a l) (v.raw t b l) (v.posLen sp l).1 (v.posLen sp l).2)
  | _ => none

/-- The compare, select and vote instructions (R142 to R145). -/
def compareResult (s : State) (c : Cur) (w : Wave) : Instr → Option RegResult
  | .cmp h cc t d a b => let v := s.issOf c w h
    some (v.flagResult h .z32 d (regsOf t a ++ regsOf t b) fun l => compareBits cc t (v.raw t a l) (v.raw t b l))
  | .cmpi h cc t d a imm => let v := s.issOf c w h
    some (v.flagResult h .z32 d (regsOf t a) fun l =>
      compareBits cc t (v.raw t a l) (if t = .s64 then (imm.signExtend 64).toNat else imm.toNat))
  | .sel h t d a b e => let v := s.issOf c w h
    some (v.bitsResult h t d (regsOf t a ++ regsOf t b ++ [e.toNat]) fun l =>
      if (v.rd e.toNat l).getLsbD 0 then v.raw t a l else v.raw t b l)
  | .ballot h d a => let v := s.issOf c w h
    some (v.wordResult h d [a.toNat] fun _ => v.votes a)
  | .vany h d a => let v := s.issOf c w h
    some (v.wordResult h d [a.toNat] fun _ => boolWord (v.lanes.any fun l => (v.rd a.toNat l).getLsbD 0))
  | .vall h d a => let v := s.issOf c w h
    some (v.wordResult h d [a.toNat] fun _ => boolWord (v.lanes.all fun l => (v.rd a.toNat l).getLsbD 0))
  | .veq h t d a => let v := s.issOf c w h
    some (v.wordResult h d (regsOf t a) fun _ => boolWord (v.lanes.all fun l => v.raw t a l == v.raw t a v.low))
  | .active h d => let v := s.issOf c w h
    some (v.wordResult h d [] fun _ => v.act)
  | .activePath h d => let v := s.issOf c w h
    some (v.wordResult h d [] fun _ => c.path)
  | .activeLive h d => let v := s.issOf c w h
    some (v.wordResult h d [] fun _ => w.live)
  | _ => none

/-- One function of f32, or of a type rounded once (R53, R153). -/
def Iss.vfunResult (v : Iss) (f : VFun) (h : Hdr) (t : RType) (m : RMode) (sat : Bool) (d a : Reg) : RegResult :=
  if t = .f32 then v.flagResult h t d (regsOf t a) fun l => f.f32 sat (v.raw t a l)
  else v.floatResult h t m sat d (regsOf t a) fun l k => f.eval (v.flt t a l k)

/-- FRND (R154). -/
def Iss.rintResult (v : Iss) (exact : Bool) (h : Hdr) (t : RType) (m : RMode) (d a : Reg) : RegResult :=
  let r := v.flagResult h t d (regsOf t a) fun l => RType.join t fun k => rintCode t (v.rnd m l k) exact (v.flt t a l k)
  { r with flags := v.stepped m r.flags }

/-- The float instructions (R150 to R157). -/
def floatResult (s : State) (c : Cur) (w : Wave) : Instr → Option RegResult
  | .fadd h t m sat d a b => let v := s.issOf c w h
    some (v.floatResult h t m sat d (typedRegs t [a, b]) fun l k => FVal.add (w.mode m) (v.flt t a l k) (v.flt t b l k))
  | .fsub h t m sat d a b => let v := s.issOf c w h
    some (v.floatResult h t m sat d (typedRegs t [a, b]) fun l k => FVal.add (w.mode m) (v.flt t a l k) (v.flt t b l k).neg)
  | .fmul h t m sat d a b => let v := s.issOf c w h
    some (v.floatResult h t m sat d (typedRegs t [a, b]) fun l k => FVal.mul (v.flt t a l k) (v.flt t b l k))
  | .ffma h t m sat d a b e => let v := s.issOf c w h
    some (v.floatResult h t m sat d (typedRegs t [a, b, e]) fun l k =>
      FVal.fma (w.mode m) (v.flt t a l k) (v.flt t b l k) (v.flt t e l k))
  | .fdiv h t m sat d a b => let v := s.issOf c w h
    some (v.floatResult h t m sat d (typedRegs t [a, b]) fun l k => FVal.div (v.flt t a l k) (v.flt t b l k))
  | .fsqrt h t m d a => let v := s.issOf c w h
    some (v.floatResult h t m false d (regsOf t a) fun l k => FVal.sqrt (v.flt t a l k))
  | .fmin h t d a b => let v := s.issOf c w h
    some (v.flagResult h t d (typedRegs t [a, b]) fun l => RType.join t fun k =>
      let x := FVal.minmax false (v.flt t a l k) (v.flt t b l k)
      (exactCode t x.1, x.2))
  | .fmax h t d a b => let v := s.issOf c w h
    some (v.flagResult h t d (typedRegs t [a, b]) fun l => RType.join t fun k =>
      let x := FVal.minmax true (v.flt t a l k) (v.flt t b l k)
      (exactCode t x.1, x.2))
  | .fneg h t d a => let v := s.issOf c w h
    some (v.flagResult h t d (regsOf t a) fun l => RType.join t fun k =>
      (exactCode t (v.flt t a l k).neg, sigFlags [v.flt t a l k]))
  | .fabs h t d a => let v := s.issOf c w h
    some (v.flagResult h t d (regsOf t a) fun l => RType.join t fun k =>
      (exactCode t ((v.flt t a l k).withSign false), sigFlags [v.flt t a l k]))
  | .frcp h t m sat d a => some ((s.issOf c w h).vfunResult .rcp h t m sat d a)
  | .frsq h t m sat d a => some ((s.issOf c w h).vfunResult .rsq h t m sat d a)
  | .fexp2 h t m sat d a => some ((s.issOf c w h).vfunResult .exp2 h t m sat d a)
  | .flog2 h t m sat d a => some ((s.issOf c w h).vfunResult .log2 h t m sat d a)
  | .fsin h t m sat d a => some ((s.issOf c w h).vfunResult .sin h t m sat d a)
  | .fcos h t m sat d a => some ((s.issOf c w h).vfunResult .cos h t m sat d a)
  | .ftanh h t m sat d a => some ((s.issOf c w h).vfunResult .tanh h t m sat d a)
  | .frnd h t m d a => some ((s.issOf c w h).rintResult false h t m d a)
  | .frndExact h t m d a => some ((s.issOf c w h).rintResult true h t m d a)
  | .fscale h t m sat d a b => let v := s.issOf c w h
    some (v.floatResult h t m sat d (regsOf t a ++ [b.toNat]) fun l k => FVal.scale (v.flt t a l k) (v.scaleBy t b l k))
  | .fclass h t d a => let v := s.issOf c w h
    some (v.wordResult h d (regsOf t a) fun l => BitVec.ofNat 32 ((List.range (RType.elems t)).foldl
      (fun n k => n + 2 ^ (16 * k + classBit (RType.ffmt t) (v.flt t a l k))) 0))
  | .dot2 h t m sat d a b e => let v := s.issOf c w h
    some (v.floatResult h .f32 m sat d [a.toNat, b.toNat, e.toNat] fun l _ =>
      dot2Val (w.mode m) (v.flt t a l 0) (v.flt t b l 0) (v.flt t a l 1) (v.flt t b l 1) (v.flt .f32 e l 0))
  | _ => none

/-- The words of a block that DXPACK and MXPACK make: in each active lane the scale above the lane's code (R162). -/
def Iss.packResult (v : Iss) (h : Hdr) (code : Nat) (m : RMode) (d a : Reg) : RegResult :=
  let b := blockEncode code 0 (fun l => v.rnd m l 0) (v.block a)
  ⟨h, [a.toNat, d.toNat], [], true, v.lanes.map fun l => (d.toNat, l, BitVec.ofNat 32 (b.scale * 256 + b.codes.getD l 0)),
    if v.act = 0 then v.w.flags else v.stepped m (orFlags v.w.flags b.flags)⟩

/-- FLAGS alone changes, when some lane is active (R164). -/
def Iss.flagsOnly (v : Iss) (h : Hdr) (f : Word → Word) : RegResult :=
  ⟨h, [], [], true, [], if v.act = 0 then v.w.flags else f v.w.flags⟩

/-- The conversion instructions and FLAGS (R158 to R164). -/
def convertResult (s : State) (c : Cur) (w : Wave) : Instr → Option RegResult
  | .cvt h td ts m sat d a => let v := s.issOf c w h
    let r := v.flagResult h td d (regsOf ts a) fun l => cvtBits td ts (v.rnd m l 0) sat (v.raw ts a l)
    some { r with flags := if cvtRounds td ts then v.stepped m r.flags else r.flags }
  | .pack h f m sat d a => let v := s.issOf c w h
    let r := v.flagResult h .z32 d (runOf a f.count) fun l =>
      let es := (List.range f.count).map fun k =>
        let x := (v.rd (a.toNat + k) l).toNat
        ((packElem f (v.rnd m l k) sat x).1, (packElem f (v.rnd m l k) sat x).2 ||| packSig f x)
      (packElems (32 / f.count) (es.map Prod.fst), es.foldl (fun x e => x ||| e.2) 0)
    some { r with flags := if packIsFloat f then v.stepped m r.flags else r.flags }
  | .unpack h f d a => let v := s.issOf c w h
    some ⟨h, a.toNat :: runOf d f.count, [], true, v.lanes.flatMap fun l => (List.range f.count).map fun k =>
      (d.toNat + k, l, unpackElem f ((v.rd a.toNat l).toNat / 2 ^ (32 / f.count * k))), w.flags⟩
  | .dxpack h f m d a => some ((s.issOf c w h).packResult h (dxCode f) m d a)
  | .mxpack h f m d a => some ((s.issOf c w h).packResult h (mxCode f) m d a)
  | .dxunpk h f d a => let v := s.issOf c w h
    some (v.flagResult h .f32 d [a.toNat] fun l =>
      unpackF32 (elemVal (dxCode f) ((v.rd a.toNat l).toNat / 256) (v.rd a.toNat l).toNat))
  | .mxunpk h f d a => let v := s.issOf c w h
    some (v.flagResult h .f32 d [a.toNat] fun l =>
      unpackF32 (elemVal (mxCode f) ((v.rd a.toNat l).toNat / 256) (v.rd a.toNat l).toNat))
  | .flagsClr h mask => some ((s.issOf c w h).flagsOnly h fun f => f &&& ~~~(mask.setWidth 32))
  | .flagsSet h mask => some ((s.issOf c w h).flagsOnly h fun f => f ||| mask.setWidth 32)
  | .flagsRm h mode => some ((s.issOf c w h).flagsOnly h fun f => (f &&& 0xFFFC7FFF) ||| mode.setWidth 32 <<< 15)
  | .flagsTake h d mask => let v := s.issOf c w h
    some ⟨h, [d.toNat], [], true, v.lanes.map fun l => (d.toNat, l, w.seenFlags s.free &&& mask.setWidth 32),
      if v.act = 0 then w.flags else w.flags &&& ~~~(w.seenFlags s.free &&& mask.setWidth 32 &&& 0x7F)⟩
  | _ => none

/-- A shuffle's words: each active lane takes the bits of its source lane, zero where that lane has exited, or its fill
(R165, R167). -/
def Iss.shuffleResult (v : Iss) (h : Hdr) (t : RType) (d a : Reg) (srcs : List Nat) (src : Nat → Option Nat)
    (fill : Nat → Nat) : RegResult :=
  ⟨h, srcs ++ regsOf t d, regsOf t a, true, v.typed t d fun l =>
    match src l with
    | some j => if v.w.live.getLsbD j then v.raw t a j else 0
    | none => fill l, v.w.flags⟩

/-- The source lane of an index: the lane itself within 0 to 31, else none where the form has a fill, else modulo 32
(R167). -/
def laneOf (idx : Int) (fill : Option Reg) : Option Nat :=
  if 0 ≤ idx ∧ idx < 32 then some idx.toNat
  else match fill with
    | some _ => none
    | none => some (idx % 32).toNat

/-- The bits that a lane's fill register holds. -/
def Iss.fillOf (v : Iss) (t : RType) (fill : Option Reg) (l : Nat) : Nat :=
  match fill with
  | some r => v.raw t r l
  | none => 0

/-- The cross-lane instructions (R167 to R169). -/
def crossResult (s : State) (c : Cur) (w : Wave) : Instr → Option RegResult
  | .shfl h t d a b fill => let v := s.issOf c w h
    some (v.shuffleResult h t d a (b.toNat :: fillRegs t fill) (fun l => laneOf (v.rd b.toNat l).toNat fill) (v.fillOf t fill))
  | .shflx h t d a mask => let v := s.issOf c w h
    some (v.shuffleResult h t d a [] (fun l => some (l ^^^ mask.toNat)) fun _ => 0)
  | .shflup h t d a n fill => let v := s.issOf c w h
    some (v.shuffleResult h t d a (fillRegs t fill) (fun l => laneOf ((l : Int) - n.toNat) fill) (v.fillOf t fill))
  | .shfldn h t d a n fill => let v := s.issOf c w h
    some (v.shuffleResult h t d a (fillRegs t fill) (fun l => laneOf ((l : Int) + n.toNat) fill) (v.fillOf t fill))
  | .bcast h t d a (.imm n) => let v := s.issOf c w h
    some (v.shuffleResult h t d a [] (fun _ => some n.toNat) fun _ => 0)
  | .bcast h t d a (.reg b) => let v := s.issOf c w h
    some { v.shuffleResult h t d a [b.toNat] (fun _ => some ((v.rd b.toNat v.low).toNat % 32)) fun _ => 0 with
      ok := v.lanes.all fun l => v.rd b.toNat l == v.rd b.toNat v.low }
  | .wred h op t m sat d a => let v := s.issOf c w h
    let r := redTree (v.redStep op t m sat) 5 0 (v.redVals op t a)
    some ⟨h, regsOf t a ++ regsOf t d, [], true, v.typed t d fun _ => r.1,
      if v.act = 0 then w.flags else
        let f := orFlags w.flags r.2
        if redRounds op t then v.stepped m f else f⟩
  | .wscan h op t m sat d a => let v := s.issOf c w h
    let r := redScan (v.redStep op t m sat) 0 0 (v.redVals op t a)
    some ⟨h, regsOf t a ++ regsOf t d, [], true, v.typed t d fun l => r.1.getD l 0,
      if v.act = 0 then w.flags else
        let f := orFlags w.flags r.2
        if redRounds op t then v.stepped m f else f⟩
  | _ => none

/-- A table of results holds: each instruction in it, in a state in which its wave may issue it, goes to a next state in
which its path has passed it, its words are written, FLAGS is as given, and, outside a recovery scope, all else is kept. -/
def Delivers (table : State → Cur → Wave → Instr → Option RegResult) : Prop :=
  ∀ s c w ins r, table s c w ins = some r → s.Ready c w r.h r.rs r.cross → r.ok = true →
    ∃ t, exec ins s = .next t ∧ Passed s t c ∧ Holds s t c.wave r.words ∧ (t.wave c.wave).flags = r.flags ∧
      ((s.block w.block).depth = 0 → Kept s t c.wave)

end Sys2Proof.Machine
end

