-- ==== Sys2Proof/Safety/Reach.lean ====
section
/-! DEFINITION. What the memory instructions reach and leave: the accesses of their lanes, the registers that wait for what
they read, and the bytes that they write. -/

namespace Sys2Proof.Machine

/-- The home bytes of a span. -/
def Span.homes (q : Span) : List Nat := (List.range q.n).map q.place

/-- The home bytes of an access and of the scales that it needs, none outside g. -/
def Place.homes (p : Place) : List Nat := p.span.elim [] Span.homes ++ p.scales.flatMap fun y => y.2.2.elim [] Span.homes

/-- The access or its scales touch this byte of a space of its block. -/
def Place.touches (p : Place) (sp : Space) (a : Nat) : Bool :=
  p.sp == sp && (decide (p.addr ≤ a) && decide (a < p.addr + p.n) ||
    p.scales.any fun y => decide (y.2.1 ≤ a) && decide (a < y.2.1 + fmtScaleBytes p.fdt.fmt))

/-- The bytes of memory outside these places are as before, but for ACC and DIRTY bits that entries gained (R343). -/
def Memory.GrewBut (p : Nat → Bool) (m m' : Memory) : Prop :=
  ∀ a, p a = false → ∃ x : Byte, (x = 0 ∨ x = 0x80 ∨ x = 1 ∨ x = 0x81) ∧ m'.byte a = m.byte a ||| x

/-- FLAGS after a memory instruction: arm bits and RM stay; where every access is of raw memory, all of it (R231). -/
def FlagsFrom (old new : Word) (ps : List (Nat × Place)) : Prop :=
  new &&& 0x3FF80 = old &&& 0x3FF80 ∧ ((ps.all fun x => x.2.fdt.fmt == 0) = true → new = old)

/-- A memory instruction: its header, registers, the destination that waits for a result, the accesses of its lanes, and
whether what orders it lets it go. -/
structure Reaching where
  h : Hdr
  rs : List Nat
  dest : List Nat
  accesses : Except (Miss × Mask) (List (Nat × Place))
  ok : Bool

/-- The accesses of a block instruction: one, at the address that every lane holds (R237). -/
def Iss.blockAccess (v : Iss) (op : MemOp) (ma : MemArg) (t : RType) : Except (Miss × Mask) (List (Nat × Place)) :=
  match v.locate op ma.sp ma.chk t (v.ea ma v.low) none with
  | .error m => .error (m, v.act)
  | .ok p => .ok [(v.low, p)]

/-- Nothing that an immediate access follows is on its way: a publish of its wave (R25, R212). -/
def Iss.clear (v : Iss) (a : Except (Miss × Mask) (List (Nat × Place))) : Bool :=
  match a with
  | .error _ => false
  | .ok _ => !v.s.publishing v.k

/-- An immediate access of lanes of a type (R241 to R243). -/
def Iss.immReach (v : Iss) (acc : Access) (ma : MemArg) (t : RType) : Except (Miss × Mask) (List (Nat × Place)) :=
  v.locateAll (v.reach { acc := acc, imm := true, own := true, spaces := wrSpaces } ma t none)

/-- The instructions that read memory into registers (R235, R237, R240 to R243). -/
def readReach (s : State) (c : Cur) (w : Wave) : Instr → Option Reaching
  | .ld h t _ _ d ma idx fresh => let v := s.issOf c w h
    let a := v.locateAll (v.reach { acc := .read, imm := fresh, spaces := allSpaces } ma t idx)
    some ⟨h, pairOf ma.base ++ (idx.map (·.toNat)).toList ++ regsOf t d, regsOf t d, a, !fresh || v.clear a⟩
  | .ldb h code t _ _ d ma => let v := s.issOf c w h
    let a := v.blockAccess { acc := .read, whole := true, spaces := allSpaces } ma t
    some ⟨h, pairOf ma.base ++ regsOf t d, regsOf t d, a, (v.lanes.all fun l => v.ea ma l == v.ea ma v.low) &&
      match a with
      | .ok ((_, p) :: _) => !code || fmtMx p.fdt.fmt || fmtDx p.fdt.fmt
      | _ => false⟩
  | .atom h _ t d ma b => let v := s.issOf c w h
    let a := v.immReach .both ma t
    some ⟨h, pairOf ma.base ++ regsOf t b ++ regsOf t d, regsOf t d, a, v.clear a⟩
  | .cas h t d ma b => let v := s.issOf c w h
    let a := v.immReach .both ma t
    some ⟨h, pairOf ma.base ++ runOf b (if t.is64 then 4 else 2) ++ regsOf t d, regsOf t d, a, v.clear a⟩
  | .lr h t d ma => let v := s.issOf c w h
    let a := v.immReach .read ma t
    some ⟨h, pairOf ma.base ++ regsOf t d, regsOf t d, a, v.clear a⟩
  | .sc h t d ma b => let v := s.issOf c w h
    let a := v.immReach .both ma t
    some ⟨h, pairOf ma.base ++ regsOf t b ++ [d.toNat], [d.toNat], a, v.clear a⟩
  | _ => none

/-- The bytes outside these accesses are as before: at the homes but for ACC and DIRTY bits of entries, and in the spaces of
the block; every other wave, block and table too, and of the wave and its block all but `Wave.quiet`'s exceptions, its FLAGS
and those spaces. -/
def Reached (s t : State) (c : Cur) (w : Wave) (ps : List (Nat × Place)) : Prop :=
  Memory.GrewBut (fun a => ps.any fun x => x.2.homes.contains a) s.mem t.mem ∧
  (∀ sp a, (∀ x ∈ ps, x.2.touches sp a = false) → ((t.block w.block).buf sp).byte a = ((s.block w.block).buf sp).byte a) ∧
  (∀ j, j ≠ c.wave → (Tab.find t.waves j).map Wave.body = (Tab.find s.waves j).map Wave.body) ∧
  (t.wave c.wave).quiet = (s.wave c.wave).quiet ∧
  (∀ n, n ≠ w.block → (t.block n).still = (s.block n).still) ∧
  { (t.block w.block).still with s := Buffer.blank, a := Buffer.blank } =
    { (s.block w.block).still with s := Buffer.blank, a := Buffer.blank } ∧
  t.dev = s.dev ∧ t.clusters = s.clusters

/-- The read instructions complete: where every lane of ACTIVE locates its access and nothing orders it behind, the path
passes, a result is on its way to the destination words of ACTIVE, whose P bits are set, and nothing else changes but what an
access that writes may write. -/
def ReadsComplete : Prop :=
  ∀ s c w ins r ps, readReach s c w ins = some r → s.Ready c w r.h r.rs → (s.issOf c w r.h).act ≠ 0 →
    r.accesses = .ok ps → r.ok = true →
    let words := (s.issOf c w r.h).lanes.flatMap fun l => r.dest.map fun d => (d, l)
    ∃ t id x, exec ins s = .next t ∧ Passed s t c ∧ Holds s t c.wave [] ∧ Pends s t c.wave words ∧
      Tab.find t.fly.results id = some x ∧ x.wave = c.wave ∧ x.writes.map Prod.fst = words.map (fun d => wordKey d.1 d.2) ∧
      FlagsFrom w.flags (t.wave c.wave).flags ps ∧ Reached s t c w ps

end Sys2Proof.Machine
end

