-- ==== Sys2Proof/Safety/Store.lean ====
section
/-! DEFINITION. What the instructions that write memory leave, and the values that loads, stores and immediate accesses move
between registers and memory. -/

namespace Sys2Proof.Machine

/-- The instructions that write memory and return nothing (R236, R238, R239, R241). -/
def writeReach (s : State) (c : Cur) (w : Wave) : Instr → Option Reaching
  | .st h t _ _ d ma idx => let v := s.issOf c w h
    some ⟨h, pairOf ma.base ++ (idx.map (·.toNat)).toList ++ regsOf t d, [],
      v.locateAll (v.reach { acc := .write, spaces := wrSpaces } ma t idx), true⟩
  | .stb h _ d ma scale => let v := s.issOf c w h
    let a := v.blockAccess { acc := .write, whole := true, spaces := wrSpaces } ma .f32
    let sc := fun l => scale.elim 0 fun r => (v.rd r.toNat l).toNat % 65536
    some ⟨h, pairOf ma.base ++ [d.toNat] ++ (scale.map (·.toNat)).toList, [], a,
      (v.lanes.all fun l => v.ea ma l == v.ea ma v.low && sc l == sc v.low) &&
      match a with
      | .ok ((_, p) :: _) => (p.fdt.fmt == 24) == scale.isSome
      | _ => false⟩
  | .zero h ma => let v := s.issOf c w h
    some ⟨h, pairOf ma.base, [], v.locateAll fun l => v.zeroAt ma.sp (v.ea ma l), true⟩
  | .atomn h _ t ma b => let v := s.issOf c w h
    let a := v.immReach .both ma t
    some ⟨h, pairOf ma.base ++ regsOf t b, [], a, v.clear a⟩
  | _ => none

/-- The instructions that write memory complete: where every lane of ACTIVE locates its access and nothing orders it behind,
the path passes, no register changes or waits, and nothing else changes but what the access may write: bytes of its spaces
at its own addresses, and, for an atomic operation alone, bytes at its own homes; a store to g leaves every home byte. -/
def WritesComplete : Prop :=
  ∀ s c w ins r ps, writeReach s c w ins = some r → s.Ready c w r.h r.rs → (s.issOf c w r.h).act ≠ 0 →
    r.accesses = .ok ps → r.ok = true →
    ∃ t, exec ins s = .next t ∧ Passed s t c ∧ Holds s t c.wave [] ∧ Pends s t c.wave [] ∧
      FlagsFrom w.flags (t.wave c.wave).flags ps ∧ Reached s t c w ps ∧
      ((∀ h op t ma b, ins ≠ .atomn h op t ma b) → Memory.Grew s.mem t.mem)

/-! ### Values -/

/-- Bytes of g as the core's L1 holds them, or of a space of the block. -/
def State.heldBytes (s : State) (v : Iss) (sp : Space) (addr n : Nat) (q : Option Span) : List Byte :=
  match q with
  | some q => q.cells.map fun c => ((Tab.find (s.line v.core (lineKey v.w.ctx c.1)).bytes (c.1 % 128)).map (·.val)).getD 0
  | none => ((s.block v.blk).buf sp).take addr n

/-- Bytes at their homes in a memory, or of a space of the block. -/
def State.homeBytes (s : State) (m : Memory) (v : Iss) (sp : Space) (addr n : Nat) (q : Option Span) : List Byte :=
  match q with
  | some q => q.cells.map fun c => m.byte c.2
  | none => ((s.block v.blk).buf sp).take addr n

/-- The core's L1 holds these bytes of g, good ones. -/
def State.allHeld (s : State) (v : Iss) (q : Option Span) : Bool :=
  q.elim true fun q => q.cells.all fun c =>
    match Tab.find (s.core v.core).l1 (lineKey v.w.ctx c.1) with
    | some l => !l.out && Tab.has l.bytes (c.1 % 128)
    | none => false

/-- The core's L1 has no line of these bytes of g, and none of its write-backs of one is on its way. -/
def State.noneHeld (s : State) (v : Iss) (q : Option Span) : Bool :=
  q.elim true fun q => q.cells.all fun c => (Tab.find (s.core v.core).l1 (lineKey v.w.ctx c.1)).isNone &&
    (s.inFlight v.core (lineKey v.w.ctx c.1)).isEmpty

/-- The value that a load makes of its bytes and its scales, `f` giving the bytes (R230, R231, R235). -/
def Iss.valueOf (v : Iss) (t : RType) (m : RMode) (sat : Bool) (l : Nat) (p : Place)
    (f : Space → Nat → Nat → Option Span → List Byte) : Nat :=
  (v.loadValue t m sat l p (leNat (f p.sp p.addr p.n p.span))
    (p.scales.map fun y => (y.1, leNat (f p.sp y.2.1 (fmtScaleBytes p.fdt.fmt) y.2.2)))).1

/-- Words under their keys. -/
def keyed (ws : List (Nat × Nat × Word)) : List (Nat × Word) := ws.map fun x => (wordKey x.1 x.2.1, x.2.2)

/-- LD returns in each lane of ACTIVE the value of the bytes that it read: those of the core's L1 where it holds them, those of
the space, or, for an immediate read, those at their homes, in which translations may have set ACC and DIRTY bits
(R235, R208, R216). -/
def LoadsValue : Prop :=
  ∀ s c w h t m sat d ma idx fresh ps, s.Ready c w h (pairOf ma.base ++ (idx.map (·.toNat)).toList ++ regsOf t d) →
    let v := s.issOf c w h
    v.act ≠ 0 → v.locateAll (v.reach { acc := .read, imm := fresh, spaces := allSpaces } ma t idx) = .ok ps →
    (fresh = true → v.clear (.ok ps) = true) →
    (∀ x ∈ ps, (if fresh then s.noneHeld v else s.allHeld v) x.2.span = true ∧
      ∀ y ∈ x.2.scales, (if fresh then s.noneHeld v else s.allHeld v) y.2.2 = true) →
    ∃ u id x m', exec (.ld h t m sat d ma idx fresh) s = .next u ∧ Memory.Grew s.mem m' ∧
      Tab.find u.fly.results id = some x ∧ x.wave = c.wave ∧
      x.writes = keyed (ps.flatMap fun y => RType.words t d y.1 (v.valueOf t m sat y.1 y.2
        (if fresh then s.homeBytes m' v else s.heldBytes v)))

/-- The code that a store makes of its operand: its bits for raw memory, the elements converted and packed else (R231, R236). -/
def Iss.codeOf (v : Iss) (t : RType) (m : RMode) (sat : Bool) (d : Reg) (l : Nat) (p : Place) : Nat :=
  if p.fdt.fmt = 0 then v.raw t d l
  else packElems p.w ((List.range (RType.elems t)).map fun k => (v.storeElem t m sat l k p.fdt.fmt (v.raw t d l)).1)

/-- The access covers whole bytes. -/
def Place.whole (p : Place) (t : RType) : Prop := p.fdt.fmt = 0 ∨ (p.bit = 0 ∧ p.w * RType.elems t % 8 = 0)

/-- No lane after `l` accesses a byte that `p` covers. -/
def lastThere (ps : List (Nat × Place)) (l : Nat) (p : Place) : Prop :=
  ∀ x ∈ ps, l < x.1 → x.2.addr + x.2.n ≤ p.addr ∨ p.addr + p.n ≤ x.2.addr

/-- ST and ZERO leave in memory the code of the last lane that covers a byte: in the space of the block, or in the core's L1,
where it holds the lines, as dirty bytes (R197, R198, R236, R239). -/
def StoresValue : Prop :=
  ∀ s c w ins h rs ps (code : Nat → Place → Nat),
    let v := s.issOf c w h
    ((∃ t m sat d ma idx, ins = Instr.st h t m sat d ma idx ∧ rs = pairOf ma.base ++ (idx.map (·.toNat)).toList ++ regsOf t d ∧
        v.locateAll (v.reach { acc := .write, spaces := wrSpaces } ma t idx) = .ok ps ∧ code = v.codeOf t m sat d ∧
        ∀ x ∈ ps, x.2.whole t) ∨
      ∃ ma, ins = .zero h ma ∧ rs = pairOf ma.base ∧ v.locateAll (fun l => v.zeroAt ma.sp (v.ea ma l)) = .ok ps ∧ code = fun _ _ => 0) →
    s.Ready c w h rs → v.act ≠ 0 → (s.block w.block).depth = 0 →
    (∀ x ∈ ps, x.2.span.elim true (fun q => q.cells.all fun y => decide (y.1 < 2 ^ 48) && (Tab.find (s.core v.core).l1 (lineKey w.ctx y.1)).any fun l => !l.out) = true) →
    ∃ t, exec ins s = .next t ∧ ∀ x ∈ ps, lastThere ps x.1 x.2 →
      t.heldBytes v x.2.sp x.2.addr x.2.n x.2.span = leBytes x.2.n (code x.1 x.2) ∧
      ∀ q, x.2.span = some q → ∀ y ∈ q.cells,
        ((Tab.find (t.line v.core (lineKey w.ctx y.1)).bytes (y.1 % 128)).any fun b => b.dirty.isSome) = true

/-- The value that an immediate access of one lane leaves, if it writes one, and the one that it returns; each of the operand
registers and of the value found (R240 to R243). -/
def immValue (v : Iss) (l : Nat) (p : Place) : Instr → Option (Hdr × List Nat × MemArg × RType × Access × Option (RType × Reg) × (Nat → Option Nat) × (Nat → Nat))
  | .atom h op t d ma b => some (h, pairOf ma.base ++ regsOf t b ++ regsOf t d, ma, t, .both, some (t, d), fun old => some (atomNew op t old (v.raw t b l)), id)
  | .atomn h op t ma b => some (h, pairOf ma.base ++ regsOf t b, ma, t, .both, none, fun old => some (atomNew op t old (v.raw t b l)), id)
  | .cas h t d ma b => some (h, pairOf ma.base ++ runOf b (if t.is64 then 4 else 2) ++ regsOf t d, ma, t, .both, some (t, d),
      fun old => if old = v.raw t b l then some (v.raw t (b + if t.is64 then 2 else 1) l) else none, id)
  | .lr h t d ma => some (h, pairOf ma.base ++ regsOf t d, ma, t, .read, some (t, d), fun _ => none, id)
  | .sc h t d ma b =>
    let held := p.reserved (Tab.find v.w.resv l)
    some (h, pairOf ma.base ++ regsOf t b ++ [d.toNat], ma, t, .both, some (.z32, d),
      fun _ => if held then some (v.raw t b l) else none, fun _ => if held then 1 else 0)
  | _ => none

/-- An immediate access of one lane takes the bytes at its home, or in its space, in one step: it returns what the rule gives,
its home or space then holds what the rule leaves, LR makes the lane's reservation and SC ends it
(R216, R218, R240 to R243). The core's L1 has no line of them and none is on its way from there,
no word of them is bad, and each has a home of its own. -/
def ImmediatesAct : Prop :=
  ∀ s c w ins l p r, immValue (s.issOf c w r.1) l p ins = some r → s.Ready c w r.1 r.2.1 →
    (s.block w.block).depth = 0 →
    let v := s.issOf c w r.1
    let (_, _, ma, t, acc, dest, new, res) := r
    v.immReach acc ma t = .ok [(l, p)] → v.act ≠ 0 → v.clear (.ok [(l, p)]) = true → s.noneHeld v p.span = true → p.homes.Nodup →
    (p.span.elim none (fun q => s.mem.badAt q.cells)) = none → (p.span = none → ((s.block w.block).buf p.sp).bad p.addr p.n = none) →
    ∃ u m', exec ins s = .next u ∧ Memory.Grew s.mem m' ∧
      let old := leNat (s.homeBytes m' v p.sp p.addr p.n p.span)
      u.homeBytes u.mem v p.sp p.addr p.n p.span = (match new old with
        | some x => leBytes p.n x
        | none => s.homeBytes m' v p.sp p.addr p.n p.span) ∧
      (∀ ty d, dest = some (ty, d) → ∃ id x, Tab.find u.fly.results id = some x ∧ x.wave = c.wave ∧ x.bad = [] ∧
        x.writes = keyed (RType.words ty d l (res old))) ∧
      (∀ h t d ma, ins = .lr h t d ma → Tab.find (u.wave c.wave).resv l = some (p.resv 0)) ∧
      (∀ h t d ma b, ins = .sc h t d ma b → Tab.find (u.wave c.wave).resv l = none)

end Sys2Proof.Machine
end

