-- ==== Sys2Proof/Safety/Order.lean ====
section
/-! DEFINITION. What instructions that start or order work leave in common, and the instructions that order memory. -/

namespace Sys2Proof.Machine

/-- An instruction that starts or orders work: its header, the registers that it uses in its own lanes, those that it only
names, whether it is for context 0 alone, the words that wait for what it starts, the conditions on its operands and the
state, and what it leaves beyond `Starts`. -/
structure Starting where
  h : Hdr
  rs : List Nat := []
  names : List Nat := []
  sup : Bool := false
  words : List (Nat × Nat) := []
  ok : Prop := True
  left : State → Prop
  sto : Option RMode := none

/-- Names that an instruction may use: in the footprint and in no queue's range (R90, R99). -/
def Wave.names (w : Wave) (rs : List Nat) : Bool := rs.all fun r => decide (r < w.foot) && (w.queueAt r).isNone

/-- A table has one record more, of which `p` holds, and no other record has changed. -/
def Added {α : Type} (old new : Tab α) (p : α → Prop) : Prop :=
  ∃ id x, Tab.find new id = some x ∧ p x ∧ ∀ j, j ≠ id → Tab.find new j = Tab.find old j

/-- FLAGS after an instruction that may take a step of the stochastic sequence (R46). -/
def Wave.flagsAfter (w : Wave) (sto : Option RMode) : Word :=
  match sto with
  | some m => if w.mode m == .sto then stepSeq w.flags else w.flags
  | none => w.flags

/-- The path has passed, no word has changed, FLAGS only by that step, these words wait, and of all waves, and of this one
all but what `Wave.quiet` leaves out, everything is as before, as are clusters and turns. -/
def Going (s t : State) (c : Cur) (w : Wave) (words : List (Nat × Nat)) (sto : Option RMode) : Prop :=
  Passed s t c ∧ Holds s t c.wave [] ∧ Pends s t c.wave words ∧ (t.wave c.wave).flags = w.flagsAfter sto ∧
  (t.wave c.wave).quiet = w.quiet ∧ (∀ j, j ≠ c.wave → (t.wave j).body = (s.wave j).body) ∧
  t.clusters = s.clusters ∧ t.agenda = s.agenda

/-- And so is memory, but for ACC and DIRTY bits. -/
def Begun (s t : State) (c : Cur) (w : Wave) (words : List (Nat × Nat)) (sto : Option RMode) : Prop :=
  Going s t c w words sto ∧ Memory.Grew s.mem t.mem

/-- And so are blocks, but for their recovery state, and the device's tables. -/
def Starts (s t : State) (c : Cur) (w : Wave) (words : List (Nat × Nat)) (sto : Option RMode) : Prop :=
  Begun s t c w words sto ∧ (∀ n, (t.block n).still = (s.block n).still) ∧ t.dev = s.dev

/-- What a table of such instructions says: each one, where its wave may issue it, a lane is active and its conditions hold,
goes to a next state that it has started as the table says. -/
def Begins (table : State → Cur → Wave → Instr → Option Starting) : Prop :=
  ∀ s c w ins r, table s c w ins = some r → s.Ready c w r.h r.rs → w.names r.names = true → (r.sup = true → w.ctx = 0) →
    (s.issOf c w r.h).act ≠ 0 → r.ok → ∃ t, exec ins s = .next t ∧ Starts s t c w r.words r.sto ∧ r.left t

/-- A result on its way to the wave: these values for its words, none bad, no completion entry. -/
def ResultOn (k : Nat) (ws : List (Nat × Nat × Word)) (r : Result) : Prop :=
  r.wave = k ∧ r.writes = keyed ws ∧ r.bad = [] ∧ r.owes = [] ∧ r.entry = none

/-- The words of one destination in every lane of ACTIVE. -/
def Iss.dest (v : Iss) (d : Reg) : List (Nat × Nat) := v.lanes.map fun l => (d.toNat, l)

/-! ### Ordering -/

/-- A line's dirty bytes that no scope holds are on their way home, for a publish or as a write-back (R197, R211). -/
def Captured (s t : State) (core key : Nat) (pub : Option Nat) : Prop :=
  (s.line core key).loose ≠ [] → ∃ n x, Tab.find t.fly.lines n = some x ∧ x.publish = pub ∧ x.core = core ∧ x.ctx = keyCtx key ∧
    x.va = keyVa key ∧ x.bytes = (s.line core key).loose

/-- A publish has captured every dirty byte of a core that no scope holds, and left them clean (R210, R211). -/
def Published (s t : State) (core : Nat) : Prop := ∃ id, ∀ key, Captured s t core key (some id)

/-- After an adopt a core's L1 holds only bytes that are dirty or held, and no instruction line (R67, R213). -/
def Adopted (t : State) (core : Nat) : Prop :=
  (t.core core).icache = [] ∧ ∀ p ∈ (t.core core).l1, ∀ b ∈ p.2.bytes, b.2.dirty.isSome ∨ b.2.holder.isSome

/-- The instructions that order memory and move lines (R210 to R217, R245 to R249). -/
def orderStart (s : State) (c : Cur) (w : Wave) : Instr → Option Starting
  | .phasePub h =>
    let core := s.coreOf c.wave
    some {
      h := h
      left := fun t => Published s t core ∧ (∀ key, (t.line core key).loose = []) ∧ t.mem = s.mem ∧
        ∀ key off, (Tab.find (t.line core key).bytes off).map (·.val) = (Tab.find (s.line core key).bytes off).map (·.val) }
  | .phaseAdopt h =>
    let core := s.coreOf c.wave
    some {
      h := h
      ok := s.adoptWaits c.wave c.path = false
      left := fun t => Adopted t core ∧ t.mem = s.mem ∧
        ∀ p ∈ (s.core core).l1, ∀ b ∈ p.2.bytes, (b.2.dirty.isSome ∨ b.2.holder.isSome) →
          ∃ q ∈ (t.core core).l1, q.1 = p.1 ∧ b ∈ q.2.bytes }
  | .phaseBoth h =>
    let core := s.coreOf c.wave
    some {
      h := h
      ok := s.adoptWaits c.wave c.path = false ∧ w.phased.contains c.pc = false
      left := fun t => Published s t core ∧ Adopted t core ∧ t.mem = s.mem }
  | .fence h =>
    some {
      h := h
      left := fun t => t.mem = s.mem ∧ t.fly = s.fly ∧ ∀ n, (t.core n).rest = (s.core n).rest }
  | .pref h ma =>
    let v := s.issOf c w h
    some {
      h := h
      rs := pairOf ma.base
      ok := ma.sp = .g
      left := fun t => ∀ a x, (v.prefLanes ma).getLast? = some (a, x) →
        ∀ j, j < 128 → Tab.has (t.line v.core (lineKey w.ctx a)).bytes j = true }
  | .prefL2 h ma =>
    some {
      h := h
      rs := pairOf ma.base
      ok := ma.sp = .g
      left := fun t => ∀ n, (t.core n).rest = (s.core n).rest }
  | .flush h ma =>
    let v := s.issOf c w h
    some {
      h := h
      rs := pairOf ma.base
      ok := ma.sp = .g
      left := fun t => t.mem = s.mem ∧ ∀ l ∈ v.lanes, v.ea ma l < 2 ^ 48 →
        Captured s t v.core (lineKey w.ctx (v.ea ma l)) none ∧ (t.line v.core (lineKey w.ctx (v.ea ma l))).loose = [] }
  | .sways h d a =>
    let v := s.issOf c w h
    let new : BitVec 16 := (v.rd a.toNat v.low).extractLsb' 0 16
    let free := fun way => !((s.core v.core).split &&& ~~~new).getLsbD way ||
      (s.wayHolders v.core way).all fun b => (s.block b).st == .draining
    some {
      h := h
      rs := [a.toNat, d.toNat]
      sup := true
      words := v.dest d
      ok := (v.lanes.all fun l => v.rd a.toNat l == v.rd a.toNat v.low) = true ∧ (List.range 16).all free = true
      left := fun t => (t.core v.core).sways = (s.core v.core).sways ++
          [⟨c.wave, d.toNat, v.act, new, 0, (s.block w.block).depth, w.trap.level⟩] ∧
        (t.core v.core).scratch = (s.core v.core).scratch }
  | _ => none

end Sys2Proof.Machine
end

