-- ==== Sys2Proof/Safety/Copies.lean ====
section
/-! DEFINITION. What the copy movers, their queries and cancellation, and Sheepdog's commands leave at their issue. -/

namespace Sys2Proof.Machine

/-! ### Copy movers -/

/-- A copy mover: its operation, destination, A run, B and C runs with their lengths, decrement, and arguments
(R255 to R264). -/
structure CopyForm where
  h : Hdr
  op : CopyOp
  d : Reg
  a : Reg
  b : Option Reg
  c : Option Reg
  bN : Nat
  cN : Nat
  dec : Nat
  x : CopyArg

/-- The copy movers. -/
def copyForm : Instr → Option CopyForm
  | .cpy h d a x => some ⟨h, .plain, d, a, none, none, 0, 0, 0, x⟩
  | .cpym h d a b sig x => some ⟨h, .multi, d, a, some b, sig, 1, 2, 0, x⟩
  | .cpyxGather h d a b x => some ⟨h, .gather, d, a, some b, none, 1, 0, 0, x⟩
  | .cpyxScatter h d a b x => some ⟨h, .scatter, d, a, some b, none, 1, 0, 0, x⟩
  | .cpys h d a c dec x => some ⟨h, .signal, d, a, none, some c, 0, 2, dec.toNat, x⟩
  | .cpyw h d a c x => some ⟨h, .window, d, a, none, some c, 0, 2, 0, x⟩
  | _ => none

/-- The registers of a copy mover's runs. -/
def CopyForm.srcs (f : CopyForm) : List Nat :=
  runOf f.a 8 ++ (f.b.elim [] fun r => runOf r f.bN) ++ f.c.elim [] fun r => runOf r f.cN

/-- The run that holds the index array's address (R260). -/
def CopyForm.idx (f : CopyForm) : Option Reg := if f.op = .gather ∨ f.op = .scatter then f.b else none

/-- The receiver mask, and the handle of the C run (R261, R263, R264). -/
def CopyForm.runs (f : CopyForm) (v : Iss) : Nat × DWord :=
  (if f.op = .multi then f.b.elim 0 fun r => (v.desc r 0).toNat % 256 else 0, f.c.elim 0 fun r => v.desc2 r 0)

/-- Every lane of ACTIVE holds the same runs (R250). -/
def CopyForm.uniform (f : CopyForm) (v : Iss) : Prop := ∀ r ∈ f.srcs, ∀ l ∈ v.lanes, v.rd r l = v.rd r v.low

/-- This arrival takes the slots of its receiver mask: the first of a multicast that names one (R262). -/
def CopyForm.takes (f : CopyForm) (v : Iss) : Bool := f.op == .multi && v.collective.all fun p => p.2.runs.isNone

/-- A copy mover that meets no fault and nothing that holds it joins its wave set's next collective, or begins one: the
collective holds one slice more, its token waits, the wave's count of copy movers is one more, and the first arrival of a
multicast takes a slot of each receiver; nothing else changes (R252, R255 to R264). -/
def CopiesStart : Prop :=
  ∀ s c w ins f, copyForm ins = some f → s.Ready c w f.h (f.srcs ++ [f.d.toNat]) →
    let v := s.issOf c w f.h
    v.act ≠ 0 → f.uniform v → v.copyChecks f.op f.x (v.slice f.d f.a f.idx f.x 0) = none →
    ((f.x.ssp = .g ∨ f.x.dsp = .g ∨ f.op = .signal ∨ (f.op = .multi ∧ f.c.isSome)) → s.publishing c.wave = false) →
    (∀ p, v.collective = some p → p.2.stage ≠ .ended) →
    (f.takes v = true → ∀ g ∈ maskMembers (f.runs v).1, v.b.free g ≠ 0) → (Tab.find s.blocks w.block).isSome →
    ∃ t, exec ins s = .next t ∧ Begun s t c w (v.dest f.d) (f.x.cvf.map fun _ => f.x.m) ∧
      (t.wave c.wave).copies = w.copies + 1 ∧ t.dev = s.dev ∧
      (∀ n, n ≠ w.block → (t.block n).still = (s.block n).still) ∧
      (t.block w.block).still = (if f.takes v then (s.block w.block).takeSlots (f.runs v).1 else s.block w.block).still ∧
      ∃ id x order, Tab.find t.fly.copies id = some x ∧ (∀ j, j ≠ id → Tab.find t.fly.copies j = Tab.find s.fly.copies j) ∧
        match v.collective with
        | none => x = ⟨f.op, f.x, f.dec, f.op == .multi && f.c.isSome, some (f.runs v), true, w.block, decide (w.wib ≥ 32), w.copies,
            .gathering, [v.slice f.d f.a f.idx f.x order], [], none, 0, 0, (s.block w.block).depth, false, false, []⟩
        | some (n, y) => id = n ∧ x = { y with
            slices := y.slices ++ [v.slice f.d f.a f.idx f.x order]
            agree := y.agree && y.agrees f.op f.x f.dec (f.op == .multi && f.c.isSome) (some (f.runs v))
            runs := y.runs.orElse fun _ => some (f.runs v) }

/-- The queries of copies: CPYQ.tok reads P bits and CPYQ.slots the slots left (R262, R265). -/
def copyQuery (s : State) (c : Cur) (w : Wave) : Instr → Option Starting
  | .cpyqTok h d a =>
    let v := s.issOf c w h
    some {
      h := h
      rs := [d.toNat]
      names := [a.toNat]
      words := v.dest d
      left := fun t => Added s.fly.results t.fly.results
        (ResultOn c.wave (v.each d.toNat fun l => if (Tab.get 0 w.pend a.toNat).getLsbD l then 0 else 1)) }
  | .cpyqSlots h d r =>
    let v := s.issOf c w h
    some {
      h := h
      rs := [d.toNat]
      words := v.dest d
      ok := (s.block w.block).gang.isSome = true
      left := fun t => Added s.fly.results t.fly.results
        (ResultOn c.wave (v.each d.toNat fun _ => BitVec.ofNat 32 ((s.block w.block).free r.toNat))) }
  | _ => none

/-- CPYQ.free sends the gang member that it names a message that gives it one slot back, and changes nothing else (R262, R265,
R295). -/
def SlotsReturn : Prop :=
  ∀ s c w h r g, s.Ready c w h [] → (s.issOf c w h).act ≠ 0 → (s.block w.block).gang = some g →
    ∃ t, exec (.cpyqFree h r) s = .next t ∧ Begun s t c w [] none ∧ t.dev = s.dev ∧ t.blocks = s.blocks ∧
      match s.member w.block r.toNat with
      | some m => Added s.fly.frees t.fly.frees fun x => x = ⟨s.coreOf c.wave, m, g⟩
      | none => t.fly = s.fly

/-- A message of CPYQ.free that no earlier one of its core to the same core holds back reaches the member, which has one slot
more, four at most, and no other block changes (R262, R265, R295). -/
def SlotsArrive : Prop :=
  ∀ (s : State) id (m : FreeMsg), Tab.find s.fly.frees id = some m → (Tab.find s.blocks m.block).isSome →
    s.messageWaits id m.src (s.block m.block).core = false → ∀ n, (s.freeArrives id).block n =
      if n = m.block then
        { s.block n with slots := Tab.set 4 (s.block n).slots m.slot (min 4 (Tab.get 4 (s.block n).slots m.slot + 1)) }
      else s.block n

/-- The copies that CPYC and CPYC.all cancel (R266). -/
def cancels (c : Cur) (w : Wave) : Instr → Option (Hdr × List Nat × (Copy → Bool))
  | .cpyc h a => some (h, [a.toNat], fun x => x.slices.any fun y =>
      y.wave == c.wave && y.token == a.toNat && y.lanes &&& Tab.get 0 w.pend a.toNat != 0)
  | .cpycAll h => some (h, [], fun x => x.block == w.block)
  | _ => none

/-- A cancelled copy: one that gathers has ended, with no slice left, or is gone; one that runs moves no further packet, and
one that has an ending keeps it (R266). -/
def Cancelled (x : Copy) (y : Option Copy) : Prop :=
  match x.stage with
  | .gathering => y = none ∨ y = some { x with stage := .ended, slices := [] }
  | .running => y = some (if x.ending = 0 then { x with ending := 2 } else x)
  | .ended => y = some x

/-- CPYC and CPYC.all cancel the copies that they name and no others, and pass (R266). -/
def CancelsGo : Prop :=
  ∀ s c w ins h names p, cancels c w ins = some (h, names, p) → s.Ready c w h [] → w.names names = true →
    (s.issOf c w h).act ≠ 0 →
    ∃ t, exec ins s = .next t ∧ Passed s t c ∧ t.mem = s.mem ∧ t.blocks = s.blocks ∧ t.dev = s.dev ∧
      ∀ id, match Tab.find s.fly.copies id with
        | none => Tab.find t.fly.copies id = none
        | some x => if p x then Cancelled x (Tab.find t.fly.copies id) else Tab.find t.fly.copies id = some x

/-! ### Sheepdog -/

/-- A Sheepdog command: its kind, destination, A and B runs, C run, and page size (R282). -/
structure SdForm where
  h : Hdr
  kind : SdKind
  d : Reg
  a : Reg
  b : Reg
  c : Option Reg
  p64 : Bool

/-- The commands. -/
def sdForm : Instr → Option SdForm
  | .sdpark h d a b p64 f elide sig => some ⟨h, .park f elide, d, a, b, sig, p64⟩
  | .sdcall h d a b c p64 => some ⟨h, .call, d, a, b, some c, p64⟩
  | .sddrop h d a b p64 => some ⟨h, .drop, d, a, b, none, p64⟩
  | _ => none

/-- The registers of a command's runs. -/
def SdForm.srcs (f : SdForm) : List Nat := runOf f.a 3 ++ runOf f.b 2 ++ (f.c.elim [] fun r => runOf r 2)

/-- First page, number of pages, slot handle. -/
def SdForm.base (f : SdForm) (v : Iss) : Nat := (v.desc2 f.a 0).toNat
/-- Number of pages. -/
def SdForm.count (f : SdForm) (v : Iss) : Nat := (v.desc f.a 2).toNat % 65536
/-- The slot's handle. -/
def SdForm.slot (f : SdForm) (v : Iss) : DWord := v.desc2 f.b 0

/-- What a command that ends at its issue reports: nothing for no page, CLASS 5 for a handle of no slot of its context, CLASS
11 for a slot that another boot wrote (R253, R282, R363). -/
def SdForm.atOnce (f : SdForm) (s : State) (v : Iss) : Option Err :=
  if f.count v = 0 then some Err.none
  else match s.foldSlot v.w.ctx (f.slot v) with
    | none => some ⟨5, 5, 0, 0, 0⟩
    | some x => if x.st = 3 then some ⟨11, 5, 0, 0, 0⟩ else none

/-- A Sheepdog command whose runs agree, whose first page is aligned and whose last one lies below 2^48 passes, its token
waiting: one that ends at its issue has its token on the way with the error and a completion entry for it; every other one
is taken by Sheepdog, which begins it, as far as its slot and the commands before it allow, in the same step (R253, R282). -/
def SheepdogStarts : Prop :=
  ∀ s c w ins f, sdForm ins = some f → s.Ready c w f.h (f.srcs ++ [f.d.toNat]) →
    let v := s.issOf c w f.h
    v.act ≠ 0 → (∀ r ∈ f.srcs, ∀ l ∈ v.lanes, v.rd r l = v.rd r v.low) → f.base v % pageBytes f.p64 = 0 →
    (f.count v = 0 ∨ f.base v + f.count v * pageBytes f.p64 ≤ 2 ^ 48) → s.publishing c.wave = false →
    (∀ e, f.atOnce s v = some e →
      ∃ t, exec ins s = .next t ∧ Starts s t c w (v.dest f.d) none ∧ Added s.fly.results t.fly.results fun r => r.wave = c.wave ∧
        r.writes = keyed (v.each f.d.toNat fun _ => tokenWord e (if e.cls = 0 then 0 else 1) 0) ∧
        r.entry = if e.cls = 0 then none else some ((s.launch (s.block w.block).launch).lpb.cq,
          opEntry ((f.slot v).extractLsb' 0 32).toNat 2 w.ctx e)) ∧
    (f.atOnce s v = none →
      ∃ t u id x, exec ins s = .next t ∧ t = u.sdServe ∧ Starts s u c w (v.dest f.d) none ∧
        Tab.find u.fly.sd id = some x ∧ (∀ j, j ≠ id → Tab.find u.fly.sd j = Tab.find s.fly.sd j) ∧
        x.kind = f.kind ∧ x.wave = c.wave ∧ x.token = f.d.toNat ∧ x.lanes = v.act ∧ x.handle = f.slot v ∧ x.p64 = f.p64 ∧
        x.pages = (List.range (f.count v)).map (fun j => f.base v + j * pageBytes f.p64) ∧ x.started = false ∧ x.err = none)

/-- SDSTAT returns what each lane's handle is: its slot's state and the number of its parked pages (R286). -/
def statStart (s : State) (c : Cur) (w : Wave) : Instr → Option Starting
  | .sdstat h d a =>
    let v := s.issOf c w h
    some {
      h := h
      rs := pairOf a ++ [d.toNat]
      words := v.dest d
      left := fun t => Added s.fly.results t.fly.results
        (ResultOn c.wave (v.each d.toNat fun l => s.slotStatus w.ctx (v.rd2 a.toNat l))) }
  | _ => none

end Sys2Proof.Machine
end

