-- ==== Sys2Proof/Safety/Flow.lean ====
section
/-! DEFINITION. What the control and system instructions leave: counters, special registers, traps, the ends of lanes. -/

namespace Sys2Proof.Machine

/-- The lanes of `act` are at counters of their own, the rest of the path at the next one, every other lane where it was. -/
def Went (s t : State) (c : Cur) (act : Mask) (goal : Nat → Ctr) : Prop :=
  ∀ l, l < 32 → (t.wave c.wave).pc l =
    if act.getLsbD l then goal l else if c.path.getLsbD l then nextPc c.pc else (s.wave c.wave).pc l

/-- A control instruction: its header, its registers, whether its transfer is allowed, the link words on their way, and
where each lane of ACTIVE goes. -/
structure Flowing where
  h : Hdr
  rs : List Nat
  ok : Bool
  words : List (Nat × Nat × Word)
  goal : Nat → Ctr

/-- A transfer to a B-form target: the target is a counter and its line lets it in (R66, R70). -/
def Iss.enters (v : Iss) (t : Target) : Bool :=
  match Target.counter t v.pc with
  | some d => !(v.s.targetClear v.core v.w.ctx v.b.launch d).1
  | none => false

/-- The link words of a call in each lane of ACTIVE: the next counter, in the pair (R171, R174). -/
def Iss.linkWords (v : Iss) (d : Reg) : List (Nat × Nat × Word) :=
  v.lanes.flatMap fun l => [(d.toNat, l, (nextPc v.pc).setWidth 32), (d.toNat + 1, l, ((nextPc v.pc).extractLsb' 32 16).setWidth 32)]

/-- The control instructions that move counters (R81, R172 to R175). -/
def flowGoal (s : State) (c : Cur) (w : Wave) : Instr → Option Flowing
  | .nop h => some ⟨h, [], true, [], fun _ => nextPc c.pc⟩
  | .br h t => let v := s.issOf c w h
    some ⟨h, [], v.act == 0 || v.enters t, [], fun _ => (Target.counter t c.pc).getD 0⟩
  | .jmp h t => let v := s.issOf c w h
    some ⟨h, [], v.act == 0 || (v.act == v.path && v.enters t), [], fun _ => (Target.counter t c.pc).getD 0⟩
  | .call h d t => let v := s.issOf c w h
    some ⟨h, pairOf d, v.act == 0 || v.enters t, v.linkWords d, fun _ => (Target.counter t c.pc).getD 0⟩
  | .calli h d a => let v := s.issOf c w h
    some ⟨h, pairOf a ++ pairOf d, v.lanes.all fun l => isCounter (v.rd2 a.toNat l) &&
      !(s.targetClear v.core w.ctx v.b.launch ((v.rd2 a.toNat l).setWidth 48)).1, v.linkWords d, fun l => (v.rd2 a.toNat l).setWidth 48⟩
  | .ret h a => let v := s.issOf c w h
    some ⟨h, pairOf a, v.lanes.all fun l => isCounter (v.rd2 a.toNat l), [], fun l => (v.rd2 a.toNat l).setWidth 48⟩
  | _ => none

/-- Links are on their way to their words, whose P bits are set, and beside the counters nothing else has changed but what an
instruction that starts work may change (R77, R174). -/
def Linked (s t : State) (c : Cur) (w : Wave) (words : List (Nat × Nat × Word)) : Prop :=
  Pends s t c.wave (words.map fun x => (x.1, x.2.1)) ∧
  (∃ id x, Tab.find t.fly.results id = some x ∧ x.wave = c.wave ∧ x.link = true ∧ x.bad = [] ∧ x.owes = [] ∧
    x.writes = words.map fun y => (wordKey y.1 y.2.1, y.2.2)) ∧
  (t.wave c.wave).quiet = w.quiet ∧ Memory.Grew s.mem t.mem ∧ t.dev = s.dev ∧
  (∀ j, j ≠ c.wave → (t.wave j).body = (s.wave j).body) ∧ ∀ n, (t.block n).still = (s.block n).still

/-- The control instructions go where the spec says: each lane of ACTIVE at its target, the rest of the path past the
instruction, the link of a call on its way, and nothing else changed. -/
def FlowsGo : Prop :=
  ∀ s c w ins r, flowGoal s c w ins = some r → s.Ready c w r.h r.rs → r.ok = true →
    ∃ t, exec ins s = .next t ∧ Went s t c (s.issOf c w r.h).act r.goal ∧ Holds s t c.wave [] ∧
      (t.wave c.wave).flags = w.flags ∧ (r.words = [] → (s.block w.block).depth = 0 → Kept s t c.wave) ∧
      (r.words ≠ [] → Linked s t c w r.words)

/-! ### SRD -/

/-- Bits at places of a word. -/
def bitsAt (bs : List (Bool × Nat)) : Nat := bs.foldl (fun n b => if b.1 then n + 2 ^ b.2 else n) 0

/-- The fields of RSTATUS (R373). -/
def rstatusFields (b : Block) (w : Wave) : Nat :=
  let f := b.rcv.frame b.depth
  f.elim 0 (·.rollbacks) * 2 ^ 24 + f.elim 0 (·.rank) * 2 ^ 16 +
    bitsAt [(b.rcv.sitting.isSome, 7), (b.rcv.inRound, 6), (f.any (·.skip), 2), (w.dispatch, 1)]

/-- QSTATE of a lane: for each of the four queue slots eight bits, the top one set where it is configured, then its count
(R114). -/
def queueFields (w : Wave) (l : Nat) : Nat :=
  (List.range 4).foldl (fun n q => n + if Tab.has w.queues q then
    2 ^ (8 * q) * (128 + ((Tab.find w.fifos (q * 32 + l)).elim 0 (·.count))) else 0) 0

/-- The 32-bit special registers of R112, as a lane of a wave reads them from the wave, its block, its launch's parameters, its
core and its launch (R113 to R117). -/
def special32Table (s : State) (k l : Nat) : List (Nat × Nat) :=
  let w := s.wave k
  let b := s.block w.block
  let p := s.lpb w.block
  let cl := s.cluster (b.core / 8)
  let busy := fun v => s.fly.tiles.any fun t => t.2.wave == k && t.2.ver == v
  [(0x000, l), (0x001, w.slot), (0x002, w.handle.toNat), (0x003, b.x), (0x004, b.y), (0x005, b.z), (0x006, p.gx), (0x007, p.gy),
    (0x008, p.gz), (0x009, w.wib), (0x00A, b.nwaves), (0x00B, b.gang.getD 0), (0x00C, b.core % 64), (0x00D, b.core % 64 / 8),
    (0x00E, b.core / 64), (0x00F, s.dev.id), (0x010, w.ctx)] ++
  [(0x020, (w.seenFlags s.free).toNat), (0x021, bitsAt [(b.rcv.broken, 0), (b.rcv.held, 1), (b.rcv.spilled, 2)]),
    (0x030, w.trap.level), (0x031, w.trap.a.cause.toNat), (0x032, w.trap.b.cause.toNat), (0x037, w.trap.a.mask.toNat),
    (0x038, w.trap.b.mask.toNat), (0x040, b.depth), (0x041, rstatusFields b w), (0x042, b.rcv.rcause.toNat)] ++
  [(0x050, w.tcfg.toNat), (0x051, w.tcur * 16 + bitsAt ((List.range 4).map fun v => (busy v, v))),
    (0x060, min (s.launch b.launch).lease (2 ^ 32 - 1)),
    (0x061, s.coreClass b.core + 16 * p.opclass + bitsAt [(decide (cl.boost ≠ 0), 8)]), (0x070, b.spawnDepth),
    (0x071, queueFields w l), (0x080, (s.core b.core).grants)]

/-- The 64-bit special registers of R112 (R112 to R117). -/
def special64Table (s : State) (k l : Nat) : List (Nat × Nat) :=
  let w := s.wave k
  let b := s.block w.block
  [(0x011, (s.core b.core).cycles), (0x033, (Tab.get 0 w.trap.a.epc l).toNat), (0x034, (Tab.get 0 w.trap.b.epc l).toNat),
    (0x035, w.trap.a.addr.toNat), (0x036, w.trap.b.addr.toNat), (0x039, w.trap.vec.toNat), (0x03A, w.trap.save.toNat),
    (0x062, b.heat), (0x072, b.parentCtr.toNat)]

/-- The words that SRD writes: the special register as it stood, in every lane of ACTIVE (R112, R179). -/
def systemResult (s : State) (c : Cur) (w : Wave) : Instr → Option RegResult
  | .srd h false d num => let v := s.issOf c w h
    if ((special32Table s c.wave 0).lookup num.toNat).isSome then
      some (v.wordResult h d [] fun l => BitVec.ofNat 32 (((special32Table s c.wave l).lookup num.toNat).getD 0))
    else none
  | .srd h true d num => let v := s.issOf c w h
    if ((special64Table s c.wave 0).lookup num.toNat).isSome then
      some ⟨h, pairOf d, [], true, v.lanes.flatMap fun l =>
        pairWords d.toNat l (BitVec.ofNat 64 (((special64Table s c.wave l).lookup num.toNat).getD 0)), w.flags⟩
    else none
  | _ => none

end Sys2Proof.Machine
end

