-- ==== Sys2Proof/Safety/System.lean ====
section
/-! DEFINITION. What the system instructions leave: special registers, frame slots, traps and their return, translations,
leases, and the ends of lanes. -/

namespace Sys2Proof.Machine

/-- All is as before but the wave `k` and energy: memory, its poison and its bad words, the L2, tables and devices, every other
wave, every block, core and context. -/
def Apart (s t : State) (k : Nat) : Prop :=
  t.mem = s.mem ∧ t.dev = s.dev ∧ t.fly = s.fly ∧ t.launches = s.launches ∧ t.clusters = s.clusters ∧
  t.vaults = s.vaults ∧ t.blocks = s.blocks ∧ t.agenda = s.agenda ∧ t.l2 = s.l2 ∧
  (∀ n, (t.core n).rest = (s.core n).rest) ∧ (∀ n, (t.ctx n).rest = (s.ctx n).rest) ∧ ∀ j, j ≠ k → t.wave j = s.wave j

/-! ### YIELD, NAP, EXIT -/

/-- A core's sets after its wave gives way to the oldest ready pending wave, if the wave is active and there is one (R27). -/
def State.gaveWay (s : State) (core k : Nat) : Core :=
  match (s.core core).active.contains k, (s.core core).pending.find? (fun x => s.waveReady x.1) with
  | true, some (p, _) => (s.core core).swap k p
  | _, _ => s.core core

/-- YIELD and NAP: the wave gives way, NAP also ranks it last for its count, and nothing else changes (R177, R178). A wave
is in one of its core's sets alone. -/
def YieldsGo : Prop :=
  ∀ s c w h ins nap, (ins = Instr.yield h ∧ nap = w.nap ∨ ∃ n, ins = .nap h n ∧ nap = if n = 0 then 0 else n.toNat + 1) →
    s.Ready c w h [] → ((s.core (s.coreOf c.wave)).pending.all fun x => x.1 != c.wave) = true →
    ∃ t, exec ins s = .next t ∧ Passed s t c ∧ Holds s t c.wave [] ∧ (t.wave c.wave).flags = w.flags ∧
      (t.wave c.wave).rest = { w.rest with nap := nap } ∧
      (t.core (s.coreOf c.wave)).rest = (s.gaveWay (s.coreOf c.wave) c.wave).rest ∧
      (∀ n, n ≠ s.coreOf c.wave → (t.core n).rest = (s.core n).rest) ∧ (∀ n, (t.ctx n).rest = (s.ctx n).rest) ∧
      (∀ j, j ≠ c.wave → t.wave j = s.wave j) ∧ t.mem = s.mem ∧ t.dev = s.dev ∧ t.fly = s.fly ∧ t.blocks = s.blocks ∧
      t.launches = s.launches ∧ t.clusters = s.clusters ∧ t.vaults = s.vaults ∧ t.agenda = s.agenda ∧ t.l2 = s.l2

/-- EXIT outside a scope with no armed flag set: its lanes are live no more and wait for nothing; the wave stays while a
lane lives, and is gone with its last one; no byte of memory changes (R93, R176). -/
def ExitsGo : Prop :=
  ∀ s c w h, s.Ready c w h [] → (s.block w.block).depth = 0 → armedHit (w.seenFlags s.free) = false →
    let act := (s.issOf c w h).act
    ∃ t, exec (.exit h) s = .next t ∧ t.mem = s.mem ∧
      (w.live &&& ~~~act ≠ 0 → Passed s t c ∧ Holds s t c.wave [] ∧ Apart s t c.wave ∧ (t.wave c.wave).flags = w.flags ∧
        (t.wave c.wave).live = w.live &&& ~~~act ∧
        (∀ r, Tab.get 0 (t.wave c.wave).pend r = Tab.get 0 w.pend r &&& ~~~act) ∧
        ∀ r, Tab.get 0 (t.wave c.wave).expt r = Tab.get 0 w.expt r &&& ~~~act) ∧
      (act ≠ 0 → w.live &&& ~~~act = 0 → Tab.find t.waves c.wave = none)

/-! ### SWR and FRAME -/

/-- The trap registers after SWR writes the special register `n`: `v` of the lowest lane, or `f` of each lane (R112, R179). -/
def TrapRegs.swr (t : TrapRegs) (n : Nat) (v : DWord) (ls : List Nat) (f : Nat → DWord) : TrapRegs :=
  match n with
  | 0x033 => { t with a := t.a.putEpc ls f }
  | 0x034 => { t with b := t.b.putEpc ls f }
  | 0x035 => { t with a := { t.a with addr := v } }
  | 0x036 => { t with b := { t.b with addr := v } }
  | 0x037 => { t with a := { t.a with mask := v.setWidth 32 } }
  | 0x038 => { t with b := { t.b with mask := v.setWidth 32 } }
  | 0x039 => { t with vec := v }
  | 0x03A => { t with save := v }
  | _ => t

/-- The value that SWR writes from a lane. -/
def Iss.swrValue (v : Iss) (wide : Bool) (a : Reg) (l : Nat) : DWord :=
  if wide then v.rd2 a.toNat l else (v.rd a.toNat l).setWidth 64

/-- SWR writes the special register it names, each in its own shape, and nothing else (R50, R112 to R116, R179). -/
def SwrGoes : Prop :=
  ∀ s c w h wide num a, s.Ready c w h (if wide then pairOf a else [a.toNat]) → (num = 0x080#12 → w.ctx = 0) →
    let v := s.issOf c w h
    let f := v.swrValue wide a
    v.act ≠ 0 → (num = 0x033#12 ∨ num = 0x034#12 ∨ (v.lanes.all fun l => f l == f v.low) = true) →
    (Tab.find s.blocks w.block).isSome →
    let x := f v.low
    ∃ t, exec (.swr h wide num a) s = .next t ∧ Passed s t c ∧ Holds s t c.wave [] ∧
      (t.wave c.wave).flags = (if num = 0x020 then writeFlags w.flags (x.setWidth 32) else w.flags) ∧
      (t.wave c.wave).rest = { w.rest with trap := w.trap.swr num.toNat x v.lanes f } ∧
      (t.block w.block) = (if num = 0x021 then
        { s.block w.block with rcv := { (s.block w.block).rcv with broken := x.getLsbD 0 } } else s.block w.block) ∧
      (∀ n, n ≠ w.block → t.block n = s.block n) ∧
      (t.core v.core).rest = (if num = 0x080 then
        { (s.core v.core).rest with grants := grantsOf x.toNat, written := grantsOf x.toNat } else (s.core v.core).rest) ∧
      (∀ n, n ≠ v.core → (t.core n).rest = (s.core n).rest) ∧ (∀ n, (t.ctx n).rest = (s.ctx n).rest) ∧
      (∀ j, j ≠ c.wave → t.wave j = s.wave j) ∧ t.mem = s.mem ∧ t.dev = s.dev ∧ t.fly = s.fly ∧
      t.launches = s.launches ∧ t.clusters = s.clusters ∧ t.vaults = s.vaults ∧ t.agenda = s.agenda ∧ t.l2 = s.l2

/-- The value that FRAME writes from a lane: its four words, bits 63:53 zero (R109, R180). -/
def Iss.frameValue (v : Iss) (a : Reg) (l : Nat) : BitVec 128 :=
  v.rd (a.toNat + 3) l ++ v.rd (a.toNat + 2) l ++ (v.rd (a.toNat + 1) l &&& 0x001FFFFF) ++ v.rd a.toNat l

/-- FRAME writes its slot, all of the block's other slots stay, and nothing else changes but the record that a scope keeps
of it (R180). -/
def FrameGoes : Prop :=
  ∀ s c w h slot a, s.Ready c w h (runOf a 4) →
    let v := s.issOf c w h
    v.act ≠ 0 → (v.lanes.all fun l => (List.range 4).all fun j => v.rd (a.toNat + j) l == v.rd (a.toNat + j) v.low) = true →
    (Tab.find s.blocks w.block).isSome →
    ∃ t, exec (.frame h slot a) s = .next t ∧ Passed s t c ∧ Holds s t c.wave [] ∧ Pends s t c.wave [] ∧
      (t.wave c.wave).quiet = w.quiet ∧ (t.wave c.wave).flags = w.flags ∧
      (∀ n, Tab.get 0 (t.block w.block).frames n = if n = slot.toNat then v.frameValue a v.low else Tab.get 0 (s.block w.block).frames n) ∧
      { (t.block w.block).still with frames := [], frameOld := [] } = { (s.block w.block).still with frames := [], frameOld := [] } ∧
      (∀ n, n ≠ w.block → (t.block n).still = (s.block n).still) ∧
      (∀ j, j ≠ c.wave → (t.wave j).body = (s.wave j).body) ∧ Memory.Grew s.mem t.mem ∧ t.dev = s.dev ∧
      t.clusters = s.clusters ∧ t.agenda = s.agenda

/-! ### Traps -/

/-- The wave of `c` has entered its handler for a fault of cause `code` (R365, R367): one level up; the bank of its old level
holds the cause, TADDR, the lanes struck and each live lane's counter, `epc` in those lanes; every live lane is at the
vector of that level; registers, FLAGS, the other bank, the vector base and the save register are as before; reservations
and waits are over. -/
def Entered (s t : State) (c : Cur) (w : Wave) (code : Word) (addr : DWord → Prop) (mask : Mask) (epc : Ctr) : Prop :=
  let x := t.wave c.wave
  let lv := w.trap.level
  let bank := if lv = 0 then x.trap.a else x.trap.b
  x.trap.level = lv + 1 ∧ bank.cause = code ∧ addr bank.addr ∧ bank.mask = mask ∧
  (∀ l, l < 32 → w.live.getLsbD l = true → Tab.get 0 bank.epc l = if mask.getLsbD l then epc else w.pc l) ∧
  (if lv = 0 then x.trap.b = w.trap.b else x.trap.a = w.trap.a) ∧ x.trap.vec = w.trap.vec ∧ x.trap.save = w.trap.save ∧
  (∀ l, l < 32 → x.pc l = if w.live.getLsbD l then BitVec.ofNat 48 (w.trap.vec.toNat % 2 ^ 48 / 64 * 64 + 64 * lv) else w.pc l) ∧
  Holds s t c.wave [] ∧ x.flags = w.flags ∧
  x.rest = { w.rest with trap := x.trap, resv := [], cwaits := [], phased := [], adopting := none } ∧ Apart s t c.wave

/-- The innermost frame that takes the fault fails, with RCAUSE naming the wave and the cause, and the wave stays where it
is (R382). -/
def ScopeFails (s t : State) (w : Wave) (d code : Nat) : Prop :=
  t.waves = s.waves ∧ t.mem = s.mem ∧ (∀ n, n ≠ w.block → t.block n = s.block n) ∧
  ((s.block w.block).rcv.failing = none → (t.block w.block).rcv.failing =
    some ⟨d, rcauseWord (((s.block w.block).rcv.frame d).elim 0 (·.rank)) w.wib 0 code, (s.core (s.block w.block).core).cycles⟩) ∧
  ∃ f, (t.block w.block).rcv.failing = some f ∧ f.depth ≤ d

/-- A context is killed: its state is 2, and no wave and no block of it is left (R340). -/
def Killed (s t : State) (ctx : Nat) : Prop :=
  (t.ctx ctx).st = 2 ∧ (∀ k w, Tab.find s.waves k = some w → w.ctx = ctx → Tab.find t.waves k = none) ∧
  ∀ n b, Tab.find t.blocks n = some b → b.ctx ≠ ctx

/-- What taking a fault does, by who takes it: a scope, the handler, or at level 2 nobody (R340, R367, R382). -/
def Takes (s t : State) (c : Cur) (w : Wave) (cause : Cause) (addr : DWord → Prop) (mask : Mask) (epc : Ctr) : Prop :=
  match s.taker c.wave cause with
  | some d => ScopeFails s t w d cause.code
  | none => if w.trap.level ≥ 2 then Killed s t w.ctx
    else Entered s t c w (BitVec.ofNat 32 cause.code) addr mask epc

/-- The instructions that take an exception as their own effect: cause, TADDR where the spec gives one, lanes, and the
counter saved in them (R82, R181, R368). -/
def trapOf (c : Cur) (act : Mask) : Instr → Option (Hdr × Cause × Option DWord × Mask × Ctr)
  | .trap h code => some (h, .software, some (code.setWidth 64), act, nextPc c.pc)
  | .bkpt h code => some (h, .breakpoint, some (code.setWidth 64), act, nextPc c.pc)
  | _ => none

/-- TRAP and BKPT take their exception where a lane is active, and pass where none is (R181, R368). -/
def TrapsGo : Prop :=
  ∀ s c w ins r, trapOf c (s.issOf c w r.1).act ins = some r → s.Ready c w r.1 [] →
    (Tab.find s.blocks w.block).isSome →
    ∃ t, exec ins s = .next t ∧
      (r.2.2.2.1 ≠ 0 → Takes s t c w r.2.1 (fun a => ∀ x, r.2.2.1 = some x → a = x) r.2.2.2.1 r.2.2.2.2) ∧
      (r.2.2.2.1 = 0 → Passed s t c ∧ Holds s t c.wave [] ∧ (t.wave c.wave).flags = w.flags ∧ Kept s t c.wave)

/-- ILL, and words that are no instruction, raise ILLEGAL_INSTRUCTION in every lane of the path (R82, R83). -/
def IllGoes : Prop :=
  ∀ s c w content, s.Issues c w → (Tab.find s.blocks w.block).isSome →
    ∃ t, exec (.ill content) s = .next t ∧ Takes s t c w .illegalInstruction (fun _ => True) c.path c.pc

/-- RETT at level 1 or 2 with every live lane active and every saved counter good: each live lane at its saved counter, one
level down, and nothing else (R369). At level 0 it raises ILLEGAL_INSTRUCTION. -/
def RettGoes : Prop :=
  ∀ s c w h, s.Ready c w h [] → (Tab.find s.blocks w.block).isSome →
    let v := s.issOf c w h
    ∃ t, exec (.rett h) s = .next t ∧
      (w.trap.level = 0 → Takes s t c w .illegalInstruction (fun _ => True) c.path c.pc) ∧
      (w.trap.level ≠ 0 → v.act = w.live →
        ((Mask.lanes w.live).all fun l => isCounter ((Tab.get 0 w.trap.top.epc l).setWidth 64)) = true →
        (∀ l, l < 32 → w.live.getLsbD l = true → (t.wave c.wave).pc l = Tab.get 0 w.trap.top.epc l) ∧
        Holds s t c.wave [] ∧ (t.wave c.wave).flags = w.flags ∧ Apart s t c.wave ∧
        (t.wave c.wave).rest = { w.rest with trap := { w.trap with level := w.trap.level - 1 } })

/-! ### Translations and leases -/

/-- A status on its way: the words of `d` in ACTIVE wait for `x`, and nothing else of the wave changes. -/
def StatusOn (s t : State) (c : Cur) (w : Wave) (v : Iss) (d : Reg) (x : Word) : Prop :=
  Passed s t c ∧ Holds s t c.wave [] ∧ Pends s t c.wave (v.lanes.map fun l => (d.toNat, l)) ∧
  (t.wave c.wave).quiet = w.quiet ∧ (t.wave c.wave).flags = w.flags ∧
  (∃ id r, Tab.find t.fly.results id = some r ∧ r.wave = c.wave ∧ r.entry = none ∧
    r.writes = v.lanes.map fun l => (wordKey d.toNat l, x)) ∧
  Memory.Grew s.mem t.mem ∧ (∀ j, j ≠ c.wave → (t.wave j).body = (s.wave j).body) ∧
  ∀ n, (t.block n).still = (s.block n).still

/-- An invalidation: its header, registers and destination, whether context 0 alone may issue it, the further conditions on its
operands, and what it drops: translations of the TLBs, table entries of the walk caches, FDT copies, and the roots of contexts,
which are read anew (R347, R349 to R352). -/
structure Dropping where
  h : Hdr
  rs : List Nat
  d : Reg
  sup : Bool
  ok : Bool
  tlb : TlbEntry → Bool := fun _ => false
  walks : WalkEntry → Bool := fun _ => false
  fdts : FdtCopy → Bool := fun _ => false
  roots : Nat → Bool := fun _ => false

/-- The four forms of TLBINV (R347, R349 to R352). -/
def tlbReach (s : State) (c : Cur) (w : Wave) : Instr → Option Dropping
  | .tlbinvVa h d a ctx =>
    let v := s.issOf c w h
    let va := fun l => (v.rd2 a.toNat l).toNat % 2 ^ 48
    let n := ctx.elim w.ctx BitVec.toNat
    some {
      h := h
      rs := pairOf a ++ [d.toNat]
      d := d
      sup := ctx.isSome
      ok := v.lanes.all fun l => w.ctx == 0 || inDelegated (s.ctx w.ctx) (va l)
      tlb := fun e => e.ctx == n && v.lanes.any fun l => decide (e.base ≤ va l) && decide (va l < e.base + e.size)
      walks := fun e => e.ctx == n && v.lanes.any fun l => decide (va l / 2 ^ levelShift e.level = e.tag) }
  | .tlbinvCtx h d a =>
    let v := s.issOf c w h
    let n := (v.rd a.toNat v.low).toNat
    some {
      h := h
      rs := [a.toNat, d.toNat]
      d := d
      sup := true
      ok := v.lanes.all (fun l => v.rd a.toNat l == v.rd a.toNat v.low) && decide (n ≤ 63)
      tlb := fun e => e.ctx == n
      walks := fun e => e.ctx == n
      fdts := fun x => x.ctx == n
      roots := fun x => x == n }
  | .tlbinvAll h d => some {
      h := h
      rs := [d.toNat]
      d := d
      sup := true
      ok := true
      tlb := fun _ => true
      walks := fun _ => true
      fdts := fun _ => true
      roots := fun x => decide (x < 64) }
  | .tlbinvFdt h d a =>
    let v := s.issOf c w h
    let n := (v.rd a.toNat v.low).toNat
    some {
      h := h
      rs := [a.toNat, d.toNat]
      d := d
      sup := true
      ok := v.lanes.all (fun l => v.rd a.toNat l == v.rd a.toNat v.low) && decide (n ≤ 63)
      fdts := fun x => x.ctx == n }
  | _ => none

/-- TLBINV, where its wave may issue it and has no publish on its way, answers a next state: it drops what it names and nothing
else, the roots that it names stand as their context entries give them, and status 0 is on its way (R347, R349 to R352). -/
def TlbinvGoes : Prop :=
  ∀ s c w ins r, tlbReach s c w ins = some r → s.Ready c w r.h r.rs →
    (r.sup = true → w.ctx = 0) → r.ok = true → (s.issOf c w r.h).act ≠ 0 → s.publishing c.wave = false →
    ∃ t, exec ins s = .next t ∧ StatusOn s t c w (s.issOf c w r.h) r.d 0 ∧ t.dev = s.dev ∧
      ((s.block w.block).depth = 0 → t.mem = s.mem ∧ t.fly.tlb = s.fly.tlb.filter (fun e => !r.tlb e) ∧
        t.fly.walks = s.fly.walks.filter (fun e => !r.walks e) ∧ t.fly.fdts = s.fly.fdts.filter (fun x => !r.fdts x) ∧
        ∀ n, Tab.find t.fly.roots n = if r.roots n then some (s.ctx n).root else Tab.find s.fly.roots n)

/-- The refusals of a lease of `us` microseconds at a class in a pool: 1 over the package limit, 2 a vault in band 2 or higher
above the pool's cores, 3 over the pool's budget, 4 a lease that runs at another class (R338, R362, R370). -/
def leaseRefused (s : State) (launch pool cls us x : Nat) : Prop :=
  let l := s.launch launch
  let watts := (Tab.get 0 s.dev.heat (4 * cls + l.lpb.heatClass)).toNat / 256 % 2 ^ 16 * (s.poolClusters pool).length
  x = 1 ∧ s.dev.pkglim < s.dev.pkgest + watts ∨
  x = 2 ∧ (∃ k ∈ s.poolClusters pool, ∃ g, g < 8 ∧ 2 ≤ (s.vault (8 * k + g)).band) ∨
  x = 3 ∧ Tab.get 0 s.dev.budgets pool < us ∨
  x = 4 ∧ l.lease ≠ 0 ∧ l.leaseCls ≠ cls

/-- LEASE, where its wave may issue it with one duration in every lane of ACTIVE, answers a next state. Where no refusal applies
the lease grows by the microseconds asked, saturating, the pool's budget falls by as many, the pool's clusters boost, and status
0 is on its way; where one does, one that applies is the status and no lease changes (R338, R370, R395). LEASE.rel ends the
lease, or returns status 5 where none runs. -/
def LeasesGo : Prop :=
  (∀ s c w h d a five, s.Ready c w h [a.toNat, d.toNat] → (s.issOf c w h).act ≠ 0 →
    let v := s.issOf c w h
    (v.lanes.all fun l => v.rd a.toNat l == v.rd a.toNat v.low) = true →
    let n := (s.block w.block).launch
    let us := (v.rd a.toNat v.low).toNat
    let cls := if five then 5 else 4
    let pool := (s.cluster (v.core / 8)).pool
    (Tab.find s.launches n).isSome →
    ∃ t x, exec (.lease h d a five) s = .next t ∧ StatusOn s t c w v d (BitVec.ofNat 32 x) ∧
      ((∀ y, ¬leaseRefused s n pool cls us y) → x = 0 ∧ (t.launch n).lease = min ((s.launch n).lease + us) (2 ^ 32 - 1) ∧ Tab.get 0 t.dev.budgets pool = Tab.get 0 s.dev.budgets pool - us ∧
        (us ≠ 0 → (t.launch n).leaseCls = cls ∧ ∀ k ∈ s.poolClusters pool, (t.cluster k).boost = cls)) ∧
      ((∃ y, leaseRefused s n pool cls us y) → leaseRefused s n pool cls us x ∧ t.launches = s.launches ∧ t.dev = s.dev ∧ t.clusters = s.clusters)) ∧
  ∀ s c w h d, s.Ready c w h [d.toNat] → (s.issOf c w h).act ≠ 0 →
    let n := (s.block w.block).launch
    let l := s.launch n
    ∃ t, exec (.leaseRel h d) s = .next t ∧ StatusOn s t c w (s.issOf c w h) d (if l.lease = 0 then 5 else 0) ∧
      (t.launch n).lease = 0 ∧ (l.lease ≠ 0 → Tab.get 0 t.dev.budgets l.leasePool = Tab.get 0 s.dev.budgets l.leasePool + l.lease) ∧
      (l.lease = 0 → t.launches = s.launches ∧ t.dev = s.dev ∧ t.clusters = s.clusters)

end Sys2Proof.Machine
end

