-- ==== Sys2Proof/Safety/Counters.lean ====
section
/-! DEFINITION. What the dependence counters, the counter waits, the window counters and the barriers leave at their issue. -/

namespace Sys2Proof.Machine

/-! ### Counters -/

/-- A handle that the instruction may use names the counter at `place`: aligned, translated with RD and WR in device DRAM to
the state `u`, no byte of it held, and no earlier publish of the wave on its way (R212, R397). -/
def Iss.counterAt (v : Iss) (h : DWord) (place : Nat) (u : State) : Prop :=
  v.s.publishing v.k = false ∧ v.s.counterPlace v.core v.w.ctx h.toNat = .ok (place, u) ∧
  v.s.heldAt v.core v.w.ctx h.toNat 32 = false

/-- The word at a place is neither uncorrectable nor poisoned (R188). -/
def Memory.good (m : Memory) (place : Nat) : Prop := m.uncorr place = false ∧ m.poisoned place = false

/-- A counter instruction: header, registers, destination, handle, whether it writes the whole record; of the record that it
finds: the record it leaves, the bytes of it that it writes, whether the continuation fires; and of the memory the status
(R398, R401 to R403). -/
structure Counting where
  h : Hdr
  rs : List Nat
  d : Reg
  handle : DWord
  whole : Bool := false
  left : CounterRec → CounterRec := id
  wrote : CounterRec → List Byte := fun _ => []
  fires : CounterRec → Bool := fun _ => false
  status : Memory → Word

/-- VALUE and CFLAGS as bytes. -/
def CounterRec.head (r : CounterRec) : List Byte := leBytes 4 r.value ++ leBytes 1 r.flags

/-- An increment by `n` (R398). -/
def CounterRec.inc (r : CounterRec) (n : Nat) : CounterRec :=
  if n = 0 then r
  else if 2 ^ 32 ≤ r.value + n then { r with value := 2 ^ 32 - 1, flags := (BitVec.ofNat 8 r.flags ||| 8).toNat }
  else { r with value := r.value + n }

/-- A decrement by `n` fires: VALUE is above 0 and falls to 0 while ARMED is 1 (R398). -/
def CounterRec.decFires (r : CounterRec) (n : Nat) : Bool :=
  decide (0 < r.value) && decide (r.value ≤ n) && (BitVec.ofNat 8 r.flags).getLsbD 0

/-- A decrement by `n`: UNDER for more than VALUE, FIRED for ARMED where it fires (R398). -/
def CounterRec.dec (r : CounterRec) (n : Nat) : CounterRec :=
  let f : BitVec 8 := BitVec.ofNat 8 r.flags ||| if r.value < n then 4 else 0
  if n = 0 then r
  else { r with value := r.value - n, flags := (if r.decFires n then (f &&& 0xFE) ||| 2 else f).toNat }

/-- The record that CINIT writes (R396, R401). -/
def Iss.initRec (v : Iss) (a : Reg) (lq : Option (BitVec 3)) : CounterRec :=
  let l := v.s.launch v.b.launch
  let value := (v.rd (a.toNat + 2) v.low).toNat
  { value := value
    flags := match lq with
      | none => 0
      | some _ => if value = 0 then 2 else 1
    lq := lq.elim 0 BitVec.toNat
    core := v.core
    cont := lq.elim 0 fun _ => (v.rd (a.toNat + 4) v.low ++ v.rd (a.toNat + 3) v.low).toNat
    ident := l.q * 2 ^ 29 + l.ident
    cq := l.lpb.cq
    ctx := v.w.ctx }

/-- CINIT and CINIT.cont. -/
def Iss.initForm (v : Iss) (h : Hdr) (d a : Reg) (lq : Option (BitVec 3)) : Counting :=
  let r := v.initRec a lq
  let fires := lq.isSome && r.value == 0
  { h := h, rs := runOf a 5, d := d, handle := v.rd2 a.toNat v.low, whole := true, left := fun _ => r
    wrote := fun _ => r.bytes, fires := fun _ => fires, status := fun _ => if fires then 1 else 0 }

/-- The counter instructions, on the counter at a place. -/
def countForm (s : State) (c : Cur) (w : Wave) (place : Nat) : Instr → Option Counting
  | .cinit h d a => some ((s.issOf c w h).initForm h d a none)
  | .cinitCont h d a lq => some ((s.issOf c w h).initForm h d a (some lq))
  | .cinc h d a n =>
    let v := s.issOf c w h
    let k := v.amount n v.low
    some {
      h := h, rs := pairOf a ++ amountRegs n, d := d, handle := v.rd2 a.toNat v.low
      left := fun r => r.inc k
      wrote := fun r => if k = 0 then [] else (r.inc k).head
      status := fun m => BitVec.ofNat 32 ((m.counter place).inc k).value }
  | .cdec h d a n =>
    let v := s.issOf c w h
    let k := v.amount n v.low
    some {
      h := h, rs := pairOf a ++ amountRegs n, d := d, handle := v.rd2 a.toNat v.low
      left := fun r => r.dec k
      wrote := fun r => if k = 0 then [] else (r.dec k).head
      fires := fun r => r.decFires k
      status := fun m => BitVec.ofNat 32 ((m.counter place).dec k).value }
  | .crd h d a =>
    let v := s.issOf c w h
    some {
      h := h, rs := pairOf a, d := d, handle := v.rd2 a.toNat v.low
      status := fun m => BitVec.ofNat 32 (leNat (m.bytesFrom place 4)) }
  | .crdF h d a =>
    let v := s.issOf c w h
    some {
      h := h, rs := pairOf a, d := d, handle := v.rd2 a.toNat v.low
      status := fun m => BitVec.ofNat 32 (leNat (m.bytesFrom (place + 4) 4)) }
  | _ => none

/-- What a counter instruction leaves at its issue: the path has passed, its status is on the way to the destination, and of
the wave, every other wave, blocks and clusters nothing else changes (R398, R401 to R403). -/
def Counted (s t : State) (c : Cur) (w : Wave) (v : Iss) (d : Reg) (x : Word) : Prop :=
  Going s t c w (v.dest d) none ∧ Added s.fly.results t.fly.results (ResultOn c.wave (v.each d.toNat fun _ => x)) ∧
  ∀ n, (t.block n).still = (s.block n).still

/-- Every counter instruction with uniform operands and a counter that it may use completes: the record is as the rules say,
no other byte changes but ACC and DIRTY bits, and the status is on its way; where the continuation does not fire, the
device's tables are as before (R398, R401 to R403). -/
def CountersGo : Prop :=
  ∀ s c w ins f place u, countForm s c w place ins = some f → s.Ready c w f.h (f.rs ++ [f.d.toNat]) →
    let v := s.issOf c w f.h
    v.act ≠ 0 → (∀ l ∈ v.lanes, ∀ r ∈ f.rs, v.rd r l = v.rd r v.low) → v.counterAt f.handle place u →
    (f.whole = true ∨ s.mem.good place) →
    let r := u.mem.counter place
    ∃ t, exec ins s = .next t ∧ Counted s t c w v f.d (f.status u.mem) ∧
      (f.fires r = false → Memory.Grew (u.mem.write (fromPlace place (f.wrote r))) t.mem ∧ t.dev = s.dev)

/-- Where the continuation fires, its context runs, its LPB can be read, and its launch queue is device-fed with room and
holds none back, the queue gains one entry, which prefers the core of the record, and nothing else of it changes (R298,
R398). -/
def CountersFire : Prop :=
  ∀ s c w ins f place u, countForm s c w place ins = some f → s.Ready c w f.h (f.rs ++ [f.d.toNat]) →
    let v := s.issOf c w f.h
    v.act ≠ 0 → (∀ l ∈ v.lanes, ∀ r ∈ f.rs, v.rd r l = v.rd r v.low) → v.counterAt f.handle place u →
    (f.whole = true ∨ s.mem.good place) →
    let r := u.mem.counter place
    let n := f.left r
    let q := s.lq n.ctx n.lq
    f.fires r = true → (s.ctx n.ctx).st = 1 →
    ∀ bs y z, (u.homeWrite (fromPlace place (f.wrote r))).unitRead farUnit n.ctx n.cont 256 = .ok (bs, y) →
      ctlEn q.ctl = true → ctlDevfed q.ctl = true → q.full = false → q.held = [] →
      y.unitWrite farUnit n.ctx (q.base + 256 * q.tail) bs = .ok z →
      ∃ t, exec ins s = .next t ∧ Counted s t c w v f.d (f.status u.mem) ∧ Memory.Grew z.mem t.mem ∧ t.dev = s.dev ∧
        t.lq n.ctx n.lq = { q with tail := (q.tail + 1) % ctlSize q.ctl, prefer := Tab.put q.prefer q.tail n.core }

/-! ### Waits and windows -/

/-- A counter wait: header, registers, what it waits for, the bound, its condition, and the condition on its handle with the
memory after translation (R404, R409). -/
structure Waiting where
  h : Hdr
  rs : List Nat
  fn : Nat
  bound : Nat
  holds : Prop
  ok : Prop
  mem : Memory

/-- The counter waits. -/
def waitForm (s : State) (c : Cur) (w : Wave) (place : Nat) (u : State) : Instr → Option Waiting
  | .cwaitLe h a b =>
    let v := s.issOf c w h
    let n := (v.rd b.toNat v.low).toNat
    some ⟨h, pairOf a ++ [b.toNat], 0, n, (s.mem.counter place).value ≤ n, v.counterAt (v.rd2 a.toNat v.low) place u ∧ s.mem.good place,
      u.mem⟩
  | .cwaitGe h a b =>
    let v := s.issOf c w h
    let n := (v.rd b.toNat v.low).toNat
    some ⟨h, pairOf a ++ [b.toNat], 1, n, n ≤ (s.mem.counter place).value, v.counterAt (v.rd2 a.toNat v.low) place u ∧ s.mem.good place,
      u.mem⟩
  | .cwaitWt h a b =>
    let v := s.issOf c w h
    let n := (v.rd2 b.toNat v.low).toNat
    some ⟨h, pairOf a ++ pairOf b, 2, n, n ≤ (Tab.find s.dev.winIn (place - 2 ^ 64)).elim 0 (·.tcnt),
      2 ^ 64 ≤ place ∧ s.windowIn w.ctx (v.rd2 a.toNat v.low) = some (place - 2 ^ 64) ∧ s.publishing c.wave = false, s.mem⟩
  | .cwaitWs h a b =>
    let v := s.issOf c w h
    let n := (v.rd2 b.toNat v.low).toNat
    some ⟨h, pairOf a ++ pairOf b, 3, n, n ≤ (Tab.find s.dev.winOut (place - 2 ^ 64)).elim 0 (·.scnt),
      2 ^ 64 ≤ place ∧ s.outWindow w.ctx (v.rd2 a.toNat v.low) = some (place - 2 ^ 64) ∧ s.publishing c.wave = false, s.mem⟩
  | _ => none

/-- The wait that a wave keeps of this instruction. -/
def CWait.isOf (x : CWait) (c : Cur) (f : Waiting) (place : Nat) : Bool :=
  x.pc == c.pc && x.fn == f.fn && x.place == place && x.bound == f.bound

/-- CWAIT with uniform operands and a handle that it may use: its path passes where the condition holds, or held at some
state since the wait began, and the wait is over; else a wait that had not begun begins, and one that had goes on, and
nothing else changes (R404). -/
def WaitsGo : Prop :=
  ∀ s c w ins place u f, waitForm s c w place u ins = some f → s.Ready c w f.h f.rs →
    let v := s.issOf c w f.h
    v.act ≠ 0 → (∀ l ∈ v.lanes, ∀ r ∈ f.rs, v.rd r l = v.rd r v.low) → f.ok →
    let mine := w.cwaits.find? fun x => x.isOf c f place
    let met := (mine.any fun x => x.met) = true
    (f.holds ∨ met → ∃ t, exec ins s = .next t ∧ Going s t c w [] none ∧ Memory.Grew f.mem t.mem ∧ t.dev = s.dev ∧
      (∀ n, t.block n = s.block n) ∧ (t.wave c.wave).cwaits = w.cwaits.filter fun x => !x.isOf c f place) ∧
    (¬f.holds → mine = none → exec ins s =
      .next (s.updWave c.wave fun w => { w with cwaits := w.cwaits ++ [⟨c.pc, c.path, place, f.fn, f.bound, false⟩] })) ∧
    (¬f.holds → mine.isSome = true → ¬met → exec ins s = .next s)

/-- WINRD returns the counter of a window that the wave's context may read (R409). -/
def winStart (s : State) (c : Cur) (w : Wave) : Instr → Option Starting
  | .winrdT h d a => some (form h d a fun v => (s.windowIn w.ctx (v.rd2 a.toNat v.low)).bind fun n =>
      (Tab.find s.dev.winIn n).map (·.tcnt))
  | .winrdS h d a => some (form h d a fun v => (s.outWindow w.ctx (v.rd2 a.toNat v.low)).bind fun n =>
      (Tab.find s.dev.winOut n).map (·.scnt))
  | _ => none
where
  form (h : Hdr) (d a : Reg) (get : Iss → Option Nat) : Starting :=
    let v := s.issOf c w h
    { h := h
      rs := pairOf a ++ pairOf d
      words := v.lanes.flatMap fun l => (pairOf d).map fun r => (r, l)
      ok := (∀ l ∈ v.lanes, v.rd2 a.toNat l = v.rd2 a.toNat v.low) ∧ (get v).isSome = true ∧ s.publishing c.wave = false
      left := fun t => Added s.fly.results t.fly.results (ResultOn c.wave (v.each2 d.toNat fun _ => BitVec.ofNat 64 ((get v).getD 0))) }

/-! ### Barriers -/

/-- The arrival of a wave at a barrier, and nothing else of blocks, but recovery state, and of launches (R405). -/
def ArrivesAt (s t : State) (v : Iss) : Option BarrierId → Prop
  | none => t.launches = s.launches ∧ ∀ n, (t.block n).still = (s.block n).still
  | some (.block b y) => t.launches = s.launches ∧ ∀ n, (t.block n).still = if n = b then
      ((s.block b).updBarrier y fun x => { x with arrived := v.w.wib :: x.arrived }).still else (s.block n).still
  | some (.group l n) => (∀ n, (t.block n).still = (s.block n).still) ∧ (∀ j, j ≠ l → t.launch j = s.launch j) ∧
      { t.launch l with groups := [] } = { s.launch l with groups := [] } ∧ (t.launch l).groups.length = (s.launch l).groups.length ∧
      ∀ j, t.group l j = if j = n then { s.group l n with arrived := (v.b.lin * 64 + v.w.wib) :: (s.group l n).arrived }
        else s.group l j

/-- Whether the wave may arrive: every live lane active, no armed flag set, no publish of the wave on its way, and no earlier
arrival of it at this generation (R405, R406, R212). -/
def Iss.mayArrive (v : Iss) (slot : Nat) : Prop :=
  v.act = v.w.live ∧ v.w.live ≠ 0 ∧ armedHit (v.w.seenFlags v.s.free) = false ∧ v.s.publishing v.k = false ∧
  ∀ b, v.barrierAt slot = some b → v.arrivedAt b = false

/-- The slots of BAR and BAR.g. -/
def barForm : Instr → Option (Hdr × Nat)
  | .bar h => some (h, 4)
  | .barG h slot => some (h, slot.toNat)
  | _ => none

/-- BAR: the wave arrives and waits for this generation; at a slot without a group it goes on (R405, R406). -/
def BarsGo : Prop :=
  ∀ s c w ins h slot, barForm ins = some (h, slot) → s.Ready c w h [] → (Tab.find s.blocks w.block).isSome = true →
    let v := s.issOf c w h
    v.mayArrive slot →
    ∃ t, exec ins s = .next t ∧ Passed s t c ∧ Holds s t c.wave [] ∧ (t.wave c.wave).flags = w.flags ∧
      (t.wave c.wave).rest = { w.rest with wait := match v.barrierAt slot with
        | some b => some (.barrier b (s.barrierGen b))
        | none => w.wait } ∧
      ArrivesAt s t v (v.barrierAt slot) ∧ (∀ j, j ≠ c.wave → t.wave j = s.wave j) ∧ t.mem = s.mem ∧ t.dev = s.dev ∧ t.fly = s.fly ∧
      t.clusters = s.clusters ∧ t.agenda = s.agenda ∧ (∀ n, (t.core n).rest = (s.core n).rest)

/-- BARA: the wave arrives, and the generation at which it did is on the way to the destination; 0 where there is no group
(R405, R406). -/
def BarasGo : Prop :=
  ∀ s c w h d (slot : BitVec 3), s.Ready c w h [d.toNat] → (Tab.find s.blocks w.block).isSome = true →
    let v := s.issOf c w h
    v.mayArrive slot.toNat →
    ∃ t, exec (.bara h d slot) s = .next t ∧ Begun s t c w (v.dest d) none ∧ t.dev = s.dev ∧ ArrivesAt s t v (v.barrierAt slot.toNat) ∧
      Added s.fly.results t.fly.results (ResultOn c.wave
        (v.each d.toNat fun _ => BitVec.ofNat 32 ((v.barrierAt slot.toNat).elim 0 s.barrierGen)))

/-- BARW goes on once the generation of its ticket has completed, or where there is no group, and changes nothing else; else
it waits (R406). -/
def BarwsGo : Prop :=
  ∀ s c w h a (slot : BitVec 3), s.Ready c w h [a.toNat] →
    let v := s.issOf c w h
    let ticket := v.rd a.toNat v.low
    let past := fun b => ((BitVec.ofNat 32 (s.barrierGen b) : Word) - ticket).toNat
    v.act = w.live → w.live ≠ 0 → armedHit (w.seenFlags s.free) = false → (∀ l ∈ v.lanes, v.rd a.toNat l = ticket) →
    ((∀ b, v.barrierAt slot.toNat = some b → 1 ≤ past b ∧ past b ≤ 2 ^ 31) →
      ∃ t, exec (.barw h a slot) s = .next t ∧ Passed s t c ∧ Holds s t c.wave [] ∧ (t.wave c.wave).flags = w.flags ∧ Kept s t c.wave) ∧
    (∀ b, v.barrierAt slot.toNat = some b → (past b = 0 ∨ 2 ^ 31 < past b) → exec (.barw h a slot) s = .next s)

end Sys2Proof.Machine
end

