-- ==== Sys2Proof/Safety/Engines.lean ====
section
/-! DEFINITION. What shadow bindings, PUBLISH and the tile operations leave at their issue. -/

namespace Sys2Proof.Machine

/-! ### Shadow bindings -/

/-- A token on its way for an operation that has ended without an error: this word in every lane of ACTIVE (R251, R252). -/
def TokenOn (s t : State) (c : Cur) (v : Iss) (d : Reg) (x : Word) : Prop :=
  Added s.fly.results t.fly.results (ResultOn c.wave (v.each d.toNat fun _ => x))

/-- Bindings with the one at a position closed for writes named from `n` on, and a fresh one after it for PUBLISH.keep
(R267, R268). -/
def bindsClosed (bs : List Binding) (at_ n : Nat) (keep : Bool) : List Binding :=
  (bs.zipIdx.map fun b => if b.2 = at_ then { b.1 with until_ := some n } else b.1) ++
    if keep then (bs[at_]?.map fun b => { b with pages := [], since := n, until_ := none }).toList else []

/-- PUBLISH and PUBLISH.keep: header, destination, A run, counter's run, and whether the binding stays (R268). -/
def publishForm : Instr → Option (Hdr × Reg × Reg × Option Reg × Bool)
  | .publish h d a sig => some (h, d, a, sig, false)
  | .publishKeep h d a sig => some (h, d, a, sig, true)
  | _ => none

/-- SHADOW, SHADOW.drop, PUBLISH and PUBLISH.keep (R204, R267 to R269). -/
def shadowStart (s : State) (c : Cur) (w : Wave) (ins : Instr) : Option Starting :=
  let same := fun (v : Iss) (rs : List Nat) => ∀ r ∈ rs, ∀ l ∈ v.lanes, v.rd r l = v.rd r v.low
  match ins with
  | .shadow h d a =>
    let v := s.issOf c w h
    let base := (v.desc2 a 0).toNat
    let size := (v.desc a 2).toNat
    let cur := (s.ctx w.ctx).current
    some {
      h := h
      rs := runOf a 3 ++ [d.toNat]
      words := v.dest d
      ok := same v (runOf a 3) ∧ shadowChecks base size = none ∧ s.publishing c.wave = false ∧ cur.length < 256 ∧
        ∀ b ∈ cur, base + size ≤ b.1.base ∨ b.1.base + b.1.size ≤ base
      left := fun t => TokenOn s t c v d 0 ∧
        ∃ n, (t.ctx w.ctx).binds = (s.ctx w.ctx).binds ++ [⟨base, size, [], w.block, (s.block w.block).depth, n, none⟩] }
  | .shadowDrop h d a =>
    let v := s.issOf c w h
    let base := (v.desc2 a 0).toNat
    let size := (v.desc a 2).toNat
    let found := (s.ctx w.ctx).current.find? fun b => b.1.base == base && b.1.size == size
    some {
      h := h
      rs := runOf a 3 ++ [d.toNat]
      words := v.dest d
      ok := same v (runOf a 3) ∧ shadowChecks base size = none ∧ s.publishing c.wave = false ∧ found.isSome = true
      left := fun t => ∃ n, Added s.fly.shadows t.fly.shadows (fun x => x =
          ⟨w.ctx, w.block, c.wave, d.toNat, v.act, base, false, true, false, none, (s.block w.block).depth, n⟩) ∧
        ∀ b, found = some b → (t.ctx w.ctx).binds = bindsClosed (s.ctx w.ctx).binds b.2 n false }
  | _ => match publishForm ins with
    | none => none
    | some (h, d, a, sig, keep) =>
      let v := s.issOf c w h
      let rs := runOf a 2 ++ (sig.elim [] fun r => runOf r 2)
      let base := (v.desc2 a 0).toNat
      let ctr := sig.map fun r => v.desc2 r 0
      let found := (s.ctx w.ctx).current.find? fun b => b.1.base == base
      let d0 := (s.block w.block).depth
      some {
        h := h
        rs := rs ++ [d.toNat]
        words := v.dest d
        ok := same v rs ∧ s.publishing c.wave = false ∧ found.isSome = true
        left := fun t => ∃ n,
          if d0 = 0 then
            Added s.fly.shadows t.fly.shadows (fun x => x = ⟨w.ctx, w.block, c.wave, d.toNat, v.act, base, keep, false, false, ctr, 0, n⟩) ∧
            ∀ b, found = some b → (t.ctx w.ctx).binds = bindsClosed (s.ctx w.ctx).binds b.2 n keep
          else
            Added s.fly.shadows t.fly.shadows (fun x => x = ⟨w.ctx, w.block, c.wave, d.toNat, 0, base, keep, false, true, ctr, d0, n⟩) ∧
            TokenOn s t c v d (tokenWord Err.none 3 0) ∧ (t.ctx w.ctx).binds = (s.ctx w.ctx).binds }

/-! ### Tile operations -/

/-- A tile operation that issues: its header, registers, destination, tile, the tiles among whose operations it takes its
turn, the operation with formats and modes as they stand, and what could stop it (R232, R272). -/
structure TileForm where
  h : Hdr
  rs : List Nat
  d : Reg
  tile : Nat
  tiles : List Nat
  op : TileKindOp
  same : Prop
  misses : List (Option Miss)
  free : Bool
  sto : Option RMode

/-- TZERO, TLOADC, MMT, TDRAIN, TCHK, TSTAT and TSTAT.clr (R274 to R281). -/
def tileForm (s : State) (c : Cur) (w : Wave) : Instr → Option TileForm
  | .tzero h d tile =>
    let v := s.issOf c w h
    some ⟨h, [d.toNat], d, tile.toNat, tilesOf tile.toNat (s.clsAhead w.block tile.toNat == 3), .zero, True, [v.tileMiss [tile.toNat]],
      true, none⟩
  | .tloadc h k m d a tile =>
    let v := s.issOf c w h
    let t := tile.toNat
    let addr := (v.desc a 0).toNat
    let str := (v.desc a 1).toInt
    let n := ((s.block w.block).buf .a).index .a addr
    let f := s.fdt v.core w.ctx n
    let wide := k == .f64
    some ⟨h, runOf a 2 ++ [d.toNat], d, t, tilesOf t wide, .load k (w.mode m) addr str f,
      ∀ r ∈ runOf a 2, ∀ l ∈ v.lanes, v.rd r l = v.rd r v.low,
      [v.tileMiss (tilesOf t (wide && t % 2 == 0)), badTile (wide && t % 2 == 1), badTile (!f.bad && !plainFmt f.fmt)] ++
        (s.block w.block).rowMisses .a f (rowStarts addr str (cfgRows w.tcfg)) (cfgCols w.tcfg) false false, true, some m⟩
  | .mmt h d a b x =>
    let v := s.issOf c w h
    let t := x.tile.toNat
    let k := 32 * (x.km1.toNat + 1)
    let aAt := ((v.desc a 0).toNat, (v.desc a 1).toInt)
    let bAt := ((v.desc b 0).toNat, (v.desc b 1).toInt)
    let oa := v.operand x.amem (mmtSpace x) aAt.1 aAt.2 (cfgRows w.tcfg) k
    let ob := v.operand x.bmem .w bAt.1 bAt.2 (cfgCols w.tcfg) k
    let cls := mmtCls (oa.2.1.elim 0 (·.fmt)) (ob.2.1.elim 0 (·.fmt))
    let now := s.clsAhead w.block t
    some ⟨h, runOf a 2 ++ runOf b 2 ++ [d.toNat], d, t, tilesOf t (cls == 3), .mmt x aAt.1 bAt.1 aAt.2 bAt.2
        (oa.2.1.getD Fdt.raw) (ob.2.1.getD Fdt.raw) cls,
      ∀ r ∈ runOf a 2 ++ runOf b 2, ∀ l ∈ v.lanes, v.rd r l = v.rd r v.low,
      [v.tileMiss (tilesOf t (cls == 3 && t % 2 == 0)), badTile (v.strayMember x.amem || v.strayMember x.bmem),
        badTile (oa.2.1.isSome && ob.2.1.isSome && (cls == 0 || (now != 0 && now != cls) || (cls == 3 && t % 2 == 1)))] ++
        oa.2.2 ++ ob.2.2, true, none⟩
  | .tdrain h m sat d a x =>
    let v := s.issOf c w h
    let t := x.tile.toNat
    let desc := drainDesc (fun r => v.rd r v.low) a x
    let cls := s.clsAhead w.block t
    let res := v.drainResMisses x desc
    some ⟨h, drainRegs a x ++ [d.toNat], d, t,
      tilesOf t (cls == 3) ++ (x.res.filter fun r => r.rsp == 1).toList.map (fun _ => drainRes desc / 65536),
      .drain x (w.mode m) sat desc (s.fdt v.core w.ctx x.dfdt.toNat) (s.fdt v.core w.ctx res.1)
        (x.chk.elim 0 fun n => v.frame n.toNat) (((s.block w.block).tileStatus t).getLsbD 2),
      ∀ r ∈ drainRegs a x, ∀ l ∈ v.lanes, v.rd r l = v.rd r v.low,
      [v.tileMiss (tilesOf t (cls == 3)), badTile (cls == 0)] ++ v.drainDestMisses x desc ++ res.2 ++ drainListMisses x desc,
      !drainGlobal x || !s.publishing c.wave, some m⟩
  | .tchk h d tile =>
    let v := s.issOf c w h
    some ⟨h, [d.toNat], d, tile.toNat, tilesOf tile.toNat (s.clsAhead w.block tile.toNat == 3), .check, True, [v.tileMiss [tile.toNat]],
      true, none⟩
  | .tstat h d tile =>
    let v := s.issOf c w h
    some ⟨h, [d.toNat], d, tile.toNat, tilesOf tile.toNat (s.clsAhead w.block tile.toNat == 3), .status false, True,
      [v.tileMiss [tile.toNat]], true, none⟩
  | .tstatClr h d tile =>
    let v := s.issOf c w h
    some ⟨h, [d.toNat], d, tile.toNat, tilesOf tile.toNat (s.clsAhead w.block tile.toNat == 3), .status true, True,
      [v.tileMiss [tile.toNat]], true, none⟩
  | _ => none

/-- The tile operations as instructions that start work: each joins its block's tile operations, with the version of TCFG and
the trap level that stand, and its destination waits (R111, R252, R272). -/
def tileStart (s : State) (c : Cur) (w : Wave) (ins : Instr) : Option Starting :=
  (tileForm s c w ins).map fun f =>
    { h := f.h
      rs := f.rs
      words := (s.issOf c w f.h).dest f.d
      ok := f.same ∧ leastMiss f.misses = none ∧ f.free = true
      left := fun t => Added s.fly.tiles t.fly.tiles fun o => o = ⟨f.op, f.tile, f.tiles, w.block, c.wave, f.d.toNat,
        (s.issOf c w f.h).act, w.tcfg, w.tcur, 0, none, 0, (s.block w.block).depth, w.trap.level, none⟩
      sto := f.sto }

/-- TCFG writes a version slot that no tile operation in flight records and that was not the current one, and makes it
current; the versions that operations in flight record stay (R111, R273). -/
def TcfgGoes : Prop :=
  ∀ s c w h a, s.Ready c w h (runOf a 4) →
    let v := s.issOf c w h
    v.act ≠ 0 → (∀ r ∈ runOf a 4, ∀ l ∈ v.lanes, v.rd r l = v.rd r v.low) → v.desc a 0 &&& 0xFF88 = 0 →
    (∃ n, n < 4 ∧ n ≠ w.tcur ∧ ∀ p ∈ s.fly.tiles, p.2.wave = c.wave → p.2.ver ≠ n) →
    ∃ t n, exec (.tcfg h a) s = .next t ∧ n < 4 ∧ n ≠ w.tcur ∧ (∀ p ∈ s.fly.tiles, p.2.wave = c.wave → p.2.ver ≠ n) ∧
      Passed s t c ∧ Holds s t c.wave [] ∧ (t.wave c.wave).flags = w.flags ∧ Apart s t c.wave ∧
      (t.wave c.wave).rest = { w.rest with tcur := n, tcfgs := (t.wave c.wave).tcfgs } ∧
      ∀ m, Tab.get 0 (t.wave c.wave).tcfgs m = if m = n then v.desc a 3 ++ v.desc a 2 ++ v.desc a 1 ++ v.desc a 0 else Tab.get 0 w.tcfgs m

end Sys2Proof.Machine
end

