-- ==== Sys2Proof/Safety/Events.lean ====
section
/-! DEFINITION. What the steps of waves and of work on its way leave: owed faults, results, publishes, arrivals, pushes,
continuations, the selector. -/

namespace Sys2Proof.Machine

/-- The parts of the state. -/
inductive Part where
  | waves | blocks | launches | ctxs | cores | clusters | vaults | mem | l2 | dev | fly
  deriving DecidableEq, Repr

/-- A part is as before. -/
def Part.same (s t : State) : Part → Prop
  | .waves => t.waves = s.waves
  | .blocks => t.blocks = s.blocks
  | .launches => t.launches = s.launches
  | .ctxs => t.ctxs = s.ctxs
  | .cores => t.cores = s.cores
  | .clusters => t.clusters = s.clusters
  | .vaults => t.vaults = s.vaults
  | .mem => t.mem = s.mem
  | .l2 => t.l2 = s.l2
  | .dev => t.dev = s.dev
  | .fly => t.fly = s.fly

/-- Every part but these is as before, and so are the turns to come. -/
def Beside (s t : State) (ps : List Part) : Prop := (∀ p, p ∉ ps → p.same s t) ∧ t.agenda = s.agenda ∧ t.cur = s.cur

/-- A step of a unit or of the outside: when it happens, and what it leaves. -/
structure Happening where
  ok : Prop := True
  left : State → Prop

/-- What a table of such steps says: each, where its conditions hold, goes to a next state with what the table says. -/
def Happens (table : State → Instr → Option Happening) : Prop :=
  ∀ s ins r, table s ins = some r → r.ok → ∃ t, exec ins s = .next t ∧ r.left t

/-- Every wave but `k` is as before. -/
def OnlyWave (s t : State) (k : Nat) : Prop := ∀ j, j ≠ k → Tab.find t.waves j = Tab.find s.waves j

/-- A word's P and E bits. -/
def Wave.waits (w : Wave) (r l : Nat) : Bool × Bool := ((Tab.get 0 w.pend r).getLsbD l, (Tab.get 0 w.expt r).getLsbD l)

/-- Words have landed in a wave: in each live lane the value, marked where it is bad, no longer pending or expecting; no other
word of the wave has changed (R77, R78, R91, R93). -/
def Lands (s t : State) (k : Nat) (ws : List (Nat × Nat × Word)) (bad : Nat → Nat → Bool) : Prop :=
  (∀ x ∈ ws, (s.wave k).live.getLsbD x.2.1 = true →
    (t.wave k).cell x.1 x.2.1 = (x.2.2, bad x.1 x.2.1, false) ∧ (t.wave k).waits x.1 x.2.1 = (false, false)) ∧
  ∀ r l, l < 32 → (∀ x ∈ ws, (x.1, x.2.1) = (r, l) → (s.wave k).live.getLsbD l = false) →
    (t.wave k).cell r l = (s.wave k).cell r l ∧ (t.wave k).waits r l = (s.wave k).waits r l

/-- Words of a wave have been replaced: in each live lane the value, not marked, P and E as they were; no other word of the
wave has changed (R104). -/
def Replaces (s t : State) (k : Nat) (ws : List (Nat × Nat × Word)) : Prop :=
  (∀ x ∈ ws, (s.wave k).live.getLsbD x.2.1 = true → (t.wave k).cell x.1 x.2.1 = (x.2.2, false, false)) ∧
  ∀ r l, l < 32 → (t.wave k).waits r l = (s.wave k).waits r l ∧
    ((∀ x ∈ ws, (x.1, x.2.1) = (r, l) → (s.wave k).live.getLsbD l = false) → (t.wave k).cell r l = (s.wave k).cell r l)

/-- No word stands twice. -/
def Distinct (ws : List (Nat × Nat × Word)) : Prop := (ws.map fun x => (x.1, x.2.1)).Nodup

/-- An entry for a completion queue that none waits for but its own source: written at its tail where the ring is enabled, has
room, holds none back and its position can be written; held where the ring is full or disabled (R306). -/
def Notified (s t : State) (ctx cq : Nat) (source : Option Nat) (e : Entry) : Prop :=
  let q := s.cq ctx cq
  let p := t.cq ctx cq
  let room := ctlEn q.ctl = true ∧ (q.tail + 1) % ctlSize q.ctl ≠ q.head
  (∀ w ∈ q.waiting, s.cqWaits w = true → source.map CqWaiter.source = some w) → (room → q.held = [] → ∀ z, s.unitWrite farUnit ctx (q.base + 32 * q.tail) (e.bytes q.pass) = .ok z →
    p.tail = (q.tail + 1) % ctlSize q.ctl ∧ p.held = [] ∧ p.pass = (if q.tail + 1 = ctlSize q.ctl then !q.pass else q.pass) ∧
    ((e.err.cls = 0 ∨ ctlEn (s.ctx e.ctx).ectl = false) → Memory.Grew z.mem t.mem)) ∧
  (¬room → p.held = q.held ++ [e] ∧ p.tail = q.tail ∧ Memory.Grew s.mem t.mem)

/-! ### Waves -/

/-- The words of a result. -/
def Result.words (r : Result) : List (Nat × Nat × Word) := r.writes.map fun x => (x.1 / 32, x.1 % 32, x.2)

/-- Owed faults, results and waits of waves (R25 to R27, R77, R78, R105, R178, R233, R249, R253, R328, R459). -/
def waveEvent (s : State) : Instr → Option Happening
  | .takeOwedFault k => (s.wave k).duty.map fun d =>
    let w := s.wave k
    let f := d.1
    let lv := w.trap.level
    { ok := s.waveReady k = true ∧ s.taker k f.cause = none ∧ lv < 2
      left := fun t =>
        let x := t.wave k
        let bank := if lv = 0 then x.trap.a else x.trap.b
        Beside s t [.waves, .launches] ∧ OnlyWave s t k ∧ x.owed = w.owed.eraseIdx d.2 ∧ x.trap.level = lv + 1 ∧
        bank.cause = BitVec.ofNat 32 (f.cause.code + if f.deferred then 256 else 0) ∧ bank.addr = f.addr ∧ bank.mask = f.mask ∧
        Holds s t k [] ∧ x.flags = w.flags ∧ x.live = w.live ∧
        ∀ l, l < 32 → w.live.getLsbD l = true → Tab.get 0 bank.epc l = w.pc l ∧
          x.pc l = BitVec.ofNat 48 (w.trap.vec.toNat % 2 ^ 48 / 64 * 64 + 64 * lv) }
  | .variableResultReturn id => (Tab.find s.fly.results id).map fun r =>
    { ok := Distinct r.words ∧ ∀ e, r.entry = some e → s.cqHolds e.2.ctx e.1 id = false
      left := fun t =>
        Lands s t r.wave r.words (fun g l => r.bad.contains (wordKey g l)) ∧
        ((Tab.find s.waves r.wave).isSome = true → (t.wave r.wave).owed = (s.wave r.wave).owed ++ r.owes) ∧
        t.fly.results = Tab.del s.fly.results id ∧ (∀ j, j ≠ r.wave → (t.wave j).body = (s.wave j).body) ∧
        (r.entry = none → OnlyWave s t r.wave ∧ t.fly = { s.fly with results := Tab.del s.fly.results id } ∧ Beside s t [.waves, .fly]) ∧
        ∀ e, r.entry = some e → Notified s t e.2.ctx e.1 id e.2 }
  | .fairnessSweep k =>
    let w := s.wave k
    let out := (s.readyPaths k).length - 2
    some {
      ok := 0 < out ∧ (s.ctx w.ctx).fair ≤ (w.fcount.extractLsb' 0 13).toNat + out
      left := fun t => t.wave k = { w with fcount := w.fcount ||| 0x8000 } ∧ OnlyWave s t k ∧ Beside s t [.waves] }
  | .pendingAgeExchange core =>
    let c := s.core core
    some {
      ok := c.active ≠ [] ∧ ∃ x ∈ c.pending, 2048 ≤ x.2 ∧ s.waveReady x.1 = true
      left := fun t => ∃ a p n, a ∈ c.active ∧ (∀ j ∈ c.active, Tab.get 0 c.issued j ≤ Tab.get 0 c.issued a) ∧
        (p, n) ∈ c.pending ∧ 2048 ≤ n ∧ s.waveReady p = true ∧
        (t.core core).active = c.active.map (fun x => if x = a then p else x) ∧
        (t.core core).pending = (c.pending.filter fun x => x.1 != p) ++ [(a, 0)] ∧
        Tab.find (t.core core).issued p = none ∧ (∀ n, n ≠ core → t.core n = s.core n) ∧ Beside s t [.cores] }
  | .napExpiry k =>
    some {
      ok := (s.wave k).nap = 1
      left := fun t => t.wave k = { s.wave k with nap := 0 } ∧ OnlyWave s t k ∧ Beside s t [.waves] }
  | .swaysTimeout core => (s.core core).sways.head?.map fun x =>
    { ok := s.busyWays core ≠ 0 ∧ 65536 ≤ x.cycles
      left := fun t =>
        (t.core core).sways = (s.core core).sways.tail ∧ (t.core core).scratch = (s.core core).scratch ∧ OnlyWave s t x.wave ∧
        Lands s t x.wave ((Mask.lanes x.lanes).map fun l => (x.dst, l, 1)) (fun _ _ => false) ∧
        ((Tab.find s.waves x.wave).isSome = true → (t.wave x.wave).owed = (s.wave x.wave).owed ++
          [⟨.permission, (s.busyWays core).setWidth 64 ||| 0x10000, x.lanes, x.level, true, x.depth⟩]) ∧
        Beside s t [.waves, .cores] }
  | .swaysComplete core => (s.core core).sways.head?.map fun x =>
    { ok := s.busyWays core = 0
      left := fun t =>
        (t.core core).sways = (s.core core).sways.tail ∧ (t.core core).scratch = x.ways ∧ OnlyWave s t x.wave ∧
        Lands s t x.wave ((Mask.lanes x.lanes).map fun l => (x.dst, l, 0)) (fun _ _ => false) ∧ Beside s t [.waves, .cores] }
  | _ => none

/-! ### Publishes -/

/-- Lines on their way home, and the crossing of bridges (R207, R211, R222, R223, R410). -/
def publishEvent (s : State) : Instr → Option Happening
  | .publishLineMerge id => (Tab.find s.fly.lines id).map fun l =>
    { ok := s.mayMerge id l = true
      left := fun t =>
        Tab.find t.fly.lines id = none ∧ (∀ j, j ≠ id → Tab.find t.fly.lines j = Tab.find s.fly.lines j) ∧
        (∀ e, s.unitXlate l.core l.ctx l.va .write = .error e → t.mem = s.mem) ∧
        ∀ x, s.unitXlate l.core l.ctx l.va .write = .ok x →
          Memory.Grew ((s.marked l.core l.ctx x).mem.write (l.bytes.map fun b => (placeOf x.pa + b.1, b.2.1))) t.mem ∧
          (∀ i, i < 4 → l.pois.getLsbD i = true → t.mem.poisoned (placeOf x.pa + 32 * i) = true) ∧
          t.blocks = s.blocks ∧ t.launches = s.launches ∧ t.cores = s.cores ∧ t.clusters = s.clusters ∧ t.agenda = s.agenda ∧
          ∀ j, (t.wave j).body = (s.wave j).body }
  | .bridgePublishAccept core die => (s.oldestPublish core).map fun p =>
    let x := Tab.get ⟨core, none, [], []⟩ s.fly.publishes p
    let n := bridgeOf (coreDie core) die
    { ok := x.lines = [] ∧ Tab.get 0 x.crossed die ≠ 0 ∧ Tab.get 0 (s.bridge n).counts (fenceKey core die) = Tab.get 0 x.crossed die
      left := fun t =>
        Tab.get 0 (t.bridge n).counts (fenceKey core die) = 0 ∧ (t.bridge n).parity = false ∧
        (t.bridge n).fencepar = (if (s.bridge n).parity then satAdd 32 (s.bridge n).fencepar 1 else (s.bridge n).fencepar) ∧
        (∀ y, Tab.find t.fly.publishes p = some y → Tab.find y.crossed die = none) ∧ Beside s t [.dev, .fly] }
  | _ => none

/-! ### Arrivals -/

/-- What an arrival at this device meets: the outcome by the checks of R102 in their order, with the words that land, the
policy's fault, or the queue that grows (R102, R104, R105, R290). -/
def ArrivalEnds (s t : State) (a : Arrival) (o : Nat) : Prop :=
  let ls := Mask.lanes a.lanes
  match s.capOf a with
  | none => o = outCapability ∧ Beside s t [.fly]
  | some c =>
    let owner := s.waveOf c.owner
    if a.queue = true then
      if c.kind ≠ 2 ∨ a.lanes &&& ~~~c.lanes ≠ 0 ∨ owner.any (fun k => s.yokeWindow k c.first) = true then
        o = outCapability ∧ Beside s t [.fly]
      else match owner with
        | none => o = outGone ∧ Beside s t [.fly]
        | some k => match Tab.find (s.wave k).queues c.first with
          | none => o = outGone ∧ Beside s t [.fly]
          | some sl =>
            if a.lanes &&& ~~~(s.wave k).live ≠ 0 then o = outGone ∧ Beside s t [.fly]
            else if (∃ l ∈ ls, ((s.wave k).fifo c.first l).free sl.depth = 0) then o = outFull ∧ Beside s t [.fly]
            else o = outDelivered ∧ OnlyWave s t k ∧ Beside s t [.waves, .blocks, .fly] ∧
              (∀ n, { t.block n with arrived := false } = { s.block n with arrived := false }) ∧
              ∀ l, l < 32 → (t.wave k).fifo c.first l = if l ∈ ls then
                { (s.wave k).fifo c.first l with count := ((s.wave k).fifo c.first l).count + 1 } else (s.wave k).fifo c.first l
    else if regAllowed a c (owner.map s.wave) = false then o = outCapability ∧ Beside s t [.fly]
    else match owner with
      | none => o = outGone ∧ Beside s t [.fly]
      | some k =>
        let w := s.wave k
        let rs := a.regs c
        let owes := (t.wave k).owed = w.owed ++ [⟨.overwrite, BitVec.ofNat 64 (rs.headD 0), a.lanes, 0, false, 0⟩]
        if a.lanes &&& ~~~w.live ≠ 0 then o = outGone ∧ Beside s t [.fly]
        else if w.anyLocal a.lanes rs = true ∨ w.anyClear a.lanes rs = true ∧ c.policy ≠ 1 then
          o = outOverwrite ∧ Beside s t [.fly, .waves] ∧ OnlyWave s t k ∧ (c.policy ≠ 2 → t.waves = s.waves) ∧ (c.policy = 2 → owes)
        else if w.anyClear a.lanes rs = true then o = outReplaced ∧ OnlyWave s t k ∧ Replaces s t k (a.words c)
        else o = outDelivered ∧ OnlyWave s t k ∧ Lands s t k (a.words c) (fun _ _ => false)

/-- Arrivals, their outcomes, and the pushes of yokemates (R102 to R107, R183, R290, R293). -/
def arrivalEvent (s : State) : Instr → Option Happening
  | .remoteArrival id => (Tab.find s.fly.arrivals id).map fun a =>
    { ok := a.outcome = none ∧ s.arrivalWaits id a = false ∧ s.rangeOf (handleLow a.cap) = some s.dev.id
      left := fun t => ∃ o, Tab.find t.fly.arrivals id = some { a with outcome := some o } ∧ ArrivalEnds s t a o }
  | .arrivalOutcome id => (Tab.find s.fly.arrivals id).bind fun a => a.outcome.map fun o =>
    { ok := a.dev = s.dev.id
      left := fun t =>
        OnlyWave s t a.wave ∧ Lands s t a.wave ((Mask.lanes a.tokLanes).map fun l => (a.token, l, BitVec.ofNat 32 o)) (fun _ _ => false) ∧
        t.fly = { s.fly with arrivals := Tab.del s.fly.arrivals id } ∧ Beside s t [.waves, .fly] }
  | .yokePushLand id => (Tab.find s.fly.pushes id).bind fun p => (Tab.find (s.wave p.compute).queues 0).map fun sl =>
    let w := s.wave p.compute
    let on := fun l => p.lanes.getLsbD l && w.live.getLsbD l
    { ok := p.yoke ≠ p.compute ∧ ∀ l, l < 32 → on l = true → (w.fifo 0 l).free sl.depth ≠ 0
      left := fun t =>
        (∀ j, j ≠ p.compute → j ≠ p.yoke → Tab.find t.waves j = Tab.find s.waves j) ∧
        (∀ l, l < 32 → ((t.wave p.compute).fifo 0 l).count = (w.fifo 0 l).count + (if on l then 1 else 0) ∧
          ((t.wave p.compute).fifo 0 l).head = (w.fifo 0 l).head ∧
          (on l = true → (t.wave p.compute).word (sl.reg ((w.fifo 0 l).head + (w.fifo 0 l).count)) l = Tab.get 0 p.vals l)) ∧
        Lands s t p.yoke ((Mask.lanes p.lanes).map fun l => (p.token, l, 0)) (fun _ _ => false) ∧
        t.fly = { s.fly with pushes := Tab.del s.fly.pushes id } ∧ Beside s t [.waves, .fly] }
  | _ => none

end Sys2Proof.Machine
end

