-- ==== Sys2Proof/Safety/Units.lean ====
section
/-! DEFINITION. What the steps of the engines leave: copy movers, PUBLISH, tile operations, Sheepdog and its drives, the task
heap. -/

namespace Sys2Proof.Machine

/-- A token's status lands in its register: each live lane holds it, and waits no more (R252). -/
def Ends (s t : State) (k reg : Nat) (lanes : Mask) (x : Word) : Prop :=
  Lands s t k ((Mask.lanes lanes).map fun l => (reg, l, x)) fun _ _ => false

/-- An operation may end now: it has no error, or its entry need not wait for its completion queue (R306). -/
def State.endsNow (s : State) (id launch ctx : Nat) (e : Err) : Prop :=
  e.cls ≠ 0 → s.cqHolds ctx (s.launch launch).lpb.cq id = false

/-! ### Copy movers -/

/-- The tokens of a collective end together (R255). -/
def CopyEnds (s t : State) (c : Copy) (x : Word) : Prop :=
  ∀ y ∈ c.slices, ∀ l ∈ Mask.lanes y.lanes, (s.wave y.wave).live.getLsbD l = true →
    (t.wave y.wave).cell y.token l = (x, false, false) ∧ (t.wave y.wave).waits y.token l = (false, false)

/-- A packet between allocations of its block, unconverted, both rows in bounds and its source good (R257). -/
def State.plainPacket (s : State) (c : Copy) (src dst n : Nat) : Prop :=
  let b := s.block c.block
  (Tab.find s.blocks c.block).isSome = true ∧ (c.op = .plain ∨ c.op = .signal) ∧ c.arg.cvf = none ∧ c.arg.ssp ≠ .g ∧
  c.arg.dsp ≠ .g ∧ b.beyond c.arg.ssp src n = none ∧ b.beyond c.arg.dsp dst n = none ∧ (b.buf c.arg.ssp).badFor src n = false

/-- The steps of copy movers (R255 to R264, R408). -/
def copyEvent (s : State) : Instr → Option Happening
  | .copyQueueStart id => (Tab.find s.fly.copies id).map fun c =>
    let core := (s.block c.block).core
    { ok := s.copyQueued c = true ∧ s.copiesRunning core < 96 ∧
        (∀ p ∈ s.fly.copies, (s.block p.2.block).core = core → s.copyQueued p.2 = true → c.since ≤ p.2.since)
      left := fun t => ∃ x, Tab.find t.fly.copies id = some x ∧ x.stage = .running ∧ x.landed = c.landed ∧
        (c.agree = false → x.err = firstErr c.err (some ⟨1, 2, core, 0, 0⟩) ∧ x.ending = 1 ∧ x.slices = c.slices) ∧
        (c.agree = true → c.op ≠ .window → c.op ≠ .gather → c.op ≠ .scatter → x = { c with stage := .running }) ∧
        (c.agree = true → (c.op = .gather ∨ c.op = .scatter) →
          x.slices = c.slices.map fun y => { y with xs := (List.range y.rows).map fun r =>
            (BitVec.ofNat 32 (leNat ((s.block c.block).s.take (y.idx + 4 * r) 4))).toInt }) ∧
        (∀ j, j ≠ id → Tab.find t.fly.copies j = Tab.find s.fly.copies j) ∧ Beside s t [.fly] }
  | .copyPacket id n row packet => (Tab.find s.fly.copies id).bind fun c => (c.slices[n]?).bind fun x =>
    ((s.rowPackets c x row)[packet]?).map fun p =>
    let src := x.srcRow c.op row + p.1
    let dst := x.dstRow c.op row + p.1
    { ok := c.stage = .running ∧ c.ending = 0 ∧ row < x.count ∧ (n, row, packet) ∉ c.landed ∧ s.castWaits c = false
      left := fun t =>
        (∀ e, s.packet c x row p.1 p.2 = .error e → Tab.find t.fly.copies id = some (c.stop n e) ∧ Beside s t [.fly]) ∧
        (∀ s1 fl no, s.packet c x row p.1 p.2 = .ok (s1, fl, no) → t.mem = s1.mem ∧
          (Tab.find t.fly.copies id).map (·.landed) = some ((n, row, packet) :: c.landed)) ∧
        (s.plainPacket c src dst p.2 → ∀ a, ((t.block c.block).buf c.arg.dsp).byte a =
          if dst ≤ a ∧ a < dst + p.2 then ((s.block c.block).buf c.arg.ssp).byte (src + (a - dst))
          else ((s.block c.block).buf c.arg.dsp).byte a) }
  | .copyComplete id => (Tab.find s.fly.copies id).map fun c =>
    let b := s.block c.block
    let e := firstErr c.err (s.copySignals c).2
    let done := { c with err := e }
    { ok := c.stage = .running ∧ (c.ending ≠ 0 ∨ s.allLanded c = true ∧ (c.op ≠ .window ∨ c.runs = none)) ∧
        s.endsNow id b.launch b.ctx (e.getD Err.none)
      left := fun t =>
        t.fly.copies = Tab.del s.fly.copies id ∧ CopyEnds s t c done.word ∧
        (c.runs = none ∨ c.op ≠ .signal ∧ c.op ≠ .multi → c.err = none → Beside s t [.waves, .fly]) ∧
        ∀ place u, c.runs.isSome = true → c.op = .signal → c.ending ≠ 2 → c.agree = true → c.err = none →
          s.counterPlace b.core b.ctx (c.runs.elim 0 Prod.snd).toNat = .ok (place, u) →
          s.heldAt b.core b.ctx (c.runs.elim 0 Prod.snd).toNat 32 = false → s.mem.good place →
          (u.mem.counter place).decFires c.dec = false →
          Memory.Grew (u.mem.write (fromPlace place ((u.mem.counter place).dec c.dec).head)) t.mem }
  | .windowPutMerge id => (Tab.find s.fly.copies id).map fun c =>
    let h := c.runs.elim (0 : DWord) Prod.snd
    { ok := c.op = .window ∧ c.runs.isSome = true ∧ c.stage = .running ∧ c.ending = 0 ∧ c.merged = false ∧ s.allLanded c = true ∧ windowDevice h = s.dev.id
      left := fun t =>
        Tab.find t.fly.copies id = some { c with merged := true } ∧ Beside s t [.waves, .dev, .fly] ∧
        (∀ k, (t.wave k).body = (s.wave k).body) ∧
        ∀ n, Tab.find t.dev.winIn n = if n = handleLow h % 4096 then
          (Tab.find s.dev.winIn n).map fun w => { w with tcnt := (w.tcnt + 1) % 2 ^ 64 } else Tab.find s.dev.winIn n }
  | .windowPutAck id => (Tab.find s.fly.copies id).map fun c =>
    let h := c.runs.elim (0 : DWord) Prod.snd
    { ok := c.op = .window ∧ c.stage = .running ∧ c.ending = 0 ∧ c.merged = true ∧ c.err = none ∧ windowDevice h = s.dev.id
      left := fun t =>
        t.fly.copies = Tab.del s.fly.copies id ∧ CopyEnds s t c c.word ∧ Beside s t [.waves, .dev, .fly] ∧
        ∀ n, Tab.find t.dev.winOut n = if s.outWindow (s.block c.block).ctx h = some n then
          (Tab.find s.dev.winOut n).map fun w => { w with scnt := (w.scnt + 1) % 2 ^ 64 } else Tab.find s.dev.winOut n }
  | .shadowPublishSwap id => (Tab.find s.fly.shadows id).map fun x =>
    let bind := (s.ctx x.ctx).binds.find? fun b => b.base == x.base && b.until_ == some x.order
    let size := (bind.map (·.size)).getD 0
    { ok := x.deferred = false ∧ s.writesInto x.ctx x.base size x.order = false ∧ x.ctr = none
      left := fun t =>
        t.fly.shadows = Tab.del s.fly.shadows id ∧ Ends s t x.wave x.token x.lanes (tokenWord Err.none 0 0) ∧
        (t.ctx x.ctx).binds = (s.ctx x.ctx).binds.filter (fun b => bind.isNone || !(b.base == x.base && b.until_ == some x.order)) ∧
        (x.drop = true → t.mem = s.mem) ∧
        ∀ b page frame w, bind = some b → b.pages = [(page, frame)] → walk s.mem (fun _ => none) (s.rootOf x.ctx) page = .ok w →
          ((t.ctx x.ctx).pool = (s.ctx x.ctx).pool ++ [(if x.drop then frame else ptePa w.leaf, w.size)]) ∧
          (x.drop = false → w.size = 2 ^ levelShift w.level →
            t.mem = s.mem.write (placeBytes w.entry 8 ((BitVec.ofNat 64 (s.mem.leAt w.entry 8) &&& ~~~(0x000FFFFFFFFFF000 : DWord)) |||
              BitVec.ofNat 64 frame).toNat) ∧
            ∀ e ∈ t.fly.tlb, ¬(e.ctx = x.ctx ∧ e.base < page + w.size ∧ page < e.base + e.size)) }
  | _ => none

/-! ### Tiles -/

/-- The operand rows of an MMT step in the k block that it reaches (R56, R276). -/
def State.mmtOperands (s : State) (o : TileOp) (x : MmtArg) (aOff bOff : Nat) (aStr bStr : Int) (fa fb : Fdt) (ab bb : Nat) :
    List KRow × List KRow :=
  ((rowStarts aOff aStr (cfgRows o.cfg)).map fun y => ((s.block ab).buf (mmtSpace x)).kRow fa y (32 * o.next),
   (rowStarts bOff bStr (cfgCols o.cfg)).map fun y => ((s.block bb).buf .w).kRow fb y (32 * o.next))

/-- A row of a tile holds these elements, as many bits of each as the tile's type has (R270). -/
def Block.rowHolds (b : Block) (tile row : Nat) (wide : Bool) (vs : List Nat) : Prop :=
  b.accRow tile row wide vs.length = vs.map fun v => v % 2 ^ (8 * accBytes wide)

/-- The steps of tile operations (R56, R57, R270 to R281). -/
def tileEvent (s : State) : Instr → Option Happening
  | .mmtStep id => (Tab.find s.fly.tiles id).bind fun o => match o.op with
    | .mmt x aOff bOff aStr bStr aFdt bFdt _ =>
      (s.operandBlock o.block x.amem).bind fun ab => (s.operandBlock o.block x.bmem).map fun bb =>
        let b := s.block o.block
        let fa := aFdt.fmt
        let fb := bFdt.fmt
        let cls := mmtCls fa fb
        let r := s.mmtOperands o x aOff bOff aStr bStr aFdt bFdt ab bb
        let old := fun i => b.accRow o.tile i (cls == 3) r.2.length
        let row := fun i a => stepRow cls (exactFmt fa) (fmtMx fa || fmtDx fa || fmtMx fb || fmtDx fb) (old i) a r.2
        { ok := s.tileTurn id o = true ∧ o.next ≤ x.km1.toNat ∧ s.held ab = true ∧ s.held bb = true ∧
            s.operandWaits b.core ab = false ∧ s.operandWaits b.core bb = false ∧ cls ≠ 0 ∧
            (b.cls o.tile = 0 ∨ b.cls o.tile = cls) ∧ (∀ k ∈ r.1 ++ r.2, k.bad = none)
          left := fun t =>
            (∀ i a, r.1[i]? = some a → (t.block o.block).rowHolds o.tile i (cls == 3) (row i a).1) ∧
            (t.block o.block).tileStatus o.tile = b.tileStatus o.tile |||
              r.1.zipIdx.foldl (fun w p => w ||| (row p.2 p.1).2) 0 ∧
            Tab.find t.fly.tiles id = some { o with next := o.next + 1 } ∧ t.waves = s.waves ∧ t.dev = s.dev ∧
            Memory.Grew s.mem t.mem ∧ ∀ n, n ≠ o.block → t.block n = s.block n }
    | _ => none
  | .tdrainRow id => (Tab.find s.fly.tiles id).bind fun o => match o.op with
    | .drain x m sat desc dst res slot susp =>
      let b := s.block o.block
      some {
        ok := s.tileTurn id o = true ∧ o.next < cfgRows o.cfg ∧ susp = false ∧ b.cls o.tile ≠ 0 ∧
          (∀ r, s.drainRow o x m sat desc dst res slot o.next = .ok r → x.toG = false ∧ x.out = none)
        left := fun t =>
          (∀ d, s.drainRow o x m sat desc dst res slot o.next = .error d →
            Tab.find t.fly.tiles id = some { o with err := some d.err, ending := 1 } ∧ t.mem = s.mem ∧
            (d.sum = true → (t.block o.block).tileStatus o.tile = b.tileStatus o.tile ||| 8) ∧
            (∀ a, d.trap = some a → (Tab.find s.waves o.wave).isSome = true → (t.wave o.wave).owed = (s.wave o.wave).owed ++
              [⟨.frameTrap, BitVec.ofNat 64 a, o.lanes, o.level, true, o.depth⟩])) ∧
          ∀ r u, s.drainRow o x m sat desc dst res slot o.next = .ok (r, u) →
            (Tab.find t.fly.tiles id).map (·.next) = some (o.next + 1) ∧
            (r.scales = [] → (r.codes.all fun c => c.2.2.isNone) = true →
              let w := fmtWidth r.fdt.fmt
              let codes := r.codes.map Prod.fst
              let data := leBytes ((codes.length * w + 7) / 8) (packElems w codes)
              ∀ a, (t.block o.block).a.byte a = if r.addr ≤ a ∧ a < r.addr + data.length then data.getD (a - r.addr) 0 else b.a.byte a) }
    | _ => none
  | .tileOpComplete id => (Tab.find s.fly.tiles id).map fun o =>
    let b := s.block o.block
    let e := firstErr o.err (s.tileEffect o).2
    let er := e.getD Err.none
    { ok := o.finished = true ∧ (o.ending ≠ 0 ∨ s.tileTurn id o = true) ∧ (o.op.reads = true → o.ending = 0) ∧
        (o.op.reads = false → s.endsNow id b.launch b.ctx er)
      left := fun t =>
        t.fly.tiles = Tab.del s.fly.tiles id ∧
        (o.op.reads = false → Ends s t o.wave o.token o.lanes (tokenWord er (if e.isSome then 1 else o.ending) o.next)) ∧
        (∀ clear, o.op = .status clear → Ends s t o.wave o.token o.lanes (b.tileStatus o.tile) ∧
          (t.block o.block).tileStatus o.tile = if clear then b.tileStatus o.tile &&& ~~~(0xF : Word) else b.tileStatus o.tile) ∧
        (o.op = .check → Ends s t o.wave o.token o.lanes ((t.block o.block).tileStatus o.tile) ∧
          (t.block o.block).tileStatus o.tile = b.tileStatus o.tile |||
            if (List.range 128).all fun i => b.rowOk o.tile i (b.cls o.tile == 3) then 0 else 8) ∧
        (o.op = .zero → o.ending = 0 → (t.block o.block).tileStatus o.tile = 0 ∧
          ∀ i, i < 128 → (t.block o.block).rowHolds o.tile i (b.cls o.tile == 3) (List.replicate 128 0)) ∧
        (∀ k m addr str f, o.op = .load k m addr str f → o.ending = 0 → (s.loadRows o k m addr str f).2.2 = none →
          (t.block o.block).tileStatus o.tile = BitVec.ofNat 32 (TileKind.cls k * 16) ∧
          ∀ i vs, (s.loadRows o k m addr str f).1[i]? = some vs → (t.block o.block).rowHolds o.tile i (k == .f64) vs) ∧
        ∀ x p q y z fa fb cls, o.op = .mmt x p q y z fa fb cls → o.ending = 0 → b.cls o.tile = 0 →
          (t.block o.block).tileStatus o.tile = b.tileStatus o.tile ||| BitVec.ofNat 32 (cls * 16) }
  | _ => none

/-! ### Sheepdog and the heap -/

/-- The only command in progress is this one, it has no page left but `page`, no error and no counter; nothing follows its
end (R282). -/
def State.lastPage (s : State) (id : Nat) (c : SdCmd) (page : Nat) : Prop :=
  s.fly.sd = [(id, c)] ∧ c.pages = [page] ∧ c.started = true ∧ c.ending = 0 ∧ c.ctr = none ∧ c.err = none ∧
  ∀ x ∈ s.fly.nvme, x.2.cmd = id → x.2.page = page

/-- A command ends after its last page: its token, and it is gone (R251, R252). -/
def SdEnds (s t : State) (c : SdCmd) (moved : Nat) : Prop :=
  t.fly.sd = [] ∧ Ends s t c.wave c.token c.lanes (tokenWord Err.none 0 moved)

/-- The pages of Sheepdog's commands, its drives, and HEAPGET's answer (R282 to R285, R310 to R313). -/
def sheepdogEvent (s : State) : Instr → Option Happening
  | .sdPageParked id => (Tab.find s.fly.sd id).bind fun c => (s.sdReady id fun _ => true).map fun n =>
    let x := n.2
    let slot := handleLow c.handle
    { ok := match c.kind with
        | .park _ _ => True
        | _ => False
      left := fun t =>
        (∀ f, Tab.find s.dev.fold slot = some f → Tab.find t.dev.fold slot =
          some { f with pages := Tab.put f.pages x.page ⟨c.p64, x.entries, x.body⟩, st := 2 }) ∧
        (∀ j, j ≠ slot → Tab.find t.dev.fold j = Tab.find s.dev.fold j) ∧
        (t.ctx c.ctx).pool = (s.ctx c.ctx).pool ++ [(x.frame, pageBytes c.p64)] ∧
        (s.lastPage id c x.page → s.fly.nvme = [n] → SdEnds s t c (c.moved + 1)) }
  | .sdPageRecalled id page => (Tab.find s.fly.sd id).bind fun c => (s.sdReady id fun x => x.page == page).map fun n =>
    let slot := handleLow c.handle
    let held := ((Tab.find s.dev.fold slot).bind fun f => Tab.find f.pages page).filter fun p => p.p64 == c.p64
    { ok := c.kind = .call
      left := fun t =>
        (held = none → t.dev.fold = s.dev.fold ∧ ∀ k, (t.ctx k).pool = (s.ctx k).pool) ∧
        ∀ p es f, held = some p → s.stillParked (walkerUnit c.core) c.ctx page p = some es →
          let format := s.fdt (walkerUnit c.core) c.ctx (pteFdt (BitVec.ofNat 64 ((es.head?).elim 0 Prod.snd)))
          s.findFrame c.ctx c.core (pageBytes c.p64) (BitVec.ofNat 64 ((es.head?).elim 0 Prod.snd)) = some f →
          (format.bad && p.body.any fun x => x.code != 0) = false →
          (∀ y, Tab.find s.dev.fold slot = some y → Tab.find t.dev.fold slot = some (y.without page)) ∧
          (t.ctx c.ctx).pool = (s.ctx c.ctx).pool.erase f ∧
          (s.lastPage id c page → s.fly.nvme = [n] → SdEnds s t c (c.moved + 1) ∧
            let bs := (recallPage format (pageBytes c.p64) s.free p.body).1
            t.mem = (s.mem.write (fromPa f.1 bs)).write (es.flatMap fun e => placeBytes e.1 8
              ((BitVec.ofNat 64 e.2 &&& ~~~(0x800FFFFFFFFFF000 : DWord)) ||| pteV ||| BitVec.ofNat 64 f.1).toNat)) }
  | .sdPageDropped id page => (Tab.find s.fly.sd id).bind fun c => (s.sdReady id fun x => x.page == page).map fun n =>
    let slot := handleLow c.handle
    let held := ((Tab.find s.dev.fold slot).bind fun f => Tab.find f.pages page).filter fun p => p.p64 == c.p64
    { ok := c.kind = .drop
      left := fun t =>
        (∀ k, (t.ctx k).pool = (s.ctx k).pool) ∧
        (held = none → t.dev.fold = s.dev.fold) ∧
        ∀ p, held = some p →
          (∀ y, Tab.find s.dev.fold slot = some y → Tab.find t.dev.fold slot = some (y.without page)) ∧
          (s.lastPage id c page → s.fly.nvme = [n] → SdEnds s t c (c.moved + 1) ∧
            (∀ es, s.stillParked (walkerUnit c.core) c.ctx page p = some es → t.mem = s.mem.write (es.flatMap fun e => placeBytes e.1 8
              (BitVec.ofNat 64 e.2 &&& ~~~ptePk).toNat)) ∧
            (s.stillParked (walkerUnit c.core) c.ctx page p = none → t.mem = s.mem)) }
  | .nvmeCompletion id status => (Tab.find s.fly.nvme id).map fun x =>
    let code := (status.extractLsb' 0 11).toNat
    { ok := x.acked = false
      left := fun t =>
        (code = 0 → x.rest ≠ 0 → Tab.find t.fly.nvme id = some { x with tries := 0, rest := x.rest - 1 } ∧ Beside s t [.fly]) ∧
        (code = 0 → x.rest = 0 → (∀ c ∈ s.fly.sd, c.2.started = true ∧ c.2.ending = 0 ∧ c.2.pages ≠ [] ∧
            ∀ p ∈ c.2.pages, ∃ y ∈ s.fly.nvme, y.2.cmd = c.1 ∧ y.2.page = p) →
          Tab.find t.fly.nvme id = some { x with acked := true } ∧ Beside s t [.fly]) ∧
        (code ≠ 0 → status.getLsbD 14 = false → x.tries < 3 →
          Tab.find t.fly.nvme id = some { x with tries := x.tries + 1 } ∧ Beside s t [.fly]) ∧
        (code ≠ 0 → (status.getLsbD 14 = true ∨ 3 ≤ x.tries) → ∀ c, s.fly.sd = [(x.cmd, c)] → c.err = none →
          s.endsNow x.cmd c.launch c.ctx ⟨11, 5, 0, x.page, code⟩ →
          t.fly.sd = [] ∧ Ends s t c.wave c.token c.lanes (tokenWord ⟨11, 5, 0, x.page, code⟩ 1 c.moved)) }
  | .nvmeTimeout id => (Tab.find s.fly.nvme id).map fun x =>
    { ok := x.acked = false
      left := fun t => ∀ c, s.fly.sd = [(x.cmd, c)] → c.err = none → s.endsNow x.cmd c.launch c.ctx ⟨11, 5, 0, x.page, 0xFFFF⟩ →
        t.fly.sd = [] ∧ Ends s t c.wave c.token c.lanes (tokenWord ⟨11, 5, 0, x.page, 0xFFFF⟩ 1 c.moved) }
  | .heapgetServe inst entry => (s.fly.heap.find? fun p => p.2.inst == inst).map fun p =>
    let r := p.2
    let h := s.heap inst
    let choices := heapChoices h.entries
    let put := fun (t : State) (key val : Nat) =>
      t.fly.heap = Tab.del s.fly.heap p.1 ∧ Ends s t r.wave r.token r.lanes 0 ∧ OnlyWave s t r.wave ∧
      ((Tab.find s.blocks r.block).isSome = true → ∀ a, (t.block r.block).s.byte a = if r.addr ≤ a ∧ a < r.addr + 8 then
        (leBytes 4 key ++ leBytes 4 val).getD (a - r.addr) 0 else (s.block r.block).s.byte a)
    { ok := choices ≠ [] ∨ h.st = 2
      left := fun t =>
        (choices = [] → put t 0xFFFFFFFF 0 ∧ t.dev = s.dev) ∧
        ∀ e, choices[entry % choices.length]? = some e → put t e.1 e.2.1 ∧
          (t.heap inst).entries = h.entries.filter (· != e) ∧
          (r.depth ≠ 0 → (Tab.find s.blocks r.block).isSome = true → (t.block r.block).rcv.taken =
            (s.block r.block).rcv.taken ++ [⟨r.depth, inst, e.1, e.2.1⟩]) }
  | _ => none

end Sys2Proof.Machine
end

