-- ==== Sys2Proof/Safety/Scopes.lean ====
section
/-! DEFINITION. What barriers, the opening and accepting of scopes, rollback and cycle limits leave. -/

namespace Sys2Proof.Machine

/-- The waves of a block, as they were and as they are. -/
def State.EachWave (s t : State) (blk : Nat) (p : Wave → Wave → Prop) : Prop :=
  ∀ k w, Tab.find s.waves k = some w → w.block = blk → ∃ x, Tab.find t.waves k = some x ∧ p w x

/-- A frame has opened at a block with the operands of its lowest wave, and no wave of it waits (R372, R375). -/
def FrameOpened (s t : State) (blk : Nat) (sit : Bool) : Prop :=
  let r := (s.block blk).rcv
  ∀ i a rest, r.opening = (i, a) :: rest →
    (t.block blk).rcv.frames = r.frames ++ [⟨a.next, a.fmask, a.limit, 0, 0, 0, sit, false, false, false, r.recs.length⟩] ∧
    (t.block blk).rcv.opening = [] ∧ (t.block blk).rcv.recs = r.recs ∧
    s.EachWave t blk fun w x => x.wait = none ∧ x.regs = w.regs ∧ x.flags = w.flags ∧
      Tab.find x.saves ((s.block blk).depth + 1) = some ⟨w.flags, w.copies⟩

/-- The frames of a block after its innermost has committed: that one is gone, and the next one out defers a PUBLISH that it
deferred (R269, R372, R381). -/
def Recovery.framesLeft (r : Recovery) : List Frame :=
  let d := r.frames.length
  let defer := (r.frame d).any (·.defer)
  (r.frames.take (d - 1)).zipIdx.map fun f => if f.2 + 2 = d then { f.1 with defer := f.1.defer || defer } else f.1

/-- The innermost frame of a block has committed: it is gone and its waves go on with the registers that they have; with
the outermost frame every record is gone (R381, R388). -/
def FrameCommitted (s t : State) (blk : Nat) : Prop :=
  let d := (s.block blk).depth
  (t.block blk).rcv.frames = (s.block blk).rcv.framesLeft ∧ (d = 1 → (t.block blk).rcv.recs = []) ∧
  s.EachWave t blk fun w x => x.wait = none ∧ x.regs = w.regs ∧ x.flags = w.flags ∧ Tab.find x.saves d = none

/-- A record of a register word, by its place. -/
def isReg (k r l : Nat) (x : PRec) : Bool :=
  match x.loc with
  | .reg a b c => a == k && b == r && c == l
  | _ => false

/-- The steps of barriers and scopes (R372 to R392, R405). -/
def scopeEvent (s : State) : Instr → Option Happening
  | .barrierComplete b => some (match b with
    | .block blk y =>
      let g := ((s.block blk).barrier y).gen
      { ok := s.barrierFull blk y = true ∧ (s.block blk).st.here = true
        left := fun t =>
          (t.block blk).barrier y = ⟨[], (g + 1) % 2 ^ 32⟩ ∧ (t.block blk).barrier (!y) = (s.block blk).barrier (!y) ∧
          (t.block blk).frameOld = [] ∧ (∀ n, n ≠ blk → t.block n = s.block n) ∧
          (∀ k, Tab.find t.waves k = (Tab.find s.waves k).map fun w =>
            if w.wait = some (.barrier b g) then { w with wait := none } else w) ∧ Beside s t [.waves, .blocks] }
    | .group l n =>
      let g := (s.group l n).gen
      { ok := s.groupFull l n = true
        left := fun t =>
          t.group l n = { s.group l n with arrived := [], gen := (g + 1) % 2 ^ 32 } ∧
          (∀ j, j ≠ n → t.group l j = s.group l j) ∧ (∀ j, j ≠ l → t.launch j = s.launch j) ∧
          (∀ k, Tab.find t.waves k = (Tab.find s.waves k).map fun w =>
            if w.wait = some (.barrier b g) then { w with wait := none } else w) ∧ Beside s t [.waves, .launches] })
  | .openingBarrierComplete blk => some {
    ok := s.openingFull blk = true ∧ ((s.block blk).depth ≠ 0 ∨ s.sittingOf blk = none ∨ ∃ n x, s.sittingOf blk = some (n, x) ∧
      x.st = 2 ∧ x.members.Nodup ∧ blk ∈ x.members ∧ ∀ m ∈ x.members, s.openingFull m = true)
    left := fun t =>
      if (s.block blk).depth ≠ 0 ∨ s.sittingOf blk = none then
        FrameOpened s t blk false ∧ (∀ n, n ≠ blk → t.block n = s.block n) ∧ Beside s t [.waves, .blocks]
      else ∀ n x, s.sittingOf blk = some (n, x) → (∀ m ∈ x.members, FrameOpened s t m true) ∧
        Tab.find t.dev.sits n = some { x with st := 3, opened := [], accepted := [], restored := [], ended := [] } ∧
        (∀ m, m ∉ x.members → t.block m = s.block m) ∧ Beside s t [.waves, .blocks, .dev] }
  | .acceptBarrierComplete blk =>
    let alone := ¬((s.block blk).depth = 1 ∧ (s.block blk).rcv.inRound = true) ∨ s.sittingOf blk = none
    some {
      ok := s.acceptFull blk = true ∧ (alone ∨ ∃ n x, s.sittingOf blk = some (n, x) ∧ x.members.Nodup ∧ blk ∈ x.members ∧
        ∀ m ∈ x.members, s.acceptFull m = true)
      left := fun t =>
        (alone → FrameCommitted s t blk ∧ ∀ p ∈ (t.core (s.block blk).core).l1, ∀ b ∈ p.2.bytes,
          b.2.holder ≠ some (blk, (s.block blk).depth) ∧ ((s.block blk).depth = 1 → ∀ n, b.2.holder ≠ some (blk, n))) ∧
        (¬alone → ∀ n x, s.sittingOf blk = some (n, x) → (∀ m ∈ x.members, FrameCommitted s t m) ∧
          Tab.find t.dev.sits n = some { x with
            st := 2, round := (x.round + 1) % 2 ^ 16, opened := [], accepted := [], restored := [], ended := [] }) }
  | .rollback blk => (s.block blk).rcv.failing.map fun f =>
    let b := s.block blk
    let d := f.depth
    { ok := 1 ≤ d ∧ d ≤ b.depth ∧ (d = 1 → b.rcv.inRound = false) ∧ b.st = .running ∧ s.mayRestore blk d = true ∧
        (∀ r ∈ b.rcv.recs, d ≤ r.depth → (s.reread r).isSome = true) ∧ (∀ r ∈ b.rcv.recs, ∀ k n l, r.loc = .reg k n l → l < 32) ∧
        (s.blocks.map Prod.fst).Nodup
      left := fun t =>
        let r := (t.block blk).rcv
        r.failing = none ∧ r.rcause = f.rcause ∧ r.frames.length = d ∧ r.frame d = (b.rcv.frame d).map Frame.rolled ∧
        r.recs = b.rcv.recs.filter (fun x => decide (x.depth < d)) ∧
        (t.ctx b.ctx).rollback = satAdd 64 (s.ctx b.ctx).rollback 1 ∧
        (∀ k ∈ b.waves, ∀ w, Tab.find s.waves k = some w → w.block = blk → ∃ x, Tab.find t.waves k = some x ∧ x.dispatch = true ∧
          x.wait = none ∧ x.live = w.live ∧ (∀ v, Tab.find w.saves d = some v → x.flags = v.flags ∧ x.copies = v.copies) ∧
          (x.trap.level = 0 → ∀ l, l < 32 → w.live.getLsbD l = true → ∀ g, b.rcv.frame d = some g → x.pc l = g.next)) ∧
        ∀ k n l r v p e x, l < 32 → (Tab.find s.waves k).isSome = true →
          b.rcv.recs.find? (fun r => decide (d ≤ r.depth) && isReg k n l r) = some r → r.spilled = false → r.at_ = [] →
          r.val = .reg v p e x →
          (t.wave k).cell n l = (v, x, false) ∧ (t.wave k).waits n l = (p, e) }
  | .recoveryLimitExpiry blk d => ((s.block blk).rcv.frame d).map fun f =>
    { ok := f.limit ≠ 0 ∧ f.limit ≤ f.count ∧ (s.block blk).st = .running ∧ (s.block blk).rcv.failing = none
      left := fun t =>
        (t.block blk).rcv = { (s.block blk).rcv with failing := some ⟨d, rcauseWord f.rank (s.lowestWib blk) 0 0x81, (s.core (s.block blk).core).cycles⟩ } ∧
        (∀ n, n ≠ blk → t.block n = s.block n) ∧ Beside s t [.blocks] }
  | _ => none

end Sys2Proof.Machine
end

