-- ==== Sys2Proof/Safety/Scheduling.lean ====
section
/-! DEFINITION. What admission, placement, pools, pre-emption, migration, retirement, completion queues, vaults and power
leave. -/

namespace Sys2Proof.Machine

/-! ### Admission and placement -/

/-- A launch has been admitted: one record more, and each block of its grid is offered with its coordinates (R16, R298). -/
def Admitted (s t : State) (ctx q ident : Nat) (l : Lpb) (gs : List (List Nat × Bool)) (prefer : Option Nat) : Prop :=
  ∃ id r, Tab.find t.launches id = some r ∧ (∀ j, j ≠ id → Tab.find t.launches j = Tab.find s.launches j) ∧
    r.ctx = ctx ∧ r.q = q ∧ r.ident = ident ∧ r.lpb = l ∧ r.left = l.blocks ∧ r.err = none ∧ r.prefer = prefer ∧
    r.groups.map (·.members) = gs.map Prod.fst ∧
    ∀ i, i < l.blocks → ∃ n b, Tab.find t.blocks n = some b ∧ b.launch = id ∧ b.ctx = ctx ∧ b.lin = i ∧ b.st = .offered ∧
      b.x = i % l.gx ∧ b.y = i / l.gx % l.gy ∧ b.z = i / l.gx / l.gy ∧ b.nwaves = l.waves ∧ b.foot = l.regs ∧ b.waves = []

/-- A wave as its block's placement creates it (R13, R14). -/
def Wave.fresh (w : Wave) (blk wib foot : Nat) (entry : DWord) : Prop :=
  w.block = blk ∧ w.wib = wib ∧ w.foot = foot ∧ w.live = BitVec.allOnes 32 ∧ w.flags = 0 ∧ w.trap.level = 0 ∧
  (∀ l, l < 32 → w.pc l = entry.setWidth 48) ∧ (∀ r l, l < 32 → w.cell r l = (0, false, false))

/-- A block placed on a core (R13, R23). -/
def Placed (s t : State) (blk core : Nat) : Prop :=
  let b := s.block blk
  let l := s.lpb blk
  (t.block blk).st = .starting ∧ (t.block blk).core = core ∧
  (∀ i, i < b.nwaves → ∃ k w, k ∈ (t.block blk).waves ∧ Tab.find t.waves k = some w ∧
    w.fresh blk i b.foot (if b.spawned then b.entry.setWidth 64 else BitVec.ofNat 64 l.entry)) ∧
  (l.yoke = true → b.spawned = false → ∀ i, i < b.nwaves → ∃ k w, k ∈ (t.block blk).waves ∧ Tab.find t.waves k = some w ∧
    w.fresh blk (32 + i) (l.yokeRegs * 8) (BitVec.ofNat 64 l.yokeEntry))

/-- Admission and placement (R13 to R19, R297 to R299, R317 to R325). -/
def placeEvent (s : State) : Instr → Option Happening
  | .launchAdmit ctx q =>
    let lq := s.lq ctx q
    let at_ := lq.base + 256 * lq.head
    some {
      ok := s.admits ctx = true ∧ s.nextQueue ctx = some q
      left := fun t =>
        (t.lq ctx q).head = (lq.head + 1) % ctlSize lq.ctl ∧ (t.lq ctx q).count = (lq.count + 1) % 2 ^ 29 ∧
        (t.ctx ctx).nextq = (q + 1) % 8 ∧
        (∀ c va, s.unitRead farUnit ctx at_ 256 = .error (c, va) → t.launches = s.launches ∧ t.blocks = s.blocks ∧
          Notified s t ctx 0 none ⟨q * 2 ^ 29 + lq.count, 3, ⟨c.cls, 0, 0, at_ % 2 ^ 48, 0⟩, 0, 0, 0, 0, ctx⟩) ∧
        ∀ bs y, s.unitRead farUnit ctx at_ 256 = .ok (bs, y) →
          let l := Lpb.ofBytes bs
          let cq := if s.cqUsable ctx l then l.cq else 0
          let refused : Entry := ⟨q * 2 ^ 29 + lq.count, 3, ⟨1, 0, 0, 0, 0⟩, 0, 0, 0, 0, ctx⟩
          (s.lpbBad ctx l = true → t.launches = s.launches ∧ t.blocks = s.blocks ∧ Notified y t ctx cq none refused) ∧
          (s.lpbBad ctx l = false → (y.groupTable ctx l).1 = none → t.launches = s.launches ∧ t.blocks = s.blocks ∧
            Notified (y.groupTable ctx l).2 t ctx cq none refused) ∧
          ∀ gs, s.lpbBad ctx l = false → (y.groupTable ctx l).1 = some gs →
            ((s.ctx ctx).cores = 0 → t.launches = s.launches ∧ t.blocks = s.blocks ∧
              Notified (y.groupTable ctx l).2 t ctx cq none ⟨q * 2 ^ 29 + lq.count, 3, ⟨9, 0, 0, 0, 0⟩, 0, 0, 0, 0, ctx⟩) ∧
            ((s.ctx ctx).cores ≠ 0 → Admitted s t ctx q lq.count l gs (Tab.find lq.prefer lq.head) ∧
              Memory.Grew s.mem t.mem) }
  | .blockPlace offer => some {
    ok := (s.block offer).st = .offered ∧ (s.block offer).relieved = false ∧ s.yields offer = false
    left := fun t =>
      (∀ ps, s.placement offer = some ps → (ps.map Prod.fst).Nodup → (∀ p ∈ ps, (s.block p.1).waves = [] ∧
        (Tab.find s.blocks p.1).isSome = true) → ∀ p ∈ ps, Placed s t p.1 p.2) ∧
      (s.placement offer = none → s.gangOf offer = none → (t.block offer).die = ((s.block offer).die + 1) % 4 ∧
        (t.block offer).st = .offered ∧ t.waves = s.waves) }
  | .priorityAgeTick offer =>
    let b := s.block offer
    some {
      ok := b.waiting = true ∧ b.ticks < 4 ∧ 25 * (b.ticks + 1) ≤ b.age ∧ (Tab.find s.blocks offer).isSome = true
      left := fun t => t.block offer = { b with ticks := b.ticks + 1 } ∧ (∀ n, n ≠ offer → t.block n = s.block n) ∧
        Beside s t [.blocks] }
  | .starvationRelief offer => some {
    ok := (s.block offer).waiting = true ∧ 50 ≤ (s.block offer).waited ∧ s.yields offer = false ∧ (Tab.find s.blocks offer).isSome = true
    left := fun t =>
      (s.gangOf offer = none → ∀ c, (s.coolest offer).find? (fun c => s.fits offer c [] && s.inPool offer c) = some c →
        (t.block offer).st = .starting ∧ (t.block offer).core = c) ∧
      ∀ ps, s.placement offer = some ps → (ps.map Prod.fst).Nodup → (∀ p ∈ ps, (Tab.find s.blocks p.1).isSome = true) →
        ∀ p ∈ ps, (t.block p.1).st = .starting ∧ (t.block p.1).core = p.2 ∧ s.fits p.1 p.2 [] = true ∧ s.inPool p.1 p.2 = true }
  | .staggeredStart blk =>
    let b := s.block blk
    some {
      ok := b.st = .starting ∧ (s.core b.core).wake = 0 ∧ (s.cluster (b.core / 8)).moving = false
      left := fun t => (t.block blk).st = .running ∧ (t.block blk).image = none ∧ (t.block blk).waves = b.waves ∧
        (∀ n, n ≠ blk → t.block n = s.block n) ∧ Beside s t [.blocks, .ctxs] }
  | .matrixEngineRamp core =>
    let c := s.core core
    some {
      ok := 0 < c.ramp ∧ c.ramp < 8 ∧ 256 * c.ramp ≤ c.started
      left := fun t => t.core core = { c with ramp := c.ramp + 1 } ∧ (∀ n, n ≠ core → t.core n = s.core n) ∧ Beside s t [.cores] }
  | .poolMove cluster cls => some {
    ok := ∃ p ∈ s.blocks, (s.lpb p.1).opclass = cls ∧ s.poolless p.1 = true ∧ s.poolChoice p.1 = some cluster
    left := fun t =>
      (t.cluster cluster).pool = cls ∧ (t.cluster cluster).boost = s.poolBoost cls ∧ (t.cluster cluster).moving = true ∧
      (∀ g, g < 8 → (t.core (8 * cluster + g)).grants = 12) ∧ (∀ n, n ≠ cluster → t.cluster n = s.cluster n) ∧
      Beside s t [.clusters, .cores] }
  | .poolMoveComplete cluster => some {
    ok := (s.cluster cluster).moving = true
    left := fun t =>
      (t.cluster cluster) = { s.cluster cluster with moving := false } ∧ (∀ n, n ≠ cluster → t.cluster n = s.cluster n) ∧
      (∀ g, g < 8 → t.core (8 * cluster + g) = { s.core (8 * cluster + g) with
        wake := 32 * g, ramp := if (s.blocksOn (8 * cluster + g)).isEmpty then 0 else 1, started := 0 }) ∧
      (∀ n, n / 8 ≠ cluster → t.core n = s.core n) ∧ Beside s t [.clusters, .cores] }
  | _ => none

/-! ### Pre-emption, restore, migration -/

/-- No wave of a block stands in a core's sets. -/
def Unseated (s t : State) (blk core : Nat) : Prop :=
  ∀ k ∈ (s.block blk).waves, k ∉ (t.core core).active ∧ ∀ n, (k, n) ∉ (t.core core).pending

/-- Blocks leave cores, come back, move and retire (R330 to R337, R358). -/
def moveEvent (s : State) : Instr → Option Happening
  | .preempt offer =>
    let place := match (s.block offer).claim with
      | some c => some c
      | none => if (s.block offer).waiting && s.roomless offer then s.preemptPlace offer else none
    place.bind fun c => match s.victimsAt offer c with
      | some (v :: _) =>
        let b := s.block v
        let size := s.imageBytes v
        (firstFit (s.ctx b.ctx).saveBase (s.ctx b.ctx).saveSize size (s.ctx b.ctx).saves).map fun at_ =>
          { ok := v ≠ offer ∧ (Tab.find s.blocks v).isSome = true ∧ (Tab.find s.blocks offer).isSome = true
            left := fun t =>
              (t.block v).st = .saved ∧ (t.block v).image = some (at_, size) ∧ (t.block v).granules = [] ∧
              (t.ctx b.ctx).saves = (s.ctx b.ctx).saves ++ [(at_, size)] ∧ Unseated s t v b.core ∧
              (t.block offer).claim = some c ∧ (t.block offer).st = (s.block offer).st ∧
              (∀ k ∈ b.waves, ∃ o, Tab.find t.dev.locs k = some (.saved (at_ + o))) }
      | _ => none
  | .restore blk => ((s.coreOrder blk).find? fun c => (s.failing blk c).isNone).map fun c =>
    { ok := (s.block blk).st = .saved ∧ (s.block blk).relieved = false ∧ s.yields blk = false
      left := fun t =>
        (t.block blk).st = .starting ∧ (t.block blk).core = c ∧ (t.block blk).rcv.broken = true ∧ (t.block blk).rcv.away = [] ∧
        (t.block blk).waves = (s.block blk).waves ∧
        ∀ k ∈ (s.block blk).waves, ∃ slot, Tab.find t.dev.locs k = some (.resident c slot) }
  | .migration blk core =>
    let b := s.block blk
    some {
      ok := b.st = .running ∧ (s.lpb blk).preemptible = true ∧ b.gang = none ∧ b.core ≠ core ∧ core < 256 ∧
        s.eligible b.ctx core = true ∧ s.failing blk core = none ∧ 
        (b.want = some core ∨ b.want = some 0xFFFF ∨ s.emptying (b.core / 8) = true ∧ core / 8 ≠ b.core / 8)
      left := fun t =>
        (t.block blk).st = .moving ∧ (t.block blk).core = core ∧ (t.block blk).waves = b.waves ∧ Unseated s t blk b.core ∧
        ∀ k ∈ b.waves, Tab.find t.dev.locs k = some (.moving b.core core) }
  | .migrationDrain blk =>
    let b := s.block blk
    some {
      ok := b.st = .moving ∧ (s.core b.core).wake = 0 ∧ (s.cluster (b.core / 8)).moving = false
      left := fun t =>
        (t.block blk).st = .running ∧ (t.block blk).core = b.core ∧ (t.block blk).rcv.broken = true ∧ (t.block blk).rcv.away = [] ∧
        (t.block blk).want = none ∧ ∀ k ∈ b.waves, ∃ slot, Tab.find t.dev.locs k = some (.resident b.core slot) }
  | .blockRetire blk =>
    let b := s.block blk
    let l := s.launch b.launch
    some {
      ok := b.st = .draining ∧ s.drained blk = true
      left := fun t =>
        Tab.find t.blocks blk = none ∧ (∀ n, l.left = n + 2 → (t.launch b.launch).left = n + 1) ∧
        (l.left = 1 → (s.lpb blk).blockCtr = 0 → b.parentCtr = 0 → s.cqHolds l.ctx l.lpb.cq b.launch = false →
          (∀ p ∈ s.launches, p.1 ≠ b.launch → p.2.left ≠ 0) → (s.launches.map Prod.fst).Nodup → (Tab.find s.launches b.launch).isSome = true →
          Tab.find t.launches b.launch = none ∧ Notified s t l.ctx l.lpb.cq b.launch (l.entry false)) }
  | .heldContinuationAppend ctx q =>
    let lq := s.lq ctx q
    match lq.held with
    | [] => none
    | h :: hs => some {
      ok := (s.ctx ctx).st = 1 ∧ ctlEn lq.ctl = true ∧ ctlDevfed lq.ctl = true ∧ lq.full = false ∧
        ∃ z, s.unitWrite farUnit ctx (lq.base + 256 * lq.tail) h.bytes = .ok z
      left := fun t =>
        t.lq ctx q = { lq with held := hs, tail := (lq.tail + 1) % ctlSize lq.ctl, prefer := Tab.put lq.prefer lq.tail h.core } ∧
        ∀ z, s.unitWrite farUnit ctx (lq.base + 256 * lq.tail) h.bytes = .ok z → t.mem = z.mem }
  | _ => none

/-! ### Queues, vaults and power -/

/-- Every lease of a pool is over (R338). -/
def State.noLease (s : State) (pool : Nat) : Prop := ∀ p ∈ s.launches, p.2.leasePool = pool → p.2.lease = 0

/-- Completion queues, vaults, charging, leases and power (R189 to R192, R306, R338, R415, R423). -/
def powerEvent (s : State) : Instr → Option Happening
  | .completionQueueRetry ctx cq =>
    let q := s.cq ctx cq
    match q.held with
    | [e] => some {
      ok := q.waiting = [] ∧ ctlEn q.ctl = true ∧ (q.tail + 1) % ctlSize q.ctl ≠ q.head ∧ s.fly.sd = [] ∧ (∀ p ∈ s.launches, p.2.left ≠ 0) ∧
        ∃ z, s.unitWrite farUnit ctx (q.base + 32 * q.tail) (e.bytes q.pass) = .ok z
      left := fun t =>
        (t.cq ctx cq).tail = (q.tail + 1) % ctlSize q.ctl ∧ (t.cq ctx cq).held = [] ∧
        ((e.err.cls = 0 ∨ ctlEn (s.ctx e.ctx).ectl = false) →
          ∀ z, s.unitWrite farUnit ctx (q.base + 32 * q.tail) (e.bytes q.pass) = .ok z → t.mem = z.mem) }
    | _ => none
  | .cqIrqTimeout ctx cq => some {
    ok := (s.cq ctx cq).ien = true ∧ (s.cq ctx cq).since ≠ 0
    left := fun t => t.cq ctx cq = { s.cq ctx cq with since := 0 } ∧ t.dev = { s.dev with msix := (17 * ctx + cq) :: s.dev.msix } ∧
      Beside s t [.ctxs, .dev] }
  | .vaultSensorRead v temp =>
    let old := (s.vault v).band
    let new := if old < bandOf temp then bandOf temp
      else if 0 < old ∧ temp ≤ [0, 1040, 1200, 1360, 1520].getD old 1520 - 32 then old - 1 else old
    some {
      ok := v < 256
      left := fun t =>
        t.vault v = { s.vault v with temp := temp, band := new } ∧ (∀ n, n ≠ v → t.vault n = s.vault n) ∧
        (new = 4 → old ≠ 4 → (t.core v).capped = true) ∧
        (new ≠ 4 → old = 4 → (t.core v).capped = false ∧ (t.core v).wake = 32 * (v % 8)) ∧
        (2 ≤ new → (s.launches.map Prod.fst).Nodup → t.noLease (s.cluster (v / 8)).pool) ∧ t.waves.map Prod.fst = s.waves.map Prod.fst ∧
        t.blocks = s.blocks }
  | .chargingIntervalClose v =>
    let c := s.core v
    let x := [0, 9375, 28125, 65625, 140625].getD (s.vault v).startBand 0
    some {
      left := fun t =>
        (t.core v).units = 0 ∧ (t.core v).unitsOf = [] ∧ (t.vault v).startBand = (s.vault v).band ∧
        ((c.unitsOf.map Prod.fst).Nodup → ∀ p ∈ c.unitsOf, (Tab.find s.blocks p.1).isSome = true →
          (t.block p.1).heat = satAdd 64 (s.block p.1).heat (x * p.2.2 / c.units)) ∧
        (∀ n, n ∉ c.unitsOf.map Prod.fst → t.block n = s.block n) ∧ Beside s t [.blocks, .ctxs, .cores, .vaults] }
  | .leaseExpiry n =>
    let l := s.launch n
    some {
      ok := l.lease = 1
      left := fun t =>
        t.launch n = { l with lease := 0, leaseCls := 0 } ∧ (∀ j, j ≠ n → t.launch j = s.launch j) ∧
        (t.noLease l.leasePool → ∀ k ∈ s.poolClusters l.leasePool, (t.cluster k).boost = 0) ∧ Beside s t [.launches, .clusters, .cores] }
  | .powerThrottleTick est => some {
    left := fun t =>
      t.dev = { s.dev with pkgest := est } ∧
      (∀ n, n < 256 →
        let c := s.core n
        let g := if s.dev.pkglim < est then max 4 (c.grants - 1)
          else if est * 100 < s.dev.pkglim * 95 ∧ c.grants < c.written then c.grants + 1
          else c.grants
        t.core n = { c with grants := g }) ∧ Beside s t [.cores, .dev] }
  | .junctionTrip temp => some {
    ok := 1760 < temp
    left := fun t => t.dev.trip = true ∧ (∀ n, (t.core n).grants = 12) ∧ ∀ n, n < 64 → (s.ctx n).st = 1 → Killed s t n }
  | .junctionHoldRelease temp => some {
    ok := temp < 1520 ∧ s.dev.trip = true
    left := fun t => t.dev = { s.dev with trip := false } ∧ (∀ n, (t.core n).grants = 12) ∧ Beside s t [.cores, .dev] }
  | _ => none

end Sys2Proof.Machine
end

