-- ==== Sys2Proof/Safety/HostSide.lean ====
section
/-! DEFINITION. What the host and the supervisor leave: aperture accesses, register writes, the commands of SCMD, resets,
firmware, and the Ezley ports. -/

namespace Sys2Proof.Machine

/-! ### Events -/

/-- EVERY EVENT IS TOLD: with the ring enabled its record is written at the tail and the tail moves on; a full ring drops it
and sets the overflow bit, a disabled one takes no record; vector 16 is signalled for each event (R296, R422). -/
def EventsTold : Prop :=
  ∀ (s : State) k uk u ctx d,
    let t := s.event k uk u ctx d
    let at_ := s.dev.evtail % 2 ^ 12
    let size := 2 ^ (s.dev.evctl % 16)
    (ctlEn s.dev.evctl = false → t = { s with dev := { s.dev with msix := 16 :: s.dev.msix } }) ∧
    (ctlEn s.dev.evctl = true → t.dev.msix = 16 :: s.dev.msix ∧
      ((at_ + 1) % size = s.dev.evhead % 2 ^ 12 → t.mem = s.mem ∧ 2 ^ 31 ≤ t.dev.evtail) ∧
      ((at_ + 1) % size ≠ s.dev.evhead % 2 ^ 12 → ∀ z, s.unitWrite farUnit 0 (s.dev.evbase + 16 * at_)
        (leBytes 1 k ++ leBytes 1 (uk * 16) ++ leBytes 2 u ++ leBytes 1 ctx ++ leBytes 3 0 ++ leBytes 8 d) = .ok z →
        t.mem = z.mem ∧ t.dev.evtail = (at_ + 1) % size + s.dev.evtail / 2 ^ 31 * 2 ^ 31))

/-! ### Registers with a behaviour of their own -/

/-- Only one context's registers have changed. -/
def OnlyCtx (s t : State) (ctx : Nat) : Prop := ∀ c, c ≠ ctx → t.ctx c = s.ctx c

/-- Nothing waits for a completion queue: no launch holds its entry back, no Sheepdog command runs, and no queue has a waiter. -/
def State.unheld (s : State) : Prop :=
  s.fly.sd = [] ∧ (∀ p ∈ s.launches, p.2.left ≠ 0) ∧ ∀ c n, (s.cq c n).waiting = []

/-- An aperture access and the registers that do something of their own (R206, R296, R297, R306, R307, R313, R361, R412, R416,
R420, R423). -/
def hostEvent (s : State) (ins : Instr) : Option Happening :=
  let booted := s.dev.fw.bootfail = false
  match ins with
  | .hostApertureAccess fn off write len =>
    let va := (s.ctx fn).apbase + off.toNat
    some {
      ok := booted ∧ fn < 64 ∧ off.toNat < 2 ^ 36
      left := fun t =>
        (∀ bs, write = some bs →
          (∀ ps y, s.unitPlaces farUnit fn va bs = .ok (ps, y) → t.mem = y.mem.write ps ∧ t.dev = s.dev ∧ t.blocks = s.blocks ∧
            t.cores = s.cores) ∧
          ∀ e, s.unitPlaces farUnit fn va bs = .error e → t = s.event 4 7 0 fn va) ∧
        (write = none →
          (∀ bs y, s.hostRead fn va len = some (bs, y) → t.dev = { s.dev with reply := bs } ∧ t.mem = y.mem ∧ t.waves = s.waves) ∧
          (s.hostRead fn va len = none → t.dev.reply = List.replicate len 0xFF ∧ t.mem = (s.event 4 7 0 fn va).mem)) }
  | .lqTailWrite ctx q v =>
    let l := s.lq ctx q
    some {
      ok := booted
      left := fun t =>
        t.lq ctx q = (if ctlDevfed l.ctl then l else { l with tail := v.toNat % ctlSize l.ctl }) ∧
        (∀ p, p ≠ q → t.lq ctx p = s.lq ctx p) ∧ OnlyCtx s t ctx ∧ Beside s t [.ctxs] }
  | .lqCtlWrite ctx q v =>
    let l := s.lq ctx q
    some {
      ok := booted
      left := fun t =>
        let x := t.lq ctx q
        ctlEn x.ctl = v.getLsbD 31 ∧ x.base = l.base ∧ x.held = l.held ∧ x.count = l.count ∧
        (ctlEn l.ctl = true → ctlSize x.ctl = ctlSize l.ctl ∧ ctlDevfed x.ctl = ctlDevfed l.ctl ∧ x.head = l.head ∧ x.tail = l.tail) ∧
        (ctlEn l.ctl = false → ctlSize x.ctl = 2 ^ (v.toNat % 32) ∧ ctlDevfed x.ctl = v.getLsbD 8 ∧
          (v.getLsbD 31 = true → x.head = 0 ∧ x.tail = 0) ∧ (v.getLsbD 31 = false → x.head = l.head ∧ x.tail = l.tail)) ∧
        (∀ p, p ≠ q → t.lq ctx p = s.lq ctx p) ∧ OnlyCtx s t ctx ∧ Beside s t [.ctxs] }
  | .cqHeadWrite ctx cq v =>
    let q := s.cq ctx cq
    let s1 := s.updCq ctx cq fun q => { q with head := v.toNat % ctlSize q.ctl }
    some {
      ok := booted
      left := fun t => s.unheld →
        (t.cq ctx cq).head = v.toNat % ctlSize q.ctl ∧
        (q.held = [] → t.cq ctx cq = { q with head := v.toNat % ctlSize q.ctl } ∧ OnlyCtx s t ctx) ∧
        ∀ e es, q.held = e :: es → ctlEn q.ctl = true → (q.tail + 1) % ctlSize q.ctl ≠ v.toNat % ctlSize q.ctl →
          ∀ z, s1.unitWrite farUnit ctx (q.base + 32 * q.tail) (e.bytes q.pass) = .ok z →
            es = [] → (t.cq ctx cq).tail = (q.tail + 1) % ctlSize q.ctl ∧ (t.cq ctx cq).held = [] }
  | .cqCtlWrite ctx cq v =>
    let q := s.cq ctx cq
    some {
      ok := booted
      left := fun t => s.unheld →
        let x := t.cq ctx cq
        ctlEn x.ctl = v.getLsbD 31 ∧ x.base = q.base ∧ x.head = (if v.getLsbD 31 && !ctlEn q.ctl then 0 else q.head) ∧
        ctlSize x.ctl = (if ctlEn q.ctl then ctlSize q.ctl else 2 ^ (v.toNat % 32)) ∧
        (q.held = [] → x.held = [] ∧ x.tail = (if v.getLsbD 31 && !ctlEn q.ctl then 0 else q.tail) ∧ OnlyCtx s t ctx ∧
          t.mem = s.mem) }
  | .eheadWrite ctx v =>
    let c := s.ctx ctx
    some {
      ok := booted
      left := fun t =>
        t.ctx ctx = { c with ehead := v.toNat % 4096, ovf := c.ovf && !v.getLsbD 31 } ∧ OnlyCtx s t ctx ∧ Beside s t [.ctxs] }
  | .pkglimWrite v => some {
    ok := booted
    left := fun t => t.dev = { s.dev with pkglim := max 1000 (min 1800 v.toNat) } ∧ Beside s t [.dev] }
  | .opclassTableWrite entry v =>
    let mv := v.extractLsb' 0 16
    let mhz := (v.extractLsb' 16 16).toNat
    let within := entry = 7 ∧ v.getLsbD 33 = false ∧ 550 ≤ mv.toNat ∧ mv.toNat ≤ 800 ∧ 400 ≤ mhz ∧
      ∃ c, c < 6 ∧ ((Tab.get 0 s.dev.opclass c).extractLsb' 0 16).toNat ≤ mv.toNat ∧
        mhz ≤ ((Tab.get 0 s.dev.opclass c).extractLsb' 16 16).toNat
    some {
      ok := booted
      left := fun t =>
        (within →
          let e := Tab.get 0 t.dev.opclass 7
          e.extractLsb' 0 16 = mv ∧ (e.extractLsb' 16 16).toNat = mhz / 25 * 25 ∧ e.getLsbD 32 = v.getLsbD 32 ∧ e.extractLsb' 33 31 = 0 ∧
          (∀ c, c ≠ 7 → Tab.get 0 t.dev.opclass c = Tab.get 0 s.dev.opclass c) ∧
          t.dev = { s.dev with opclass := t.dev.opclass } ∧ Beside s t [.dev]) ∧
        (¬within → t = s) }
  | .accountingCounterWrite off v => some {
    ok := booted
    left := fun t =>
      (s.counterAt off = none → t = s) ∧
      (∀ w x z, s.counterAt off = some (w, x, z) → v.toNat % 2 ^ w ≠ 0 → t = s) ∧
      (∀ w x z, s.counterAt off = some (w, x, z) → v.toNat % 2 ^ w = 0 → ∃ y, t.counterAt off = some (w, 0, y)) ∧
      (∀ o, o ≠ off → (t.counterAt o).map (·.2.1) = (s.counterAt o).map (·.2.1)) ∧
      t.waves = s.waves ∧ t.blocks = s.blocks ∧ t.launches = s.launches ∧ t.mem = s.mem ∧ t.fly = s.fly }
  | .foldDriveNqpWrite n v answers =>
    let d := s.drive n
    let starts := n < 64 ∧ d.st = 0 ∧ 1 ≤ v.toNat ∧ v.toNat ≤ 64
    some {
      ok := booted
      left := fun t =>
        (¬starts → t = s) ∧
        (starts → answers = true → (t.drive n).st = 1 ∧ t.drive n = { d with nqp := v.toNat, st := 1, mdts := (t.drive n).mdts } ∧
          (∀ j, j ≠ n → t.drive j = s.drive j) ∧ Beside s t [.dev]) ∧
        (starts → answers = false → ∃ u : State, t = u.event 7 5 0 0xFF 0xFFFF ∧ u.drive n = { d with nqp := v.toNat, st := 2, mdts := 0 } ∧
          (∀ j, j ≠ n → u.drive j = s.drive j) ∧ Beside s u [.dev]) }
  | _ => none

/-! ### The supervisor's commands -/

/-- A command has ended with a status (R419). -/
def Ended (t : State) (op status : Nat) : Prop :=
  t.dev.scmdOp = op ∧ t.dev.scmdBusy = false ∧ t.dev.scmdStatus = status

/-- A command's arguments were refused: STATUS 1, and beside the command block nothing has changed (R419). -/
def Refused (s t : State) (op : Nat) : Prop :=
  Ended t op 1 ∧ Beside s t [.dev] ∧
  { t.dev with scmdOp := s.dev.scmdOp, scmdStatus := s.dev.scmdStatus, scmdArg := s.dev.scmdArg, scmdBusy := s.dev.scmdBusy } = s.dev

/-- The capabilities of a context are void, and none of its queues is enabled: what a reset of the context leaves (R355,
R421). -/
def CtxReset (t : State) (ctx : Nat) : Prop :=
  (t.ctx ctx).st = 0 ∧ (t.ctx ctx).ovf = false ∧ ctlEn (t.ctx ctx).ectl = false ∧ (∀ q, ctlEn (t.lq ctx q).ctl = false) ∧
  (∀ q, ctlEn (t.cq ctx q).ctl = false) ∧ ∀ n c, Tab.find t.dev.caps n = some c → c.ctx = ctx → c.live = false

/-- What a command leaves, where none is in progress: its effect and STATUS 0, or a refusal (R308, R337, R340, R355, R363,
R364, R419, R421, R427, R428, R430). -/
def commandLeft (s : State) (ins : Instr) (t : State) : Prop :=
  match ins with
  | .killContext ctx =>
    if 1 ≤ ctx ∧ ctx < 64 then Ended t 1 0 ∧ Killed s t ctx else Refused s t 1
  | .resetContext ctx =>
    if 1 ≤ ctx ∧ ctx < 64 ∧ (s.ctx ctx).st ≠ 1 then Ended t 2 0 ∧ CtxReset t ctx ∧ Beside s t [.ctxs, .dev] ∧
      t.dev.heaps = s.dev.heaps ∧ t.dev.fold = s.dev.fold
    else Refused s t 2
  | .migrateBlock waveH core =>
    match s.waveOf waveH with
    | none => Refused s t 3
    | some k =>
      let n := (s.wave k).block
      let b := s.block n
      if b.st = .running ∧ (s.lpb n).preemptible = true ∧ b.gang = none ∧
          (core = 0xFFFF ∨ core < 256 ∧ core ≠ b.core ∧ s.eligible b.ctx core = true) then
        t.dev.scmdOp = 3 ∧ t.dev.scmdBusy = true ∧ t.block n = { b with want := some core } ∧ (∀ j, j ≠ n → t.block j = s.block j) ∧
        Beside s t [.blocks, .ctxs, .dev]
      else Refused s t 3
  | .resetHeapInstance h =>
    Ended t 4 0 ∧ t.heap h.toNat = { s.heap h.toNat with st := 0, opens := 0, entries := [] } ∧
    (∀ j, j ≠ h.toNat → t.heap j = s.heap j) ∧ Beside s t [.dev]
  | .createFoldSlot drive ctx nsid slba nlba =>
    let vacant := fun n => ∀ x, Tab.find s.dev.fold n = some x → x.st = 0 ∧ x.gen < 4095
    let ok := drive < 64 ∧ (s.drive drive).st = 1 ∧ ctx < 64 ∧ nlba ≠ 0 ∧ ∃ n, n < 65536 ∧ vacant n
    (¬ok → Refused s t 5) ∧ (ok →
      Ended t 5 0 ∧ ∃ n x, n < 65536 ∧ vacant n ∧ Tab.find t.dev.fold n = some x ∧
        (∀ j, j ≠ n → Tab.find t.dev.fold j = Tab.find s.dev.fold j) ∧
        x.gen = (Tab.find s.dev.fold n).elim 0 (·.gen) ∧ x.ctx = ctx ∧ x.drive = drive ∧ x.nsid = nsid.toNat ∧ x.slba = slba.toNat ∧
        x.nlba = nlba.toNat ∧ x.pages = [] ∧
        (x.st = 3 ↔ ∃ h ∈ s.dev.headers, h.1 = drive ∧ h.2.1 = nsid.toNat ∧ slba.toNat < h.2.2.1 + h.2.2.2.1 ∧
          h.2.2.1 < slba.toNat + nlba.toNat ∧ h.2.2.2.2 ≠ s.dev.fw.boots) ∧ (x.st = 3 ∨ x.st = 1) ∧
        t.arg 0x20 8 = (handleOf (s.tag .fold n x.gen ctx) x.gen n).toNat ∧ Beside s t [.dev])
  | .releaseFoldSlot n =>
    match Tab.find s.dev.fold n with
    | none => Refused s t 6
    | some x =>
      if x.st = 0 then Refused s t 6
      else Ended t 6 0 ∧ Tab.find t.dev.fold n = some { x with gen := x.gen + 1, st := 0, pages := [] } ∧
        (∀ j, j ≠ n → Tab.find t.dev.fold j = Tab.find s.dev.fold j) ∧ Beside s t [.dev]
  | .openWindow ctx src base size =>
    let vacant := fun n => ∀ x, Tab.find s.dev.winIn n = some x → x.open_ = false ∧ x.gen < 4095
    let ok := ctx < 64 ∧ src < 144 ∧ base.toNat % 4096 = 0 ∧ size.toNat % 4096 = 0 ∧ size ≠ 0 ∧ size.toNat ≤ 2 ^ 40 ∧
      ∃ n, n < 4096 ∧ vacant n
    (¬ok → Refused s t 7) ∧ (ok →
      Ended t 7 0 ∧ ∃ n g, n < 4096 ∧ vacant n ∧ g = (Tab.find s.dev.winIn n).elim 0 (·.gen) ∧
        Tab.find t.dev.winIn n = some ⟨g, ctx, true, src, base.toNat, size.toNat, 0⟩ ∧
        (∀ j, j ≠ n → Tab.find t.dev.winIn j = Tab.find s.dev.winIn j) ∧
        t.arg 0x20 8 = (handleOf (s.tag .window n g ctx) g (s.dev.id % 256 * 4096 + n)).toNat ∧ Beside s t [.dev])
  | .closeWindow n =>
    match Tab.find s.dev.winIn n with
    | none => Refused s t 8
    | some x =>
      if x.open_ = false then Refused s t 8
      else Ended t 8 0 ∧ Tab.find t.dev.winIn n = some { x with gen := x.gen + 1, open_ := false } ∧
        (∀ j, j ≠ n → Tab.find t.dev.winIn j = Tab.find s.dev.winIn j) ∧ Beside s t [.dev]
  | .foldAdminPassThrough drive _ buf len =>
    if drive < 64 ∧ (s.drive drive).st = 1 then
      Ended t 9 0 ∧ (∀ p, (∀ i, i < len → placeOf (buf.toNat + i) ≠ p) → t.mem.byte p = s.mem.byte p) ∧
      t.dev.drives = s.dev.drives ∧ t.blocks = s.blocks
    else Refused s t 9
  | .attest nonce dst =>
    Ended t 10 0 ∧ ∃ r : List Byte, r.length = 2540 ∧ t.mem = s.mem.write (r.zipIdx.map fun p => (placeOf (dst.toNat + p.2), p.1)) ∧
      r.take 4 = leBytes 4 1 ∧ (r.drop 4).take 4 = leBytes 4 s.dev.fw.fused ∧
      (r.drop 24).take 32 = sha3 s.dev.fw.image ∧
      (r.drop 56).take 32 = sha3 (s.ctxTable ++ s.opclassTable ++ s.heatTable ++ s.domainTable) ∧
      (r.drop 88).take 32 = leBytes 32 nonce.toNat
  | .raiseFirmwareSecurityVersion =>
    Ended t 11 0 ∧ t.dev.fw = { s.dev.fw with fused := max s.dev.fw.fused (Config.imageVersion s.dev.fw.image) } ∧
    Beside s t [.dev]
  | .enterOutboundWindowHandle h ctx =>
    let ok := ctx < 64 ∧ ∃ n, n < 4096 ∧ Tab.has s.dev.winOut n = false
    (¬ok → Refused s t 12) ∧ (ok →
      Ended t 12 0 ∧ ∃ n, n < 4096 ∧ Tab.has s.dev.winOut n = false ∧ Tab.find t.dev.winOut n = some ⟨h, ctx, 0⟩ ∧
        (∀ j, j ≠ n → Tab.find t.dev.winOut j = Tab.find s.dev.winOut j) ∧ Beside s t [.dev])
  | _ => True

/-- The supervisor's commands, by code. -/
def commandOp : Instr → Option Nat
  | .killContext _ => some 1
  | .resetContext _ => some 2
  | .migrateBlock .. => some 3
  | .resetHeapInstance _ => some 4
  | .createFoldSlot .. => some 5
  | .releaseFoldSlot _ => some 6
  | .openWindow .. => some 7
  | .closeWindow _ => some 8
  | .foldAdminPassThrough .. => some 9
  | .attest .. => some 10
  | .raiseFirmwareSecurityVersion => some 11
  | .enterOutboundWindowHandle .. => some 12
  | _ => none

/-- THE SUPERVISOR'S COMMANDS RUN: ignored while one is in progress, else with their effect or their refusal (R419). -/
def CommandsRun : Prop :=
  ∀ (s : State) ins op, commandOp ins = some op → s.dev.fw.bootfail = false →
    ∃ t, exec ins s = .next t ∧ (s.dev.scmdBusy = true → t = s) ∧ (s.dev.scmdBusy = false → commandLeft s ins t)

/-! ### The register windows -/

/-- The command that OP names, with the arguments that ARG holds (R419). -/
def State.names (s : State) (op : Nat) (ins : Instr) : Prop :=
  match op with
  | 1 => ins = .killContext (s.arg 0 1)
  | 2 => ins = .resetContext (s.arg 0 1)
  | 3 => ins = .migrateBlock (BitVec.ofNat 32 (s.arg 0 4)) (s.arg 4 2)
  | 4 => ins = .resetHeapInstance (BitVec.ofNat 7 (s.arg 0 1))
  | 5 => ins = .createFoldSlot (s.arg 0 1) (s.arg 1 1) (BitVec.ofNat 32 (s.arg 4 4)) (BitVec.ofNat 64 (s.arg 8 8))
      (BitVec.ofNat 64 (s.arg 16 8))
  | 6 => ins = .releaseFoldSlot (s.arg 0 4)
  | 7 => ins = .openWindow (s.arg 0 1) (s.arg 1 1) (BitVec.ofNat 64 (s.arg 8 8)) (BitVec.ofNat 64 (s.arg 16 8))
  | 8 => ins = .closeWindow (s.arg 0 4)
  | 9 => ins = .foldAdminPassThrough (s.arg 0 1) (BitVec.ofNat 64 (s.arg 8 8)) (BitVec.ofNat 64 (s.arg 16 8)) (s.arg 24 4)
  | 10 => ins = .attest (BitVec.ofNat 256 (s.arg 0 32)) (BitVec.ofNat 64 (s.arg 32 8))
  | 11 => ins = .raiseFirmwareSecurityVersion
  | 12 => ins = .enterOutboundWindowHandle (BitVec.ofNat 64 (s.arg 0 8)) (s.arg 8 1)
  | _ => False

/-- What a write of a register of a function's window leaves (R3, R296, R415). -/
def FunctionWritten (s t : State) (fn off : Nat) (v : DWord) : Prop :=
  let c := s.ctx fn
  let n := v.toNat
  (off = 0x10 → t.ctx fn = { c with apbase := n % 2 ^ 48 / 2 ^ 36 * 2 ^ 36 } ∧ OnlyCtx s t fn ∧ Beside s t [.ctxs]) ∧
  (∀ q, q < 8 → off = 0x1000 + 32 * q → t.lq fn q = (if ctlEn (s.lq fn q).ctl then s.lq fn q
    else { s.lq fn q with base := n / 256 * 256 }) ∧ Beside s t [.ctxs]) ∧
  (∀ q, q < 8 → off = 0x1008 + 32 * q → exec (.lqCtlWrite fn q (v.setWidth 32)) s = .next t) ∧
  (∀ q, q < 8 → off = 0x1010 + 32 * q → exec (.lqTailWrite fn q (v.setWidth 32)) s = .next t) ∧
  (∀ q, q < 16 → off = 0x2000 + 32 * q → t.cq fn q = (if ctlEn (s.cq fn q).ctl then s.cq fn q
    else { s.cq fn q with base := n / 32 * 32 }) ∧ Beside s t [.ctxs]) ∧
  (∀ q, q < 16 → off = 0x2008 + 32 * q → exec (.cqCtlWrite fn q (v.setWidth 32)) s = .next t) ∧
  (∀ q, q < 16 → off = 0x200C + 32 * q → exec (.cqHeadWrite fn q (v.setWidth 32)) s = .next t) ∧
  (∀ q, q < 16 → off = 0x2014 + 32 * q → t.cq fn q = { s.cq fn q with ien := v.getLsbD 31, coal := n % 2 ^ 16 } ∧ Beside s t [.ctxs]) ∧
  (off = 0x3000 → t.ctx fn = (if ctlEn c.ectl then c else { c with ebase := n / 64 * 64 }) ∧ OnlyCtx s t fn ∧ Beside s t [.ctxs]) ∧
  (off = 0x3008 → ctlEn (t.ctx fn).ectl = v.getLsbD 31 ∧ (ctlEn c.ectl = false → v.getLsbD 31 = true → (t.ctx fn).ehead = 0 ∧
    (t.ctx fn).etail = 0 ∧ (t.ctx fn).ectl % 16 = n % 16) ∧ OnlyCtx s t fn ∧ Beside s t [.ctxs]) ∧
  (off = 0x300C → exec (.eheadWrite fn (v.setWidth 32)) s = .next t) ∧
  (off % 4 ≠ 0 → t = s) ∧
  (off = 0x0 ∨ off = 0x4 ∨ off = 0x8 ∨ off = 0x3010 ∨ 0x1100 ≤ off ∧ off < 0x2000 ∨ 0x2200 ≤ off ∧ off < 0x3000 ∨
    0x3014 ≤ off ∧ off < 0x10000 → t = s)

/-- What a write of a register or table entry of the supervisor window leaves (R352, R361, R362, R412, R418 to R420, R423,
R425). -/
def SupervisorWritten (s t : State) (off : Nat) (v : DWord) : Prop :=
  let n := v.toNat
  let w := n % 2 ^ 32
  (∀ c, c < 64 →
    let x := s.ctx c
    (off = 256 * c + 0x00 → t.ctx c = { x with ptroot := n / 4096 * 4096 }) ∧
    (off = 256 * c + 0x08 → t.ctx c = { x with fdtbase := n / 2048 * 2048 }) ∧
    (∀ i, i < 4 → off = 256 * c + 0x10 + 8 * i → (t.ctx c).cores.extractLsb' (64 * i) 64 = v ∧
      ∀ b, b < 256 → b / 64 ≠ i → (t.ctx c).cores.getLsbD b = x.cores.getLsbD b) ∧
    (off = 256 * c + 0x30 → t.ctx c = { x with pceil := n % 256 }) ∧ (off = 256 * c + 0x31 → t.ctx c = { x with cls := n % 4 }) ∧
    (off = 256 * c + 0x32 → t.ctx c = { x with fair := n % 2 ^ 16 }) ∧ (off = 256 * c + 0x34 → t.ctx c = { x with capq := w }) ∧
    (off = 256 * c + 0x38 → t.ctx c = { x with saveBase := n }) ∧ (off = 256 * c + 0x40 → t.ctx c = { x with saveSize := n }) ∧
    (off = 256 * c + 0x48 → t.ctx c = { x with dwbase := n / 2 ^ 21 * 2 ^ 21 }) ∧
    (off = 256 * c + 0x50 → t.ctx c = { x with dwsize := w }) ∧
    (off = 256 * c + 0x54 → t.ctx c = if w ≤ 2 then { x with st := w } else x) ∧
    (off = 256 * c + 0x58 → t.ctx c = { x with dwframe := n }) ∧ (off = 256 * c + 0x60 → t.ctx c = { x with dwfsize := n }) ∧
    (256 * c ≤ off ∧ off < 256 * c + 256 → OnlyCtx s t c ∧ Beside s t [.ctxs])) ∧
  (∀ e, e < 8 → off = 0x4000 + 8 * e → exec (.opclassTableWrite e v) s = .next t) ∧
  (∀ e, e < 32 → off = 0x4100 + 4 * e → t.dev = { s.dev with heat := Tab.put s.dev.heat e (BitVec.ofNat 32 (n % 2 ^ 24)) } ∧
    Beside s t [.dev]) ∧
  (∀ e, e < 8 → off = 0x4200 + 4 * e → t.dev = { s.dev with weights := Tab.put s.dev.weights e (n % 2 ^ 16) } ∧ Beside s t [.dev]) ∧
  (∀ e, e < 4 → off = 0x4300 + 4 * e → t.dev = { s.dev with l2masks := Tab.put s.dev.l2masks e (BitVec.ofNat 24 n) } ∧
    Beside s t [.dev]) ∧
  (off = 0x4400 → exec (.pkglimWrite (v.setWidth 16)) s = .next t) ∧
  (∀ k, k < 256 → off = 0x8000 + k → t.vault k = { s.vault k with ceiling := n % 4 } ∧ (∀ j, j ≠ k → t.vault j = s.vault j) ∧
    Beside s t [.vaults]) ∧
  (∀ o, o < 0x10000 → off = 0x10000 + o → exec (.accountingCounterWrite o v) s = .next t) ∧
  (off = 0x20000 → t.dev = { s.dev with id := w } ∧ Beside s t [.dev]) ∧
  (∀ i, i < 144 → i < s.dev.ranges.length →
    (off = 0x20010 + 16 * i → t.dev.ranges.getD i (0, 0, 0) = (w, (s.dev.ranges.getD i (0, 0, 0)).2)) ∧
    (off = 0x20018 + 16 * i → t.dev.ranges.getD i (0, 0, 0) = ((s.dev.ranges.getD i (0, 0, 0)).1, (s.dev.ranges.getD i (0, 0, 0)).2.1, w))) ∧
  (∀ h, h < 128 → off = 0x30000 + 8 * h → t.heap h = { s.heap h with bound := if v.getLsbD 63 then some (n % 64) else none } ∧
    (∀ j, j ≠ h → t.heap j = s.heap j) ∧ Beside s t [.dev]) ∧
  (∀ d, d < 64 → off = 0x40004 + 64 * d → t.drive d = (if (s.drive d).st = 0 then { s.drive d with nsid := w } else s.drive d) ∧
    Beside s t [.dev]) ∧
  (∀ p k, p < 16 → 1 ≤ k → k ≤ 7 → off = 0x50000 + 32 * p + 2 * (k - 1) → 
    (t.port p).threshold k = (if n % 1024 ≤ 511 then max 1 (n % 1024) else (s.port p).threshold k) ∧
    Beside s t [.dev]) ∧
  (∀ i, i < 6 → off = 0x600110 + 8 * i → t.arg (8 * i) 8 = n ∧ Beside s t [.dev]) ∧
  (∀ b, b < 8 → ∀ o, off = 0x700000 + o → o + 8 ≤ 0x800000 →
    Tab.get 0 t.dev.fw.staging (o + b) = v.extractLsb' (8 * b) 8 ∧ Beside s t [.dev]) ∧
  (off = 0x600100 → s.dev.scmdBusy = true → t = s) ∧
  (off = 0x600100 → s.dev.scmdBusy = false → (∀ ins, s.names w ins → commandLeft s ins t) ∧
    (w = 0 ∨ 12 < w → Refused s t w)) ∧
  (0xF00000 ≤ off → t = s)

/-- A 64-bit register after a write of the low `n` bytes of `v` to its bytes from `i` on. -/
def splice (i n old v : Nat) : Nat :=
  old % 2 ^ (8 * i) + v % 2 ^ (8 * n) * 2 ^ (8 * i) + old % 2 ^ 64 / 2 ^ (8 * (i + n)) * 2 ^ (8 * (i + n))

/-- What a write of `n` bytes inside a 64-bit register leaves: the register's other bytes stay (R352, R415; how a write names its
length is log 14's). -/
def PartWritten (s t : State) (fn off n : Nat) (v : DWord) : Prop :=
  ∀ i, i + n ≤ 8 →
    (i % 4 = 0 → off = 0x10 + i →
      t.ctx fn = { s.ctx fn with apbase := splice i n (s.ctx fn).apbase v.toNat % 2 ^ 48 / 2 ^ 36 * 2 ^ 36 } ∧ OnlyCtx s t fn ∧
        Beside s t [.ctxs]) ∧
    ∀ c, c < 64 → fn = 0 →
      (off = 2 ^ 24 + 256 * c + i → t.ctx c = { s.ctx c with ptroot := splice i n (s.ctx c).ptroot v.toNat / 4096 * 4096 } ∧
        OnlyCtx s t c ∧ Beside s t [.ctxs]) ∧
      (off = 2 ^ 24 + 256 * c + 0x38 + i → t.ctx c = { s.ctx c with saveBase := splice i n (s.ctx c).saveBase v.toNat } ∧
        OnlyCtx s t c ∧ Beside s t [.ctxs])

/-- REGISTER WRITES ACT: a write of a function's window, or, from function 0, of the supervisor window, leaves what that
register's rules say, one of part of a 64-bit register changes that part, and without firmware only staging takes writes (R3, R296, R352, R415, R418 to R420, R428; the
offsets' naming is log 14's). -/
def RegistersAct : Prop :=
  ∀ (s : State) fn off v, ∃ t, exec (.registerWrite fn off v) s = .next t ∧
    (64 ≤ fn → t = s) ∧
    (s.dev.fw.bootfail = true → ¬(2 ^ 24 + 0x700000 ≤ off % 2 ^ 32 ∧ off % 2 ^ 32 < 2 ^ 24 + 0xF00000) → t = s) ∧
    (s.dev.fw.bootfail = false → fn < 64 → off < 2 ^ 16 → FunctionWritten s t fn off v) ∧
    (s.dev.fw.bootfail = false → fn = 0 → ∀ o, off = 2 ^ 24 + o → off < 2 ^ 32 → SupervisorWritten s t o v) ∧
    (s.dev.fw.bootfail = false → fn < 64 → ∀ n o, 1 ≤ n → n ≤ 8 → o < 2 ^ 32 → off = n * 2 ^ 32 + o → PartWritten s t fn o n v) ∧
    (fn ≠ 0 → 2 ^ 16 ≤ off % 2 ^ 32 → t = s)

/-! ### Resets and firmware -/

/-- What a reset of the whole device leaves: every table as after reset, the firmware booted anew; the flash, the fuses and the
drives' contents stay (R205, R421, R428, R429; that memory stays is log 44's). -/
def Restarted (s t : State) : Prop :=
  t.waves = [] ∧ t.blocks = [] ∧ t.launches = [] ∧ t.ctxs = [] ∧ t.cores = [] ∧ t.clusters = [] ∧ t.vaults = [] ∧
  t.l2 = [] ∧ t.fly = Flight.reset ∧ t.cur = none ∧ t.agenda = s.agenda ∧
  t.dev = { Device.reset with headers := t.dev.headers, fw := t.dev.fw } ∧ t.dev.headers = s.dev.headers ∧
  t.dev.fw.boots = s.dev.fw.boots + 1 ∧ t.dev.fw.slotA = s.dev.fw.slotA ∧ t.dev.fw.slotB = s.dev.fw.slotB ∧
  t.dev.fw.fused = s.dev.fw.fused ∧
  (s.dev.fw.passes s.dev.fw.slotA = true → t.dev.fw.running = 0 ∧ t.dev.fw.bootfail = false) ∧
  (s.dev.fw.passes s.dev.fw.slotA = false → s.dev.fw.passes s.dev.fw.slotB = true → t.dev.fw.running = 1 ∧ t.dev.fw.bootfail = false) ∧
  (s.dev.fw.passes s.dev.fw.slotA = false → s.dev.fw.passes s.dev.fw.slotB = false → t.dev.fw.running = 2 ∧ t.dev.fw.bootfail = true)

/-- Resets and the update of the firmware (R421, R428). -/
def resetEvent (s : State) : Instr → Option Happening
  | .deviceReset => some { left := fun t => Restarted s t }
  | .functionLevelReset fn => some {
    left := fun t =>
      (fn = 0 → Restarted s t) ∧
      (64 ≤ fn ∨ fn ≠ 0 ∧ s.dev.fw.bootfail = true → t = s) ∧
      (1 ≤ fn → fn < 64 → s.dev.fw.bootfail = false → CtxReset t fn ∧
        ((s.ctx fn).st = 1 → (∀ k w, Tab.find s.waves k = some w → w.ctx = fn → Tab.find t.waves k = none) ∧
          ∀ n b, Tab.find t.blocks n = some b → b.ctx ≠ fn) ∧
        ((s.ctx fn).st ≠ 1 → Beside s t [.ctxs, .dev])) }
  | .firmwareStagingUpdate =>
    let f := s.dev.fw
    some {
      left := fun t =>
        (f.passes f.staged = false → t = s) ∧
        (f.passes f.staged = true → Beside s t [.dev] ∧
          (f.running = 0 → t.dev.fw = { f with slotB := f.staged }) ∧ (f.running = 1 → t.dev.fw = { f with slotA := f.staged }) ∧
          (t.dev.fw = { f with slotA := f.staged } ∨ t.dev.fw = { f with slotB := f.staged })) }
  | _ => none

/-! ### The Ezley ports -/

/-- Only one port has changed, and nothing beside the ports. -/
def OnlyPort (s t : State) (port : Nat) : Prop := (∀ n, n ≠ port → t.port n = s.port n) ∧ Beside s t [.dev]

/-- A port has gone down: its window is empty, and the sends whose flits were in it are GONE (R264, R426). -/
def PortDown (s t : State) (port : Nat) : Prop :=
  ∃ u : State, t = u.event 5 6 port 0xFF 0 ∧ (u.port port).up = false ∧ (u.port port).window = [] ∧ (u.port port).asked = false ∧
    (∀ n, n ≠ port → u.port n = s.port n) ∧
    (∀ id a, Tab.find s.fly.arrivals id = some a → ∃ b, Tab.find u.fly.arrivals id = some b ∧
      b = if a.outcome = none ∧ ∃ f ∈ (s.port port).window, f.op = .arrival id then { a with outcome := some 4 } else a) ∧
    (∀ id, (∀ f ∈ (s.port port).window, f.op ≠ .put id) → Tab.find u.fly.copies id = Tab.find s.fly.copies id) ∧
    (∀ id c, Tab.find s.fly.copies id = some c → (∃ f ∈ (s.port port).window, f.op = .put id) →
      ∃ d, Tab.find u.fly.copies id = some d ∧ d.err.isSome = true) ∧
    Beside s u [.dev, .fly, .launches]

/-- A port with an audit flit sent that tells a total of units (R315). -/
def Port.told (x : Port) (total : Nat) : Port :=
  { x with
    seq := (x.seq + 1) % 2 ^ 32
    window := x.window ++ [⟨x.seq % 2 ^ 16, 0, .audit total, 0⟩]
    units := x.units - 1 }

/-- The Ezley ports (R314, R315, R422, R424 to R426). -/
def portEvent (s : State) : Instr → Option Happening
  | .ezleyFlitReceive port seq good =>
    let x := s.port port
    some {
      left := fun t =>
        (x.up = false ∨ good = false → t = s) ∧
        (x.up = true → good = true → OnlyPort s t port ∧
          (seq.toNat ≠ x.rseq → t.port port = { x with asked := true }) ∧
          (seq.toNat = x.rseq →
            let n := (x.accepted + 1) % 2 ^ 32
            let r := (x.returned + 1) % 2 ^ 32
            let y := { x with rseq := (x.rseq + 1) % 2 ^ 16, accepted := n, returned := r, asked := false }
            (n % 4096 ≠ 0 → t.port port = y) ∧
            (n % 4096 = 0 → x.due = [] → 0 < x.units → x.window.length < 512 → t.port port = y.told r) ∧
            (n % 4096 = 0 → x.units = 0 ∨ 512 ≤ x.window.length → t.port port = { y with due := x.due ++ [r] }))) }
  | .ezleyAck port upTo units =>
    let x := s.port port
    some {
      left := fun t =>
        (x.up = false → t = s) ∧
        (x.up = true → OnlyPort s t port ∧
          let n := min 512 (x.units + units)
          (x.due = [] → ∀ a f b, x.window = a ++ f :: b → f.seq = upTo.toNat → (∀ g ∈ a, g.seq ≠ upTo.toNat) →
            t.port port = { x with window := b, units := n }) ∧
          (x.due = [] → (∀ f ∈ x.window, f.seq ≠ upTo.toNat) → t.port port = { x with units := n }) ∧
          ∀ r, x.due = [r] → (∀ f ∈ x.window, f.seq ≠ upTo.toNat) → 0 < n → x.window.length < 512 →
            t.port port = ({ x with units := n, due := [] }).told r) }
  | .ezleyReplay port fromSeq =>
    let x := s.port port
    some {
      left := fun t =>
        (16 ≤ port ∨ x.up = false ∨ (∀ f ∈ x.window, f.seq ≠ fromSeq.toNat) → t = s) ∧
        ∀ a f b, port < 16 → x.up = true → x.window = a ++ f :: b → f.seq = fromSeq.toNat → (∀ g ∈ a, g.seq ≠ fromSeq.toNat) →
          ((∀ g ∈ f :: b, g.tries + 1 < 16) → OnlyPort s t port ∧
            t.port port = { x with
              replay := min (x.replay + b.length + 1) (2 ^ 32 - 1)
              window := a ++ (f :: b).map fun g => { g with tries := g.tries + 1 } }) ∧
          ((∃ g ∈ f :: b, 16 ≤ g.tries + 1) → ∃ u : State, t = u.event 5 6 port 0xFF 0 ∧ (u.port port).up = false ∧ (u.port port).window = []) }
  | .ezleyAudit port returned =>
    let x := s.port port
    let units := 512 - (x.seq + 2 ^ 32 - returned.toNat) % 2 ^ 32
    some {
      left := fun t =>
        (x.up = false ∨ x.units = units → t = s) ∧
        (x.up = true → x.units ≠ units → OnlyPort s t port ∧ (x.due = [] → t.port port =
          { x with units := units, audit := min (x.audit + 1) (2 ^ 32 - 1) })) }
  | .ezleyPortDown port => some {
    ok := port < 16 ∧ (s.port port).up = true
    left := fun t => PortDown s t port }
  | .ezleyPortUp port => some {
    ok := port < 16 ∧ (s.port port).up = false
    left := fun t => ∃ u : State, t = u.event 6 6 port 0xFF 0 ∧ OnlyPort s u port ∧
      u.port port = { s.port port with
        up := true, seq := 0, rseq := 0, window := [], units := 512, returned := 0, due := [], accepted := 0, asked := false } }
  | .ezleyGroupWake port k =>
    let x := s.port port
    some {
      ok := 1 ≤ k ∧ k ≤ 7 ∧ x.threshold k < x.window.length ∧ x.lit.getLsbD k = false ∧ x.waking.getLsbD k = false
      left := fun t => OnlyPort s t port ∧ t.port port = { x with waking := x.waking ||| 1#8 <<< k } }
  | .ezleyGroupLit port k =>
    let x := s.port port
    some {
      ok := x.waking.getLsbD k = true
      left := fun t => OnlyPort s t port ∧ (t.port port).lit = x.lit ||| 1#8 <<< k ∧ (t.port port).waking.getLsbD k = false ∧
        (t.port port).window = x.window }
  | .ezleyGroupDark port k =>
    let x := s.port port
    some {
      ok := 1 ≤ k ∧ k ≤ 7 ∧ x.window.length ≤ x.threshold k
      left := fun t => OnlyPort s t port ∧ (t.port port).lit.getLsbD k = false ∧ (t.port port).waking.getLsbD k = false ∧
        (∀ j, j ≠ k → (t.port port).lit.getLsbD j = x.lit.getLsbD j) ∧ (t.port port).window = x.window }
  | _ => none

end Sys2Proof.Machine
end

