-- ==== Sys2Proof/Safety/Queues.lean ====
section
/-! DEFINITION. What the queue instructions, the sends, EXPECT and the capability instructions leave at their issue. -/

namespace Sys2Proof.Machine

/-! ### Queues -/

/-- QCFG on a free slot over registers that are clear in every live lane configures it: the slot holds its base and depth and
every FIFO of it is empty (R98, R289). -/
def QcfgGoes : Prop :=
  ∀ s c w h q base dm1, s.Ready c w h [] →
    let rs := runOf base (dm1.toNat + 1)
    w.names rs = true → (s.issOf c w h).act ≠ 0 → Tab.find w.queues q.toNat = none → s.yokeWindow c.wave q.toNat = false →
    (s.block w.block).depth = 0 → (∀ r ∈ rs, Tab.get 0 w.pend r &&& w.live = 0 ∧ Tab.get 0 w.expt r &&& w.live = 0) →
    ∃ t, exec (.qcfg h q base dm1) s = .next t ∧ Passed s t c ∧ Holds s t c.wave [] ∧ (t.wave c.wave).flags = w.flags ∧
      Apart s t c.wave ∧
      (t.wave c.wave).rest = { w.rest with queues := (t.wave c.wave).queues, fifos := (t.wave c.wave).fifos } ∧
      (∀ n, Tab.find (t.wave c.wave).queues n = if n = q.toNat then some ⟨base.toNat, dm1.toNat + 1⟩ else Tab.find w.queues n) ∧
      ∀ n l, l < 32 → (t.wave c.wave).fifo n l = if n = q.toNat then Fifo.blank else w.fifo n l

/-- QCFG.rel releases a slot: its registers read zero, clear, in every lane, and its FIFOs are empty (R289). -/
def QcfgRelGoes : Prop :=
  ∀ s c w h q sl, s.Ready c w h [] → (s.issOf c w h).act ≠ 0 → Tab.find w.queues q.toNat = some sl →
    s.yokeWindow c.wave q.toNat = false → (s.block w.block).depth = 0 →
    let rs := (List.range sl.depth).map (sl.base + ·)
    (∀ r ∈ rs, Tab.get 0 w.pend r &&& w.live = 0) →
    ∃ t, exec (.qcfgRel h q) s = .next t ∧ Passed s t c ∧
      Holds s t c.wave (rs.flatMap fun r => (List.range 32).map fun l => (r, l, 0)) ∧ (t.wave c.wave).flags = w.flags ∧ Apart s t c.wave ∧
      (let x := t.wave c.wave
       x.rest = { w.rest with queues := x.queues, fifos := x.fifos, pend := x.pend, expt := x.expt } ∧
       (∀ r, Tab.get 0 x.pend r = (if r ∈ rs then 0 else Tab.get 0 w.pend r) ∧
         Tab.get 0 x.expt r = if r ∈ rs then 0 else Tab.get 0 w.expt r) ∧
       (∀ n, Tab.find x.queues n = if n = q.toNat then none else Tab.find w.queues n) ∧
       ∀ n l, l < 32 → x.fifo n l = if n = q.toNat then Fifo.blank else w.fifo n l)

/-- The pops: header, destination, predicate, slot (R291). -/
def popForm : Instr → Option (Hdr × Reg × Option Reg × BitVec 2)
  | .qpop h d q => some (h, d, none, q)
  | .qpopTry h d p q => some (h, d, some p, q)
  | _ => none

/-- QPOP where every lane of ACTIVE holds an entry, and QPOP.try always, their head entries good, take the head entry of each
lane that has one: it is on the way to the destination, and the FIFO is one shorter, its position kept while a scope is open;
lanes outside ACTIVE keep theirs (R291, R292). -/
def PopsGo : Prop :=
  ∀ (s : State) (c : Cur) (w : Wave) ins h d p (q : BitVec 2) (sl : QSlot), popForm ins = some (h, d, p, q) → s.Ready c w h (d.toNat :: (p.map (·.toNat)).toList) →
    let v := s.issOf c w h
    let has : Nat → Bool := fun l => decide ((w.fifo q.toNat l).count ≠ 0)
    v.act ≠ 0 → Tab.find w.queues q.toNat = some sl → (p = none → ∀ l ∈ v.lanes, has l = true) →
    (∀ l ∈ v.lanes, has l = true → Tab.get 0 w.ecc (w.headReg q.toNat sl l) = 0 ∧
      (Tab.get 0 w.pois (w.headReg q.toNat sl l)).getLsbD l = false) →
    let ws := v.each d.toNat (fun l => if has l then w.head q.toNat sl l else 0) ++
      p.elim [] fun r => v.each r.toNat fun l => if has l then 1 else 0
    ∃ t, exec ins s = .next t ∧ Passed s t c ∧ Holds s t c.wave [] ∧ Pends s t c.wave (ws.map fun x => (x.1, x.2.1)) ∧
      (t.wave c.wave).flags = w.flags ∧ Added s.fly.results t.fly.results (ResultOn c.wave ws) ∧
      { (t.wave c.wave).quiet with fifos := [] } = { w.quiet with fifos := [] } ∧
      (∀ (n l : Nat), l < 32 → (t.wave c.wave).fifo n l =
        if (n == q.toNat && v.act.getLsbD l && has l) = true then
          { w.fifo n l with
            head := ((w.fifo n l).head + 1) % sl.depth
            count := (w.fifo n l).count - 1
            held := if (s.block w.block).depth = 0 then 0 else (w.fifo n l).held + 1 }
        else w.fifo n l) ∧
      (∀ j, j ≠ c.wave → (t.wave j).body = (s.wave j).body) ∧ (∀ n, (t.block n).still = (s.block n).still) ∧
      t.dev = s.dev ∧ t.clusters = s.clusters ∧ t.agenda = s.agenda ∧ Memory.Grew s.mem t.mem

/-! ### Sends and EXPECT -/

/-- The target lanes and values of an arrival: the lane itself, or the one that the index register names; of several lanes
with one target the highest supplies it (R183, R290). -/
def Arrival.carries (x : Arrival) (v : Iss) (wide : Bool) (b : Reg) (c : Option Reg) : Prop :=
  let goal := fun l => c.elim l fun r => (v.rd r.toNat l).toNat % 32
  (∀ j, j < 32 → (x.lanes.getLsbD j = true ↔ ∃ l ∈ v.lanes, goal l = j)) ∧
  ∀ l ∈ v.lanes, (∀ m ∈ v.lanes, l < m → goal m ≠ goal l) →
    Tab.get 0 x.vals (goal l) = if wide then v.rd2 b.toNat l else (v.rd b.toNat l).setWidth 64

/-- A send: header, whether into a queue, width, token, capability pair, values, index register, offset (R183, R290). -/
structure SendForm where
  h : Hdr
  queue : Bool
  wide : Bool
  d : Reg
  a : Reg
  b : Reg
  c : Option Reg
  off : Nat

/-- The sends through a capability. -/
def sendForm : Instr → Option SendForm
  | .qsend h d a b => some ⟨h, true, false, d, a, b, none, 0⟩
  | .qsendIdx h d a b c => some ⟨h, true, false, d, a, b, some c, 0⟩
  | .rsend h wide d a b off => some ⟨h, false, wide, d, a, b, none, off.toNat⟩
  | .rsendIdx h wide d a b c off => some ⟨h, false, wide, d, a, b, some c, off.toNat⟩
  | _ => none

/-- RSEND, QSEND, QSEND.yoke and EXPECT: one arrival, or one push into the window of the yokemate's compute wave, leaves and
its token waits; EXPECT sets its words expecting (R103, R182, R183, R290, R293). -/
def sendStart (s : State) (c : Cur) (w : Wave) (ins : Instr) : Option Starting :=
  match ins with
  | .qsendYoke h d b =>
    let v := s.issOf c w h
    let mate := s.waveIn w.block (w.wib - 32)
    some {
      h := h
      rs := [b.toNat, d.toNat]
      words := v.dest d
      ok := 32 ≤ w.wib ∧ mate.isSome = true ∧ (∀ p ∈ s.fly.pushes, p.2.yoke ≠ c.wave) ∧ s.publishing c.wave = false
      left := fun t => Added s.fly.pushes t.fly.pushes fun x => x.yoke = c.wave ∧ some x.compute = mate ∧ x.lanes = v.act ∧
        x.token = d.toNat ∧ x.depth = (s.block w.block).depth ∧ ∀ l ∈ v.lanes, Tab.get 0 x.vals l = v.rd b.toNat l }
  | .expect h d nm1 =>
    let v := s.issOf c w h
    let rs := runOf d (nm1.toNat + 1)
    let ws := rs.flatMap fun r => v.lanes.map fun l => (r, l)
    some {
      h := h
      names := rs
      words := ws
      ok := ∀ r ∈ rs, Tab.get 0 w.pend r &&& ~~~(Tab.get 0 w.expt r) &&& v.act = 0
      left := fun t => ∀ r l, l < 32 → (Tab.get 0 (t.wave c.wave).expt r).getLsbD l =
        ((Tab.get 0 w.expt r).getLsbD l || decide ((r, l) ∈ ws)) }
  | _ => (sendForm ins).map fun f =>
    let v := s.issOf c w f.h
    { h := f.h
      rs := pairOf f.a ++ valRegs f.wide f.b ++ (f.c.map (·.toNat)).toList ++ [f.d.toNat]
      words := v.dest f.d
      ok := (∀ l ∈ v.lanes, v.rd2 f.a.toNat l = v.rd2 f.a.toNat v.low) ∧ s.publishing c.wave = false
      left := fun t => Added s.fly.arrivals t.fly.arrivals fun x => x.wave = c.wave ∧ x.src = v.core ∧ x.ctx = w.ctx ∧ x.dev = s.dev.id ∧
        x.cap = v.rd2 f.a.toNat v.low ∧ x.queue = f.queue ∧ x.idx = f.c.isSome ∧ x.wide = f.wide ∧ x.off = f.off ∧
        x.token = f.d.toNat ∧ x.tokLanes = v.act ∧ x.outcome = none ∧ x.sent = false ∧ x.carries v f.wide f.b f.c }

/-! ### Capabilities -/

/-- A grant: header, destination pair, lane-mask register, the registers that it covers, kind, rights, policy, first
register or slot, count less one, scope (R353, R356). -/
structure GrantForm where
  h : Hdr
  d : Reg
  a : Reg
  spans : List Nat
  kind : Nat
  rights : Nat
  policy : Nat
  first : Nat
  count : Nat
  scope : Nat

/-- GRANT.reg and GRANT.q. -/
def grantForm : Instr → Option GrantForm
  | .grantReg h d a first cm1 send idx pol scope => some ⟨h, d, a, runOf first (cm1.toNat + 1), 1, send.toNat + 2 * idx.toNat,
      pol.toNat, first.toNat, cm1.toNat, scope.toNat⟩
  | .grantQ h d a slot pol scope => some ⟨h, d, a, [], 2, 4, pol.toNat, slot.toNat, 0, scope.toNat⟩
  | _ => none

/-- The words of one value for a pair in every lane of ACTIVE. -/
def Iss.pairDest (v : Iss) (d : Reg) (x : DWord) : List (Nat × Nat × Word) := v.lanes.flatMap fun l => pairWords d.toNat l x

/-- GRANT makes an entry at a free index of the device, in its generation, and returns the capability that names it; where
the context holds its quota it returns zero and makes none (R353, R356). -/
def GrantsGo : Prop :=
  ∀ s c w ins f, grantForm ins = some f → s.Ready c w f.h (f.a.toNat :: pairOf f.d) → (∀ r ∈ f.spans, r < w.foot) →
    let v := s.issOf c w f.h
    v.act ≠ 0 → (∀ l ∈ v.lanes, v.rd f.a.toNat l = v.rd f.a.toNat v.low) →
    let full := (s.ctx w.ctx).capq ≤ (s.ctx w.ctx).caps
    (full ∨ s.lowestFree.isSome = true) →
    ∃ t n, exec ins s = .next t ∧ Begun s t c w (v.lanes.flatMap fun l => (pairOf f.d).map fun r => (r, l)) none ∧
      (∀ n, (t.block n).still = (s.block n).still) ∧
      Added s.fly.results t.fly.results (ResultOn c.wave (v.pairDest f.d (if full then 0 else
        handleOf (s.tag .cap n (Tab.get Cap.reset s.dev.caps n).gen w.ctx) (Tab.get Cap.reset s.dev.caps n).gen n))) ∧
      (full → t.dev = s.dev) ∧
      (¬full → s.capFree n = true ∧ (t.ctx w.ctx).caps = (s.ctx w.ctx).caps + 1 ∧
        t.dev = { s.dev with caps := Tab.put s.dev.caps n ⟨w.handle, (Tab.get Cap.reset s.dev.caps n).gen, f.kind, f.rights, f.policy,
          f.first, f.count, f.scope, v.rd f.a.toNat v.low, w.ctx, (s.block w.block).depth⟩ })

/-- REVOKE of a capability of this device that the context may revoke raises its entry's generation, with status 0; of any
other capability of this device it returns status 1 and changes none. A capability of another device leaves as a revocation
for that device, its token waiting (R355, R357). -/
def RevokesGo : Prop :=
  ∀ s c w h d a, s.Ready c w h (pairOf a ++ [d.toNat]) →
    let v := s.issOf c w h
    let cap := v.rd2 a.toNat v.low
    let mine := s.rangeOf (handleLow cap) = some s.dev.id ∧ s.revocable w.ctx cap = true
    v.act ≠ 0 → (∀ l ∈ v.lanes, v.rd2 a.toNat l = cap) →
    let answers := fun (t : State) (x : Word) => Added s.fly.results t.fly.results (ResultOn c.wave (v.each d.toNat fun _ => x))
    ∃ t, exec (.revoke h d a) s = .next t ∧ Begun s t c w (v.dest d) none ∧ (∀ n, (t.block n).still = (s.block n).still) ∧
      (mine → answers t 0 ∧ ∀ e, Tab.find s.dev.caps (handleLow cap) = some e →
        t.dev = { s.dev with caps := Tab.put s.dev.caps (handleLow cap) e.bumped } ∧ (t.ctx e.ctx).caps = (s.ctx e.ctx).caps - 1) ∧
      (¬mine → t.dev = s.dev ∧ ((s.rangeOf (handleLow cap) = none ∨ s.rangeOf (handleLow cap) = some s.dev.id) → answers t 1)) ∧
      ∀ dev, s.rangeOf (handleLow cap) = some dev → dev ≠ s.dev.id → t.fly.results = s.fly.results ∧
        Added s.fly.revokes t.fly.revokes fun x => x = ⟨c.wave, v.core, w.ctx, cap, dev, d.toNat, v.act, false⟩

/-- Another device's REVOKE of a capability that this one holds, once the answer's flits can be sent, raises the entry's
generation where its context may revoke it, and no other entry changes (R354, R355, R357). -/
def RevokedFromOutside : Prop :=
  ∀ (s : State) cap ctx src u, src ≠ s.dev.id → s.sendFlits 0 src .reply = some u →
    ∀ n, Tab.find (s.foreignRevoke cap ctx src).dev.caps n = (Tab.find s.dev.caps n).map fun e =>
      if n = handleLow cap ∧ s.revocable ctx cap = true then e.bumped else e

/-- REVOKE.all raises the generation of every entry that the wave owns and of no other, with status 0 (R355, R357). -/
def RevokesAll : Prop :=
  ∀ s c w h d, s.Ready c w h [d.toNat] → (s.issOf c w h).act ≠ 0 →
    let v := s.issOf c w h
    ∃ t, exec (.revokeAll h d) s = .next t ∧ Begun s t c w (v.dest d) none ∧ (∀ n, (t.block n).still = (s.block n).still) ∧
      Added s.fly.results t.fly.results (ResultOn c.wave (v.each d.toNat fun _ => 0)) ∧
      t.dev = { s.dev with caps := t.dev.caps } ∧
      ∀ n, Tab.find t.dev.caps n = (Tab.find s.dev.caps n).map fun e => if e.live && e.owner == w.handle then e.bumped else e

end Sys2Proof.Machine
end

