-- ==== Sys2Proof/Safety/Recovery.lean ====
section
/-! DEFINITION. What the recovery instructions leave: arrivals at the barriers of a scope, alternates, failures, sittings. -/

namespace Sys2Proof.Machine

/-- The wave may issue an instruction at a dispatch point (R374, R384). -/
def State.AtDispatch (s : State) (c : Cur) (w : Wave) (h : Hdr) (rs : List Nat) : Prop :=
  s.Issues c w ∧ w.dispatch = true ∧ (guardRegs h ++ rs).all (w.usable c.path) = true

/-- The path has passed; no word, flag or P bit changes; of the wave, nothing else but what `f` changes; every other wave,
memory, work on its way and tables but the sittings are as before. -/
def Scoped (s t : State) (c : Cur) (w : Wave) (f : Wave → Wave) : Prop :=
  Holds s t c.wave [] ∧ (t.wave c.wave).flags = w.flags ∧ (t.wave c.wave).rest = (f w).rest ∧
  (∀ j, j ≠ c.wave → t.wave j = s.wave j) ∧ t.mem = s.mem ∧ t.fly = s.fly ∧ t.launches = s.launches ∧
  t.dev = { s.dev with sits := t.dev.sits } ∧ (∀ n, (t.core n).rest = (s.core n).rest)

/-- Of blocks, only the wave's own changes, in its recovery state as `f` says. -/
def Recovers (s t : State) (w : Wave) (f : Recovery → Recovery) : Prop :=
  (t.block w.block).still = (s.block w.block).still ∧ (t.block w.block).rcv = f (s.block w.block).rcv ∧
  ∀ n, n ≠ w.block → t.block n = s.block n

/-- A frame of the block fails in a cycle, unless a failure that it has already decides: one further out, one of an earlier
cycle, or one of this cycle with a lower WAVE_IN_BLOCK or, of the same wave, of a kind named first. RCAUSE names its rank,
the wave and the codes (R373, R382). -/
def Recovery.failed (r : Recovery) (now d wib code cause : Nat) : Recovery :=
  let f : Failing := ⟨d, rcauseWord ((r.frame d).elim 0 (·.rank)) wib code cause, now⟩
  let wibOf := fun (g : Failing) => (g.rcause.extractLsb' 16 8).toNat
  let kind := fun (g : Failing) =>
    let c := (g.rcause.extractLsb' 0 8).toNat
    if c < 128 then 0 else if c = rcRejected ∨ c = rcAbandoned then 1 else if c = rcLimit then 2 else if c = rcSitting then 3
      else if c = rcResource then 4 else 1
  { r with failing := match r.failing with
    | none => some f
    | some g =>
      if d < g.depth ∨ (d = g.depth ∧ g.cycle = now ∧
        (wibOf f < wibOf g ∨ (wibOf f = wibOf g ∧ kind f < kind g))) then some f else some g }

/-- An optional register's value in the lowest lane, or the value where it is not given. -/
def Iss.optWord (v : Iss) (r : Option Reg) (d : Word) : Word := r.elim d fun r => v.rd r.toNat v.low

/-- ENSURE outside a handler and a dispatch point, within the launch's depth, in every live lane: the wave waits at the
opening barrier with its alternate, its failure mask and its limit (R374, R375). -/
def EnsureGoes : Prop :=
  ∀ s c w h tgt mask lim goal, s.Ready c w h (optRegs [mask, lim]) → (Tab.find s.blocks w.block).isSome = true →
    let v := s.issOf c w h
    let l := s.lpb w.block
    v.act = w.live → w.live ≠ 0 → (∀ r ∈ optRegs [mask, lim], ∀ n ∈ v.lanes, v.rd r n = v.rd r v.low) →
    l.recovery = true → (s.block w.block).depth < l.rdepth → w.trap.level = 0 → s.publishing c.wave = false →
    Target.counter tgt c.pc = some goal →
    let arg : OpenArg := ⟨goal, v.optWord mask defMask &&& maskBits, (v.optWord lim (BitVec.ofNat 32 l.rlimit)).toNat⟩
    ∃ t, exec (.ensure h tgt mask lim) s = .next t ∧ Passed s t c ∧ Scoped s t c w (fun x => { x with wait := some .opening }) ∧
      Recovers s t w fun r => { r with opening := Tab.put r.opening w.wib arg }

/-- ELSEBY at a dispatch point of the frame to which the wave was dispatched, in every live lane: where that frame is to be
skipped, or another wave's ELSEERR has discarded it, the wave goes on to its target; where it is not, the wave runs on, and
the first to come names the frame's next alternate and may change its limit (R384, R385). -/
def ElsebyGoes : Prop :=
  ∀ s c w h tgt lim goal, s.AtDispatch c w h (optRegs [lim]) → (Tab.find s.blocks w.block).isSome = true →
    let v := s.issOf c w h
    let d := w.scope
    let f := (s.block w.block).rcv.frame d
    v.act = w.live → w.live ≠ 0 → (∀ r ∈ optRegs [lim], ∀ n ∈ v.lanes, v.rd r n = v.rd r v.low) →
    0 < d → Target.counter tgt c.pc = some goal →
    (f.all (·.skip) = true → v.enters tgt = true) →
    ∃ t, exec (.elseby h tgt lim) s = .next t ∧
      (f.all (·.skip) = true → Went s t c v.act (fun _ => goal) ∧ Scoped s t c w id ∧ Recovers s t w id) ∧
      ∀ g, f = some g → g.skip = false → (Passed s t c ∧ Scoped s t c w (fun x => { x with dispatch := false }) ∧
        Recovers s t w fun r => if g.served then r else r.updFrame d fun f =>
          { f with next := goal, served := true, limit := lim.elim f.limit fun r => (v.rd r.toNat v.low).toNat })

/-- The wave past its dispatch point, its copy of the frame's FLAGS gone (R385). -/
def Wave.undispatched (w : Wave) : Wave := { w with dispatch := false, saves := Tab.del w.saves w.scope }

/-- The recovery state after a wave's ELSEERR: its frame and all within it are gone, if they are still there (R385). -/
def Recovery.ended (r : Recovery) (d : Nat) : Recovery := if r.frames.length < d then r else r.discard d

/-- ELSEERR at a dispatch point of a frame of no sitting, in every live lane: the frame is gone; ELSEERR.go goes to its
target, and ELSEERR fails the frame outside it with RECOVERY_EXHAUSTED, or, of the outermost frame, has the wave raise that
exception with RCAUSE as TADDR (R385, R391). -/
def ElseerrGoes : Prop :=
  ∀ s c w h, s.AtDispatch c w h [] → (Tab.find s.blocks w.block).isSome = true →
    let v := s.issOf c w h
    let r := (s.block w.block).rcv
    v.act = w.live → w.live ≠ 0 → ((r.frame w.scope).any (·.sit)) = false →
    (∀ tgt goal, Target.counter tgt c.pc = some goal → v.enters tgt = true →
      ∃ t, exec (.elseerrGo h tgt) s = .next t ∧ Went s t c v.act (fun _ => goal) ∧ Scoped s t c w Wave.undispatched ∧
        Recovers s t w fun r => r.ended w.scope) ∧
    (1 < w.scope → ∃ t, exec (.elseerr h) s = .next t ∧ Passed s t c ∧ Scoped s t c w Wave.undispatched ∧
      Recovers s t w fun r => (r.ended w.scope).failed (s.core (s.block w.block).core).cycles (w.scope - 1) w.wib 0 Cause.recoveryExhausted.code) ∧
    (w.scope ≤ 1 → w.trap.level = 0 → ∃ t, exec (.elseerr h) s = .next t ∧ (t.wave c.wave).trap.level = 1 ∧
      (t.wave c.wave).trap.a.cause = BitVec.ofNat 32 Cause.recoveryExhausted.code ∧
      (t.wave c.wave).trap.a.addr = r.rcause.setWidth 64 ∧ (t.wave c.wave).trap.a.mask = w.live ∧
      (t.wave c.wave).dispatch = false ∧ (t.block w.block).rcv = r.ended w.scope ∧ Holds s t c.wave [] ∧ t.mem = s.mem)

/-- The instructions that end a scope's work in an open scope outside a dispatch point (R386, R394): header, registers,
whether every live lane must be active, and what follows: the failure code and cause, whether alternates are passed over,
or none for an arrival at the accept barrier. -/
def scopeEnd (s : State) (c : Cur) (w : Wave) : Instr → Option (Hdr × List Nat × Bool × Option (Nat × Nat × Bool))
  | .accept h => some (h, [], true, if armedHit (w.seenFlags s.free) then some (Cause.numericArmed.code, 0, false) else none)
  | .acceptIf h a =>
    let v := s.issOf c w h
    some (h, [a.toNat], true, if armedHit (w.seenFlags s.free) then some (Cause.numericArmed.code, 0, false)
      else if v.lanes.all (fun l => (v.rd a.toNat l).getLsbD 0) then none else some (rcRejected, 0, false))
  | .reject h code => some (h, [], false, some (rcRejected, code.toNat, false))
  | .abandon h code => some (h, [], false, some (rcAbandoned, code.toNat, true))
  | _ => none

/-- ACCEPT, ACCEPT.if, REJECT and ABANDON: acceptance waits at the accept barrier; a failure is recorded for the innermost
frame, of which ABANDON passes over the alternates (R386, R394). -/
def ScopeEndsGo : Prop :=
  ∀ s c w ins h rs all end_, scopeEnd s c w ins = some (h, rs, all, end_) → s.Ready c w h rs →
    (Tab.find s.blocks w.block).isSome = true →
    let act := (s.issOf c w h).act
    let d := (s.block w.block).depth
    act ≠ 0 → (all = true → act = w.live) → d ≠ 0 → (end_ = none → s.publishing c.wave = false) →
    ∃ t, exec ins s = .next t ∧ Passed s t c ∧ match end_ with
      | none => Scoped s t c w (fun x => { x with wait := some .accept }) ∧
          Recovers s t w fun r => { r with accepting := w.wib :: r.accepting }
      | some (cause, code, skip) => Scoped s t c w id ∧
          Recovers s t w fun r => (if skip then r.updFrame d fun f => { f with skip := true } else r).failed
            (s.core (s.block w.block).core).cycles d w.wib code cause

/-- SITJOIN and SITLEAVE outside a scope: with no refusal SITJOIN makes the block a member of the sitting of its key and
count, forming or ready, with status 0; with refusals one that applies is the status. SITLEAVE ends the membership with
status 0, or returns 1 where there is none (R389, R392). -/
def SittingsGo : Prop :=
  (∀ s c w h d a b, s.Ready c w h [a.toNat, b.toNat, d.toNat] → (Tab.find s.blocks w.block).isSome = true →
    let v := s.issOf c w h
    v.act ≠ 0 → (∀ r ∈ [a.toNat, b.toNat], ∀ l ∈ v.lanes, v.rd r l = v.rd r v.low) → (s.block w.block).depth = 0 →
    s.publishing c.wave = false →
    let key := v.rd a.toNat v.low
    let count := (v.rd b.toNat v.low).toNat
    let no := s.joinRefusals w.block w.ctx key count
    ∃ t x, exec (.sitjoin h d a b) s = .next t ∧ Begun s t c w (v.dest d) none ∧ (∀ n, (t.block n).still = (s.block n).still) ∧
      Added s.fly.results t.fly.results (ResultOn c.wave (v.each d.toNat fun _ => BitVec.ofNat 32 x)) ∧
      (no ≠ [] → x ∈ no ∧ t.dev = s.dev) ∧
      (no = [] → x = 0 ∧ ∃ n y, (t.block w.block).rcv.sitting = some n ∧ Tab.find t.dev.sits n = some y ∧ y.key = key ∧ y.ctx = w.ctx ∧
        w.block ∈ y.members ∧ y.count = count ∧ y.st = (if y.members.length = count then 2 else 1) ∧
        ∀ m, m ≠ n → Tab.find t.dev.sits m = Tab.find s.dev.sits m)) ∧
  ∀ s c w h d, s.Ready c w h [d.toNat] → (Tab.find s.blocks w.block).isSome = true →
    let v := s.issOf c w h
    v.act ≠ 0 → (s.block w.block).depth = 0 → s.publishing c.wave = false →
    ∃ t, exec (.sitleave h d) s = .next t ∧ Begun s t c w (v.dest d) none ∧ (∀ n, (t.block n).still = (s.block n).still) ∧
      Added s.fly.results t.fly.results (ResultOn c.wave (v.each d.toNat fun _ =>
        if (s.block w.block).rcv.sitting.isNone then 1 else 0)) ∧
      (t.block w.block).rcv.sitting = none ∧ t.dev = { s.dev with sits := t.dev.sits }

end Sys2Proof.Machine
end

