-- ==== Sys2Proof/Safety/Rules.lean ====
section
/-! DEFINITION. Claims about encodings, the step, reset, the memory's form, and the checks before an instruction's effect. -/

namespace Sys2Proof.Machine

/-! ### Encodings -/

/-- What the decoder answers, or none where it refuses. -/
def decoded (w : BitVec 96) : Option Instr :=
  match decodeWord w with
  | .ok i => some i
  | .error _ => none

/-- A slot's three 32-bit words, the first at the lowest address, as its 96 bits. -/
def slotWords (w0 w1 w2 : Word) : BitVec 96 := w2 ++ w1 ++ w0

/-- Words written out from the encoding tables decode to what they stand for: the worked words that the spec gives after R184
and in R431. -/
def WordsDecode : Prop :=
  decoded (slotWords 0x04000058 0x1B000806 0) = some (.fdiv ⟨none, false, none⟩ .f64 .rz false 4 6 8) ∧
  decoded (slotWords 0x03000068 0x14000007 0x00000A00) = some (.cvt ⟨none, false, none⟩ .s32 .f32 .rz false 3 7) ∧
  decoded (slotWords 0x05000172 0x0A070006 0x100) = some (.shflup ⟨none, false, none⟩ .f32 5 6 1 (some 7)) ∧
  decoded (slotWords 0x02000075 0x0A000003 0) = some (.wred ⟨none, false, none⟩ .add .f32 .rne false 2 3) ∧
  decoded (slotWords 0x00000008 0 0x1F4) = some (.nap ⟨none, false, none⟩ 500) ∧
  decoded (slotWords 0x060000F0 0x07000000 0x1100) = some (.srd ⟨none, false, none⟩ true 6 0x011) ∧
  decoded (slotWords 0x280000C4 0 0x700) = some (.expect ⟨none, false, none⟩ 40 7) ∧
  decoded (slotWords 0 0 0) = some (.nop ⟨none, false, none⟩) ∧
  decoded (slotWords 0x000000FF 0 0) = some (.ill 0) ∧
  decoded (slotWords 0x00000009 0 0) = none

/-- EVERY WELL-FORMED INSTRUCTION'S WORD DECODES TO IT: no bit of an encoding is dropped (R62, R68 to R72, R83). -/
def EncodeThenDecode : Prop := ∀ i w, Instr.wf i = true → encode i = some w → decodeWord w = .ok i

/-- Every decoded word is the word of the instruction it decodes to, and that instruction is well formed: each word has one
meaning, and no unused bit is ignored (R68, R83). -/
def DecodeThenEncode : Prop := ∀ i w, decodeWord w = .ok i → encode i = some w ∧ Instr.wf i = true

/-- The opcodes that R83 lists as unassigned. -/
def unassigned (o : Nat) : Prop :=
  0x09 ≤ o ∧ o ≤ 0x0F ∨ 0x22 ≤ o ∧ o ≤ 0x2F ∨ o = 0x3F ∨ 0x48 ≤ o ∧ o ≤ 0x4F ∨ 0x65 ≤ o ∧ o ≤ 0x67 ∨ 0x77 ≤ o ∧ o ≤ 0x7F ∨
  0x8F ≤ o ∧ o ≤ 0x9F ∨ 0xAD ≤ o ∧ o ≤ 0xAF ∨ 0xB7 ≤ o ∧ o ≤ 0xBF ∨ 0xCB ≤ o ∧ o ≤ 0xD7 ∨ 0xE9 ≤ o ∧ o ≤ 0xEF ∨ 0xF8 ≤ o ∧ o ≤ 0xFE

/-- A slot of an unassigned opcode is refused, as is, under any opcode but ILL's, one with T 15, or with a guard register or
sense but no guard; and a refused slot raises ILLEGAL_INSTRUCTION in every lane of its path, whatever its guard (R82, R83). -/
def RefusedWordsRaise : Prop :=
  (∀ w : BitVec 96, unassigned (w.extractLsb' 0 8).toNat ∨ w.extractLsb' 0 8 ≠ 0xFF ∧ (w.extractLsb' 56 4 = 15 ∨
    w.getLsbD 13 = false ∧ (w.getLsbD 14 = true ∨ w.extractLsb' 16 8 ≠ 0)) → decoded w = none) ∧
  ∀ (s : State) k w c path slot, decoded slot = none → Tab.find s.waves k = some w → (Tab.find s.blocks w.block).isSome = true →
    ∃ t, s.runSlot k c path slot = .next t ∧ Takes s t ⟨k, path, c⟩ w .illegalInstruction (fun _ => True) path c

/-! ### The step -/

/-- A turn of a core's selector runs the decoded instruction: where the picked wave owes no fault and its voted path passes the
checks of its line, the step is `exec` of the instruction that the slot decodes to, the links of its lanes being there, then
what may issue beside it, then the passing of the cycle; and the turn of a unit's step is `exec` of that step. After either,
what was spilled reaches its area, and the images of Saved blocks follow what has landed in them. -/
def StepRunsDecoded : Prop :=
  (∀ (s : State) core ts k v line s3 i, s.agenda = .issue core :: ts →
    let s1 := { s with agenda := ts }.looked core
    let w := s1.wave k
    s1.picked core = some k → w.duty = none → vote (s1.ctx w.ctx).fair w.fcount w.lastB (s1.readyPaths k) = some v →
    let s2 := s1.updWave k fun w => { w with fcount := v.fcount, lastA := v.first, lastB := 0 }
    let path := w.pathAt v.first
    s2.lineFor k v.first path = (.ok line, s3) →
    (path &&& (s3.wave k).entering = 0 ∨ tgtBit line (slotOfPc v.first) = true) →
    decodeWord (slotBits line (slotOfPc v.first)) = .ok i →
    step s = match exec i { s3.linksReturn k path with cur := some ⟨k, path, v.first⟩ } with
      | .next t =>
        let t1 := { t with cur := none }
        let beside := if s2.went t1 k path then
            (match v.second with
            | some c => t1.secondPort k c (w.pathAt c)
            | none => t1.pairMate k v.first path)
          else .next t1
        (match beside with
        | .next t2 => .next ((t2.issued core k).flushSpills.refreshImages { s with agenda := ts })
        | o => o)
      | o => o) ∧
  ∀ (s : State) i ts, s.agenda = .event i :: ts → i.fields = none →
    step s = match exec i ((s.looksAt i).elim { s with agenda := ts } { s with agenda := ts }.probe) with
      | .next t => .next (t.flushSpills.refreshImages { s with agenda := ts })
      | o => o

/-! ### Reset and the memory's form -/

/-- The values that the spec gives for reset (R97, R117, R191, R194, R196, R308, R316, R325, R361, R411, R423, R425): no wave,
no block, no launch; every core's cycle count, bank grants and scratch ways; every cluster's pool, gated; every context's fields; the
vaults' ceilings; the operating classes; the energy weights; the way masks; the package limit; the ports' thresholds. -/
def ResetValues : Prop :=
  let s := State.reset
  s.waves = [] ∧ s.blocks = [] ∧ s.launches = [] ∧
  (∀ n, (s.core n).cycles = 0 ∧ (s.core n).grants = 12 ∧ (s.core n).scratch = 0xF000) ∧
  (∀ n, (s.cluster n).pool = 3 ∧ (s.cluster n).gated = true) ∧
  (∀ c, (s.ctx c).cores = BitVec.allOnes 256 ∧ (s.ctx c).pceil = 23 ∧ (s.ctx c).fair = 256 ∧ (s.ctx c).saveBase = 0 ∧
    (s.ctx c).saveSize = 0 ∧ (s.ctx c).cls = 0) ∧
  (∀ v, (s.vault v).ceiling = 2) ∧
  (∀ c, c < 4 → Tab.get 0 s.dev.l2masks c = BitVec.allOnes 24) ∧
  ((List.range 8).map fun c => ((Tab.get 0 s.dev.opclass c).extractLsb' 0 16).toNat) = [550, 600, 650, 700, 750, 800, 650, 0] ∧
  ((List.range 8).map fun c => ((Tab.get 0 s.dev.opclass c).extractLsb' 16 16).toNat) =
    [1200, 1600, 2000, 2400, 2700, 3000, 1600, 0] ∧
  ((List.range 8).map fun c => (Tab.get 0 s.dev.opclass c).getLsbD 32) = [true, true, true, true, true, true, true, false] ∧
  ((List.range 8).map fun e => Tab.get 0 s.dev.weights e) = [1, 1, 2, 4, 32, 128, 1, 4] ∧ s.dev.pkglim = 1800 ∧
  ∀ p, (s.port p).dark = 20 ∧ ∀ k, 1 ≤ k → k ≤ 7 → (s.port p).threshold k = 64 * k

/-- Every memory is in its one canonical form. -/
def State.tidy (s : State) : Prop := s.mem.wf = true

/-- EVERY STEP KEEPS THE MEMORY'S CANONICAL FORM: addresses rise, and no listed byte equals what an unlisted one reads as. -/
def StepKeepsTidy : Prop := ∀ s t : State, s.tidy → step s = .next t → t.tidy

/-! ### Checks before the effect -/

/-- The register instructions of every table. -/
def anyResult (s : State) (c : Cur) (w : Wave) (ins : Instr) : Option RegResult :=
  (integerResult s c w ins).orElse fun _ => (logicResult s c w ins).orElse fun _ => (compareResult s c w ins).orElse fun _ =>
  (floatResult s c w ins).orElse fun _ => (convertResult s c w ins).orElse fun _ => crossResult s c w ins

/-- The registers that an instruction of these tables names. -/
def RegResult.named (r : RegResult) : List Nat := guardRegs r.h ++ r.rs ++ r.cross

/-- THE CHECKS OF R84 COME FIRST: a register at or above the footprint faults with REGISTER_RANGE; else one in a queue's range
faults with QUEUE; else a guard that is not clear, or a word that it would write and that is pending, holds the path where it
is (R77, R83, R84, R99). -/
def RegistersChecked : Prop :=
  ∀ s c w ins r, anyResult s c w ins = some r → s.Issues c w → (Tab.find s.blocks w.block).isSome = true →
    ∃ t, exec ins s = .next t ∧
      ((∃ x ∈ r.named, w.foot ≤ x) → Takes s t c w .registerRange (fun _ => True) c.path c.pc) ∧
      ((∀ x ∈ r.named, x < w.foot) → (∃ x ∈ r.named, (w.queueAt x).isSome = true) →
        Takes s t c w .queue (fun a => ∃ x ∈ r.named, (w.queueAt x).isSome = true ∧ a = BitVec.ofNat 64 x) c.path c.pc) ∧
      ((∀ x ∈ r.named, x < w.foot ∧ w.queueAt x = none) → w.dispatch = false →
        ((∃ x ∈ guardRegs r.h, Tab.get 0 w.pend x &&& c.path ≠ 0) → t = s) ∧
        ((∀ x ∈ guardRegs r.h, w.usable c.path x = true) →
          (∃ x ∈ r.words, (Tab.get 0 w.pend x.1).getLsbD x.2.1 = true) → t = s))

/-- DIV and REM with a zero divisor in an active lane take INT_DIVIDE_ZERO in those lanes, TADDR 0, and nothing is written
(R123, R134). -/
def DivisionTraps : Prop :=
  ∀ s c w ins h t a b d, (ins = .rem h t d a b ∨ ∃ sat, ins = .div h t sat d a b) →
    s.Ready c w h (typedRegs t [a, b] ++ regsOf t d) → (Tab.find s.blocks w.block).isSome = true →
    let v := s.issOf c w h
    let zs : Mask := Mask.of fun l => v.act.getLsbD l && v.int t b l 0 == 0
    zs ≠ 0 → ∃ u, exec ins s = .next u ∧ Takes s u c w .intDivideZero (fun x => x = 0) zs c.pc

/-! ### Two rules whole -/

/-- A bit of a lane's operand of a type: of the register, or, in a 64-bit type, of the pair (R33). -/
def operandBit (x : Wave) (t : RType) (r : Reg) (l i : Nat) : Bool :=
  if t.is64 ∧ 32 ≤ i then (x.word (r.toNat + 1) l).getLsbD (i - 32) else (x.word r.toNat l).getLsbD i

/-- The bitwise instructions: header, type, destination, sources, and the bit of two bits. -/
def bitwise : Instr → Option (Hdr × RType × Reg × Reg × Reg × (Bool → Bool → Bool))
  | .and h t d a b => some (h, t, d, a, b, fun x y => x && y)
  | .or h t d a b => some (h, t, d, a, b, fun x y => x || y)
  | .xor h t d a b => some (h, t, d, a, b, fun x y => x != y)
  | .not h t d a => some (h, t, d, a, a, fun x _ => !x)
  | _ => none

/-- AND, OR, XOR and NOT take T from W, and compute each bit of the result from the same bit of the sources in each lane of
ACTIVE (R136), over sources that no earlier result is still about to reach (R76); words elsewhere and FLAGS are as before. -/
def BitwiseByBits : Prop :=
  ∀ (s : State) c w ins h t d a b f, bitwise ins = some (h, t, d, a, b, f) → Instr.wf ins = true →
    s.Ready c w h (regsOf t a ++ regsOf t b ++ regsOf t d) → w.window = [] →
    t.inW = true ∧ ∃ u, exec ins s = .next u ∧ Passed s u c ∧ (u.wave c.wave).flags = w.flags ∧
      (∀ l, l < 32 → (s.issOf c w h).act.getLsbD l = true → ∀ i, i < RType.bits t →
        operandBit (u.wave c.wave) t d l i = f (operandBit w t a l i) (operandBit w t b l i)) ∧
      ∀ r l, l < 32 → ((s.issOf c w h).act.getLsbD l = false ∨ r ∉ regsOf t d) → (u.wave c.wave).cell r l = w.cell r l

/-- THE COUNTER GENERATOR of dropout and of sto is the spec's, in 32-bit arithmetic (R278). -/
def GeneratorByRule : Prop :=
  ∀ row col (lo hi : Word),
    let h0 := (row * 65536 + col) % 2 ^ 32 ^^^ lo.toNat
    let h1 := h0 ^^^ hi.toNat
    let h2 := h1 ^^^ h1 / 2 ^ 16
    let h3 := h2 * 0x85EBCA6B % 2 ^ 32
    let h4 := h3 ^^^ h3 / 2 ^ 13
    let h5 := h4 * 0xC2B2AE35 % 2 ^ 32
    (gen row col lo hi).toNat = h5 ^^^ h5 / 2 ^ 16

end Sys2Proof.Machine
end

