-- ==== Sys2Proof/Safety/Tasks.lean ====
section
/-! DEFINITION. What SPAWN, LAUNCH and the work-heap instructions leave at their issue. -/

namespace Sys2Proof.Machine

/-! ### SPAWN and LAUNCH -/

/-- SPAWN of a child that an empty core can hold, within the launch's nesting, with room on its die: the child is offered, of
its parent's launch, context and index, for its parent's core, with entry, waves, registers, scratch and arguments as the
run gives them; its launch has one block more to retire; the token is complete (R21, R301, R302). -/
def SpawnGoes : Prop :=
  ∀ s c w h d a, s.Ready c w h (runOf a 10 ++ [d.toNat]) →
    let v := s.issOf c w h
    let p := s.block w.block
    let waves := ((v.desc a 2).extractLsb' 0 6).toNat
    let foot := 8 * ((v.desc a 2).extractLsb' 8 6).toNat
    let scr := ((v.desc a 3).extractLsb' 0 21).toNat
    v.act ≠ 0 → (∀ r ∈ runOf a 10, ∀ l ∈ v.lanes, v.rd r l = v.rd r v.low) → isCounter (v.desc2 a 0) = true →
    s.publishing c.wave = false → p.spawnDepth + 1 ≤ min 4 (s.lpb w.block).spawnDepth →
    1 ≤ waves → waves ≤ 32 → 16 ≤ foot → foot ≤ 256 → scr ≤ 2 ^ 20 → s.tooBig (childShape waves foot scr) = false →
    s.childrenOffered (coreDie v.core) < 4096 → (Tab.find s.launches p.launch).isSome = true →
    ∃ t id b, exec (.spawn h d a) s = .next t ∧ Begun s t c w (v.dest d) none ∧ t.dev = s.dev ∧ TokenOn s t c v d 0 ∧
      (∀ n, n ≠ id → (t.block n).still = (s.block n).still) ∧ (t.launch p.launch).left = (s.launch p.launch).left + 1 ∧
      Tab.find t.blocks id = some b ∧ b.st = .offered ∧ b.spawned = true ∧ b.launch = p.launch ∧ b.ctx = p.ctx ∧
      (b.lin, b.x, b.y, b.z) = (p.lin, p.x, p.y, p.z) ∧ b.prefer = some p.core ∧ b.spawnDepth = p.spawnDepth + 1 ∧
      b.entry = (v.desc2 a 0).setWidth 48 ∧ b.nwaves = waves ∧ b.foot = foot ∧ b.s = childScratch scr b.args ∧
      b.args = [v.desc a 4, v.desc a 5, v.desc a 6, v.desc a 7] ∧ b.parentCtr = v.desc2 a 8 ∧
      b.parent = if p.depth = 0 then none else some (w.block, p.depth)

/-- LAUNCH reads 256 bytes at the homes and appends them to a device-fed queue: the bytes are written at its tail, which moves
on, and the token is complete (R298, R300). A queue that is disabled or not device-fed gives a token of CLASS 1, one that is
full or already holds a continuation one of CLASS 9, and neither changes. -/
def LaunchGoes : Prop :=
  ∀ s c w h d a q lpb u, s.Ready c w h (runOf a 2 ++ [d.toNat]) →
    let v := s.issOf c w h
    let va := (v.desc2 a 0).toNat
    let lq := s.lq w.ctx q.toNat
    let usable := ctlEn lq.ctl && ctlDevfed lq.ctl
    v.act ≠ 0 → (∀ r ∈ runOf a 2, ∀ l ∈ v.lanes, v.rd r l = v.rd r v.low) → va % 256 = 0 → s.publishing c.wave = false →
    s.unitRead v.core w.ctx va 256 = .ok (lpb, u) →
    (∀ x, usable = true → lq.full = false → lq.held = [] → u.unitWrite farUnit w.ctx (lq.base + 256 * lq.tail) lpb = .ok x →
      ∃ t, exec (.launch h d a q) s = .next t ∧ Going s t c w (v.dest d) none ∧ (∀ n, (t.block n).still = (s.block n).still) ∧
        t.dev = s.dev ∧ TokenOn s t c v d 0 ∧ Memory.Grew x.mem t.mem ∧
        t.lq w.ctx q.toNat = { lq with tail := (lq.tail + 1) % ctlSize lq.ctl, prefer := Tab.del lq.prefer lq.tail }) ∧
    (usable = false ∨ lq.full = true ∨ lq.held ≠ [] →
      ∃ t, exec (.launch h d a q) s = .next t ∧ Starts s t c w (v.dest d) none ∧ t.lq w.ctx q.toNat = lq ∧
        Added s.fly.results t.fly.results fun r => r.wave = c.wave ∧
          r.writes = keyed (v.each d.toNat fun _ => tokenWord ⟨if usable then 9 else 1, 2, v.core, 0, 0⟩ 1 0))

/-! ### The work heap -/

/-- A heap instruction: header, registers, destination, the instance of its context that it uses, the status of each lane, and
that instance afterwards. -/
structure HeapForm where
  h : Hdr
  rs : List Nat
  d : Reg
  inst : Option Nat
  ok : Prop
  status : Nat → Nat
  after : Nat → Heap → Heap → Prop

/-- HEAPPUT, HEAPPUT.open and HEAPPUT.close (R308, R309): without an instance of the context status 3. HEAPPUT with room for
every lane adds each lane's entry, or none to a sealed instance (2) or of the key that means end of work (4). -/
def heapForm (s : State) (c : Cur) (w : Wave) : Instr → Option HeapForm
  | .heapput h d a b inst =>
    let v := s.issOf c w h
    let n := v.heapOf inst
    let sealed_ := n.any fun n => (s.heap n).st == 2
    let last := fun l => v.rd a.toNat l == 0xFFFFFFFF
    some ⟨h, [a.toNat, b.toNat, d.toNat], d, n, ∀ m, n = some m → s.heapEntries (m / 32) + v.lanes.length ≤ 65536,
      fun l => if n.isNone then 3 else if last l then 4 else if sealed_ then 2 else 0,
      fun _ x y => y.bound = x.bound ∧ y.st = x.st ∧ y.opens = x.opens ∧
        y.entries.map (fun e => (e.1, e.2.1)) = x.entries.map (fun e => (e.1, e.2.1)) ++
          if sealed_ then [] else (v.lanes.filter fun l => !last l).map fun l => ((v.rd a.toNat l).toNat, (v.rd b.toNat l).toNat)⟩
  | .heapputOpen h d inst =>
    let n := (s.issOf c w h).heapOf inst
    let x := n.elim Heap.reset s.heap
    some ⟨h, [d.toNat], d, n, True, fun _ => if n.isNone then 3 else if x.st = 2 then 2 else if 65535 ≤ x.opens then 1 else 0,
      fun st x y => y = if st = 0 then { x with opens := x.opens + 1, st := 1 } else x⟩
  | .heapputClose h d inst =>
    let n := (s.issOf c w h).heapOf inst
    let x := n.elim Heap.reset s.heap
    some ⟨h, [d.toNat], d, n, True, fun _ => if n.isNone then 3 else if x.opens = 0 then 5 else 0,
      fun st x y => y = if st = 0 then { x with opens := x.opens - 1, st := if x.opens = 1 then 2 else x.st } else x⟩
  | _ => none

/-- The heap instructions change their instance as they say, no other table, and return their statuses (R308, R309). -/
def HeapsGo : Prop :=
  ∀ s c w ins f, heapForm s c w ins = some f → s.Ready c w f.h f.rs →
    let v := s.issOf c w f.h
    v.act ≠ 0 → s.publishing c.wave = false → f.ok →
    ∃ t, exec ins s = .next t ∧ Begun s t c w (v.dest f.d) none ∧ (∀ n, (t.block n).still = (s.block n).still) ∧
      Added s.fly.results t.fly.results (ResultOn c.wave (v.each f.d.toNat fun l => BitVec.ofNat 32 (f.status l))) ∧
      t.dev = { s.dev with heaps := t.dev.heaps } ∧ (∀ n, f.inst ≠ some n → t.heap n = s.heap n) ∧
      ∀ n, f.inst = some n → f.after (f.status v.low) (s.heap n) (t.heap n)

/-- HEAPGET with its answer's eight bytes aligned and within the scratch: a request joins its instance's queue and the token
waits; without an instance of the context the token ends with CLASS 4 (R310). -/
def heapgetStart (s : State) (c : Cur) (w : Wave) : Instr → Option Starting
  | .heapget h d a inst =>
    let v := s.issOf c w h
    let addr := (v.rd a.toNat v.low).toNat
    let die := (v.heapNamed inst).elim (coreDie v.core) (· / 32)
    some {
      h := h
      rs := [a.toNat, d.toNat]
      words := v.dest d
      ok := (∀ l ∈ v.lanes, v.rd a.toNat l = v.rd a.toNat v.low) ∧ addr % 8 = 0 ∧ addr + 8 ≤ (s.block w.block).s.size ∧
        s.publishing c.wave = false
      left := fun t => match v.heapOf inst with
        | some n => Added s.fly.heap t.fly.heap fun x => x.inst = n ∧ x.wave = c.wave ∧ x.block = w.block ∧ x.token = d.toNat ∧
            x.lanes = v.act ∧ x.addr = addr ∧ x.depth = (s.block w.block).depth
        | none => Added s.fly.results t.fly.results fun r => r.wave = c.wave ∧
            r.writes = keyed (v.each d.toNat fun _ => tokenWord ⟨4, 3, 16 * die, 0, 0⟩ 1 0) ∧ r.entry.isSome = true }
  | _ => none

end Sys2Proof.Machine
end

