-- ==== Sys2Proof/Certificates/Slice0/Obligations.lean ====
section
/-! DEFINITION. The statements for the provers. Each says what the rules named in its comment give; the tables and predicates
that it names stand in Sys2Proof/Safety/. -/

/-- Ten slots whose three words the spec works out, or that its tables give at once (FDIV, CVT, SHFLUP with fill,
WRED, NAP, SRD of CYCLES, EXPECT, NOP, ILL, and an unassigned opcode), decode to the instruction with each operand
that the spec names, and the unassigned one is refused. (R68, R69, R82, R83, 06_float_convert_lane_control.md) -/
def Obligations.SpecWordsDecodeAsWritten : Prop := Sys2Proof.Machine.WordsDecode

/-- For every well-formed instruction that has an encoding, with every operand at every value that its encoding
admits, decoding its 96 bits gives exactly that instruction. The other way round, whatever 96 bits decode, the
instruction is well formed and its encoding is those bits: no bit is dropped, no unused bit is let pass, and no slot
has two meanings. (R62, R68, R69, R70, R71, R72, R83) -/
def Obligations.EncodingsRoundTrip : Prop := Sys2Proof.Machine.EncodeThenDecode ∧ Sys2Proof.Machine.DecodeThenEncode

/-- Every slot with one of the opcodes that R83 lists as unassigned is refused by the decoder, and so is, under every
opcode but ILL's, one whose T field is 15 or whose guard fields are nonzero while GV is 0. When a path issues a
refused slot, ILLEGAL_INSTRUCTION is taken in all its lanes, whatever the guard: by the scope that takes it, by the
handler, or, at trap level 2, by the kill of the context. (R82, R83, R84, R367, R382) -/
def Obligations.RefusedSlotsRaiseIllegal : Prop := Sys2Proof.Machine.RefusedWordsRaise

/-- In a turn of a core's selector whose picked wave owes no fault and whose voted path passes the checks of its line
and of its target, step is exec, once the links that the path awaits have returned, of the instruction that the slot
at the path's counter decodes to; then the second path or the second member of a pair may issue, and the cycle passes.
In a turn of a step of a unit, step is exec of that step. At the end of either turn the bytes for spill areas and save
images reach memory. (R65, R66, R84, R326, R327, R459) -/
def Obligations.StepRunsDecodedInstruction : Prop := Sys2Proof.Machine.StepRunsDecoded

/-- Right after reset no wave, block or launch exists; every core has cycle count 0, ration 12 and scratch ways 12 to
15; every cluster is gated in the pool of class 3; every context has all cores, ceiling 23, fairness 256, an empty
save pool and class 0; every vault's ceiling admits bands 0 to 2; the way masks, operating classes, energy weights,
package limit and Ezley thresholds are the tables of the spec. Values that the spec does not give are not part of this
statement. (R97, R117, R191, R194, R196, R316, R325, R361, R411, R423, R425) -/
def Obligations.ResetLeavesSpecValues : Prop := Sys2Proof.Machine.ResetValues

/-- Memory.wf holds of State.reset: the state from which every run starts meets the invariant of
EveryStepKeepsMemoryCanonical. That reset lists no byte is the model's choice (log 2). (07_memories.md,
notes/assumptions/2.md) -/
def Obligations.ResetMemoryIsCanonical : Prop := Sys2Proof.Machine.State.reset.tidy

/-- For every state whose memory lists its bytes at strictly rising places and lists none that equals what an unlisted
place reads as, if step answers a next state, that state's memory has the same form: after an instruction, a step of a
unit, a write of the host, a merge of a line, a kill or a reset. So equal memories are equal data. (07_memories.md,
notes/assumptions/2.md) -/
def Obligations.EveryStepKeepsMemoryCanonical : Prop := Sys2Proof.Machine.StepKeepsTidy

/-- For every integer, logic, compare, float, convert and cross-lane instruction: if it names a register at or above
the footprint, REGISTER_RANGE is taken in every lane of the path; else if it names a register inside a configured
queue's range, QUEUE is taken with that register's number as TADDR; else, if its guard or a word that it would write
is pending, nothing happens: the path stays where it is. (R78, R83, R84, R98, R99, R123, R367, R382) -/
def Obligations.RegisterChecksComeFirst : Prop := Sys2Proof.Machine.RegistersChecked

/-- When some active lane's divisor is 0, DIV and REM of every type take INT_DIVIDE_ZERO with TMASK exactly those
lanes and TADDR 0; no lane is written. (R123, R134, R367, R382) -/
def Obligations.DivisionByZeroTraps : Prop := Sys2Proof.Machine.DivisionTraps

/-- A well-formed AND, OR, XOR or NOT has a type of W. Where its wave may issue it, exec answers a next state in
which, in each lane of ACTIVE, every one of the w bits of the destination is that function of the same bit of the
sources, also where the destination is a source, and for the s and z forms alike; no other word of the wave changes,
and FLAGS stays. (R136) -/
def Obligations.BitwiseComputedBitByBit : Prop := Sys2Proof.Machine.BitwiseByBits

/-- For every row, column and seed the generator's word is the one that the spec's seven lines compute in 32-bit
arithmetic. (R278) -/
def Obligations.GeneratorFollowsItsRule : Prop := Sys2Proof.Machine.GeneratorByRule

/-- For each integer and address instruction, in every state in which its wave may issue it (its registers in range,
in no queue, not pending, good): exec answers a next state; its path is one slot further; the words that the table of
Safety/Results.lean gives from the rules are written in the lanes of ACTIVE, and FLAGS holds what it gives; every
other word of the wave is as before; and, outside a recovery scope, memory, every other wave, block, table and
register is as before, energy apart. (R32, R119, R120, R121, R127, R129, R130, R131, R132, R133, R134, R135) -/
def Obligations.IntegerInstructionsDeliver : Prop := Sys2Proof.Machine.Delivers Sys2Proof.Machine.integerResult

/-- For each logic, shift and bit-field instruction, in every state in which its wave may issue it (its registers in
range, in no queue, not pending, good): exec answers a next state; its path is one slot further; the words that the
table of Safety/Results.lean gives from the rules are written in the lanes of ACTIVE, and FLAGS holds what it gives;
every other word of the wave is as before; and, outside a recovery scope, memory, every other wave, block, table and
register is as before, energy apart. (R32, R121, R136, R137, R138, R139, R140, R141) -/
def Obligations.LogicInstructionsDeliver : Prop := Sys2Proof.Machine.Delivers Sys2Proof.Machine.logicResult

/-- For each compare, select and vote instruction, in every state in which its wave may issue it (its registers in
range, in no queue, not pending, good): exec answers a next state; its path is one slot further; the words that the
table of Safety/Results.lean gives from the rules are written in the lanes of ACTIVE, and FLAGS holds what it gives;
every other word of the wave is as before; and, outside a recovery scope, memory, every other wave, block, table and
register is as before, energy apart. (R36, R121, R142, R143, R144, R145) -/
def Obligations.CompareInstructionsDeliver : Prop := Sys2Proof.Machine.Delivers Sys2Proof.Machine.compareResult

/-- For each float instruction, in every state in which its wave may issue it (its registers in range, in no queue,
not pending, good): exec answers a next state; its path is one slot further; the words that the table of
Safety/Results.lean gives from the rules are written in the lanes of ACTIVE, and FLAGS holds what it gives; every
other word of the wave is as before; and, outside a recovery scope, memory, every other wave, block, table and
register is as before, energy apart. (R36, R46, R50, R148, R150, R151, R152, R153, R154, R155, R156, R157) -/
def Obligations.FloatInstructionsDeliver : Prop := Sys2Proof.Machine.Delivers Sys2Proof.Machine.floatResult

/-- For each convert and pack instruction, in every state in which its wave may issue it (its registers in range, in
no queue, not pending, good): exec answers a next state; its path is one slot further; the words that the table of
Safety/Results.lean gives from the rules are written in the lanes of ACTIVE, and FLAGS holds what it gives; every
other word of the wave is as before; and, outside a recovery scope, memory, every other wave, block, table and
register is as before, energy apart. (R38, R46, R48, R50, R158, R159, R160, R161, R162, R163, R164) -/
def Obligations.ConvertInstructionsDeliver : Prop := Sys2Proof.Machine.Delivers Sys2Proof.Machine.convertResult

/-- For each cross-lane instruction, in every state in which its wave may issue it (its registers in range, in no
queue, not pending, good): exec answers a next state; its path is one slot further; the words that the table of
Safety/Results.lean gives from the rules are written in the lanes of ACTIVE, and FLAGS holds what it gives; every
other word of the wave is as before; and, outside a recovery scope, memory, every other wave, block, table and
register is as before, energy apart. (R121, R165, R166, R167, R168, R169) -/
def Obligations.CrossLaneInstructionsDeliver : Prop := Sys2Proof.Machine.Delivers Sys2Proof.Machine.crossResult

/-- For every special register that the spec lists, at its width, SRD answers a next state in which the register's
value as it stood is in the destination in every lane of ACTIVE; all else is as before. (R112, R113, R114, R115, R116,
R117, R179) -/
def Obligations.SpecialRegistersRead : Prop := Sys2Proof.Machine.Delivers Sys2Proof.Machine.systemResult

/-- Where every access of the instruction translates, is permitted, aligned and good, exec answers a next state: the
path has passed it, its destination words are pending, one result is on its way to them, no register word has changed,
and outside the places that an immediate writes every byte of memory reads as before, but for the access and dirty
bits of table entries. (R77, R91, R216, R231, R235, R237, R240, R241, R242, R243, R343) -/
def Obligations.ReadsStartAndPass : Prop := Sys2Proof.Machine.ReadsComplete

/-- Where every access of the instruction translates, is permitted, aligned and good, exec answers a next state: the
path has passed it, no register word has changed, and every byte of memory outside the places that the instruction's
accesses reach reads as before, but for the access and dirty bits of table entries. (R231, R236, R238, R239, R241,
R343) -/
def Obligations.WritesPass : Prop := Sys2Proof.Machine.WritesComplete

/-- The result that a load sends on its way holds in each lane the value of its bytes: the core's own bytes where the
line is held, the bytes at home else, converted from the region's format by the instruction's type. (R208, R216, R230,
R231, R235) -/
def Obligations.LoadsDeliverTheirBytes : Prop := Sys2Proof.Machine.LoadsValue

/-- After a store, each byte of each access holds the byte of the operand, converted to the region's format: in the
block's buffer, or, in global memory, as a dirty byte of the core's line; of several lanes at one place the highest
wins. (R197, R198, R231, R236, R239) -/
def Obligations.StoresLeaveTheirBytes : Prop := Sys2Proof.Machine.StoresValue

/-- An immediate access reads the word at its home, writes what its operation makes of it and of its operands lane by
lane, and returns what the rules give; LR takes a reservation, and SC succeeds only where it still stands. (R193,
R218, R240, R241, R242, R243) -/
def Obligations.ImmediatesActAtHome : Prop := Sys2Proof.Machine.ImmediatesAct

/-- Where its conditions hold, each answers a next state in which every active lane is at its target and every other
lane of the path at the next counter; a call leaves the link in its pair; nothing else changes. (R63, R66, R70, R81,
R171, R172, R173, R174, R175) -/
def Obligations.ControlTransfersGo : Prop := Sys2Proof.Machine.FlowsGo

/-- YIELD and NAP complete: the wave gives way to the oldest ready pending wave, NAP also naps, and nothing else
changes. EXIT ends its lanes; the wave stays while a lane lives and is gone with its last one; no byte of memory
changes. (R27, R93, R176, R177, R178) -/
def Obligations.WavesYieldNapAndExit : Prop := Sys2Proof.Machine.YieldsGo ∧ Sys2Proof.Machine.ExitsGo

/-- SWR writes the special register that it names, in its own shape; FRAME writes a slot of the block's frame; each
completes in every state in which its wave may issue it with values that its rule admits, and leaves all else as
before. (R50, R109, R112, R113, R114, R115, R116, R179, R180) -/
def Obligations.SpecialRegistersAndFramesWritten : Prop := Sys2Proof.Machine.SwrGoes ∧ Sys2Proof.Machine.FrameGoes

/-- TRAP and BKPT with an active lane take SOFTWARE and BREAKPOINT with the code as TADDR, ACTIVE as TMASK and the
next counter in TEPC, and pass where no lane is active; ILL takes ILLEGAL_INSTRUCTION in every lane of the path. A
scope whose mask selects the cause fails in the trap's place; else the wave enters its handler one level up with its
bank written; at level 2 the context is killed. (R82, R181, R340, R367, R368, R382) -/
def Obligations.TrapsAreTaken : Prop := Sys2Proof.Machine.TrapsGo ∧ Sys2Proof.Machine.IllGoes

/-- At level 1 or 2, with every live lane active and every saved counter a counter, RETT puts each live lane at its
saved counter and the wave one level down, and changes nothing else; at level 0 it takes ILLEGAL_INSTRUCTION. (R366,
R369) -/
def Obligations.TrapReturnRestores : Prop := Sys2Proof.Machine.RettGoes

/-- The four forms of TLBINV drop the translations, table entries and format descriptors that they name from every
unit and no others, with status 0 on its way; LEASE takes a lease where it is admissible, LEASE.rel ends it, and both
return their status. (R338, R339, R347, R349, R350, R351, R370) -/
def Obligations.TranslationsDroppedAndLeases : Prop := Sys2Proof.Machine.TlbinvGoes ∧ Sys2Proof.Machine.LeasesGo

/-- A publish captures every dirty byte of the core that no scope holds; an adopt leaves only dirty or held bytes;
FENCE passes; a prefetch changes no value; FLUSH sends its line home; SWAYS joins its core's changes of the scratch
ways in progress. Each completes, and leaves registers, FLAGS and other waves as before. (R67, R196, R210, R211, R213,
R217, R245, R246, R247, R248, R249) -/
def Obligations.OrderingInstructionsBegin : Prop := Sys2Proof.Machine.Begins Sys2Proof.Machine.orderStart

/-- Where its runs are alike in every active lane and its descriptor is good, each copy mover completes: a slice of
the copy is in the copy queue with addresses, strides, formats and counter as its runs say, its token's words are
pending, a multicast has taken a slot of each receiver, and nothing else changes. (R250, R252, R255, R256, R257, R258,
R259, R260, R261, R262, R263, R264) -/
def Obligations.CopyMoversStart : Prop := Sys2Proof.Machine.CopiesStart

/-- CPYQ.tok and CPYQ.slots deliver pending bits and free slots; CPYQ.free sends its message, which gives back one
slot of the member that it names, at most four; CPYC and CPYC.all cancel the copies that they name and no others.
(R262, R265, R266, R295) -/
def Obligations.CopiesQueriedFreedCancelled : Prop :=
  Sys2Proof.Machine.Begins Sys2Proof.Machine.copyQuery ∧ Sys2Proof.Machine.SlotsReturn ∧ Sys2Proof.Machine.SlotsArrive ∧ Sys2Proof.Machine.CancelsGo

/-- A command whose handle and range are good is taken with its pages in order, its token pending; one that cannot
start ends at once with its class; SDSTAT delivers the state of its slot and the number of parked pages. (R253, R282,
R283, R284, R285, R286, R363) -/
def Obligations.SheepdogCommandsStart : Prop :=
  Sys2Proof.Machine.SheepdogStarts ∧ Sys2Proof.Machine.Begins Sys2Proof.Machine.statStart

/-- SHADOW binds a range; SHADOW.drop ends the binding; PUBLISH and PUBLISH.keep send its swap on its way; each
completes with its token pending or delivered as its rule says. (R204, R251, R252, R267, R268, R269) -/
def Obligations.ShadowsStart : Prop := Sys2Proof.Machine.Begins Sys2Proof.Machine.shadowStart

/-- Where its operands are good, each tile operation completes: it stands last in its tile's queue with the formats,
modes, configuration version and trap level that stand at its issue, and its destination words are pending. (R111,
R232, R252, R272, R274, R275, R276, R277, R279, R281) -/
def Obligations.TileOperationsStart : Prop := Sys2Proof.Machine.Begins Sys2Proof.Machine.tileStart

/-- TCFG makes its four words the current tile configuration version, while operations in flight keep theirs; QCFG
configures a queue slot with empty FIFOs; QCFG.rel leaves its registers zero in every lane and its FIFOs empty. (R98,
R111, R273, R289) -/
def Obligations.ConfigurationsTake : Prop :=
  Sys2Proof.Machine.TcfgGoes ∧ Sys2Proof.Machine.QcfgGoes ∧ Sys2Proof.Machine.QcfgRelGoes

/-- Where the head entries are good, each lane of ACTIVE with an entry gets its head entry, its FIFO one shorter; the
predicate says which lanes had one; lanes outside ACTIVE keep theirs. (R291, R292) -/
def Obligations.QueuePopsTakeTheHead : Prop := Sys2Proof.Machine.PopsGo

/-- A send puts one arrival on its way with the values and target lanes that its operands give, of several lanes with
one target the highest, its token pending; EXPECT sets its words pending and expecting. (R103, R182, R183, R290, R293)
-/
def Obligations.SendsStart : Prop := Sys2Proof.Machine.Begins Sys2Proof.Machine.sendStart

/-- GRANT makes an entry with the wave's registers or queue, lanes, policy and scope, and returns its handle, or zero
where the quota is used up; REVOKE raises the generation of the entry that it names if the wave owns it, REVOKE.all of
every entry that the wave owns; a capability of another device goes there as a revocation, and one of this device that
another device names is revoked here. (R353, R354, R355, R356, R357) -/
def Obligations.CapabilitiesGrantedRevoked : Prop :=
  Sys2Proof.Machine.GrantsGo ∧ Sys2Proof.Machine.RevokesGo ∧ Sys2Proof.Machine.RevokesAll ∧ Sys2Proof.Machine.RevokedFromOutside

/-- SPAWN leaves one block more, offered, with its entry and its parent's counter as its run gives them, and its
launch one more to retire; LAUNCH writes its 256 bytes at the tail of a device-fed queue, moves the tail, and its
token is complete. (R21, R298, R301, R302) -/
def Obligations.BlocksSpawnedAndLaunched : Prop := Sys2Proof.Machine.SpawnGoes ∧ Sys2Proof.Machine.LaunchGoes

/-- HEAPPUT inserts its key and value, open and close move the open count, each with its status; HEAPGET waits at its
instance with its token pending, or ends with CLASS 4 where the context has no instance. (R308, R309, R310) -/
def Obligations.HeapRequestsGo : Prop :=
  Sys2Proof.Machine.HeapsGo ∧ Sys2Proof.Machine.Begins Sys2Proof.Machine.heapgetStart

/-- ENSURE arrives at the opening of a frame with its alternate, mask and limit; ELSEBY passes to the next alternate
or goes on; ELSEERR ends the scope and takes its exception with RCAUSE, and its go form transfers. (R374, R375, R384,
R385, R391) -/
def Obligations.ScopesOpenAndChain : Prop :=
  Sys2Proof.Machine.EnsureGoes ∧ Sys2Proof.Machine.ElsebyGoes ∧ Sys2Proof.Machine.ElseerrGoes

/-- ACCEPT arrives at the end of its frame; REJECT and ABANDON fail it with their code; SITJOIN joins or opens a
sitting and SITLEAVE leaves it, each with its status. (R386, R389, R392, R394) -/
def Obligations.ScopesEndAndSittingsJoin : Prop := Sys2Proof.Machine.ScopeEndsGo ∧ Sys2Proof.Machine.SittingsGo

/-- Each reads its record at the home, writes what its rule makes of it, and sends VALUE or flags on its way; a
decrement to 0 of an armed counter clears ARMED, sets FIRED, and appends its continuation. (R396, R398, R400, R401,
R402, R403) -/
def Obligations.CountersCountAndFire : Prop := Sys2Proof.Machine.CountersGo ∧ Sys2Proof.Machine.CountersFire

/-- CWAIT passes where its condition has held since the wait began, else the path stays and its wait is recorded;
WINRD delivers the counter of a window that its context may read. (R404, R409) -/
def Obligations.WaitsEndWhenMet : Prop :=
  Sys2Proof.Machine.WaitsGo ∧ Sys2Proof.Machine.Begins Sys2Proof.Machine.winStart

/-- BAR arrives at its generation and waits for it; BARA arrives and returns the generation's ticket; BARW passes
where the generation of its ticket has completed, and waits where not; no register word but BARA's changes. (R405,
R406) -/
def Obligations.BarriersArriveAndWait : Prop :=
  Sys2Proof.Machine.BarsGo ∧ Sys2Proof.Machine.BarasGo ∧ Sys2Proof.Machine.BarwsGo

/-- Each of these steps, where its conditions hold, answers a next state: an owed fault enters the handler with DEF
and its own bank; a result lands in live lanes alone and frees its words; a sweep begins; a waiting wave changes
places; a nap ends; SWAYS completes or times out. What is not named stays as before. (R26, R27, R75, R77, R78, R105,
R178, R249, R328, R459) -/
def Obligations.WaveStepsHappen : Prop := Sys2Proof.Machine.Happens Sys2Proof.Machine.waveEvent

/-- A captured line merges its bytes at its home in order and poisons the words that it lost, or is dropped where its
page no longer lets it; a bridge's fence counter falls to 0 when the last packet of a publish has crossed it. (R207,
R211, R222, R223, R343, R410) -/
def Obligations.PublishesReachHome : Prop := Sys2Proof.Machine.Happens Sys2Proof.Machine.publishEvent

/-- A remote arrival ends as CAPABILITY, GONE, FULL, OVERWRITE, REPLACED or DELIVERED, as the checks in their order
say; only the last two land words; its outcome then reaches the sender's token; a yokemate's push lands in FIFO 0.
(R102, R103, R104, R105, R106, R183, R290, R293) -/
def Obligations.ArrivalsMeetTheirChecks : Prop := Sys2Proof.Machine.Happens Sys2Proof.Machine.arrivalEvent

/-- A copy starts when a mover is free; a packet reads its source, converts, and writes its destination; a copy that
ends decrements its counters and completes its tokens with END, CLASS and DONE; a put to a window merges and is
acknowledged; a published shadow swaps its frames. (R251, R252, R257, R259, R260, R261, R264, R266, R268, R269) -/
def Obligations.CopiesProceed : Prop := Sys2Proof.Machine.Happens Sys2Proof.Machine.copyEvent

/-- A step of MMT adds its products to the accumulators; a drained row is converted, scaled, dropped out and stored;
an operation that ends completes its token and lets the next one of its tile go. (R57, R58, R111, R272, R274, R276,
R278, R279, R280, R281) -/
def Obligations.TileEnginesProceed : Prop := Sys2Proof.Machine.Happens Sys2Proof.Machine.tileEvent

/-- A parked page's entries name its slot and its frame is free; a recalled page is back whole; a dropped one is gone;
a completion of the drive moves its command on; a heap request gets an entry among the 64 smallest or the end-of-work
token. (R201, R205, R282, R283, R284, R285, R310, R311, R313) -/
def Obligations.SheepdogProceeds : Prop := Sys2Proof.Machine.Happens Sys2Proof.Machine.sheepdogEvent

/-- A barrier completes when every live wave has arrived and lets its waiters go; an opening makes a frame; an
accepted one commits it; a rollback restores the records of the failing depth and puts the waves at their dispatch; an
expired limit fails its frame. (R375, R376, R377, R378, R381, R386, R390, R391, R405, R461) -/
def Obligations.ScopesProceed : Prop := Sys2Proof.Machine.Happens Sys2Proof.Machine.scopeEvent

/-- An admitted slot leaves one launch with every block of its grid, or a refusal in its completion queue; a placed
block has its waves fresh on its core; starts are staggered; ages rise; relief places the starving; an idle cluster
moves to the pool that lacks one. (R13, R14, R16, R28, R297, R298, R317, R320, R321, R323, R324, R325) -/
def Obligations.SchedulerPlacesBlocks : Prop := Sys2Proof.Machine.Happens Sys2Proof.Machine.placeEvent

/-- Pre-emption saves a victim in its context's save pool and frees its place; restore and migration bring the same
waves to another core; a drained block retires, and with the last one its launch writes its completion entry; a held
continuation is appended once its queue has room. (R24, R298, R305, R330, R331, R332, R333, R334, R335, R336, R337,
R358) -/
def Obligations.BlocksMoveAndRetire : Prop := Sys2Proof.Machine.Happens Sys2Proof.Machine.moveEvent

/-- A held entry is written when its position is writable; a signal is given after 10 microseconds; a reading moves a
vault's band with its hysteresis; a charging interval charges blocks by their units; a lease ends; the throttle moves
each core's ration by at most one; a trip kills every running context. (R189, R190, R191, R192, R306, R338, R339,
R415, R423) -/
def Obligations.VaultsAndPowerHold : Prop := Sys2Proof.Machine.Happens Sys2Proof.Machine.powerEvent

/-- A host access acts at the home under translation or is dropped with all ones; LQ_TAIL, LQ_CTL, CQ_HEAD, CQ_CTL,
EHEAD, PKGLIM, class 7, accounting counters and NQP take a write as their rules say and change nothing else; an event
is written to its ring, or dropped with OVF, and signalled. (R206, R296, R297, R306, R313, R361, R412, R416, R420,
R422, R423) -/
def Obligations.HostRegistersWork : Prop :=
  Sys2Proof.Machine.Happens Sys2Proof.Machine.hostEvent ∧ Sys2Proof.Machine.EventsTold

/-- While a command is in progress another is ignored; else each of the twelve commands, with good arguments, has its
effect and STATUS 0 (a migration stays in progress), and with bad ones STATUS 1 and nothing beside the command block
changes. (R308, R337, R340, R352, R363, R364, R419, R421, R427, R428, R430) -/
def Obligations.SupervisorCommandsRun : Prop := Sys2Proof.Machine.CommandsRun

/-- A write to a function's window, or from function 0 to the supervisor window, changes the register or table field
that its offset names as its rule says, of a 64-bit one only the bytes written, starts the command that OP names, and
changes nothing at a read-only or reserved offset; without firmware only staging takes writes. The naming of offsets
is the model's (log 14). (R296, R352, R361, R362, R412, R415, R418, R419, R420, R423, R425, R428) -/
def Obligations.RegisterWindowsWritten : Prop := Sys2Proof.Machine.RegistersAct

/-- A device reset leaves every table as after reset and boots the firmware anew; a function's reset kills and resets
its context; an update that passes its checks goes into the slot that did not boot; flits, acknowledgements, replays,
audits, wavelength groups and port failures change their port as their rules say. That memory stays over a device
reset is the model's choice (log 44). (R205, R314, R315, R412, R421, R422, R424, R425, R426, R428, R429) -/
def Obligations.ResetsAndPortsAct : Prop :=
  Sys2Proof.Machine.Happens Sys2Proof.Machine.resetEvent ∧ Sys2Proof.Machine.Happens Sys2Proof.Machine.portEvent
end

