-- ==== Sys2Proof/Laws/Tab.lean ====
section
/-! SUPPORT. What the operations of a table do: reads after writes, and the rising order of keys. -/

namespace Sys2Proof.Machine

theorem Tab.find_nil {α : Type} (k : Nat) : Tab.find ([] : Tab α) k = none := rfl

theorem Tab.find_del_self {α : Type} (m : Tab α) (k : Nat) : Tab.find (Tab.del m k) k = none := by
  induction m with
  | nil => rfl
  | cons p m ih =>
    obtain ⟨j, v⟩ := p
    simp only [Tab.del]
    split
    · exact ih
    · simp [Tab.find, *]

theorem Tab.find_del_other {α : Type} (m : Tab α) {k j : Nat} (h : j ≠ k) :
    Tab.find (Tab.del m k) j = Tab.find m j := by
  induction m with
  | nil => rfl
  | cons p m ih =>
    obtain ⟨i, v⟩ := p
    simp only [Tab.del, Tab.find]
    split
    · rename_i hi
      have : i ≠ j := by omega
      simp [this, ih]
    · simp only [Tab.find, ih]

theorem Tab.find_ins_self {α : Type} (m : Tab α) (k : Nat) (v : α) (h : Tab.find m k = none) :
    Tab.find (Tab.ins m k v) k = some v := by
  induction m with
  | nil => simp [Tab.ins, Tab.find]
  | cons p m ih =>
    obtain ⟨j, w⟩ := p
    simp only [Tab.find] at h
    by_cases hj : j = k
    · simp [hj] at h
    · simp only [hj, if_false] at h
      simp only [Tab.ins]
      split
      · simp [Tab.find]
      · simp [Tab.find, hj, ih h]

theorem Tab.find_ins_other {α : Type} (m : Tab α) (k : Nat) (v : α) {j : Nat} (h : j ≠ k) :
    Tab.find (Tab.ins m k v) j = Tab.find m j := by
  have h' : k ≠ j := fun e => h e.symm
  induction m with
  | nil => simp [Tab.ins, Tab.find, h']
  | cons p m ih =>
    obtain ⟨i, w⟩ := p
    simp only [Tab.ins]
    split
    · simp [Tab.find, h']
    · simp only [Tab.find, ih]

/-- A table reads at a key what was put there. -/
@[simp] theorem Tab.find_put_self {α : Type} (m : Tab α) (k : Nat) (v : α) : Tab.find (Tab.put m k v) k = some v :=
  Tab.find_ins_self _ k v (Tab.find_del_self m k)

/-- A put leaves every other key as it was. -/
theorem Tab.find_put_other {α : Type} (m : Tab α) (k : Nat) (v : α) {j : Nat} (h : j ≠ k) :
    Tab.find (Tab.put m k v) j = Tab.find m j := by
  rw [Tab.put, Tab.find_ins_other _ k v h, Tab.find_del_other m h]

theorem Tab.find_put {α : Type} (m : Tab α) (k : Nat) (v : α) (j : Nat) :
    Tab.find (Tab.put m k v) j = if j = k then some v else Tab.find m j := by
  by_cases h : j = k
  · simp [h]
  · simp [h, Tab.find_put_other m k v h]

@[simp] theorem Tab.get_put_self {α : Type} (d : α) (m : Tab α) (k : Nat) (v : α) : Tab.get d (Tab.put m k v) k = v := by
  simp [Tab.get]

theorem Tab.get_put_other {α : Type} (d : α) (m : Tab α) (k : Nat) (v : α) {j : Nat} (h : j ≠ k) :
    Tab.get d (Tab.put m k v) j = Tab.get d m j := by
  simp [Tab.get, Tab.find_put_other m k v h]

theorem Tab.get_put {α : Type} (d : α) (m : Tab α) (k : Nat) (v : α) (j : Nat) :
    Tab.get d (Tab.put m k v) j = if j = k then v else Tab.get d m j := by
  by_cases h : j = k
  · simp [h]
  · simp [h, Tab.get_put_other d m k v h]

theorem Tab.get_del_self {α : Type} (d : α) (m : Tab α) (k : Nat) : Tab.get d (Tab.del m k) k = d := by
  simp [Tab.get, Tab.find_del_self]

theorem Tab.get_del_other {α : Type} (d : α) (m : Tab α) {k j : Nat} (h : j ≠ k) :
    Tab.get d (Tab.del m k) j = Tab.get d m j := by
  simp [Tab.get, Tab.find_del_other m h]

/-- A table with a default reads at a key what was set there. -/
@[simp] theorem Tab.get_set_self {α : Type} [DecidableEq α] (d : α) (m : Tab α) (k : Nat) (v : α) :
    Tab.get d (Tab.set d m k v) k = v := by
  unfold Tab.set
  split
  · rw [Tab.get_del_self]; symm; assumption
  · simp

/-- A set leaves every other key as it was. -/
theorem Tab.get_set_other {α : Type} [DecidableEq α] (d : α) (m : Tab α) (k : Nat) (v : α) {j : Nat} (h : j ≠ k) :
    Tab.get d (Tab.set d m k v) j = Tab.get d m j := by
  unfold Tab.set
  split
  · exact Tab.get_del_other d m h
  · exact Tab.get_put_other d m k v h

theorem Tab.get_set {α : Type} [DecidableEq α] (d : α) (m : Tab α) (k : Nat) (v : α) (j : Nat) :
    Tab.get d (Tab.set d m k v) j = if j = k then v else Tab.get d m j := by
  by_cases h : j = k
  · simp [h]
  · simp [h, Tab.get_set_other d m k v h]

theorem Tab.find_upd {α : Type} (m : Tab α) (k : Nat) (f : α → α) (j : Nat) :
    Tab.find (Tab.upd m k f) j = if j = k then (Tab.find m k).map f else Tab.find m j := by
  unfold Tab.upd
  split
  · rename_i v h
    rw [Tab.find_put]
    split <;> simp [*]
  · rename_i h
    split
    · rename_i hj; simp [hj, h]
    · rfl

theorem Tab.get_upd_other {α : Type} (d : α) (m : Tab α) (k : Nat) (f : α → α) {j : Nat} (h : j ≠ k) :
    Tab.get d (Tab.upd m k f) j = Tab.get d m j := by
  simp [Tab.get, Tab.find_upd, h]

theorem Tab.get_upd_self {α : Type} (d : α) (m : Tab α) (k : Nat) (f : α → α) {v : α} (h : Tab.find m k = some v) :
    Tab.get d (Tab.upd m k f) k = f v := by
  simp [Tab.get, Tab.find_upd, h]

/-- An update that keeps the default keeps reading through `f`. -/
theorem Tab.get_upd {α : Type} (d : α) (m : Tab α) (k : Nat) (f : α → α) (j : Nat) (hd : f d = d) :
    Tab.get d (Tab.upd m k f) j = if j = k then f (Tab.get d m j) else Tab.get d m j := by
  by_cases h : j = k
  · subst h
    simp only [if_true, Tab.get, Tab.find_upd]
    cases Tab.find m j <;> simp [hd]
  · simp [h, Tab.get_upd_other d m k f h]

/-! ### The rising order of keys -/

/-- Every key is above `n`. -/
def Tab.above {α : Type} (n : Nat) (m : Tab α) : Prop := ∀ p ∈ m, n < p.1

theorem Tab.sorted_cons {α : Type} (j : Nat) (v : α) (m : Tab α) :
    Tab.sorted ((j, v) :: m) = true ↔ Tab.above j m ∧ Tab.sorted m = true := by
  induction m generalizing j v with
  | nil => simp [Tab.sorted, Tab.above]
  | cons p m ih =>
    obtain ⟨k, w⟩ := p
    simp only [Tab.sorted, Bool.and_eq_true, decide_eq_true_eq]
    constructor
    · rintro ⟨h, hs⟩
      refine ⟨?_, hs⟩
      intro q hq
      cases hq with
      | head => exact h
      | tail _ hq => exact Nat.lt_trans h (((ih k w).1 hs).1 q hq)
    · rintro ⟨ha, hs⟩
      exact ⟨ha (k, w) (List.mem_cons_self ..), hs⟩

theorem Tab.del_subset {α : Type} (m : Tab α) (k : Nat) : ∀ p ∈ Tab.del m k, p ∈ m := by
  induction m with
  | nil => intro p h; exact h
  | cons q m ih =>
    obtain ⟨j, v⟩ := q
    intro p hp
    simp only [Tab.del] at hp
    split at hp
    · exact List.mem_cons_of_mem _ (ih p hp)
    · cases hp with
      | head => exact List.mem_cons_self ..
      | tail _ hp => exact List.mem_cons_of_mem _ (ih p hp)

theorem Tab.del_sorted {α : Type} (m : Tab α) (k : Nat) (h : Tab.sorted m = true) : Tab.sorted (Tab.del m k) = true := by
  induction m with
  | nil => rfl
  | cons q m ih =>
    obtain ⟨j, v⟩ := q
    obtain ⟨ha, hs⟩ := (Tab.sorted_cons j v m).1 h
    simp only [Tab.del]
    split
    · exact ih hs
    · exact (Tab.sorted_cons j v _).2 ⟨fun p hp => ha p (Tab.del_subset m k p hp), ih hs⟩

theorem Tab.mem_ins {α : Type} (m : Tab α) (k : Nat) (v : α) : ∀ p ∈ Tab.ins m k v, p = (k, v) ∨ p ∈ m := by
  induction m with
  | nil => intro p hp; simp [Tab.ins] at hp; exact .inl hp
  | cons q m ih =>
    obtain ⟨j, w⟩ := q
    intro p hp
    simp only [Tab.ins] at hp
    split at hp
    · cases hp with
      | head => exact .inl rfl
      | tail _ hp => exact .inr hp
    · cases hp with
      | head => exact .inr (List.mem_cons_self ..)
      | tail _ hp => exact (ih p hp).imp id (List.mem_cons_of_mem _)

theorem Tab.ins_sorted {α : Type} (m : Tab α) (k : Nat) (v : α) (h : Tab.sorted m = true) (hk : Tab.find m k = none) :
    Tab.sorted (Tab.ins m k v) = true := by
  induction m with
  | nil => rfl
  | cons q m ih =>
    obtain ⟨j, w⟩ := q
    obtain ⟨ha, hs⟩ := (Tab.sorted_cons j w m).1 h
    simp only [Tab.find] at hk
    by_cases hj : j = k
    · simp [hj] at hk
    · simp only [hj, if_false] at hk
      simp only [Tab.ins]
      split
      · rename_i hlt
        refine (Tab.sorted_cons k v _).2 ⟨?_, h⟩
        intro p hp
        cases hp with
        | head => exact hlt
        | tail _ hp => exact Nat.lt_trans hlt (ha p hp)
      · rename_i hlt
        refine (Tab.sorted_cons j w _).2 ⟨?_, ih hs hk⟩
        intro p hp
        rcases Tab.mem_ins m k v p hp with rfl | hp
        · show j < k; omega
        · exact ha p hp

theorem Tab.put_sorted {α : Type} (m : Tab α) (k : Nat) (v : α) (h : Tab.sorted m = true) :
    Tab.sorted (Tab.put m k v) = true :=
  Tab.ins_sorted _ k v (Tab.del_sorted m k h) (Tab.find_del_self m k)

theorem Tab.wf_iff {α : Type} [DecidableEq α] (d : α) (m : Tab α) :
    Tab.wf d m = true ↔ Tab.sorted m = true ∧ ∀ p ∈ m, p.2 ≠ d := by
  simp [Tab.wf, List.all_eq_true]

/-- Setting a key keeps the canonical form. -/
theorem Tab.set_wf {α : Type} [DecidableEq α] (d : α) (m : Tab α) (k : Nat) (v : α) (h : Tab.wf d m = true) :
    Tab.wf d (Tab.set d m k v) = true := by
  obtain ⟨hs, hd⟩ := (Tab.wf_iff d m).1 h
  refine (Tab.wf_iff d _).2 ?_
  unfold Tab.set
  split
  · exact ⟨Tab.del_sorted m k hs, fun p hp => hd p (Tab.del_subset m k p hp)⟩
  · rename_i hv
    refine ⟨Tab.put_sorted m k v hs, fun p hp => ?_⟩
    rcases Tab.mem_ins _ k v p hp with rfl | hp
    · exact hv
    · exact hd p (Tab.del_subset m k p hp)

end Sys2Proof.Machine
end

