-- ==== Sys2Proof/Laws/Memory.lean ====
section
/-! SUPPORT. Memory: every operation keeps the canonical form, and what a byte reads as after a write. -/

namespace Sys2Proof.Machine

theorem Memory.wf_iff (m : Memory) :
    m.wf = true ↔ Tab.wf emptyByte m.dram = true ∧ Tab.wf emptyByte m.host = true := by simp [Memory.wf]

theorem Memory.wf_reset : Memory.reset.wf = true := rfl

/-- Only the two byte tables matter to the form. -/
theorem Memory.wf_of_bytes {m n : Memory} (hd : n.dram = m.dram) (hh : n.host = m.host) (h : m.wf = true) :
    n.wf = true := by rw [Memory.wf, hd, hh]; exact h

theorem Memory.setByte_wf (m : Memory) (p : Nat) (v : Byte) (h : m.wf = true) : (m.setByte p v).wf = true := by
  obtain ⟨h1, h2⟩ := (Memory.wf_iff m).1 h
  refine (Memory.wf_iff _).2 ?_
  unfold Memory.setByte
  split
  · exact ⟨Tab.set_wf _ _ _ _ h1, h2⟩
  · exact ⟨h1, Tab.set_wf _ _ _ _ h2⟩

theorem Memory.setBytes_wf (bs : List (Nat × Byte)) (m : Memory) (h : m.wf = true) : (m.setBytes bs).wf = true := by
  induction bs generalizing m with
  | nil => exact h
  | cons b bs ih => exact ih _ (Memory.setByte_wf m b.1 b.2 h)

/-- A write keeps the canonical form. -/
theorem Memory.write_wf (m : Memory) (bs : List (Nat × Byte)) (h : m.wf = true) : (m.write bs).wf = true :=
  Memory.wf_of_bytes (m := m.setBytes bs) rfl rfl (Memory.setBytes_wf bs m h)

theorem Memory.orEntry_wf (m : Memory) (pa : Nat) (bits : DWord) (h : m.wf = true) : (m.orEntry pa bits).wf = true := by
  simp only [Memory.orEntry]
  split
  · exact h
  · exact Memory.write_wf _ _ h

/-- Marking the entries of a translation keeps the form. -/
theorem Memory.marks_wf (l : List (Nat × DWord)) (m : Memory) (h : m.wf = true) :
    (l.foldl (fun m p => m.orEntry p.1 p.2) m).wf = true := by
  induction l generalizing m with
  | nil => exact h
  | cons p l ih => exact ih _ (Memory.orEntry_wf m p.1 p.2 h)

theorem State.marked_wf (s : State) (core ctx : Nat) (x : Xlat) (h : s.mem.wf = true) : (s.marked core ctx x).mem.wf = true := by
  unfold State.marked
  split
  · exact Memory.marks_wf _ _ h
  · exact h

theorem Memory.putEntry_wf (m : Memory) (pa v : Nat) (h : m.wf = true) : (m.putEntry pa v).wf = true :=
  Memory.write_wf _ _ h

theorem Memory.withTables_wf (m : Memory) (h : m.wf = true) : m.withTables.wf = true :=
  Memory.putEntry_wf _ _ _ (Memory.putEntry_wf _ _ _ h)

/-! ### Reads after writes -/

@[simp] theorem Memory.byte_setByte_self (m : Memory) (p : Nat) (v : Byte) : (m.setByte p v).byte p = v := by
  unfold Memory.setByte Memory.byte
  split <;> simp [*]

theorem Memory.byte_setByte_other (m : Memory) (p : Nat) (v : Byte) {q : Nat} (h : q ≠ p) :
    (m.setByte p v).byte q = m.byte q := by
  unfold Memory.setByte Memory.byte
  split
  · split
    · exact Tab.get_set_other _ _ _ _ h
    · rfl
  · split
    · rfl
    · exact Tab.get_set_other _ _ _ _ h

/-- Bytes that a list of writes does not name stay. -/
theorem Memory.byte_setBytes_other (bs : List (Nat × Byte)) (m : Memory) {q : Nat} (h : ∀ b ∈ bs, b.1 ≠ q) :
    (m.setBytes bs).byte q = m.byte q := by
  induction bs generalizing m with
  | nil => rfl
  | cons b bs ih =>
    rw [Memory.setBytes, ih _ (fun c hc => h c (List.mem_cons_of_mem _ hc))]
    exact Memory.byte_setByte_other m b.1 b.2 (fun e => h b (List.mem_cons_self ..) e.symm)

theorem Memory.byte_write_other (m : Memory) (bs : List (Nat × Byte)) {q : Nat} (h : ∀ b ∈ bs, b.1 ≠ q) :
    (m.write bs).byte q = m.byte q := Memory.byte_setBytes_other bs m h

/-- A byte named once by a list of writes reads as its value. -/
theorem Memory.byte_write_mem (m : Memory) (bs : List (Nat × Byte)) {b : Nat × Byte} (hb : b ∈ bs)
    (hn : (bs.map Prod.fst).Nodup) : (m.write bs).byte b.1 = b.2 := by
  show (m.setBytes bs).byte b.1 = b.2
  induction bs generalizing m with
  | nil => cases hb
  | cons c bs ih =>
    simp only [List.map_cons, List.nodup_cons] at hn
    rw [Memory.setBytes]
    cases hb with
    | head =>
      rw [Memory.byte_setBytes_other bs _ (fun d hd e => hn.1 (List.mem_map.2 ⟨d, hd, e⟩)),
        Memory.byte_setByte_self]
    | tail _ hb => exact ih _ hb hn.2

end Sys2Proof.Machine
end

