-- ==== Sys2Proof/Laws/State.lean ====
section
/-! SUPPORT. What each update of the state leaves: one lemma for each field and update. -/

namespace Sys2Proof.Machine

/-! ### updWave -/

@[simp] theorem State.updWave_waves (s : State) (k : Nat) (f : Wave → Wave) : (s.updWave k f).waves = Tab.upd s.waves k f := rfl
@[simp] theorem State.updWave_blocks (s : State) (k : Nat) (f : Wave → Wave) : (s.updWave k f).blocks = s.blocks := rfl
@[simp] theorem State.updWave_launches (s : State) (k : Nat) (f : Wave → Wave) : (s.updWave k f).launches = s.launches := rfl
@[simp] theorem State.updWave_ctxs (s : State) (k : Nat) (f : Wave → Wave) : (s.updWave k f).ctxs = s.ctxs := rfl
@[simp] theorem State.updWave_cores (s : State) (k : Nat) (f : Wave → Wave) : (s.updWave k f).cores = s.cores := rfl
@[simp] theorem State.updWave_clusters (s : State) (k : Nat) (f : Wave → Wave) : (s.updWave k f).clusters = s.clusters := rfl
@[simp] theorem State.updWave_vaults (s : State) (k : Nat) (f : Wave → Wave) : (s.updWave k f).vaults = s.vaults := rfl
@[simp] theorem State.updWave_mem (s : State) (k : Nat) (f : Wave → Wave) : (s.updWave k f).mem = s.mem := rfl
@[simp] theorem State.updWave_dev (s : State) (k : Nat) (f : Wave → Wave) : (s.updWave k f).dev = s.dev := rfl
@[simp] theorem State.updWave_fly (s : State) (k : Nat) (f : Wave → Wave) : (s.updWave k f).fly = s.fly := rfl
@[simp] theorem State.updWave_agenda (s : State) (k : Nat) (f : Wave → Wave) : (s.updWave k f).agenda = s.agenda := rfl
@[simp] theorem State.updWave_cur (s : State) (k : Nat) (f : Wave → Wave) : (s.updWave k f).cur = s.cur := rfl
@[simp] theorem State.updWave_free (s : State) (k : Nat) (f : Wave → Wave) : (s.updWave k f).free = s.free := rfl
@[simp] theorem State.updWave_serial (s : State) (k : Nat) (f : Wave → Wave) : (s.updWave k f).serial = s.serial := rfl
@[simp] theorem State.updWave_l2 (s : State) (k : Nat) (f : Wave → Wave) : (s.updWave k f).l2 = s.l2 := rfl

/-! ### updBlock -/

@[simp] theorem State.updBlock_waves (s : State) (k : Nat) (f : Block → Block) : (s.updBlock k f).waves = s.waves := rfl
@[simp] theorem State.updBlock_blocks (s : State) (k : Nat) (f : Block → Block) : (s.updBlock k f).blocks = Tab.upd s.blocks k f := rfl
@[simp] theorem State.updBlock_launches (s : State) (k : Nat) (f : Block → Block) : (s.updBlock k f).launches = s.launches := rfl
@[simp] theorem State.updBlock_ctxs (s : State) (k : Nat) (f : Block → Block) : (s.updBlock k f).ctxs = s.ctxs := rfl
@[simp] theorem State.updBlock_cores (s : State) (k : Nat) (f : Block → Block) : (s.updBlock k f).cores = s.cores := rfl
@[simp] theorem State.updBlock_clusters (s : State) (k : Nat) (f : Block → Block) : (s.updBlock k f).clusters = s.clusters := rfl
@[simp] theorem State.updBlock_vaults (s : State) (k : Nat) (f : Block → Block) : (s.updBlock k f).vaults = s.vaults := rfl
@[simp] theorem State.updBlock_mem (s : State) (k : Nat) (f : Block → Block) : (s.updBlock k f).mem = s.mem := rfl
@[simp] theorem State.updBlock_dev (s : State) (k : Nat) (f : Block → Block) : (s.updBlock k f).dev = s.dev := rfl
@[simp] theorem State.updBlock_fly (s : State) (k : Nat) (f : Block → Block) : (s.updBlock k f).fly = s.fly := rfl
@[simp] theorem State.updBlock_agenda (s : State) (k : Nat) (f : Block → Block) : (s.updBlock k f).agenda = s.agenda := rfl
@[simp] theorem State.updBlock_cur (s : State) (k : Nat) (f : Block → Block) : (s.updBlock k f).cur = s.cur := rfl
@[simp] theorem State.updBlock_free (s : State) (k : Nat) (f : Block → Block) : (s.updBlock k f).free = s.free := rfl
@[simp] theorem State.updBlock_serial (s : State) (k : Nat) (f : Block → Block) : (s.updBlock k f).serial = s.serial := rfl
@[simp] theorem State.updBlock_l2 (s : State) (k : Nat) (f : Block → Block) : (s.updBlock k f).l2 = s.l2 := rfl

/-! ### updLaunch -/

@[simp] theorem State.updLaunch_waves (s : State) (k : Nat) (f : Launch → Launch) : (s.updLaunch k f).waves = s.waves := rfl
@[simp] theorem State.updLaunch_blocks (s : State) (k : Nat) (f : Launch → Launch) : (s.updLaunch k f).blocks = s.blocks := rfl
@[simp] theorem State.updLaunch_launches (s : State) (k : Nat) (f : Launch → Launch) : (s.updLaunch k f).launches = Tab.upd s.launches k f := rfl
@[simp] theorem State.updLaunch_ctxs (s : State) (k : Nat) (f : Launch → Launch) : (s.updLaunch k f).ctxs = s.ctxs := rfl
@[simp] theorem State.updLaunch_cores (s : State) (k : Nat) (f : Launch → Launch) : (s.updLaunch k f).cores = s.cores := rfl
@[simp] theorem State.updLaunch_clusters (s : State) (k : Nat) (f : Launch → Launch) : (s.updLaunch k f).clusters = s.clusters := rfl
@[simp] theorem State.updLaunch_vaults (s : State) (k : Nat) (f : Launch → Launch) : (s.updLaunch k f).vaults = s.vaults := rfl
@[simp] theorem State.updLaunch_mem (s : State) (k : Nat) (f : Launch → Launch) : (s.updLaunch k f).mem = s.mem := rfl
@[simp] theorem State.updLaunch_dev (s : State) (k : Nat) (f : Launch → Launch) : (s.updLaunch k f).dev = s.dev := rfl
@[simp] theorem State.updLaunch_fly (s : State) (k : Nat) (f : Launch → Launch) : (s.updLaunch k f).fly = s.fly := rfl
@[simp] theorem State.updLaunch_agenda (s : State) (k : Nat) (f : Launch → Launch) : (s.updLaunch k f).agenda = s.agenda := rfl
@[simp] theorem State.updLaunch_cur (s : State) (k : Nat) (f : Launch → Launch) : (s.updLaunch k f).cur = s.cur := rfl
@[simp] theorem State.updLaunch_free (s : State) (k : Nat) (f : Launch → Launch) : (s.updLaunch k f).free = s.free := rfl
@[simp] theorem State.updLaunch_serial (s : State) (k : Nat) (f : Launch → Launch) : (s.updLaunch k f).serial = s.serial := rfl
@[simp] theorem State.updLaunch_l2 (s : State) (k : Nat) (f : Launch → Launch) : (s.updLaunch k f).l2 = s.l2 := rfl

/-! ### updCore -/

@[simp] theorem State.updCore_waves (s : State) (k : Nat) (f : Core → Core) : (s.updCore k f).waves = s.waves := rfl
@[simp] theorem State.updCore_blocks (s : State) (k : Nat) (f : Core → Core) : (s.updCore k f).blocks = s.blocks := rfl
@[simp] theorem State.updCore_launches (s : State) (k : Nat) (f : Core → Core) : (s.updCore k f).launches = s.launches := rfl
@[simp] theorem State.updCore_ctxs (s : State) (k : Nat) (f : Core → Core) : (s.updCore k f).ctxs = s.ctxs := rfl
@[simp] theorem State.updCore_cores (s : State) (k : Nat) (f : Core → Core) : (s.updCore k f).cores = Tab.put s.cores k (f (s.core k)) := rfl
@[simp] theorem State.updCore_clusters (s : State) (k : Nat) (f : Core → Core) : (s.updCore k f).clusters = s.clusters := rfl
@[simp] theorem State.updCore_vaults (s : State) (k : Nat) (f : Core → Core) : (s.updCore k f).vaults = s.vaults := rfl
@[simp] theorem State.updCore_mem (s : State) (k : Nat) (f : Core → Core) : (s.updCore k f).mem = s.mem := rfl
@[simp] theorem State.updCore_dev (s : State) (k : Nat) (f : Core → Core) : (s.updCore k f).dev = s.dev := rfl
@[simp] theorem State.updCore_fly (s : State) (k : Nat) (f : Core → Core) : (s.updCore k f).fly = s.fly := rfl
@[simp] theorem State.updCore_agenda (s : State) (k : Nat) (f : Core → Core) : (s.updCore k f).agenda = s.agenda := rfl
@[simp] theorem State.updCore_cur (s : State) (k : Nat) (f : Core → Core) : (s.updCore k f).cur = s.cur := rfl
@[simp] theorem State.updCore_free (s : State) (k : Nat) (f : Core → Core) : (s.updCore k f).free = s.free := rfl
@[simp] theorem State.updCore_serial (s : State) (k : Nat) (f : Core → Core) : (s.updCore k f).serial = s.serial := rfl
@[simp] theorem State.updCore_l2 (s : State) (k : Nat) (f : Core → Core) : (s.updCore k f).l2 = s.l2 := rfl

/-! ### updCluster -/

@[simp] theorem State.updCluster_waves (s : State) (k : Nat) (f : Cluster → Cluster) : (s.updCluster k f).waves = s.waves := rfl
@[simp] theorem State.updCluster_blocks (s : State) (k : Nat) (f : Cluster → Cluster) : (s.updCluster k f).blocks = s.blocks := rfl
@[simp] theorem State.updCluster_launches (s : State) (k : Nat) (f : Cluster → Cluster) : (s.updCluster k f).launches = s.launches := rfl
@[simp] theorem State.updCluster_ctxs (s : State) (k : Nat) (f : Cluster → Cluster) : (s.updCluster k f).ctxs = s.ctxs := rfl
@[simp] theorem State.updCluster_cores (s : State) (k : Nat) (f : Cluster → Cluster) : (s.updCluster k f).cores = s.cores := rfl
@[simp] theorem State.updCluster_clusters (s : State) (k : Nat) (f : Cluster → Cluster) : (s.updCluster k f).clusters = Tab.put s.clusters k (f (s.cluster k)) := rfl
@[simp] theorem State.updCluster_vaults (s : State) (k : Nat) (f : Cluster → Cluster) : (s.updCluster k f).vaults = s.vaults := rfl
@[simp] theorem State.updCluster_mem (s : State) (k : Nat) (f : Cluster → Cluster) : (s.updCluster k f).mem = s.mem := rfl
@[simp] theorem State.updCluster_dev (s : State) (k : Nat) (f : Cluster → Cluster) : (s.updCluster k f).dev = s.dev := rfl
@[simp] theorem State.updCluster_fly (s : State) (k : Nat) (f : Cluster → Cluster) : (s.updCluster k f).fly = s.fly := rfl
@[simp] theorem State.updCluster_agenda (s : State) (k : Nat) (f : Cluster → Cluster) : (s.updCluster k f).agenda = s.agenda := rfl
@[simp] theorem State.updCluster_cur (s : State) (k : Nat) (f : Cluster → Cluster) : (s.updCluster k f).cur = s.cur := rfl
@[simp] theorem State.updCluster_free (s : State) (k : Nat) (f : Cluster → Cluster) : (s.updCluster k f).free = s.free := rfl
@[simp] theorem State.updCluster_serial (s : State) (k : Nat) (f : Cluster → Cluster) : (s.updCluster k f).serial = s.serial := rfl
@[simp] theorem State.updCluster_l2 (s : State) (k : Nat) (f : Cluster → Cluster) : (s.updCluster k f).l2 = s.l2 := rfl

/-! ### updVault -/

@[simp] theorem State.updVault_waves (s : State) (k : Nat) (f : Vault → Vault) : (s.updVault k f).waves = s.waves := rfl
@[simp] theorem State.updVault_blocks (s : State) (k : Nat) (f : Vault → Vault) : (s.updVault k f).blocks = s.blocks := rfl
@[simp] theorem State.updVault_launches (s : State) (k : Nat) (f : Vault → Vault) : (s.updVault k f).launches = s.launches := rfl
@[simp] theorem State.updVault_ctxs (s : State) (k : Nat) (f : Vault → Vault) : (s.updVault k f).ctxs = s.ctxs := rfl
@[simp] theorem State.updVault_cores (s : State) (k : Nat) (f : Vault → Vault) : (s.updVault k f).cores = s.cores := rfl
@[simp] theorem State.updVault_clusters (s : State) (k : Nat) (f : Vault → Vault) : (s.updVault k f).clusters = s.clusters := rfl
@[simp] theorem State.updVault_vaults (s : State) (k : Nat) (f : Vault → Vault) : (s.updVault k f).vaults = Tab.put s.vaults k (f (s.vault k)) := rfl
@[simp] theorem State.updVault_mem (s : State) (k : Nat) (f : Vault → Vault) : (s.updVault k f).mem = s.mem := rfl
@[simp] theorem State.updVault_dev (s : State) (k : Nat) (f : Vault → Vault) : (s.updVault k f).dev = s.dev := rfl
@[simp] theorem State.updVault_fly (s : State) (k : Nat) (f : Vault → Vault) : (s.updVault k f).fly = s.fly := rfl
@[simp] theorem State.updVault_agenda (s : State) (k : Nat) (f : Vault → Vault) : (s.updVault k f).agenda = s.agenda := rfl
@[simp] theorem State.updVault_cur (s : State) (k : Nat) (f : Vault → Vault) : (s.updVault k f).cur = s.cur := rfl
@[simp] theorem State.updVault_free (s : State) (k : Nat) (f : Vault → Vault) : (s.updVault k f).free = s.free := rfl
@[simp] theorem State.updVault_serial (s : State) (k : Nat) (f : Vault → Vault) : (s.updVault k f).serial = s.serial := rfl
@[simp] theorem State.updVault_l2 (s : State) (k : Nat) (f : Vault → Vault) : (s.updVault k f).l2 = s.l2 := rfl

/-! ### updCtx -/

@[simp] theorem State.updCtx_waves (s : State) (k : Nat) (f : Context → Context) : (s.updCtx k f).waves = s.waves := rfl
@[simp] theorem State.updCtx_blocks (s : State) (k : Nat) (f : Context → Context) : (s.updCtx k f).blocks = s.blocks := rfl
@[simp] theorem State.updCtx_launches (s : State) (k : Nat) (f : Context → Context) : (s.updCtx k f).launches = s.launches := rfl
@[simp] theorem State.updCtx_ctxs (s : State) (k : Nat) (f : Context → Context) : (s.updCtx k f).ctxs = Tab.put s.ctxs k (f (s.ctx k)) := rfl
@[simp] theorem State.updCtx_cores (s : State) (k : Nat) (f : Context → Context) : (s.updCtx k f).cores = s.cores := rfl
@[simp] theorem State.updCtx_clusters (s : State) (k : Nat) (f : Context → Context) : (s.updCtx k f).clusters = s.clusters := rfl
@[simp] theorem State.updCtx_vaults (s : State) (k : Nat) (f : Context → Context) : (s.updCtx k f).vaults = s.vaults := rfl
@[simp] theorem State.updCtx_mem (s : State) (k : Nat) (f : Context → Context) : (s.updCtx k f).mem = s.mem := rfl
@[simp] theorem State.updCtx_dev (s : State) (k : Nat) (f : Context → Context) : (s.updCtx k f).dev = s.dev := rfl
@[simp] theorem State.updCtx_fly (s : State) (k : Nat) (f : Context → Context) : (s.updCtx k f).fly = s.fly := rfl
@[simp] theorem State.updCtx_agenda (s : State) (k : Nat) (f : Context → Context) : (s.updCtx k f).agenda = s.agenda := rfl
@[simp] theorem State.updCtx_cur (s : State) (k : Nat) (f : Context → Context) : (s.updCtx k f).cur = s.cur := rfl
@[simp] theorem State.updCtx_free (s : State) (k : Nat) (f : Context → Context) : (s.updCtx k f).free = s.free := rfl
@[simp] theorem State.updCtx_serial (s : State) (k : Nat) (f : Context → Context) : (s.updCtx k f).serial = s.serial := rfl
@[simp] theorem State.updCtx_l2 (s : State) (k : Nat) (f : Context → Context) : (s.updCtx k f).l2 = s.l2 := rfl

/-! ### updDev -/

@[simp] theorem State.updDev_waves (s : State) (f : Device → Device) : (s.updDev f).waves = s.waves := rfl
@[simp] theorem State.updDev_blocks (s : State) (f : Device → Device) : (s.updDev f).blocks = s.blocks := rfl
@[simp] theorem State.updDev_launches (s : State) (f : Device → Device) : (s.updDev f).launches = s.launches := rfl
@[simp] theorem State.updDev_ctxs (s : State) (f : Device → Device) : (s.updDev f).ctxs = s.ctxs := rfl
@[simp] theorem State.updDev_cores (s : State) (f : Device → Device) : (s.updDev f).cores = s.cores := rfl
@[simp] theorem State.updDev_clusters (s : State) (f : Device → Device) : (s.updDev f).clusters = s.clusters := rfl
@[simp] theorem State.updDev_vaults (s : State) (f : Device → Device) : (s.updDev f).vaults = s.vaults := rfl
@[simp] theorem State.updDev_mem (s : State) (f : Device → Device) : (s.updDev f).mem = s.mem := rfl
@[simp] theorem State.updDev_dev (s : State) (f : Device → Device) : (s.updDev f).dev = f s.dev := rfl
@[simp] theorem State.updDev_fly (s : State) (f : Device → Device) : (s.updDev f).fly = s.fly := rfl
@[simp] theorem State.updDev_agenda (s : State) (f : Device → Device) : (s.updDev f).agenda = s.agenda := rfl
@[simp] theorem State.updDev_cur (s : State) (f : Device → Device) : (s.updDev f).cur = s.cur := rfl
@[simp] theorem State.updDev_free (s : State) (f : Device → Device) : (s.updDev f).free = s.free := rfl
@[simp] theorem State.updDev_serial (s : State) (f : Device → Device) : (s.updDev f).serial = s.serial := rfl
@[simp] theorem State.updDev_l2 (s : State) (f : Device → Device) : (s.updDev f).l2 = s.l2 := rfl

/-! ### updFly -/

@[simp] theorem State.updFly_waves (s : State) (f : Flight → Flight) : (s.updFly f).waves = s.waves := rfl
@[simp] theorem State.updFly_blocks (s : State) (f : Flight → Flight) : (s.updFly f).blocks = s.blocks := rfl
@[simp] theorem State.updFly_launches (s : State) (f : Flight → Flight) : (s.updFly f).launches = s.launches := rfl
@[simp] theorem State.updFly_ctxs (s : State) (f : Flight → Flight) : (s.updFly f).ctxs = s.ctxs := rfl
@[simp] theorem State.updFly_cores (s : State) (f : Flight → Flight) : (s.updFly f).cores = s.cores := rfl
@[simp] theorem State.updFly_clusters (s : State) (f : Flight → Flight) : (s.updFly f).clusters = s.clusters := rfl
@[simp] theorem State.updFly_vaults (s : State) (f : Flight → Flight) : (s.updFly f).vaults = s.vaults := rfl
@[simp] theorem State.updFly_mem (s : State) (f : Flight → Flight) : (s.updFly f).mem = s.mem := rfl
@[simp] theorem State.updFly_dev (s : State) (f : Flight → Flight) : (s.updFly f).dev = s.dev := rfl
@[simp] theorem State.updFly_fly (s : State) (f : Flight → Flight) : (s.updFly f).fly = f s.fly := rfl
@[simp] theorem State.updFly_agenda (s : State) (f : Flight → Flight) : (s.updFly f).agenda = s.agenda := rfl
@[simp] theorem State.updFly_cur (s : State) (f : Flight → Flight) : (s.updFly f).cur = s.cur := rfl
@[simp] theorem State.updFly_free (s : State) (f : Flight → Flight) : (s.updFly f).free = s.free := rfl
@[simp] theorem State.updFly_serial (s : State) (f : Flight → Flight) : (s.updFly f).serial = s.serial := rfl
@[simp] theorem State.updFly_l2 (s : State) (f : Flight → Flight) : (s.updFly f).l2 = s.l2 := rfl

/-! ### updRcv -/

@[simp] theorem State.updRcv_waves (s : State) (k : Nat) (f : Recovery → Recovery) : (s.updRcv k f).waves = s.waves := rfl
@[simp] theorem State.updRcv_blocks (s : State) (k : Nat) (f : Recovery → Recovery) : (s.updRcv k f).blocks = Tab.upd s.blocks k fun x => { x with rcv := f x.rcv } := rfl
@[simp] theorem State.updRcv_launches (s : State) (k : Nat) (f : Recovery → Recovery) : (s.updRcv k f).launches = s.launches := rfl
@[simp] theorem State.updRcv_ctxs (s : State) (k : Nat) (f : Recovery → Recovery) : (s.updRcv k f).ctxs = s.ctxs := rfl
@[simp] theorem State.updRcv_cores (s : State) (k : Nat) (f : Recovery → Recovery) : (s.updRcv k f).cores = s.cores := rfl
@[simp] theorem State.updRcv_clusters (s : State) (k : Nat) (f : Recovery → Recovery) : (s.updRcv k f).clusters = s.clusters := rfl
@[simp] theorem State.updRcv_vaults (s : State) (k : Nat) (f : Recovery → Recovery) : (s.updRcv k f).vaults = s.vaults := rfl
@[simp] theorem State.updRcv_mem (s : State) (k : Nat) (f : Recovery → Recovery) : (s.updRcv k f).mem = s.mem := rfl
@[simp] theorem State.updRcv_dev (s : State) (k : Nat) (f : Recovery → Recovery) : (s.updRcv k f).dev = s.dev := rfl
@[simp] theorem State.updRcv_fly (s : State) (k : Nat) (f : Recovery → Recovery) : (s.updRcv k f).fly = s.fly := rfl
@[simp] theorem State.updRcv_agenda (s : State) (k : Nat) (f : Recovery → Recovery) : (s.updRcv k f).agenda = s.agenda := rfl
@[simp] theorem State.updRcv_cur (s : State) (k : Nat) (f : Recovery → Recovery) : (s.updRcv k f).cur = s.cur := rfl
@[simp] theorem State.updRcv_free (s : State) (k : Nat) (f : Recovery → Recovery) : (s.updRcv k f).free = s.free := rfl
@[simp] theorem State.updRcv_serial (s : State) (k : Nat) (f : Recovery → Recovery) : (s.updRcv k f).serial = s.serial := rfl
@[simp] theorem State.updRcv_l2 (s : State) (k : Nat) (f : Recovery → Recovery) : (s.updRcv k f).l2 = s.l2 := rfl

/-! ### drew -/

@[simp] theorem State.drew_waves (s : State) : (s.drew).waves = s.waves := rfl
@[simp] theorem State.drew_blocks (s : State) : (s.drew).blocks = s.blocks := rfl
@[simp] theorem State.drew_launches (s : State) : (s.drew).launches = s.launches := rfl
@[simp] theorem State.drew_ctxs (s : State) : (s.drew).ctxs = s.ctxs := rfl
@[simp] theorem State.drew_cores (s : State) : (s.drew).cores = s.cores := rfl
@[simp] theorem State.drew_clusters (s : State) : (s.drew).clusters = s.clusters := rfl
@[simp] theorem State.drew_vaults (s : State) : (s.drew).vaults = s.vaults := rfl
@[simp] theorem State.drew_mem (s : State) : (s.drew).mem = s.mem := rfl
@[simp] theorem State.drew_dev (s : State) : (s.drew).dev = s.dev := rfl
@[simp] theorem State.drew_fly (s : State) : (s.drew).fly = s.fly := rfl
@[simp] theorem State.drew_agenda (s : State) : (s.drew).agenda = s.agenda := rfl
@[simp] theorem State.drew_cur (s : State) : (s.drew).cur = s.cur := rfl
@[simp] theorem State.drew_free (s : State) : (s.drew).free = s.free + 1 := rfl
@[simp] theorem State.drew_serial (s : State) : (s.drew).serial = s.serial := rfl
@[simp] theorem State.drew_l2 (s : State) : (s.drew).l2 = s.l2 := rfl

/-! ### A fresh name -/

@[simp] theorem State.named_waves (s : State) : s.named.2.waves = s.waves := rfl
@[simp] theorem State.named_blocks (s : State) : s.named.2.blocks = s.blocks := rfl
@[simp] theorem State.named_launches (s : State) : s.named.2.launches = s.launches := rfl
@[simp] theorem State.named_ctxs (s : State) : s.named.2.ctxs = s.ctxs := rfl
@[simp] theorem State.named_cores (s : State) : s.named.2.cores = s.cores := rfl
@[simp] theorem State.named_clusters (s : State) : s.named.2.clusters = s.clusters := rfl
@[simp] theorem State.named_vaults (s : State) : s.named.2.vaults = s.vaults := rfl
@[simp] theorem State.named_mem (s : State) : s.named.2.mem = s.mem := rfl
@[simp] theorem State.named_dev (s : State) : s.named.2.dev = s.dev := rfl
@[simp] theorem State.named_fly (s : State) : s.named.2.fly = s.fly := rfl
@[simp] theorem State.named_agenda (s : State) : s.named.2.agenda = s.agenda := rfl
@[simp] theorem State.named_cur (s : State) : s.named.2.cur = s.cur := rfl
@[simp] theorem State.named_free (s : State) : s.named.2.free = s.free := rfl
@[simp] theorem State.named_serial (s : State) : s.named.2.serial = s.serial + 1 := rfl
@[simp] theorem State.named_name (s : State) : s.named.1 = s.serial + 1 := rfl

/-! ### Records by key -/

theorem State.wave_updWave_self (s : State) (k : Nat) (f : Wave → Wave) {w : Wave} (h : Tab.find s.waves k = some w) :
    (s.updWave k f).wave k = f w := Tab.get_upd_self _ _ _ _ h

theorem State.wave_updWave_other (s : State) (k : Nat) (f : Wave → Wave) {j : Nat} (h : j ≠ k) :
    (s.updWave k f).wave j = s.wave j := Tab.get_upd_other _ _ _ _ h

theorem State.block_updBlock_self (s : State) (k : Nat) (f : Block → Block) {b : Block} (h : Tab.find s.blocks k = some b) :
    (s.updBlock k f).block k = f b := Tab.get_upd_self _ _ _ _ h

theorem State.block_updBlock_other (s : State) (k : Nat) (f : Block → Block) {j : Nat} (h : j ≠ k) :
    (s.updBlock k f).block j = s.block j := Tab.get_upd_other _ _ _ _ h

theorem State.core_updCore (s : State) (k : Nat) (f : Core → Core) (j : Nat) :
    (s.updCore k f).core j = if j = k then f (s.core k) else s.core j := Tab.get_put _ _ _ _ _

theorem State.ctx_updCtx (s : State) (k : Nat) (f : Context → Context) (j : Nat) :
    (s.updCtx k f).ctx j = if j = k then f (s.ctx k) else s.ctx j := Tab.get_put _ _ _ _ _

theorem State.vault_updVault (s : State) (k : Nat) (f : Vault → Vault) (j : Nat) :
    (s.updVault k f).vault j = if j = k then f (s.vault k) else s.vault j := Tab.get_put _ _ _ _ _

theorem State.cluster_updCluster (s : State) (k : Nat) (f : Cluster → Cluster) (j : Nat) :
    (s.updCluster k f).cluster j = if j = k then f (s.cluster k) else s.cluster j := Tab.get_put _ _ _ _ _

/-! ### A record that an update does not touch -/

@[simp] theorem State.updWave_block (s : State) (k : Nat) (f : Wave → Wave) (j : Nat) : (s.updWave k f).block j = s.block j := rfl
@[simp] theorem State.updWave_launch (s : State) (k : Nat) (f : Wave → Wave) (j : Nat) : (s.updWave k f).launch j = s.launch j := rfl
@[simp] theorem State.updWave_core (s : State) (k : Nat) (f : Wave → Wave) (j : Nat) : (s.updWave k f).core j = s.core j := rfl
@[simp] theorem State.updWave_cluster (s : State) (k : Nat) (f : Wave → Wave) (j : Nat) : (s.updWave k f).cluster j = s.cluster j := rfl
@[simp] theorem State.updWave_vault (s : State) (k : Nat) (f : Wave → Wave) (j : Nat) : (s.updWave k f).vault j = s.vault j := rfl
@[simp] theorem State.updWave_ctx (s : State) (k : Nat) (f : Wave → Wave) (j : Nat) : (s.updWave k f).ctx j = s.ctx j := rfl
@[simp] theorem State.updBlock_wave (s : State) (k : Nat) (f : Block → Block) (j : Nat) : (s.updBlock k f).wave j = s.wave j := rfl
@[simp] theorem State.updBlock_launch (s : State) (k : Nat) (f : Block → Block) (j : Nat) : (s.updBlock k f).launch j = s.launch j := rfl
@[simp] theorem State.updBlock_core (s : State) (k : Nat) (f : Block → Block) (j : Nat) : (s.updBlock k f).core j = s.core j := rfl
@[simp] theorem State.updBlock_cluster (s : State) (k : Nat) (f : Block → Block) (j : Nat) : (s.updBlock k f).cluster j = s.cluster j := rfl
@[simp] theorem State.updBlock_vault (s : State) (k : Nat) (f : Block → Block) (j : Nat) : (s.updBlock k f).vault j = s.vault j := rfl
@[simp] theorem State.updBlock_ctx (s : State) (k : Nat) (f : Block → Block) (j : Nat) : (s.updBlock k f).ctx j = s.ctx j := rfl
@[simp] theorem State.updLaunch_wave (s : State) (k : Nat) (f : Launch → Launch) (j : Nat) : (s.updLaunch k f).wave j = s.wave j := rfl
@[simp] theorem State.updLaunch_block (s : State) (k : Nat) (f : Launch → Launch) (j : Nat) : (s.updLaunch k f).block j = s.block j := rfl
@[simp] theorem State.updLaunch_core (s : State) (k : Nat) (f : Launch → Launch) (j : Nat) : (s.updLaunch k f).core j = s.core j := rfl
@[simp] theorem State.updLaunch_cluster (s : State) (k : Nat) (f : Launch → Launch) (j : Nat) : (s.updLaunch k f).cluster j = s.cluster j := rfl
@[simp] theorem State.updLaunch_vault (s : State) (k : Nat) (f : Launch → Launch) (j : Nat) : (s.updLaunch k f).vault j = s.vault j := rfl
@[simp] theorem State.updLaunch_ctx (s : State) (k : Nat) (f : Launch → Launch) (j : Nat) : (s.updLaunch k f).ctx j = s.ctx j := rfl
@[simp] theorem State.updCore_wave (s : State) (k : Nat) (f : Core → Core) (j : Nat) : (s.updCore k f).wave j = s.wave j := rfl
@[simp] theorem State.updCore_block (s : State) (k : Nat) (f : Core → Core) (j : Nat) : (s.updCore k f).block j = s.block j := rfl
@[simp] theorem State.updCore_launch (s : State) (k : Nat) (f : Core → Core) (j : Nat) : (s.updCore k f).launch j = s.launch j := rfl
@[simp] theorem State.updCore_cluster (s : State) (k : Nat) (f : Core → Core) (j : Nat) : (s.updCore k f).cluster j = s.cluster j := rfl
@[simp] theorem State.updCore_vault (s : State) (k : Nat) (f : Core → Core) (j : Nat) : (s.updCore k f).vault j = s.vault j := rfl
@[simp] theorem State.updCore_ctx (s : State) (k : Nat) (f : Core → Core) (j : Nat) : (s.updCore k f).ctx j = s.ctx j := rfl
@[simp] theorem State.updCluster_wave (s : State) (k : Nat) (f : Cluster → Cluster) (j : Nat) : (s.updCluster k f).wave j = s.wave j := rfl
@[simp] theorem State.updCluster_block (s : State) (k : Nat) (f : Cluster → Cluster) (j : Nat) : (s.updCluster k f).block j = s.block j := rfl
@[simp] theorem State.updCluster_launch (s : State) (k : Nat) (f : Cluster → Cluster) (j : Nat) : (s.updCluster k f).launch j = s.launch j := rfl
@[simp] theorem State.updCluster_core (s : State) (k : Nat) (f : Cluster → Cluster) (j : Nat) : (s.updCluster k f).core j = s.core j := rfl
@[simp] theorem State.updCluster_vault (s : State) (k : Nat) (f : Cluster → Cluster) (j : Nat) : (s.updCluster k f).vault j = s.vault j := rfl
@[simp] theorem State.updCluster_ctx (s : State) (k : Nat) (f : Cluster → Cluster) (j : Nat) : (s.updCluster k f).ctx j = s.ctx j := rfl
@[simp] theorem State.updVault_wave (s : State) (k : Nat) (f : Vault → Vault) (j : Nat) : (s.updVault k f).wave j = s.wave j := rfl
@[simp] theorem State.updVault_block (s : State) (k : Nat) (f : Vault → Vault) (j : Nat) : (s.updVault k f).block j = s.block j := rfl
@[simp] theorem State.updVault_launch (s : State) (k : Nat) (f : Vault → Vault) (j : Nat) : (s.updVault k f).launch j = s.launch j := rfl
@[simp] theorem State.updVault_core (s : State) (k : Nat) (f : Vault → Vault) (j : Nat) : (s.updVault k f).core j = s.core j := rfl
@[simp] theorem State.updVault_cluster (s : State) (k : Nat) (f : Vault → Vault) (j : Nat) : (s.updVault k f).cluster j = s.cluster j := rfl
@[simp] theorem State.updVault_ctx (s : State) (k : Nat) (f : Vault → Vault) (j : Nat) : (s.updVault k f).ctx j = s.ctx j := rfl
@[simp] theorem State.updCtx_wave (s : State) (k : Nat) (f : Context → Context) (j : Nat) : (s.updCtx k f).wave j = s.wave j := rfl
@[simp] theorem State.updCtx_block (s : State) (k : Nat) (f : Context → Context) (j : Nat) : (s.updCtx k f).block j = s.block j := rfl
@[simp] theorem State.updCtx_launch (s : State) (k : Nat) (f : Context → Context) (j : Nat) : (s.updCtx k f).launch j = s.launch j := rfl
@[simp] theorem State.updCtx_core (s : State) (k : Nat) (f : Context → Context) (j : Nat) : (s.updCtx k f).core j = s.core j := rfl
@[simp] theorem State.updCtx_cluster (s : State) (k : Nat) (f : Context → Context) (j : Nat) : (s.updCtx k f).cluster j = s.cluster j := rfl
@[simp] theorem State.updCtx_vault (s : State) (k : Nat) (f : Context → Context) (j : Nat) : (s.updCtx k f).vault j = s.vault j := rfl
@[simp] theorem State.updDev_wave (s : State) (f : Device → Device) (j : Nat) : (s.updDev f).wave j = s.wave j := rfl
@[simp] theorem State.updDev_block (s : State) (f : Device → Device) (j : Nat) : (s.updDev f).block j = s.block j := rfl
@[simp] theorem State.updDev_launch (s : State) (f : Device → Device) (j : Nat) : (s.updDev f).launch j = s.launch j := rfl
@[simp] theorem State.updDev_core (s : State) (f : Device → Device) (j : Nat) : (s.updDev f).core j = s.core j := rfl
@[simp] theorem State.updDev_cluster (s : State) (f : Device → Device) (j : Nat) : (s.updDev f).cluster j = s.cluster j := rfl
@[simp] theorem State.updDev_vault (s : State) (f : Device → Device) (j : Nat) : (s.updDev f).vault j = s.vault j := rfl
@[simp] theorem State.updDev_ctx (s : State) (f : Device → Device) (j : Nat) : (s.updDev f).ctx j = s.ctx j := rfl
@[simp] theorem State.updFly_wave (s : State) (f : Flight → Flight) (j : Nat) : (s.updFly f).wave j = s.wave j := rfl
@[simp] theorem State.updFly_block (s : State) (f : Flight → Flight) (j : Nat) : (s.updFly f).block j = s.block j := rfl
@[simp] theorem State.updFly_launch (s : State) (f : Flight → Flight) (j : Nat) : (s.updFly f).launch j = s.launch j := rfl
@[simp] theorem State.updFly_core (s : State) (f : Flight → Flight) (j : Nat) : (s.updFly f).core j = s.core j := rfl
@[simp] theorem State.updFly_cluster (s : State) (f : Flight → Flight) (j : Nat) : (s.updFly f).cluster j = s.cluster j := rfl
@[simp] theorem State.updFly_vault (s : State) (f : Flight → Flight) (j : Nat) : (s.updFly f).vault j = s.vault j := rfl
@[simp] theorem State.updFly_ctx (s : State) (f : Flight → Flight) (j : Nat) : (s.updFly f).ctx j = s.ctx j := rfl
@[simp] theorem State.updRcv_wave (s : State) (k : Nat) (f : Recovery → Recovery) (j : Nat) : (s.updRcv k f).wave j = s.wave j := rfl
@[simp] theorem State.updRcv_launch (s : State) (k : Nat) (f : Recovery → Recovery) (j : Nat) : (s.updRcv k f).launch j = s.launch j := rfl
@[simp] theorem State.updRcv_core (s : State) (k : Nat) (f : Recovery → Recovery) (j : Nat) : (s.updRcv k f).core j = s.core j := rfl
@[simp] theorem State.updRcv_cluster (s : State) (k : Nat) (f : Recovery → Recovery) (j : Nat) : (s.updRcv k f).cluster j = s.cluster j := rfl
@[simp] theorem State.updRcv_vault (s : State) (k : Nat) (f : Recovery → Recovery) (j : Nat) : (s.updRcv k f).vault j = s.vault j := rfl
@[simp] theorem State.updRcv_ctx (s : State) (k : Nat) (f : Recovery → Recovery) (j : Nat) : (s.updRcv k f).ctx j = s.ctx j := rfl
@[simp] theorem State.drew_wave (s : State) (j : Nat) : (s.drew).wave j = s.wave j := rfl
@[simp] theorem State.drew_block (s : State) (j : Nat) : (s.drew).block j = s.block j := rfl
@[simp] theorem State.drew_launch (s : State) (j : Nat) : (s.drew).launch j = s.launch j := rfl
@[simp] theorem State.drew_core (s : State) (j : Nat) : (s.drew).core j = s.core j := rfl
@[simp] theorem State.drew_cluster (s : State) (j : Nat) : (s.drew).cluster j = s.cluster j := rfl
@[simp] theorem State.drew_vault (s : State) (j : Nat) : (s.drew).vault j = s.vault j := rfl
@[simp] theorem State.drew_ctx (s : State) (j : Nat) : (s.drew).ctx j = s.ctx j := rfl
@[simp] theorem State.named_wave (s : State) (j : Nat) : s.named.2.wave j = s.wave j := rfl
@[simp] theorem State.named_block (s : State) (j : Nat) : s.named.2.block j = s.block j := rfl
@[simp] theorem State.named_launch (s : State) (j : Nat) : s.named.2.launch j = s.launch j := rfl
@[simp] theorem State.named_core (s : State) (j : Nat) : s.named.2.core j = s.core j := rfl
@[simp] theorem State.named_cluster (s : State) (j : Nat) : s.named.2.cluster j = s.cluster j := rfl
@[simp] theorem State.named_vault (s : State) (j : Nat) : s.named.2.vault j = s.vault j := rfl
@[simp] theorem State.named_ctx (s : State) (j : Nat) : s.named.2.ctx j = s.ctx j := rfl

end Sys2Proof.Machine
end

