-- ==== Sys2Proof/Laws/Issue.lean ====
section
/-! SUPPORT. What the issue of an instruction does around its own part, and what a write of registers does. -/

namespace Sys2Proof.Machine

/-! ### Masks and lanes -/

theorem mem_lanes {m : Mask} {l : Nat} : l ∈ Mask.lanes m ↔ l < 32 ∧ m.getLsbD l = true := by
  simp [Mask.lanes, List.mem_filter]

theorem lanes_lt {m : Mask} {l : Nat} (h : l ∈ Mask.lanes m) : l < 32 := (mem_lanes.1 h).1

theorem lanes_nodup (m : Mask) : (Mask.lanes m).Nodup := (List.nodup_range).filter _

theorem wordKey_inj {r l r' l' : Nat} (h : l < 32) (h' : l' < 32) (e : wordKey r l = wordKey r' l') : r = r' ∧ l = l' := by
  unfold wordKey at e; omega

/-! ### The checks -/

theorem hitReg_none {t : Tab Mask} {m : Mask} {rs : List Nat} (h : ∀ r ∈ rs, Tab.get 0 t r &&& m = 0) :
    hitReg t m rs = none := by
  unfold hitReg
  rw [List.find?_eq_none]
  intro r hr
  rw [h r hr]; decide

theorem Wave.usable_iff {w : Wave} {m : Mask} {r : Nat} :
    w.usable m r = true ↔ r < w.foot ∧ w.queueAt r = none ∧ Tab.get 0 w.pend r &&& m = 0 ∧ Tab.get 0 w.ecc r = 0 ∧
      Tab.get 0 w.pois r &&& m = 0 := by
  simp [Wave.usable, and_assoc]

theorem and_mono_zero {x m n : Mask} (h : x &&& m = 0) (hs : n &&& ~~~m = 0) : x &&& n = 0 := by
  have key : n = n &&& m := by
    apply BitVec.eq_of_getLsbD_eq
    intro i hi
    have := congrArg (fun v : Mask => v.getLsbD i) hs
    simp [hi] at this ⊢
    intro hn
    simpa [hn] using this
  rw [key, BitVec.and_comm n m, ← BitVec.and_assoc, h]; exact BitVec.zero_and

/-- The bits of a mask of lanes. -/
theorem foldl_bits (p : Nat → Bool) (n : Nat) :
    (List.range n).foldl (fun a l => if p l then a + 2 ^ l else a) 0 < 2 ^ n ∧
      ∀ i, i < n → ((List.range n).foldl (fun a l => if p l then a + 2 ^ l else a) 0).testBit i = p i := by
  induction n with
  | zero => exact ⟨by simp, fun i h => absurd h (Nat.not_lt_zero i)⟩
  | succ n ih =>
    rw [List.range_succ, List.foldl_append]
    simp only [List.foldl_cons, List.foldl_nil]
    generalize (List.range n).foldl (fun a l => if p l then a + 2 ^ l else a) 0 = x at ih
    obtain ⟨hx, hb⟩ := ih
    refine ⟨by rw [Nat.pow_succ]; split <;> omega, fun i hi => ?_⟩
    by_cases hn : i = n
    · subst hn
      have h0 : x.testBit i = false := Nat.testBit_lt_two_pow hx
      cases hp : p i
      · simp [h0]
      · simp only [if_true]
        rw [Nat.add_comm, Nat.testBit_two_pow_add_eq, h0]; rfl
    · have hlt : i < n := by omega
      split
      · rw [Nat.add_comm, Nat.testBit_two_pow_add_gt hlt]; exact hb i hlt
      · exact hb i hlt

theorem Mask.of_getLsbD (p : Nat → Bool) (l : Nat) (h : l < 32) : (Mask.of p).getLsbD l = p l := by
  unfold Mask.of
  rw [BitVec.getLsbD_ofNat]
  simp [h, (foldl_bits p 32).2 l h]

theorem Wave.active_sub (w : Wave) (n : Nat) (path : Mask) (h : Hdr) : w.active n path h &&& ~~~path = 0 := by
  unfold Wave.active
  split
  · apply BitVec.eq_of_getLsbD_eq; intro i hi; simp
  · apply BitVec.eq_of_getLsbD_eq
    intro i hi
    simp only [BitVec.getLsbD_and, BitVec.getLsbD_not, hi, decide_true, Bool.true_and, Mask.of_getLsbD _ i hi]
    cases path.getLsbD i <;> simp

/-- The checks let an instruction go whose registers are usable (R84). -/
theorem Need.verdict_go {nd : Need} {w : Wave} {n : Nat} {path : Mask} (hsup : nd.sup = true → w.ctx = 0)
    (hd : w.dispatch = true → nd.chain = true)
    (hu : ∀ r ∈ guardRegs nd.h ++ nd.srcs ++ nd.dsts, w.usable path r = true)
    (hn : ∀ r ∈ nd.cross ++ nd.names, r < w.foot ∧ w.queueAt r = none) (hs : ∀ r ∈ nd.spans, r < w.foot) :
    nd.verdict w n path = .go (w.active n path nd.h) := by
  have hU := fun r hr => Wave.usable_iff.1 (hu r hr)
  have hregs : nd.regs = guardRegs nd.h ++ nd.srcs ++ nd.cross ++ nd.dsts ++ nd.names := rfl
  have hall : ∀ r ∈ nd.regs, r < w.foot ∧ w.queueAt r = none := by
    intro r hr
    rw [hregs] at hr
    simp only [List.mem_append] at hr
    by_cases hx : r ∈ guardRegs nd.h ++ nd.srcs ++ nd.dsts
    · exact ⟨(hU r hx).1, (hU r hx).2.1⟩
    · apply hn; simp only [List.mem_append] at hx ⊢
      rcases hr with (((h | h) | h) | h) | h
      · exact absurd (.inl (.inl h)) hx
      · exact absurd (.inl (.inr h)) hx
      · exact .inl h
      · exact absurd (.inr h) hx
      · exact .inr h
  have e1 : (nd.sup && w.ctx != 0) = false := by
    cases h : nd.sup
    · rfl
    · simp [hsup h]
  have e2 : ((nd.regs ++ nd.spans).any fun r => decide (w.foot ≤ r)) = false := by
    rw [List.any_eq_false]
    intro r hr
    rw [List.mem_append] at hr
    have : r < w.foot := hr.elim (fun h => (hall r h).1) (hs r)
    simp; exact this
  have e3 : (nd.regs.find? fun r => (w.queueAt r).isSome) = none := by
    rw [List.find?_eq_none]
    intro r hr
    simp [(hall r hr).2]
  have e4 : (w.dispatch && !nd.chain) = false := by
    cases h : w.dispatch
    · rfl
    · simp [hd h]
  have hg : ∀ r ∈ guardRegs nd.h, r ∈ guardRegs nd.h ++ nd.srcs ++ nd.dsts := fun r h => by simp [h]
  have hsd : ∀ r ∈ nd.srcs ++ nd.dsts, r ∈ guardRegs nd.h ++ nd.srcs ++ nd.dsts := fun r h => by
    simp only [List.mem_append] at h ⊢; exact h.elim (fun h => .inl (.inr h)) .inr
  have e5 : hitReg w.pend path (guardRegs nd.h) = none := hitReg_none fun r h => (hU r (hg r h)).2.2.1
  have e6 : w.badRead path (guardRegs nd.h) = none := by
    unfold Wave.badRead
    rw [hitReg_none fun r h => by rw [(hU r (hg r h)).2.2.2.1]; simp, hitReg_none fun r h => (hU r (hg r h)).2.2.2.2]
  have hact := Wave.active_sub w n path nd.h
  have e7 : hitReg w.pend (w.active n path nd.h) (nd.srcs ++ nd.dsts) = none :=
    hitReg_none fun r h => and_mono_zero (hU r (hsd r h)).2.2.1 hact
  have e8 : w.badRead (w.active n path nd.h) (if nd.lax then [] else nd.srcs) = none := by
    have hs' : ∀ r ∈ (if nd.lax then [] else nd.srcs), r ∈ guardRegs nd.h ++ nd.srcs ++ nd.dsts := by
      intro r h
      split at h
      · cases h
      · exact hsd r (List.mem_append_left _ h)
    unfold Wave.badRead
    rw [hitReg_none fun r h => by rw [(hU r (hs' r h)).2.2.2.1]; simp,
      hitReg_none fun r h => and_mono_zero (hU r (hs' r h)).2.2.2.2 hact]
  simp only [Need.verdict, e1, e2, e3, e4, e5, e6, e7, e8, Option.isSome_none, Bool.false_eq_true, if_false]

@[simp] theorem Eff.settled_done (c : Cur) (nd : Need) (act : Mask) (t : State) : (Eff.done t).settled c nd act = .done t := rfl

@[simp] theorem Eff.settled_stall (c : Cur) (nd : Need) (act : Mask) : Eff.stall.settled c nd act = .stall := rfl

@[simp] theorem Eff.settled_wait (c : Cur) (nd : Need) (act : Mask) (t : State) : (Eff.wait t).settled c nd act = .wait t := rfl

@[simp] theorem Eff.settled_fault (c : Cur) (nd : Need) (act : Mask) (t : State) (f : FaultInfo) :
    (Eff.fault t f).settled c nd act = .fault (t.settleReads c.wave nd c.path act) f := rfl

/-- An issue whose checks pass is its own part. -/
theorem issue_go {s : State} {c : Cur} {w : Wave} {nd : Need} {body : Iss → Eff} {act : Mask} (hi : s.Issues c w)
    (hv : nd.verdict w s.free c.path = .go act) :
    issue s nd body = .next (s.after c nd.h.mark ((body (s.issAt c w nd act)).settled c nd act)) := by
  unfold issue
  rw [hi.1]
  simp only [hi.2, runIssue, hv]

/-- The registers that `Ready` names may be used: what `Need.verdict_go` asks of them. -/
theorem State.Ready.verdict {s : State} {c : Cur} {w : Wave} {nd : Need} {rs cross : List Nat}
    (h : s.Ready c w nd.h rs cross) (hsup : nd.sup = true → w.ctx = 0) (hsrc : ∀ r ∈ nd.srcs ++ nd.dsts, r ∈ rs)
    (hn : ∀ r ∈ nd.cross ++ nd.names ++ nd.spans, r ∈ rs ∨ r ∈ cross) :
    nd.verdict w s.free c.path = .go (w.active s.free c.path nd.h) := by
  obtain ⟨-, hr⟩ := h
  simp only [State.ready, Bool.and_eq_true, Bool.not_eq_true', List.all_eq_true, List.mem_append] at hr
  obtain ⟨⟨hd, hrs⟩, hc⟩ := hr
  refine Need.verdict_go hsup (fun h => by rw [hd] at h; cases h) ?_ ?_ ?_
  · intro r h
    apply hrs
    simp only [List.mem_append] at h hsrc
    rcases h with (h | h) | h
    · exact .inl h
    · exact .inr (hsrc r (.inl h))
    · exact .inr (hsrc r (.inr h))
  · intro r h
    rcases hn r (by simp only [List.mem_append] at h ⊢; exact .inl h) with h | h
    · have := Wave.usable_iff.1 (hrs r (.inr h)); exact ⟨this.1, this.2.1⟩
    · have := Wave.usable_iff.1 (hc r h); exact ⟨this.1, this.2.1⟩
  · intro r h
    rcases hn r (by simp only [List.mem_append]; exact .inr h) with h | h
    · exact (Wave.usable_iff.1 (hrs r (.inr h))).1
    · exact (Wave.usable_iff.1 (hc r h)).1

end Sys2Proof.Machine
end

