-- ==== Sys2Proof/Laws/Write.lean ====
section
/-! SUPPORT. What the advance of a path, a write of registers and a park change, field by field. -/

namespace Sys2Proof.Machine

/-! ### Waves -/

theorem Tab.get_foldl_put_other {α : Type} (d : α) (f : Nat → α) (ls : List Nat) (t : Tab α) {j : Nat} (h : j ∉ ls) :
    Tab.get d (ls.foldl (fun t l => Tab.put t l (f l)) t) j = Tab.get d t j := by
  induction ls generalizing t with
  | nil => rfl
  | cons l ls ih =>
    simp only [List.mem_cons, not_or] at h
    rw [List.foldl_cons, ih _ h.2, Tab.get_put_other _ _ _ _ h.1]

theorem Tab.get_foldl_put_mem {α : Type} (d : α) (f : Nat → α) (ls : List Nat) (t : Tab α) {j : Nat} (h : j ∈ ls) :
    Tab.get d (ls.foldl (fun t l => Tab.put t l (f l)) t) j = f j := by
  induction ls generalizing t with
  | nil => cases h
  | cons l ls ih =>
    rw [List.foldl_cons]
    by_cases hj : j ∈ ls
    · exact ih _ hj
    · have : j = l := by cases h with
        | head => rfl
        | tail _ h => exact absurd h hj
      subst this
      rw [Tab.get_foldl_put_other _ _ _ _ hj, Tab.get_put_self]

theorem Wave.pc_setPcs (w : Wave) (m : Mask) (f : Nat → Ctr) (l : Nat) (h : l < 32) :
    (w.setPcs m f).pc l = if m.getLsbD l then f l else w.pc l := by
  unfold Wave.pc Wave.setPcs
  by_cases hm : m.getLsbD l = true
  · rw [if_pos hm]; exact Tab.get_foldl_put_mem _ _ _ _ (mem_lanes.2 ⟨h, hm⟩)
  · rw [if_neg hm]; exact Tab.get_foldl_put_other _ _ _ _ (fun hl => hm (mem_lanes.1 hl).2)

@[simp] theorem Wave.setPcs_rest (w : Wave) (m : Mask) (f : Nat → Ctr) : (w.setPcs m f).rest = w.rest := rfl
@[simp] theorem Wave.setPcs_word (w : Wave) (m : Mask) (f : Nat → Ctr) (r l : Nat) : (w.setPcs m f).word r l = w.word r l := rfl
@[simp] theorem Wave.setPcs_flags (w : Wave) (m : Mask) (f : Nat → Ctr) : (w.setPcs m f).flags = w.flags := rfl

theorem Wave.pc_stepPcs (w : Wave) (m : Mask) (pc : Ctr) (l : Nat) (h : l < 32) :
    (w.stepPcs m pc).pc l = if m.getLsbD l then nextPc pc else w.pc l := w.pc_setPcs m (fun _ => nextPc pc) l h

@[simp] theorem Wave.stepPcs_rest (w : Wave) (m : Mask) (pc : Ctr) : (w.stepPcs m pc).rest = w.rest := rfl
@[simp] theorem Wave.stepPcs_word (w : Wave) (m : Mask) (pc : Ctr) (r l : Nat) : (w.stepPcs m pc).word r l = w.word r l := rfl
@[simp] theorem Wave.stepPcs_flags (w : Wave) (m : Mask) (pc : Ctr) : (w.stepPcs m pc).flags = w.flags := rfl

/-- A hint changes the prefetch queue alone (R96). -/
theorem Wave.hinted_eq (w : Wave) (h : Option Reg) : ∃ q, w.hinted h = { w with prefetch := q } := by
  unfold Wave.hinted
  split
  · exact ⟨w.prefetch, rfl⟩
  · split
    · exact ⟨w.prefetch, rfl⟩
    · exact ⟨_, rfl⟩

theorem Wave.advanced_eq (w : Wave) (nd : Need) (path : Mask) (pc : Ctr) : ∃ q ip rc,
    w.advanced nd path pc = { w.stepPcs path pc with
      prefetch := q, ipos := ip, recent := rc, entering := w.entering &&& ~~~path, stalled := 0 } := by
  obtain ⟨q, hq⟩ := (w.stepPcs path pc).hinted_eq nd.h.hint
  refine ⟨q, (Mask.lanes path).foldl (fun t l => Tab.put t l (w.pos l + 1)) w.ipos, (nd.dsts :: w.recent).take 8, ?_⟩
  unfold Wave.advanced
  simp only [hq]

theorem Wave.advanced_rest (w : Wave) (nd : Need) (path : Mask) (pc : Ctr) : (w.advanced nd path pc).rest = w.rest := by
  obtain ⟨q, ip, rc, h⟩ := w.advanced_eq nd path pc
  rw [h]; rfl

theorem Wave.advanced_word (w : Wave) (nd : Need) (path : Mask) (pc : Ctr) (r l : Nat) :
    (w.advanced nd path pc).word r l = w.word r l := by
  obtain ⟨q, ip, rc, h⟩ := w.advanced_eq nd path pc
  rw [h]; rfl

theorem Wave.advanced_flags (w : Wave) (nd : Need) (path : Mask) (pc : Ctr) : (w.advanced nd path pc).flags = w.flags := by
  obtain ⟨q, ip, rc, h⟩ := w.advanced_eq nd path pc
  rw [h]; rfl

theorem Wave.advanced_pc (w : Wave) (nd : Need) (path : Mask) (pc : Ctr) (l : Nat) (hl : l < 32) :
    (w.advanced nd path pc).pc l = if path.getLsbD l then nextPc pc else w.pc l := by
  obtain ⟨q, ip, rc, h⟩ := w.advanced_eq nd path pc
  rw [h]
  exact w.pc_stepPcs path pc l hl

@[simp] theorem Wave.put1_pc (w : Wave) (lat r l : Nat) (v : Word) (j : Nat) : (w.put1 lat r l v).pc j = w.pc j := rfl
@[simp] theorem Wave.put1_flags (w : Wave) (lat r l : Nat) (v : Word) : (w.put1 lat r l v).flags = w.flags := rfl

theorem Wave.put1_word (w : Wave) (lat r l : Nat) (v : Word) (r' l' : Nat) :
    (w.put1 lat r l v).word r' l' = if wordKey r' l' = wordKey r l then v else w.word r' l' :=
  Tab.get_set _ _ _ _ _

@[simp] theorem Wave.put1_rest (w : Wave) (lat r l : Nat) (v : Word) : (w.put1 lat r l v).rest = w.rest := rfl

theorem clrBit_getLsbD (m : Mask) (l j : Nat) (hj : j < 32) :
    (clrBit m l).getLsbD j = (m.getLsbD j && decide (j ≠ l)) := by
  unfold clrBit
  simp only [BitVec.getLsbD_and, BitVec.getLsbD_not, hj, decide_true, Bool.true_and, BitVec.getLsbD_shiftLeft,
    BitVec.getLsbD_one]
  by_cases h : j = l
  · subst h; simp
  · by_cases h2 : j < l
    · simp [h2, h]
    · have : j - l ≠ 0 := by omega
      simp [h, this]

theorem Wave.put1_pois (w : Wave) (lat r l : Nat) (v : Word) :
    (w.put1 lat r l v).pois = Tab.set 0 w.pois r (clrBit (Tab.get 0 w.pois r) l) := rfl

theorem Wave.put1_ecc (w : Wave) (lat r l : Nat) (v : Word) :
    (w.put1 lat r l v).ecc = Tab.set 0 w.ecc r (clrBit (Tab.get 0 w.ecc r) l) := rfl

theorem Wave.put1_cell_self (w : Wave) (lat r l : Nat) (v : Word) (h : l < 32) :
    (w.put1 lat r l v).cell r l = (v, false, false) := by
  simp only [Wave.cell, Wave.put1_word, if_true, Wave.put1_pois, Wave.put1_ecc, Tab.get_set_self, clrBit_getLsbD _ _ _ h]
  simp

theorem Wave.put1_cell_other (w : Wave) (lat r l : Nat) (v : Word) {r' l' : Nat} (h : l < 32) (h' : l' < 32)
    (hne : (r, l) ≠ (r', l')) : (w.put1 lat r l v).cell r' l' = w.cell r' l' := by
  have hk : wordKey r' l' ≠ wordKey r l := fun e => by
    obtain ⟨a, b⟩ := wordKey_inj h' h e
    exact hne (by rw [a, b])
  simp only [Wave.cell, Wave.put1_word, if_neg hk, Wave.put1_pois, Wave.put1_ecc]
  by_cases hr : r' = r
  · subst hr
    have hl : l' ≠ l := fun e => hne (by rw [e])
    simp only [Tab.get_set_self, clrBit_getLsbD _ _ _ h']
    simp [hl]
  · simp only [Tab.get_set_other _ _ _ _ hr]

/-- The cells after words are written in order: one named once holds its value, one not named is as it was. -/
theorem Wave.putWords_cell (lat : Nat) (ws : List (Nat × Nat × Word)) (w : Wave) (hl : ∀ x ∈ ws, x.2.1 < 32)
    (hn : (ws.map fun x => (x.1, x.2.1)).Nodup) :
    (∀ x ∈ ws, (w.putWords lat ws).cell x.1 x.2.1 = (x.2.2, false, false)) ∧
    ∀ r l, l < 32 → (∀ x ∈ ws, (x.1, x.2.1) ≠ (r, l)) → (w.putWords lat ws).cell r l = w.cell r l := by
  induction ws generalizing w with
  | nil => exact ⟨fun x h => absurd h List.not_mem_nil, fun _ _ _ _ => rfl⟩
  | cons y ws ih =>
    simp only [List.map_cons, List.nodup_cons] at hn
    have hl' : ∀ x ∈ ws, x.2.1 < 32 := fun x h => hl x (List.mem_cons_of_mem _ h)
    have hy := hl y (List.mem_cons_self ..)
    obtain ⟨h1, h2⟩ := ih (w.put1 lat y.1 y.2.1 y.2.2) hl' hn.2
    refine ⟨fun x hx => ?_, fun r l hlt hne => ?_⟩
    · cases hx with
      | head =>
        have : ∀ x ∈ ws, (x.1, x.2.1) ≠ (y.1, y.2.1) := fun x hx e => hn.1 (List.mem_map.2 ⟨x, hx, e⟩)
        show (Wave.putWords (w.put1 lat y.1 y.2.1 y.2.2) lat ws).cell y.1 y.2.1 = _
        rw [h2 _ _ hy this]
        exact w.put1_cell_self lat y.1 y.2.1 y.2.2 hy
      | tail _ hx => exact h1 x hx
    · show (Wave.putWords (w.put1 lat y.1 y.2.1 y.2.2) lat ws).cell r l = _
      rw [h2 r l hlt (fun x hx => hne x (List.mem_cons_of_mem _ hx))]
      exact w.put1_cell_other lat y.1 y.2.1 y.2.2 hy hlt (hne y (List.mem_cons_self ..))

@[simp] theorem Wave.putWords_rest (lat : Nat) (ws : List (Nat × Nat × Word)) (w : Wave) :
    (w.putWords lat ws).rest = w.rest := by
  induction ws generalizing w with
  | nil => rfl
  | cons y ws ih => exact (ih _).trans (w.put1_rest ..)

@[simp] theorem Wave.putWords_pc (lat : Nat) (ws : List (Nat × Nat × Word)) (w : Wave) (l : Nat) :
    (w.putWords lat ws).pc l = w.pc l := by
  induction ws generalizing w with
  | nil => rfl
  | cons y ws ih => exact (ih _).trans (w.put1_pc ..)

@[simp] theorem Wave.putWords_flags (lat : Nat) (ws : List (Nat × Nat × Word)) (w : Wave) :
    (w.putWords lat ws).flags = w.flags := by
  induction ws generalizing w with
  | nil => rfl
  | cons y ws ih => exact (ih _).trans (w.put1_flags ..)

theorem Wave.advanced_cell (w : Wave) (nd : Need) (path : Mask) (pc : Ctr) (r l : Nat) :
    (w.advanced nd path pc).cell r l = w.cell r l := by
  obtain ⟨q, ip, rc, h⟩ := w.advanced_eq nd path pc
  rw [h]; rfl

/-! ### States -/

/-- Two states that agree but for records of scopes: waves are the same. -/
theorem State.failScope_waves (s : State) (b d w c x : Nat) : (s.failScope b d w c x).waves = s.waves := rfl

theorem State.marked_waves (s : State) (core ctx : Nat) (x : Xlat) : (s.marked core ctx x).waves = s.waves := by
  unfold State.marked; split <;> rfl

theorem State.spillTake_waves {s t : State} {blk : Nat} {bs : List Byte} {at_ : List Nat}
    (h : s.spillTake blk bs = some (at_, t)) : t.waves = s.waves := by
  unfold State.spillTake at h
  simp only at h
  split at h
  · cases h
  · split at h
    · cases h
    · split at h
      · cases h
      · cases h
        simp [State.marked_waves]

theorem State.spillOldest_waves (s : State) (blk wib : Nat) : (s.spillOldest blk wib).waves = s.waves := by
  unfold State.spillOldest
  split
  · rfl
  · split
    · rfl
    · rename_i h
      exact (State.updRcv_waves _ _ _).trans (State.spillTake_waves h)

theorem State.spillRecs_waves (n : Nat) (s : State) (blk wib : Nat) : (s.spillRecs blk wib n).waves = s.waves := by
  induction n generalizing s with
  | zero => rfl
  | succ n ih =>
    unfold State.spillRecs
    split
    · rfl
    · rw [ih, State.spillOldest_waves]

/-- A record changes no wave (R377). -/
theorem State.recordAt_waves (s : State) (blk wib d : Nat) (loc : RecLoc) (v : RecVal) :
    (s.recordAt blk wib d loc v).waves = s.waves := by
  unfold State.recordAt
  split
  · rfl
  · rw [State.spillRecs_waves]; rfl

theorem State.recordWords_waves (s : State) (k : Nat) (ws : List (Nat × Nat)) : (s.recordWords k ws).waves = s.waves := by
  unfold State.recordWords
  simp only
  split
  · rfl
  · rename_i h
    clear h
    generalize s.wave k = w
    induction ws generalizing s with
    | nil => rfl
    | cons x ws ih => rw [List.foldl_cons, ih, State.record, State.recordAt_waves]

/-- Outside a scope nothing is recorded (R377). -/
theorem State.recordWords_outside (s : State) (k : Nat) (ws : List (Nat × Nat)) (h : (s.block (s.wave k).block).depth = 0) :
    s.recordWords k ws = s := by
  unfold State.recordWords
  simp [h]

/-- Good check bits: the bank reads of an instruction mark nothing (R92). -/
theorem State.settleEcc_clean (s : State) (k : Nat) (act : Mask) (rs : List Nat)
    (h : ∀ r ∈ rs, Tab.get 0 (s.wave k).ecc r = 0) : s.settleEcc k act rs = s := by
  unfold State.settleEcc
  induction rs with
  | nil => rfl
  | cons r rs ih =>
    have hz : Tab.get 0 (s.wave k).ecc r &&& ~~~act = 0 := by rw [h r (List.mem_cons_self ..)]; exact BitVec.zero_and
    rw [List.foldl_cons]
    simp only [hz, if_true]
    exact ih fun r hr => h r (List.mem_cons_of_mem _ hr)

/-- The registers that the bank reads of an instruction look at: its guard's and its sources'. -/
def Need.looks (nd : Need) : List Nat := guardRegs nd.h ++ (nd.srcs ++ nd.cross)

/-- So do those of its guard and its sources together (R73, R92). -/
theorem State.settleReads_clean (s : State) (k : Nat) (nd : Need) (path act : Mask)
    (h : ∀ r ∈ nd.looks, Tab.get 0 (s.wave k).ecc r = 0) : s.settleReads k nd path act = s := by
  unfold State.settleReads
  rw [s.settleEcc_clean k path _ fun r hr => h r (List.mem_append_left _ hr)]
  exact s.settleEcc_clean k act _ fun r hr => h r (List.mem_append_right _ hr)

/-- A state without its waves, its energy and its counter of free values. -/
def State.frameOf (s : State) : (Memory × Device × Flight × Tab Launch × Tab Cluster × Tab Vault × Tab Block × List Turn × Tab L2Line) :=
  (s.mem, s.dev, s.fly, s.launches, s.clusters, s.vaults, s.blocks, s.agenda, s.l2)

theorem State.spend_frame (s : State) (core : Nat) (blk : Option Nat) (ctx n : Nat) :
    (s.spend core blk ctx n).frameOf = s.frameOf := rfl

theorem State.spend_waves (s : State) (core : Nat) (blk : Option Nat) (ctx n : Nat) :
    (s.spend core blk ctx n).waves = s.waves := rfl

theorem State.spend_core (s : State) (core : Nat) (blk : Option Nat) (ctx n j : Nat) :
    ((s.spend core blk ctx n).core j).rest = (s.core j).rest := by
  unfold State.spend
  simp only [State.updCtx_core, State.core_updCore]
  split
  · subst_vars; rfl
  · rfl

theorem State.spend_ctx (s : State) (core : Nat) (blk : Option Nat) (ctx n j : Nat) :
    ((s.spend core blk ctx n).ctx j).rest = (s.ctx j).rest := by
  unfold State.spend
  rw [State.ctx_updCtx]
  split
  · subst_vars; rfl
  · rfl

/-- The state after the path has passed, where the sources' check bits are good: its wave is advanced; nothing else but
energy and the counter of free values changes (R63, R97, R411). -/
theorem State.advance_clean {s : State} {nd : Need} {k : Nat} {w : Wave} (path : Mask) (pc : Ctr) (act : Mask)
    (hw : Tab.find s.waves k = some w) (he : ∀ r ∈ nd.looks, Tab.get 0 w.ecc r = 0) :
    let t := s.advance nd k path pc act
    t.waves = Tab.upd s.waves k (fun w => w.advanced nd path pc) ∧ t.frameOf = s.frameOf ∧
      (∀ n, (t.core n).rest = (s.core n).rest) ∧ (∀ n, (t.ctx n).rest = (s.ctx n).rest) := by
  have hwk : s.wave k = w := by simp [State.wave, Tab.get, hw]
  intro t
  have e : s.settleReads k nd path act = s := s.settleReads_clean k nd path act (by rw [hwk]; exact he)
  refine ⟨?_, ?_, fun n => ?_, fun n => ?_⟩
  all_goals simp only [t, State.advance, e]
  · rfl
  · rfl
  · rw [State.drew_core, State.spend_core, State.updWave_core]
  · rw [State.drew_ctx, State.spend_ctx, State.updWave_ctx]

/-- A change of FLAGS and of nothing else that a wave's instruction may see. -/
def FlagOnly (g : Wave → Wave) : Prop := ∀ w, (g w).rest = w.rest ∧ (∀ l, (g w).pc l = w.pc l) ∧
  ∀ r l, (g w).cell r l = w.cell r l

theorem flagOnly_id : FlagOnly fun w => w := fun _ => ⟨rfl, fun _ => rfl, fun _ _ => rfl⟩

theorem flagOnly_comp {f g : Wave → Wave} (hf : FlagOnly f) (hg : FlagOnly g) : FlagOnly fun w => f (g w) := fun w =>
  ⟨(hf _).1.trans (hg w).1, fun l => ((hf _).2.1 l).trans ((hg w).2.1 l),
    fun r l => ((hf _).2.2 r l).trans ((hg w).2.2 r l)⟩

/-- An instruction of the wave alone: words are written, then a change that keeps its words and its rest. -/
theorem wave_done {s : State} {c : Cur} {w : Wave} {nd : Need} (act : Mask) (lat : Nat) (ws : List (Nat × Nat × Word))
    (g : Wave → Wave) (hw : Tab.find s.waves c.wave = some w) (he : ∀ r ∈ nd.looks, Tab.get 0 w.ecc r = 0)
    (hl : ∀ x ∈ ws, x.2.1 < 32) (hn : (ws.map fun x => (x.1, x.2.1)).Nodup)
    (hg : ∀ w, (g w).rest = w.rest ∧ ∀ r l, (g w).cell r l = w.cell r l) (mark : Bool) :
    let t := ((((s.advance nd c.wave c.path c.pc act).putWords c.wave lat ws).updWave c.wave g).park c.wave mark)
    (∀ l, (t.wave c.wave).pc l = (g ((w.advanced nd c.path c.pc).putWords lat ws)).pc l) ∧ Holds s t c.wave ws ∧
      (t.wave c.wave).flags = (g ((w.advanced nd c.path c.pc).putWords lat ws)).flags ∧
      ((s.block w.block).depth = 0 → Kept s t c.wave) := by
  intro t
  have hwk : s.wave c.wave = w := by simp [State.wave, Tab.get, hw]
  obtain ⟨h1, h2, h3, h4⟩ := State.advance_clean (nd := nd) c.path c.pc act hw he
  generalize ht0 : s.advance nd c.wave c.path c.pc act = t0 at h1 h2 h3 h4
  let w1 := w.advanced nd c.path c.pc
  have hf0 : Tab.find t0.waves c.wave = some w1 := by rw [h1, Tab.find_upd]; simp [hw, w1]
  let r0 := t0.recordWords c.wave (ws.map fun x => (x.1, x.2.1))
  have hr0 : r0.waves = t0.waves := State.recordWords_waves _ _ _
  let w2 := g (w1.putWords lat ws)
  -- the waves at the end
  have hfin : ∃ p x y, Tab.find t.waves c.wave = some { w2 with parked := p, window := x, flagWin := y } ∧ ∀ j, j ≠ c.wave → Tab.find t.waves j = Tab.find s.waves j := by
    have hput : (t0.putWords c.wave lat ws).waves = Tab.upd t0.waves c.wave fun w => w.putWords lat ws := by
      unfold State.putWords; simp only [State.updWave_waves]; rw [show (t0.recordWords c.wave _).waves = t0.waves from hr0]
    have hu : ((t0.putWords c.wave lat ws).updWave c.wave g).waves = Tab.upd (Tab.upd t0.waves c.wave fun w => w.putWords lat ws) c.wave g := by
      simp only [State.updWave_waves, hput]
    have hfu : Tab.find (((t0.putWords c.wave lat ws).updWave c.wave g).waves) c.wave = some w2 := by
      rw [hu]; simp [Tab.find_upd, hf0, w2]
    have hfo : ∀ j, j ≠ c.wave → Tab.find (((t0.putWords c.wave lat ws).updWave c.wave g).waves) j = Tab.find s.waves j := by
      intro j hj; rw [hu]; simp [Tab.find_upd, hj, h1]
    cases hm : mark
    · refine ⟨w2.parked, w2.window, w2.flagWin, ?_, ?_⟩
      · simp only [t, ht0, State.park, hm, Bool.false_eq_true, if_false]; exact hfu
      · intro j hj; simp only [t, ht0, State.park, hm, Bool.false_eq_true, if_false]; exact hfo j hj
    · refine ⟨true, [], [], ?_, ?_⟩
      · simp only [t, ht0, State.park, hm, if_true, State.updWave_waves (k := c.wave)]
        rw [Tab.find_upd, if_pos rfl]
        have := hfu
        simp only [State.updWave_waves] at this
        rw [this]; rfl
      · intro j hj
        simp only [t, ht0, State.park, hm, if_true, State.updWave_waves (k := c.wave)]
        rw [Tab.find_upd, if_neg hj]
        have := hfo j hj
        simp only [State.updWave_waves] at this
        exact this
  obtain ⟨p, x, y, hfk, hfo⟩ := hfin
  have htw : t.wave c.wave = { w2 with parked := p, window := x, flagWin := y } := by simp [State.wave, Tab.get, hfk]
  obtain ⟨g1, g3⟩ := hg (w1.putWords lat ws)
  obtain ⟨c1, c2⟩ := w1.putWords_cell lat ws hl hn
  have hcell : ∀ r l, (t.wave c.wave).cell r l = (w1.putWords lat ws).cell r l := by
    intro r l; rw [htw]; exact g3 r l
  refine ⟨fun l => ?_, ⟨fun x hx => ?_, fun r l hlt hne => ?_⟩, ?_, fun hd => ?_⟩
  · rw [htw]; rfl
  · rw [hcell]; exact c1 x hx
  · rw [hcell, c2 r l hlt hne, hwk]; exact w.advanced_cell ..
  · rw [htw]
  · have hout : r0 = t0 := by
      apply State.recordWords_outside
      have hb : t0.blocks = s.blocks := congrArg (fun x => x.2.2.2.2.2.2.1) h2
      have : t0.wave c.wave = w1 := by simp [State.wave, Tab.get, hf0]
      rw [this]
      have hwb : w1.block = w.block :=
        show w1.rest.block = w.rest.block from congrArg Wave.block (w.advanced_rest nd c.path c.pc)
      rw [hwb]
      show (Tab.get Block.blank t0.blocks w.block).depth = 0
      rw [hb]; exact hd
    have hfr : t.frameOf = s.frameOf := by
      have e1 : ((t0.putWords c.wave lat ws).updWave c.wave g).frameOf = t0.frameOf := by
        have : t0.putWords c.wave lat ws = r0.updWave c.wave fun w => w.putWords lat ws := rfl
        rw [this, hout]; rfl
      have e2 : t.frameOf = ((t0.putWords c.wave lat ws).updWave c.wave g).frameOf := by
        simp only [t, ht0, State.park]; split <;> rfl
      rw [e2, e1, h2]
    have hcc : ∀ n, t.core n = t0.core n ∧ t.ctx n = t0.ctx n := by
      intro n
      have e1 : ((t0.putWords c.wave lat ws).updWave c.wave g).core n = t0.core n ∧
          ((t0.putWords c.wave lat ws).updWave c.wave g).ctx n = t0.ctx n := by
        have : t0.putWords c.wave lat ws = t0.updWave c.wave fun w => w.putWords lat ws := by
          have e : t0.putWords c.wave lat ws = r0.updWave c.wave fun w => w.putWords lat ws := rfl
          rw [e, hout]
        rw [this]; exact ⟨rfl, rfl⟩
      simp only [t, ht0, State.park]
      split
      · exact e1
      · exact e1
    simp only [State.frameOf, Prod.mk.injEq] at hfr
    obtain ⟨f1, f2, f3, f4, f5, f6, f7, f8, f9⟩ := hfr
    refine ⟨f1, f2, f3, f4, f5, f6, f7, f8, f9, fun n => ?_, fun n => ?_, fun j hj => ?_, ?_⟩
    · rw [(hcc n).1]; exact h3 n
    · rw [(hcc n).2]; exact h4 n
    · simp only [State.wave, Tab.get, hfo j hj]
    · rw [htw, hwk]
      show ({ w2 with parked := p, window := x, flagWin := y } : Wave).rest = w.rest
      have : ({ w2 with parked := p, window := x, flagWin := y } : Wave).rest = w2.rest := rfl
      rw [this, g1, Wave.putWords_rest, Wave.advanced_rest]

/-- An instruction that only passes. -/
theorem pass_done {s : State} {c : Cur} {w : Wave} {nd : Need} (act : Mask) (hw : Tab.find s.waves c.wave = some w)
    (he : ∀ r ∈ nd.looks, Tab.get 0 w.ecc r = 0) (mark : Bool) :
    let t := (s.advance nd c.wave c.path c.pc act).park c.wave mark
    Passed s t c ∧ Holds s t c.wave [] ∧ (t.wave c.wave).flags = w.flags ∧ Kept s t c.wave := by
  intro t
  have hwk : s.wave c.wave = w := by simp [State.wave, Tab.get, hw]
  obtain ⟨h1, h2, h3, h4⟩ := State.advance_clean (nd := nd) c.path c.pc act hw he
  generalize ht0 : s.advance nd c.wave c.path c.pc act = t0 at h1 h2 h3 h4
  have hf0 : Tab.find t0.waves c.wave = some (w.advanced nd c.path c.pc) := by rw [h1, Tab.find_upd]; simp [hw]
  have hfin : (∃ p x y, Tab.find t.waves c.wave = some { w.advanced nd c.path c.pc with parked := p, window := x, flagWin := y }) ∧
      ∀ j, j ≠ c.wave → Tab.find t.waves j = Tab.find s.waves j := by
    cases hm : mark
    · refine ⟨⟨(w.advanced nd c.path c.pc).parked, (w.advanced nd c.path c.pc).window, (w.advanced nd c.path c.pc).flagWin, ?_⟩, fun j hj => ?_⟩
      · simp only [t, ht0, State.park, hm, Bool.false_eq_true, if_false]; exact hf0
      · simp only [t, ht0, State.park, hm, Bool.false_eq_true, if_false, h1]; rw [Tab.find_upd, if_neg hj]
    · refine ⟨⟨true, [], [], ?_⟩, fun j hj => ?_⟩
      · simp only [t, ht0, State.park, hm, if_true, State.updWave_waves]
        rw [Tab.find_upd, if_pos rfl, hf0]; rfl
      · simp only [t, ht0, State.park, hm, if_true, State.updWave_waves]
        rw [Tab.find_upd, if_neg hj, h1, Tab.find_upd, if_neg hj]
  obtain ⟨⟨p, x, y, hfk⟩, hfo⟩ := hfin
  have htw : t.wave c.wave = { w.advanced nd c.path c.pc with parked := p, window := x, flagWin := y } := by simp [State.wave, Tab.get, hfk]
  have hfr : t.frameOf = s.frameOf := by
    rw [← h2]; simp only [t, ht0, State.park]; split <;> rfl
  simp only [State.frameOf, Prod.mk.injEq] at hfr
  obtain ⟨f1, f2, f3, f4, f5, f6, f7, f8, f9⟩ := hfr
  refine ⟨fun l hl => ?_, ⟨fun x h => absurd h List.not_mem_nil, fun r l hl _ => ?_⟩, ?_,
    f1, f2, f3, f4, f5, f6, f7, f8, f9, fun n => ?_, fun n => ?_, fun j hj => ?_, ?_⟩
  · rw [htw, hwk]; exact w.advanced_pc nd c.path c.pc l hl
  · rw [htw, hwk]; exact w.advanced_cell nd c.path c.pc r l
  · rw [htw]; exact w.advanced_flags nd c.path c.pc
  · rw [← h3 n]; simp only [t, ht0, State.park]; split <;> rfl
  · rw [← h4 n]; simp only [t, ht0, State.park]; split <;> rfl
  · simp only [State.wave, Tab.get, hfo j hj]
  · rw [htw, hwk]; exact w.advanced_rest nd c.path c.pc

/-- A REGISTER INSTRUCTION: the path passes, words are written, FLAGS may change, the wave may park: that is all. -/
theorem register_done {s : State} {c : Cur} {w : Wave} {nd : Need} (act : Mask) (lat : Nat) (ws : List (Nat × Nat × Word))
    (g : Wave → Wave) (hw : Tab.find s.waves c.wave = some w) (he : ∀ r ∈ nd.looks, Tab.get 0 w.ecc r = 0)
    (hl : ∀ x ∈ ws, x.2.1 < 32) (hn : (ws.map fun x => (x.1, x.2.1)).Nodup) (hg : FlagOnly g) (mark : Bool) :
    let t := ((((s.advance nd c.wave c.path c.pc act).putWords c.wave lat ws).updWave c.wave g).park c.wave mark)
    Passed s t c ∧ Holds s t c.wave ws ∧ (t.wave c.wave).flags = (g ((w.advanced nd c.path c.pc).putWords lat ws)).flags ∧
      ((s.block w.block).depth = 0 → Kept s t c.wave) := by
  intro t
  obtain ⟨h1, h2⟩ := wave_done (nd := nd) act lat ws g hw he hl hn (fun w => ⟨(hg w).1, (hg w).2.2⟩) mark
  have hwk : s.wave c.wave = w := by simp [State.wave, Tab.get, hw]
  exact ⟨fun l hl => by rw [h1 l, (hg _).2.1, Wave.putWords_pc, Wave.advanced_pc _ _ _ _ _ hl, hwk], h2⟩

end Sys2Proof.Machine
end

