-- ==== Sys2Proof/Laws/Light.lean ====
section
/-! SUPPORT. What lines, translations and records change beside their own tables: nothing of the waves but reservations,
nothing of the blocks but recovery state, nothing of the memory but ACC and DIRTY bits. -/

namespace Sys2Proof.Machine

variable {o : Option Nat}

/-! ### Calm -/

theorem Calm.refl (s : State) : Calm o s s := ⟨fun _ => rfl, fun _ => rfl, rfl, rfl, rfl⟩

theorem Calm.trans {s t u : State} (h : Calm o s t) (g : Calm o t u) : Calm o s u :=
  ⟨fun j => (g.1 j).trans (h.1 j), fun n => (g.2.1 n).trans (h.2.1 n), g.2.2.1.trans h.2.2.1, g.2.2.2.1.trans h.2.2.2.1,
    g.2.2.2.2.trans h.2.2.2.2⟩

theorem Calm.of_eq {s t : State} (hw : t.waves = s.waves) (hb : t.blocks = s.blocks) (hd : t.dev = s.dev)
    (hc : t.clusters = s.clusters) (ha : t.agenda = s.agenda) : Calm o s t :=
  ⟨fun _ => by rw [hw], fun _ => by rw [hb], hd, hc, ha⟩

theorem Calm.wave {s t : State} (h : Calm o s t) (k : Nat) : (t.wave k).body = (s.wave k).body := by
  have := h.1 k
  unfold State.wave Tab.get
  cases ht : Tab.find t.waves k <;> cases hs : Tab.find s.waves k <;> simp_all

theorem Calm.block {s t : State} (h : Calm o s t) (n : Nat) : (t.block n).strip o n = (s.block n).strip o n := by
  have := h.2.1 n
  unfold State.block Tab.get
  cases ht : Tab.find t.blocks n <;> cases hs : Tab.find s.blocks n <;> simp_all

theorem Calm.find {s t : State} (h : Calm o s t) {k : Nat} {w : Wave} (hw : Tab.find s.waves k = some w) :
    ∃ x, Tab.find t.waves k = some x ∧ x.body = w.body := by
  have := h.1 k
  rw [hw] at this
  cases ht : Tab.find t.waves k with
  | none => rw [ht] at this; cases this
  | some x => rw [ht] at this; exact ⟨x, rfl, Option.some.inj this⟩

theorem Calm.foldl {α : Type} (f : State → α → State) (h : ∀ s a, Calm o s (f s a)) (ls : List α) (s : State) : Calm o s (ls.foldl f s) := by
  induction ls generalizing s with
  | nil => exact Calm.refl s
  | cons a ls ih => exact (h s a).trans (ih (f s a))

theorem calm_updBlock (s : State) (b : Nat) (f : Block → Block) (h : ∀ n x, Block.strip o n (f x) = Block.strip o n x) : Calm o s (s.updBlock b f) := by
  refine ⟨fun _ => rfl, fun n => ?_, rfl, rfl, rfl⟩
  show (Tab.find (Tab.upd s.blocks b f) n).map (Block.strip o n) = _
  rw [Tab.find_upd]
  split
  · rename_i e; rw [e]; cases hb : Tab.find s.blocks b
    · rfl
    · simp only [Option.map_some]; rw [h]
  · rfl

theorem calm_updRcv (s : State) (b : Nat) (f : Recovery → Recovery) : Calm o s (s.updRcv b f) := calm_updBlock s b _ fun n x => by unfold Block.strip; split <;> rfl

theorem find_mapVals {α β : Type} (m : Tab α) (f : Nat → α → β) (k : Nat) : Tab.find (Tab.mapVals m f) k = (Tab.find m k).map (f k) := by
  induction m with
  | nil => rfl
  | cons x m ih =>
    obtain ⟨j, v⟩ := x
    show (if j = k then some (f j v) else Tab.find (Tab.mapVals m f) k) = _
    rw [ih]
    by_cases h : j = k
    · subst h; simp [Tab.find]
    · simp [Tab.find, h]

theorem calm_mapWaves (s : State) (p : Nat → Wave → Bool) (f : Wave → Wave) (h : ∀ x, (f x).body = x.body) : Calm o s (s.mapWaves p f) := by
  refine ⟨fun j => ?_, fun _ => rfl, rfl, rfl, rfl⟩
  rw [show (s.mapWaves p f).waves = Tab.mapVals s.waves fun k w => if p k w then f w else w from rfl, find_mapVals]
  cases Tab.find s.waves j with
  | none => rfl
  | some w => simp only [Option.map_some]; split <;> simp [h]

theorem calm_endResv (s : State) (core : Nat) : Calm o s (s.endResv core) := calm_mapWaves _ _ _ fun _ => rfl

theorem calm_marked (s : State) (core ctx : Nat) (x : Xlat) : Calm o s (s.marked core ctx x) := by
  unfold State.marked; split
  · exact Calm.of_eq rfl rfl rfl rfl rfl
  · exact Calm.refl s

theorem calm_updFly (s : State) (f : Flight → Flight) : Calm o s (s.updFly f) := Calm.of_eq rfl rfl rfl rfl rfl

theorem calm_failScope (s : State) (b d w c x : Nat) : Calm o s (s.failScope b d w c x) := calm_updRcv ..

theorem calm_spillTake {s t : State} {blk : Nat} {bs : List Byte} {at_ : List Nat} (h : s.spillTake blk bs = some (at_, t)) :
    Calm o s t := by
  unfold State.spillTake at h
  simp only at h
  split at h
  · cases h
  · split at h
    · cases h
    · split at h
      · cases h
      · cases h
        exact (((calm_marked ..).trans (calm_marked ..)).trans (calm_updRcv ..)).trans (calm_updFly ..)

theorem calm_noRoom (s : State) (blk wib : Nat) : Calm o s (s.noRoom blk wib) := calm_failScope ..

theorem calm_spillOldest (s : State) (blk wib : Nat) : Calm o s (s.spillOldest blk wib) := by
  unfold State.spillOldest
  split
  · exact Calm.refl s
  · split
    · exact calm_noRoom ..
    · rename_i h; exact (calm_spillTake h).trans (calm_updRcv ..)

theorem calm_spillRecs (n : Nat) (s : State) (blk wib : Nat) : Calm o s (s.spillRecs blk wib n) := by
  induction n generalizing s with
  | zero => exact Calm.refl s
  | succ n ih =>
    unfold State.spillRecs
    split
    · exact Calm.refl s
    · exact (calm_spillOldest ..).trans (ih _)

theorem calm_recordAt (s : State) (blk wib d : Nat) (loc : RecLoc) (v : RecVal) : Calm o s (s.recordAt blk wib d loc v) := by
  unfold State.recordAt
  split
  · exact Calm.refl s
  · exact (calm_updRcv ..).trans (calm_spillRecs ..)

theorem calm_record (s : State) (blk wib : Nat) (loc : RecLoc) (v : RecVal) : Calm o s (s.record blk wib loc v) := calm_recordAt ..

theorem calm_capture (s : State) (core key : Nat) (pub : Option Nat) : Calm o s (s.capture core key pub) := by
  unfold State.capture
  simp only
  split
  · exact Calm.refl s
  · exact Calm.of_eq rfl rfl rfl rfl rfl

theorem calm_adopt (s : State) (core : Nat) : Calm o s (s.adopt core) := by
  unfold State.adopt
  exact Calm.trans (Calm.of_eq rfl rfl rfl rfl rfl) (calm_endResv ..)

theorem calm_snapBroken (s : State) (core : Nat) : Calm o s (s.snapBroken core) := by
  refine ⟨fun _ => rfl, fun n => ?_, rfl, rfl, rfl⟩
  unfold State.snapBroken
  rw [find_mapVals]
  cases Tab.find s.blocks n with
  | none => rfl
  | some b => simp only [Option.map_some]; unfold Block.strip; split <;> split <;> rfl

theorem calm_implicitAdopt (s : State) (core : Nat) : Calm o s (s.implicitAdopt core) := (calm_adopt ..).trans (calm_snapBroken ..)

theorem calm_evictLine (s : State) (core key : Nat) : Calm o s (s.evictLine core key) := by
  unfold State.evictLine
  simp only
  split
  · exact (calm_capture ..).trans (Calm.of_eq rfl rfl rfl rfl rfl)
  · refine (calm_capture s core key none).trans (Calm.trans (t := (s.capture core key none).updLine core key fun l =>
      { l.keep fun _ b => b.holder.isSome with out := true, read := false, outAt := [] }) (Calm.of_eq rfl rfl rfl rfl rfl) ?_)
    refine Calm.foldl _ (fun s b => ?_) _ _
    split
    · rename_i h; exact ((calm_updRcv ..).trans (calm_spillTake h)).trans (Calm.of_eq rfl rfl rfl rfl rfl)
    · exact (calm_updRcv ..).trans (calm_noRoom ..)

theorem calm_makeRoom (s : State) (core key : Nat) : Calm o s (s.makeRoom core key) := by
  unfold State.makeRoom
  simp only
  split
  · exact Calm.refl s
  · split
    · exact calm_evictLine ..
    · split
      · exact (calm_evictLine ..).trans (calm_implicitAdopt ..)
      · exact Calm.refl s

theorem calm_allocate (s : State) (core key : Nat) : Calm o s (s.allocate core key) := by
  have h : ∀ (b : Bool), Calm o s (if b then s else s.makeRoom core key) := fun b => by
    cases b
    · exact calm_makeRoom ..
    · exact Calm.refl s
  unfold State.allocate
  exact (h _).trans (Calm.of_eq rfl rfl rfl rfl rfl)

theorem calm_l2Evict (s : State) (line : Nat) : Calm o s (s.l2Evict line) := by
  unfold State.l2Evict
  refine Calm.trans (Calm.of_eq rfl rfl rfl rfl rfl) (Calm.foldl _ (fun s b => ?_) _ _)
  exact Calm.of_eq rfl rfl rfl rfl rfl

theorem calm_l2Line (s : State) (ctx line : Nat) : Calm o s (s.l2Line ctx line) := by
  unfold State.l2Line
  simp only
  split
  · exact Calm.refl s
  · exact (Calm.foldl _ (fun s _ => calm_l2Evict s _) _ s).trans (Calm.of_eq rfl rfl rfl rfl rfl)

theorem calm_l2Read (s : State) (ctx : Nat) (places : List Nat) : Calm o s (s.l2Read ctx places) :=
  Calm.foldl _ (fun s l => calm_l2Line s ctx l) _ s

theorem calm_fill (s : State) (core key place : Nat) : Calm o s (s.fill core key place) := by
  unfold State.fill
  simp only
  split
  · exact (calm_allocate ..).trans (Calm.of_eq rfl rfl rfl rfl rfl)
  · exact ((calm_allocate s core key).trans (Calm.of_eq rfl rfl rfl rfl rfl)).trans (calm_l2Read ..)

theorem calm_l1Read (s : State) (core ctx va place : Nat) : Calm o s (s.l1Read core ctx va place).2.2 := by
  have h : ∀ (b : Bool), Calm o s (if b then s.updLine core (lineKey ctx va) fun l => { l with read := true }
      else s.fill core (lineKey ctx va) place) := fun b => by
    cases b
    · exact calm_fill ..
    · exact Calm.of_eq rfl rfl rfl rfl rfl
  unfold State.l1Read
  exact h _

theorem calm_noteDi (s : State) (l : Nat) : Calm o s (s.noteDi l) := Calm.of_eq rfl rfl rfl rfl rfl

theorem calm_spend (s : State) (core : Nat) (blk : Option Nat) (ctx n : Nat) : Calm o s (s.spend core blk ctx n) :=
  Calm.of_eq rfl rfl rfl rfl rfl

theorem calm_markSpan (s : State) (core ctx : Nat) (p : Span) : Calm o s (s.markSpan core ctx p) :=
  (calm_marked ..).trans (calm_marked ..)

theorem calm_fdtUsed (s : State) (core ctx idx : Nat) : Calm o s (s.fdtUsed core ctx idx) := by
  unfold State.fdtUsed
  split
  · exact Calm.refl s
  · exact Calm.of_eq rfl rfl rfl rfl rfl

end Sys2Proof.Machine
end

