-- ==== Sys2Proof/Laws/Grew.lean ====
section
/-! SUPPORT. The bytes of memory through fills, evictions and translations: they only gain ACC and DIRTY bits. -/

namespace Sys2Proof.Machine

theorem or_marks {x y : Byte} (hx : x = 0 ∨ x = 0x80 ∨ x = 1 ∨ x = 0x81) (hy : y = 0 ∨ y = 0x80 ∨ y = 1 ∨ y = 0x81) :
    x ||| y = 0 ∨ x ||| y = 0x80 ∨ x ||| y = 1 ∨ x ||| y = 0x81 := by
  rcases hx with rfl | rfl | rfl | rfl <;> rcases hy with rfl | rfl | rfl | rfl <;> decide

theorem Memory.Grew.refl (m : Memory) : Memory.Grew m m := fun a => ⟨0, .inl rfl, (BitVec.or_zero (x := m.byte a)).symm⟩

theorem Memory.Grew.trans {m n o : Memory} (h : Memory.Grew m n) (g : Memory.Grew n o) : Memory.Grew m o := by
  intro a
  obtain ⟨x, hx, ex⟩ := h a
  obtain ⟨y, hy, ey⟩ := g a
  exact ⟨x ||| y, or_marks hx hy, by rw [ey, ex, BitVec.or_assoc]⟩

theorem Memory.Grew.of_bytes {m n : Memory} (hd : n.dram = m.dram) (hh : n.host = m.host) : Memory.Grew m n := by
  intro a
  refine ⟨0, .inl rfl, ?_⟩
  unfold Memory.byte
  rw [hd, hh]; exact (BitVec.or_zero (x := _)).symm

theorem Memory.byte_of_bytes {m n : Memory} (hd : n.dram = m.dram) (hh : n.host = m.host) (a : Nat) : n.byte a = m.byte a := by
  unfold Memory.byte; rw [hd, hh]

/-! ### Entries -/

theorem leBytes_leNat (bs : List Byte) : leBytes bs.length (leNat bs) = bs := by
  induction bs with
  | nil => rfl
  | cons b bs ih =>
    show BitVec.ofNat 8 (b.toNat + 256 * leNat bs) :: leBytes bs.length ((b.toNat + 256 * leNat bs) / 256) = b :: bs
    have h1 : BitVec.ofNat 8 (b.toNat + 256 * leNat bs) = b := by
      apply BitVec.eq_of_toNat_eq
      rw [BitVec.toNat_ofNat]
      have := b.isLt
      omega
    have h2 : (b.toNat + 256 * leNat bs) / 256 = leNat bs := by have := b.isLt; omega
    rw [h1, h2, ih]

theorem leNat_lt (bs : List Byte) : leNat bs < 2 ^ (8 * bs.length) := by
  induction bs with
  | nil => exact Nat.one_pos
  | cons b bs ih =>
    show b.toNat + 256 * leNat bs < 2 ^ (8 * (bs.length + 1))
    have := b.isLt
    have e : 2 ^ (8 * (bs.length + 1)) = 256 * 2 ^ (8 * bs.length) := by
      rw [Nat.mul_add, Nat.pow_add]; omega
    omega

/-- The bytes of a number with bits set are the bytes of the number and of the bits. -/
theorem leBytes_or (n v w : Nat) : leBytes n (v ||| w) = List.zipWith (· ||| ·) (leBytes n v) (leBytes n w) := by
  induction n generalizing v w with
  | zero => rfl
  | succ n ih =>
    show BitVec.ofNat 8 (v ||| w) :: leBytes n ((v ||| w) / 256) =
      (BitVec.ofNat 8 v ||| BitVec.ofNat 8 w) :: List.zipWith (· ||| ·) (leBytes n (v / 256)) (leBytes n (w / 256))
    have h : (v ||| w) / 256 = v / 256 ||| w / 256 := by
      rw [show (256 : Nat) = 2 ^ 8 from rfl, ← Nat.shiftRight_eq_div_pow, ← Nat.shiftRight_eq_div_pow, ← Nat.shiftRight_eq_div_pow]
      exact Nat.shiftRight_or_distrib
    rw [h, ih, BitVec.ofNat_or]

/-- Bytes written, each the old one with bits of these sets, grow the memory. -/
theorem Memory.write_grew (m : Memory) (bs : List (Nat × Byte))
    (h : ∀ b ∈ bs, ∃ x : Byte, (x = 0 ∨ x = 0x80 ∨ x = 1 ∨ x = 0x81) ∧ b.2 = m.byte b.1 ||| x) : Memory.Grew m (m.write bs) := by
  have key : ∀ (bs : List (Nat × Byte)) (n : Memory), Memory.Grew m n →
      (∀ b ∈ bs, ∃ x : Byte, (x = 0 ∨ x = 0x80 ∨ x = 1 ∨ x = 0x81) ∧ b.2 = m.byte b.1 ||| x) → Memory.Grew m (n.setBytes bs) := by
    intro bs
    induction bs with
    | nil => exact fun n hn _ => hn
    | cons b bs ih =>
      intro n hn hb
      refine ih _ (fun a => ?_) fun c hc => hb c (List.mem_cons_of_mem _ hc)
      by_cases ha : a = b.1
      · subst ha
        obtain ⟨x, hx, e⟩ := hb b (List.mem_cons_self ..)
        exact ⟨x, hx, by rw [Memory.byte_setByte_self]; exact e⟩
      · rw [Memory.byte_setByte_other _ _ _ ha]; exact hn a
  exact Memory.Grew.trans (key bs m (Memory.Grew.refl m) h) (Memory.Grew.of_bytes rfl rfl)

/-- What a mark adds to an entry's bytes. -/
theorem mark_bytes {bits : DWord} (h : bits = pteAcc ∨ bits = pteDirty ∨ bits = pteAcc ||| pteDirty) (i : Nat) (x : Byte)
    (hx : (leBytes 8 bits.toNat)[i]? = some x) : x = 0 ∨ x = 0x80 ∨ x = 1 ∨ x = 0x81 := by
  have key : ∀ (l : List Byte), (l.all fun x => x == 0 || x == 0x80 || x == 1 || x == 0x81) = true → l[i]? = some x →
      x = 0 ∨ x = 0x80 ∨ x = 1 ∨ x = 0x81 := by
    intro l hl hi
    have := List.all_eq_true.1 hl x (List.mem_of_getElem? hi)
    simpa [or_assoc] using this
  rcases h with rfl | rfl | rfl <;> exact key _ (by decide) hx

theorem Memory.orEntry_grew (m : Memory) (pa : Nat) (bits : DWord)
    (h : bits = pteAcc ∨ bits = pteDirty ∨ bits = pteAcc ||| pteDirty) : Memory.Grew m (m.orEntry pa bits) := by
  unfold Memory.orEntry
  simp only
  split
  · exact Memory.Grew.refl m
  · refine m.write_grew _ fun b hb => ?_
    have hv : m.leAt pa 8 < 2 ^ 64 := leNat_lt (m.bytesAt pa 8)
    have e : (BitVec.ofNat 64 (m.leAt pa 8) ||| bits).toNat = m.leAt pa 8 ||| bits.toNat := by
      rw [BitVec.toNat_or, BitVec.toNat_ofNat, Nat.mod_eq_of_lt hv]
    unfold placeBytes at hb
    rw [e, leBytes_or] at hb
    have el : leBytes 8 (m.leAt pa 8) = m.bytesAt pa 8 := leBytes_leNat (m.bytesAt pa 8)
    rw [el] at hb
    obtain ⟨p, hp, rfl⟩ := List.mem_map.1 hb
    have hg := List.mem_zipIdx_iff_getElem?.1 hp
    rw [List.getElem?_zipWith] at hg
    unfold Memory.bytesAt at hg
    rw [List.getElem?_map] at hg
    by_cases hi : p.2 < 8
    · rw [List.getElem?_range hi] at hg
      simp only [Option.map_some] at hg
      cases hx : (leBytes 8 bits.toNat)[p.2]? with
      | none => rw [hx] at hg; cases hg
      | some x =>
        rw [hx] at hg
        simp only [Option.some.injEq] at hg
        exact ⟨x, mark_bytes h _ _ hx, hg.symm⟩
    · rw [List.getElem?_eq_none (by simpa using hi)] at hg
      cases hg

/-- The marks of a translation are ACC and DIRTY bits. -/
theorem translate_marks {s : State} {core ctx va : Nat} {a : Access} {x : Xlat} (h : s.translate core ctx va a = .ok x) :
    ∀ p ∈ x.marks, p.2 = pteAcc ∨ p.2 = pteDirty ∨ p.2 = pteAcc ||| pteDirty := by
  have far : ∀ (t : TlbEntry) (b : Bool), t.xlat va a b = .ok x →
      ∀ p ∈ x.marks, p.2 = pteAcc ∨ p.2 = pteDirty ∨ p.2 = pteAcc ||| pteDirty := by
    intro t b h
    unfold TlbEntry.xlat at h
    split at h
    · cases h; intro p hp; cases hp
    · cases h
  unfold State.translate at h
  simp only at h
  split at h
  · exact far _ _ h
  · split at h
    · exact far _ _ h
    · unfold State.walkXlat at h
      split at h
      · cases h
      · split at h
        · cases h
        · cases h
          intro p hp
          rcases List.mem_cons.1 hp with rfl | hp
          · dsimp only; split
            · exact .inr (.inr rfl)
            · exact .inl rfl
          · obtain ⟨q, -, rfl⟩ := List.mem_map.1 hp
            exact .inl rfl

theorem unitXlate_marks {s : State} {core ctx va : Nat} {a : Access} {x : Xlat} (h : s.unitXlate core ctx va a = .ok x) :
    ∀ p ∈ x.marks, p.2 = pteAcc ∨ p.2 = pteDirty ∨ p.2 = pteAcc ||| pteDirty := by
  unfold State.unitXlate at h
  split at h
  · cases h
  · exact translate_marks h

theorem grew_marks (l : List (Nat × DWord)) (h : ∀ p ∈ l, p.2 = pteAcc ∨ p.2 = pteDirty ∨ p.2 = pteAcc ||| pteDirty) (m : Memory) :
    Memory.Grew m (l.foldl (fun m p => m.orEntry p.1 p.2) m) := by
  induction l generalizing m with
  | nil => exact Memory.Grew.refl m
  | cons p l ih =>
    exact Memory.Grew.trans (m.orEntry_grew _ _ (h p (List.mem_cons_self ..))) (ih (fun q hq => h q (List.mem_cons_of_mem _ hq)) _)

theorem grew_marked {x : Xlat} (h : ∀ p ∈ x.marks, p.2 = pteAcc ∨ p.2 = pteDirty ∨ p.2 = pteAcc ||| pteDirty) (s : State) (core ctx : Nat) :
    Memory.Grew s.mem (s.marked core ctx x).mem := by
  unfold State.marked
  split
  · exact grew_marks _ h _
  · exact Memory.Grew.refl _

/-! ### Lines -/

theorem grew_spillTake {s t : State} {blk : Nat} {bs : List Byte} {at_ : List Nat} (h : s.spillTake blk bs = some (at_, t)) :
    Memory.Grew s.mem t.mem := by
  unfold State.spillTake at h
  simp only at h
  split at h
  · cases h
  · split at h
    · cases h
    · rename_i hx
      split at h
      · cases h
      · rename_i hy
        cases h
        exact Memory.Grew.trans (grew_marked (unitXlate_marks hx) _ _ _) (grew_marked (unitXlate_marks hy) _ _ _)

theorem grew_spillOldest (s : State) (blk wib : Nat) : Memory.Grew s.mem (s.spillOldest blk wib).mem := by
  unfold State.spillOldest
  split
  · exact Memory.Grew.refl _
  · split
    · exact Memory.Grew.refl _
    · rename_i at_ s1 h
      exact (grew_spillTake h : Memory.Grew s.mem s1.mem)

theorem grew_spillRecs (n : Nat) (s : State) (blk wib : Nat) : Memory.Grew s.mem (s.spillRecs blk wib n).mem := by
  induction n generalizing s with
  | zero => exact Memory.Grew.refl _
  | succ n ih =>
    unfold State.spillRecs
    split
    · exact Memory.Grew.refl _
    · exact Memory.Grew.trans (grew_spillOldest _ _ _) (ih _)

theorem grew_recordAt (s : State) (blk wib d : Nat) (loc : RecLoc) (v : RecVal) : Memory.Grew s.mem (s.recordAt blk wib d loc v).mem := by
  unfold State.recordAt
  split
  · exact Memory.Grew.refl _
  · exact grew_spillRecs _ (s.updRcv blk fun r => { r with recs := r.recs ++ [⟨d, loc, v, false, false, [], false⟩] }) _ _

theorem capture_mem (s : State) (core key : Nat) (pub : Option Nat) : (s.capture core key pub).mem = s.mem := by
  unfold State.capture; simp only; split <;> rfl

theorem Memory.Grew.foldl {α : Type} (f : State → α → State) (h : ∀ s a, Memory.Grew s.mem (f s a).mem) (ls : List α) (s : State) :
    Memory.Grew s.mem (ls.foldl f s).mem := by
  induction ls generalizing s with
  | nil => exact Memory.Grew.refl _
  | cons a ls ih => exact Memory.Grew.trans (h s a) (ih (f s a))

theorem grew_evictLine (s : State) (core key : Nat) : Memory.Grew s.mem (s.evictLine core key).mem := by
  unfold State.evictLine
  simp only
  split
  · show Memory.Grew s.mem (s.capture core key none).mem
    rw [capture_mem]; exact Memory.Grew.refl _
  · refine Memory.Grew.trans (n := ((s.capture core key none).updLine core key fun l =>
      { l.keep fun _ b => b.holder.isSome with out := true, read := false, outAt := [] }).mem) ?_ (Memory.Grew.foldl _ (fun s b => ?_) _ _)
    · show Memory.Grew s.mem (s.capture core key none).mem
      rw [capture_mem]; exact Memory.Grew.refl _
    · split
      · rename_i at_ s2 h
        exact (grew_spillTake h : Memory.Grew (s.updRcv b fun r => { r with spilled := true }).mem s2.mem)
      · exact Memory.Grew.refl _

theorem grew_makeRoom (s : State) (core key : Nat) : Memory.Grew s.mem (s.makeRoom core key).mem := by
  unfold State.makeRoom
  simp only
  split
  · exact Memory.Grew.refl _
  · split
    · exact grew_evictLine _ _ _
    · split
      · exact grew_evictLine _ _ _
      · exact Memory.Grew.refl _

theorem grew_allocate (s : State) (core key : Nat) : Memory.Grew s.mem (s.allocate core key).mem := by
  have h : ∀ (b : Bool), Memory.Grew s.mem (if b then s else s.makeRoom core key).mem := fun b => by
    cases b
    · exact grew_makeRoom _ _ _
    · exact Memory.Grew.refl _
  unfold State.allocate
  exact h _

theorem l2Evict_mem (s : State) (line : Nat) : (s.l2Evict line).mem = s.mem := by
  unfold State.l2Evict
  generalize (Tab.get ⟨0, []⟩ s.l2 line).dirty = bs
  have key : ∀ (t : State), t.mem = s.mem → (bs.foldl (fun s b => s.updCtx b.2 fun c => { c with l2wb := satAdd 64 c.l2wb 1 }) t).mem = s.mem := by
    induction bs with
    | nil => exact fun _ h => h
    | cons b bs ih => exact fun t h => ih _ h
  exact key _ rfl

theorem l2Line_mem (s : State) (ctx line : Nat) : (s.l2Line ctx line).mem = s.mem := by
  unfold State.l2Line
  simp only
  split
  · rfl
  · generalize ((s.l2Here line).filter _) = ps
    have key : ∀ (t : State), t.mem = s.mem → (ps.foldl (fun s p => s.l2Evict p.2) t).mem = s.mem := by
      induction ps with
      | nil => exact fun _ h => h
      | cons p ps ih => exact fun t h => ih _ ((l2Evict_mem t _).trans h)
    exact key s rfl

/-- The L2 holds no value of its own: a read through it changes no memory (R193). -/
theorem l2Read_mem (s : State) (ctx : Nat) (places : List Nat) : (s.l2Read ctx places).mem = s.mem := by
  unfold State.l2Read
  generalize (places.map (· / 128)).eraseDups = ls
  have key : ∀ (t : State), t.mem = s.mem → (ls.foldl (fun s line => s.l2Line ctx line) t).mem = s.mem := by
    induction ls with
    | nil => exact fun _ h => h
    | cons p ps ih => exact fun t h => ih _ ((l2Line_mem t ctx p).trans h)
  exact key s rfl

theorem l2Write_mem (s : State) (ctx : Nat) (places : List Nat) : (s.l2Write ctx places).mem = s.mem := l2Read_mem s ctx places

theorem grew_fill (s : State) (core key place : Nat) : Memory.Grew s.mem (s.fill core key place).mem := by
  unfold State.fill
  simp only
  split
  · exact grew_allocate _ _ _
  · rw [l2Read_mem]
    exact grew_allocate s core key

theorem grew_l1Read (s : State) (core ctx va place : Nat) : Memory.Grew s.mem (s.l1Read core ctx va place).2.2.mem := by
  have h : ∀ (b : Bool), Memory.Grew s.mem (if b then s.updLine core (lineKey ctx va) fun l => { l with read := true }
      else s.fill core (lineKey ctx va) place).mem := fun b => by
    cases b
    · exact grew_fill _ _ _ _
    · exact Memory.Grew.refl _
  unfold State.l1Read
  exact h _

theorem fdtUsed_mem (s : State) (core ctx idx : Nat) : (s.fdtUsed core ctx idx).mem = s.mem := by
  unfold State.fdtUsed; split <;> rfl

end Sys2Proof.Machine
end

