-- ==== Sys2Proof/Laws/Began.lean ====
section
/-! SUPPORT. The issuing wave through an instruction that starts work: its path passes, its words stay, P bits are set. -/

namespace Sys2Proof.Machine

variable {o : Option Nat}

/-- How far an instruction of `c` has got from `s` to `t`: its wave has passed it with its words as they were and its P bits
as `p` says; nothing else but `Calm`'s exceptions has changed. -/
structure Began (o : Option Nat) (s t : State) (c : Cur) (w : Wave) (p : Nat → Mask) : Prop where
  own : ∃ x, Tab.find t.waves c.wave = some x ∧
    (∀ l, l < 32 → x.pc l = if c.path.getLsbD l then nextPc c.pc else w.pc l) ∧ (∀ r l, x.cell r l = w.cell r l) ∧
    x.quiet = w.quiet ∧ ∀ r, Tab.get 0 x.pend r = p r
  others : ∀ j, j ≠ c.wave → (Tab.find t.waves j).map Wave.body = (Tab.find s.waves j).map Wave.body
  blocks : ∀ n, (Tab.find t.blocks n).map (Block.strip o n) = (Tab.find s.blocks n).map (Block.strip o n)
  dev : t.dev = s.dev
  clusters : t.clusters = s.clusters
  agenda : t.agenda = s.agenda

theorem quiet_of_body {x y : Wave} (h : x.body = y.body) : x.quiet = y.quiet := by
  have : x.quiet = x.body.quiet := rfl
  rw [this, h]; rfl

theorem quiet_of_rest {x y : Wave} (h : x.rest = y.rest) : x.quiet = y.quiet := by
  have : x.quiet = x.rest.quiet := rfl
  rw [this, h]; rfl

/-- After the path has passed. -/
theorem began_advance {s : State} {c : Cur} {w : Wave} {nd : Need} (act : Mask) (hw : Tab.find s.waves c.wave = some w)
    (he : ∀ r ∈ nd.looks, Tab.get 0 w.ecc r = 0) :
    Began o s (s.advance nd c.wave c.path c.pc act) c w fun r => Tab.get 0 w.pend r := by
  obtain ⟨h1, h2, -, -⟩ := State.advance_clean (nd := nd) c.path c.pc act hw he
  simp only [State.frameOf, Prod.mk.injEq] at h2
  obtain ⟨-, f2, -, -, f5, -, f7, f8, -⟩ := h2
  obtain ⟨q, ip, rc, e⟩ := w.advanced_eq nd c.path c.pc
  refine ⟨⟨w.advanced nd c.path c.pc, ?_, ?_, ?_, ?_, ?_⟩, ?_, ?_, f2, f5, f8⟩
  · rw [h1, Tab.find_upd]; simp [hw]
  · exact fun l hl => w.advanced_pc nd c.path c.pc l hl
  · exact fun r l => w.advanced_cell nd c.path c.pc r l
  · exact quiet_of_rest (w.advanced_rest nd c.path c.pc)
  · intro r; rw [e]; rfl
  · intro j hj; rw [h1, Tab.find_upd, if_neg hj]
  · intro n; rw [f7]

theorem Began.calm {s t u : State} {c : Cur} {w : Wave} {p : Nat → Mask} (h : Began o s t c w p) (g : Calm o t u) : Began o s u c w p := by
  obtain ⟨⟨x, hx, h1, h2, h3, h4⟩, h5, h6, h7, h8, h9⟩ := h
  obtain ⟨y, hy, e⟩ := g.find hx
  have hb : ∀ {α : Type} (f : Wave → α), (∀ v : Wave, f v = f v.body) → f y = f x := fun f hf => by rw [hf y, e, ← hf x]
  refine ⟨⟨y, hy, fun l hl => ?_, fun r l => ?_, ?_, fun r => ?_⟩, fun j hj => (g.1 j).trans (h5 j hj), fun n => (g.2.1 n).trans (h6 n),
    g.2.2.1.trans h7, g.2.2.2.1.trans h8, g.2.2.2.2.trans h9⟩
  · rw [hb (fun v => v.pc l) fun _ => rfl]; exact h1 l hl
  · rw [hb (fun v => v.cell r l) fun _ => rfl]; exact h2 r l
  · rw [quiet_of_body e]; exact h3
  · rw [hb (fun v => Tab.get 0 v.pend r) fun _ => rfl]; exact h4 r

/-- A change of the wave alone that keeps its counters and words. -/
theorem Began.updWave {s t : State} {c : Cur} {w : Wave} {p q : Nat → Mask} (h : Began o s t c w p) (f : Wave → Wave)
    (hpc : ∀ x l, (f x).pc l = x.pc l) (hc : ∀ x r l, (f x).cell r l = x.cell r l) (hq : ∀ x, (f x).quiet = x.quiet)
    (hp : ∀ x, (∀ r, Tab.get 0 x.pend r = p r) → ∀ r, Tab.get 0 (f x).pend r = q r) : Began o s (t.updWave c.wave f) c w q := by
  obtain ⟨⟨x, hx, h1, h2, h3, h4⟩, h5, h6, h7, h8, h9⟩ := h
  refine ⟨⟨f x, ?_, fun l hl => (hpc x l).trans (h1 l hl), fun r l => (hc x r l).trans (h2 r l), (hq x).trans h3, hp x h4⟩, fun j hj => ?_, h6, h7, h8, h9⟩
  · show Tab.find (Tab.upd t.waves c.wave f) c.wave = _
    rw [Tab.find_upd]; simp [hx]
  · show (Tab.find (Tab.upd t.waves c.wave f) j).map Wave.body = _
    rw [Tab.find_upd, if_neg hj]; exact h5 j hj

theorem Began.flags {s t : State} {c : Cur} {w : Wave} {p : Nat → Mask} (h : Began o s t c w p) (f : Wave → Wave)
    (hf : FlagOnly f) (hp : ∀ x, (f x).pend = x.pend) : Began o s (t.updWave c.wave f) c w p :=
  h.updWave f (fun x l => (hf x).2.1 l) (fun x r l => (hf x).2.2 r l) (fun x => quiet_of_rest (hf x).1) fun x hx r => by rw [hp]; exact hx r

theorem Began.orFlags {s t : State} {c : Cur} {w : Wave} {p : Nat → Mask} (h : Began o s t c w p) (f : Flags) :
    Began o s (t.orFlags c.wave f) c w p :=
  h.flags _ (fun w => by
    unfold Wave.putFlags Wave.settleBits
    dsimp only
    split <;> exact ⟨rfl, fun _ => rfl, fun _ _ => rfl⟩) fun x => by
    unfold Wave.putFlags Wave.settleBits; dsimp only; split <;> rfl

theorem Began.stepSto {s t : State} {c : Cur} {w : Wave} {p : Nat → Mask} (h : Began o s t c w p) (m : RMode) :
    Began o s (t.stepSto c.wave m) c w p :=
  h.flags _ (fun w => by
    by_cases e : w.mode m = .sto
    · rw [if_pos e]; exact ⟨rfl, fun _ => rfl, fun _ _ => rfl⟩
    · rw [if_neg e]; exact ⟨rfl, fun _ => rfl, fun _ _ => rfl⟩) fun x => by
    by_cases e : x.mode m = .sto
    · rw [if_pos e]
    · rw [if_neg e]

theorem Began.park {s t : State} {c : Cur} {w : Wave} {p : Nat → Mask} (h : Began o s t c w p) (mark : Bool) :
    Began o s (t.park c.wave mark) c w p := by
  unfold State.park
  split
  · exact h.updWave _ (fun _ _ => rfl) (fun _ _ _ => rfl) (fun _ => rfl) fun _ h => h
  · exact h

theorem calm_recordWords (s : State) (k : Nat) (ws : List (Nat × Nat)) : Calm o s (s.recordWords k ws) := by
  unfold State.recordWords
  dsimp only
  split
  · exact Calm.refl s
  · exact Calm.foldl _ (fun s x => calm_record ..) ws s

/-- The P bits of words added. -/
def pendAdd (p : Nat → Mask) (ws : List (Nat × Nat)) (r : Nat) : Mask :=
  ws.foldl (fun m x => if x.1 = r then setBit m x.2 else m) (p r)

theorem get_pend (ws : List (Nat × Nat)) (t : Tab Mask) (r : Nat) :
    Tab.get 0 (ws.foldl (fun t x => Tab.set 0 t x.1 (setBit (Tab.get 0 t x.1) x.2)) t) r = pendAdd (fun r => Tab.get 0 t r) ws r := by
  unfold pendAdd
  induction ws generalizing t with
  | nil => rfl
  | cons x ws ih =>
    rw [List.foldl_cons, ih, List.foldl_cons]
    dsimp only
    rw [Tab.get_set]
    by_cases h : r = x.1
    · subst h; simp
    · rw [if_neg h, if_neg (Ne.symm h)]

theorem setBit_getLsbD (m : Mask) (l j : Nat) (hj : j < 32) : (setBit m l).getLsbD j = (m.getLsbD j || decide (j = l)) := by
  unfold setBit
  simp only [BitVec.getLsbD_or, BitVec.getLsbD_shiftLeft, BitVec.getLsbD_one, hj, decide_true, Bool.true_and]
  by_cases h : j = l
  · subst h; simp
  · by_cases h2 : j < l
    · simp [h2, h]
    · have : j - l ≠ 0 := by omega
      simp [h, this]

theorem pendAdd_bit (p : Nat → Mask) (ws : List (Nat × Nat)) (r l : Nat) (hl : l < 32) :
    (pendAdd p ws r).getLsbD l = ((p r).getLsbD l || decide ((r, l) ∈ ws)) := by
  unfold pendAdd
  generalize p r = m
  induction ws generalizing m with
  | nil => simp
  | cons x ws ih =>
    rw [List.foldl_cons, ih]
    by_cases h : x.1 = r
    · rw [if_pos h, setBit_getLsbD _ _ _ hl]
      subst h
      by_cases h2 : l = x.2
      · subst h2; simp
      · have : ((x.1, l) ∈ x :: ws) = ((x.1, l) ∈ ws) := by
          simp only [List.mem_cons, eq_iff_iff]
          exact ⟨fun e => e.resolve_left fun e => h2 (congrArg Prod.snd e), .inr⟩
        simp only [this, h2, decide_false, Bool.or_false]
    · rw [if_neg h]
      have : ((r, l) ∈ x :: ws) = ((r, l) ∈ ws) := by
        simp only [List.mem_cons, eq_iff_iff]
        exact ⟨fun e => e.resolve_left fun e => h (congrArg Prod.fst e).symm, .inr⟩
      simp only [this]

theorem Began.pendWords {s t : State} {c : Cur} {w : Wave} {p : Nat → Mask} (h : Began o s t c w p) (ws : List (Nat × Nat)) :
    Began o s (t.pendWords c.wave ws) c w (pendAdd p ws) := by
  unfold State.pendWords
  refine (h.calm (calm_recordWords ..)).updWave _ (fun _ _ => rfl) (fun _ _ _ => rfl) (fun _ => rfl) fun x hx r => ?_
  show Tab.get 0 (ws.foldl (fun t x => Tab.set 0 t x.1 (setBit (Tab.get 0 t x.1) x.2)) x.pend) r = _
  rw [get_pend]
  unfold pendAdd; dsimp only; rw [hx r]

theorem Began.deliver {s t : State} {c : Cur} {w : Wave} {p : Nat → Mask} (h : Began o s t c w p) (ws : List (Nat × Nat × Word))
    (bad : List (Nat × Nat)) (owes : List OwedFault) (imm : Bool) :
    Began o s (t.deliver c.wave ws bad owes imm) c w (pendAdd p (ws.map fun x => (x.1, x.2.1))) := by
  unfold State.deliver
  exact (h.pendWords _).calm (Calm.of_eq rfl rfl rfl rfl rfl)

/-- What the statements say of it. -/
theorem Began.facts {s t : State} {c : Cur} {w : Wave} {p : Nat → Mask} (h : Began o s t c w p) (hw : Tab.find s.waves c.wave = some w) :
    Passed s t c ∧ Holds s t c.wave [] ∧ (t.wave c.wave).quiet = (s.wave c.wave).quiet := by
  obtain ⟨⟨x, hx, h1, h2, h3, h4⟩, h5, h6, h7, h8, h9⟩ := h
  have e1 : s.wave c.wave = w := by simp [State.wave, Tab.get, hw]
  have e2 : t.wave c.wave = x := by simp [State.wave, Tab.get, hx]
  refine ⟨fun l hl => ?_, ⟨fun x h => absurd h List.not_mem_nil, fun r l hl _ => ?_⟩, ?_⟩
  · rw [e1, e2]; exact h1 l hl
  · rw [e1, e2]; exact h2 r l
  · rw [e1, e2]; exact h3

/-- Where no space of the block is named, nothing else changes. -/
theorem Began.steady {s t : State} {c : Cur} {w : Wave} {p : Nat → Mask} (h : Began none s t c w p)
    (hw : Tab.find s.waves c.wave = some w) : Steady s t c.wave := by
  obtain ⟨⟨x, hx, h1, h2, h3, h4⟩, h5, h6, h7, h8, h9⟩ := h
  exact ⟨h5, by rw [hx, hw]; exact congrArg some h3, h6, h7, h8, h9⟩

theorem Began.pends {s t : State} {c : Cur} {w : Wave} {ws : List (Nat × Nat)} (h : Began o s t c w (pendAdd (fun r => Tab.get 0 w.pend r) ws))
    (hw : Tab.find s.waves c.wave = some w) : Pends s t c.wave ws := by
  obtain ⟨⟨x, hx, -, -, -, h4⟩, -⟩ := h
  have e1 : s.wave c.wave = w := by simp [State.wave, Tab.get, hw]
  have e2 : t.wave c.wave = x := by simp [State.wave, Tab.get, hx]
  intro r l hl
  rw [e1, e2, h4, pendAdd_bit _ _ _ _ hl]

/-- No P bit changes. -/
theorem Began.pends_none {s t : State} {c : Cur} {w : Wave} (h : Began o s t c w fun r => Tab.get 0 w.pend r)
    (hw : Tab.find s.waves c.wave = some w) : Pends s t c.wave [] := by
  have : Began o s t c w (pendAdd (fun r => Tab.get 0 w.pend r) []) := h
  exact this.pends hw

end Sys2Proof.Machine
end

