-- ==== Sys2Proof/Laws/Results.lean ====
section
/-! SUPPORT. What an instruction that writes registers and FLAGS leaves, by the shape of its own part. -/

namespace Sys2Proof.Machine

theorem Tab.del_ins_self {α : Type} (m : Tab α) (k : Nat) (v : α) (h : Tab.find m k = none) : Tab.del (Tab.ins m k v) k = m := by
  induction m with
  | nil => simp [Tab.ins, Tab.del]
  | cons x m ih =>
    obtain ⟨j, w⟩ := x
    have hj : j ≠ k := fun e => by simp [Tab.find, e] at h
    have hm : Tab.find m k = none := by simpa [Tab.find, hj] using h
    unfold Tab.ins
    split
    · simp only [Tab.del, if_true, if_neg hj]
      congr 1
      clear ih h
      induction m with
      | nil => rfl
      | cons y m ih =>
        obtain ⟨i, u⟩ := y
        have hi : i ≠ k := fun e => by simp [Tab.find, e] at hm
        have hm' : Tab.find m k = none := by simpa [Tab.find, hi] using hm
        simp only [Tab.del, if_neg hi, ih hm']
    · simp only [Tab.del, if_neg hj, ih hm]

theorem Tab.upd_upd {α : Type} (t : Tab α) (k : Nat) (f g : α → α) : Tab.upd (Tab.upd t k f) k g = Tab.upd t k fun x => g (f x) := by
  unfold Tab.upd
  cases h : Tab.find t k with
  | none => simp only [h]
  | some v =>
    simp only [Tab.find_put_self]
    unfold Tab.put
    rw [Tab.del_ins_self _ _ _ (Tab.find_del_self t k)]

theorem State.updWave_updWave (s : State) (k : Nat) (f g : Wave → Wave) : (s.updWave k f).updWave k g = s.updWave k fun w => g (f w) := by
  show { s with waves := Tab.upd (Tab.upd s.waves k f) k g } = { s with waves := Tab.upd s.waves k fun w => g (f w) }
  rw [Tab.upd_upd]

/-- Words written change nothing more by an update of the wave that changes nothing. -/
theorem State.putWords_upd (s : State) (k lat : Nat) (ws : List (Nat × Nat × Word)) : (s.putWords k lat ws).updWave k (fun w => w) = s.putWords k lat ws := by
  unfold State.putWords
  rw [State.updWave_updWave]

theorem State.putWords_nil (s : State) (k lat : Nat) (g : Wave → Wave) : (s.putWords k lat []).updWave k g = s.updWave k g := by
  have h : s.recordWords k [] = s := by unfold State.recordWords; simp
  show ((s.recordWords k []).updWave k (fun w => w)).updWave k g = _
  rw [h, State.updWave_updWave]

/-- The check bits of what a ready instruction reads are good (R92). -/
theorem State.Ready.looks_clean {s : State} {c : Cur} {w : Wave} {nd : Need} {rs cross : List Nat} (hr : s.Ready c w nd.h rs cross)
    (hsrc : ∀ r ∈ nd.srcs ++ nd.dsts, r ∈ rs) (hn : ∀ r ∈ nd.cross ++ nd.names ++ nd.spans, r ∈ rs ∨ r ∈ cross) :
    ∀ r ∈ nd.looks, Tab.get 0 w.ecc r = 0 := by
  intro r h
  have hrr := hr.2
  simp only [State.ready, Bool.and_eq_true, List.all_eq_true, List.mem_append] at hrr
  simp only [Need.looks, List.mem_append] at h
  rcases h with h | h | h
  · exact (Wave.usable_iff.1 (hrr.1.2 r (.inl h))).2.2.2.1
  · exact (Wave.usable_iff.1 (hrr.1.2 r (.inr (hsrc r (List.mem_append_left _ h))))).2.2.2.1
  · rcases hn r (by simp [h]) with h | h
    · exact (Wave.usable_iff.1 (hrr.1.2 r (.inr h))).2.2.2.1
    · exact (Wave.usable_iff.1 (hrr.2 r h)).2.2.2.1

/-- A register instruction whose checks pass and whose own part writes words and changes FLAGS delivers. -/
theorem reg_delivers {s : State} {c : Cur} {w : Wave} {nd : Need} {body : Iss → Eff} {rs cross : List Nat}
    (hr : s.Ready c w nd.h rs cross) (lat : Nat) (ws : List (Nat × Nat × Word)) (g : Wave → Wave) (fl : Word)
    (hb : body (s.issAt c w nd (w.active s.free c.path nd.h)) =
      .done (((s.advance nd c.wave c.path c.pc (w.active s.free c.path nd.h)).putWords c.wave lat ws).updWave c.wave g))
    (hsup : nd.sup = false) (hsrc : ∀ r ∈ nd.srcs ++ nd.dsts, r ∈ rs)
    (hn : ∀ r ∈ nd.cross ++ nd.names ++ nd.spans, r ∈ rs ∨ r ∈ cross)
    (hg : FlagOnly g) (hf : (g ((w.advanced nd c.path c.pc).putWords lat ws)).flags = fl)
    (hl : ∀ x ∈ ws, x.2.1 < 32) (hd : (ws.map fun x => (x.1, x.2.1)).Nodup) :
    ∃ t, issue s nd body = .next t ∧ Passed s t c ∧ Holds s t c.wave ws ∧ (t.wave c.wave).flags = fl ∧
      ((s.block w.block).depth = 0 → Kept s t c.wave) := by
  have hv := hr.verdict (by rw [hsup]; simp) hsrc hn
  refine ⟨_, issue_go hr.1 hv, ?_⟩
  rw [hb]
  have he := hr.looks_clean hsrc hn
  have := register_done (nd := nd) (w.active s.free c.path nd.h) lat ws g hr.1.2 he hl hd hg nd.h.mark
  rw [hf] at this
  exact this

/-- An instruction whose checks pass and whose own part does nothing more than pass. -/
theorem issue_passes {s : State} {c : Cur} {w : Wave} {nd : Need} {body : Iss → Eff} {rs cross : List Nat} (hr : s.Ready c w nd.h rs cross)
    (hb : body (s.issAt c w nd (w.active s.free c.path nd.h)) = .done (s.issAt c w nd (w.active s.free c.path nd.h)).t)
    (hsup : nd.sup = true → w.ctx = 0) (hsrc : ∀ r ∈ nd.srcs ++ nd.dsts, r ∈ rs)
    (hn : ∀ r ∈ nd.cross ++ nd.names ++ nd.spans, r ∈ rs ∨ r ∈ cross) :
    ∃ t, issue s nd body = .next t ∧ Passed s t c ∧ Holds s t c.wave [] ∧ (t.wave c.wave).flags = w.flags ∧ Kept s t c.wave := by
  have hv := hr.verdict hsup hsrc hn
  refine ⟨_, issue_go hr.1 hv, ?_⟩
  rw [hb]
  exact pass_done (nd := nd) (w.active s.free c.path nd.h) hr.1.2 (hr.looks_clean hsrc hn) nd.h.mark

/-- An instruction whose checks pass and whose own part writes words and sends lanes to counters. -/
theorem flow_goes {s : State} {c : Cur} {w : Wave} {nd : Need} {body : Iss → Eff} {rs cross : List Nat} (hr : s.Ready c w nd.h rs cross)
    (lat : Nat) (ws : List (Nat × Nat × Word)) (goal : Nat → Ctr)
    (hb : body (s.issAt c w nd (w.active s.free c.path nd.h)) =
      .done (((s.advance nd c.wave c.path c.pc (w.active s.free c.path nd.h)).putWords c.wave lat ws).updWave c.wave fun w' =>
        w'.setPcs (w.active s.free c.path nd.h) goal))
    (hsup : nd.sup = false) (hsrc : ∀ r ∈ nd.srcs ++ nd.dsts, r ∈ rs)
    (hn : ∀ r ∈ nd.cross ++ nd.names ++ nd.spans, r ∈ rs ∨ r ∈ cross)
    (hl : ∀ x ∈ ws, x.2.1 < 32) (hd : (ws.map fun x => (x.1, x.2.1)).Nodup) :
    ∃ t, issue s nd body = .next t ∧ (∀ l, l < 32 → (t.wave c.wave).pc l =
        if (w.active s.free c.path nd.h).getLsbD l then goal l else if c.path.getLsbD l then nextPc c.pc else (s.wave c.wave).pc l) ∧
      Holds s t c.wave ws ∧ (t.wave c.wave).flags = w.flags ∧ ((s.block w.block).depth = 0 → Kept s t c.wave) := by
  have hv := hr.verdict (by rw [hsup]; simp) hsrc hn
  refine ⟨_, issue_go hr.1 hv, ?_⟩
  rw [hb]
  have he := hr.looks_clean hsrc hn
  have hwk : s.wave c.wave = w := by have := hr.1.2; simp [State.wave, Tab.get, this]
  obtain ⟨h1, h2, h3, h4⟩ := wave_done (nd := nd) (w.active s.free c.path nd.h) lat ws
    (fun w' => w'.setPcs (w.active s.free c.path nd.h) goal) hr.1.2 he hl hd (fun _ => ⟨rfl, fun _ _ => rfl⟩) nd.h.mark
  refine ⟨fun l hl => ?_, h2, ?_, h4⟩
  · refine (h1 l).trans ?_
    rw [Wave.pc_setPcs _ _ _ _ hl, Wave.putWords_pc, Wave.advanced_pc _ _ _ _ _ hl, hwk]
  · refine h3.trans ?_
    show ((w.advanced nd c.path c.pc).putWords lat ws).flags = _
    rw [Wave.putWords_flags, Wave.advanced_flags]

/-! ### Words -/

theorem foldr_flatMap {α β : Type} (f : α → List β) (ls : List α) :
    ls.foldr (fun l ws => f l ++ ws) [] = ls.flatMap f := by
  induction ls with
  | nil => rfl
  | cons x ls ih => rw [List.foldr_cons, ih, List.flatMap_cons]

/-- The keys of per-lane words are distinct where each lane's are. -/
theorem lane_words_nodup (m : Mask) (f : Nat → List (Nat × Nat × Word)) (h : ∀ l, ∀ x ∈ f l, x.2.1 = l)
    (hd : ∀ l, ((f l).map fun x => (x.1, x.2.1)).Nodup) :
    (((Mask.lanes m).flatMap f).map fun x => (x.1, x.2.1)).Nodup ∧ ∀ x ∈ (Mask.lanes m).flatMap f, x.2.1 < 32 := by
  constructor
  · rw [List.map_flatMap]
    have hl := lanes_nodup m
    generalize Mask.lanes m = ls at hl
    induction ls with
    | nil => simp
    | cons l ls ih =>
      rw [List.flatMap_cons, List.nodup_append]
      rw [List.nodup_cons] at hl
      refine ⟨hd l, ih hl.2, ?_⟩
      intro a ha b hb e
      subst e
      obtain ⟨x, hx, rfl⟩ := List.mem_map.1 ha
      obtain ⟨j, hj, hb⟩ := List.mem_flatMap.1 hb
      obtain ⟨y, hy, e⟩ := List.mem_map.1 hb
      have h1 := h l x hx
      have h2 := h j y hy
      simp only [Prod.mk.injEq] at e
      exact hl.1 (by rw [← h1, ← e.2, h2]; exact hj)
  · intro x hx
    obtain ⟨l, hl, hx⟩ := List.mem_flatMap.1 hx
    rw [h l x hx]; exact lanes_lt hl

theorem typed_words (t : RType) (d : Reg) (l v : Nat) : (∀ x ∈ RType.words t d l v, x.2.1 = l) ∧
    ((RType.words t d l v).map fun x => (x.1, x.2.1)).Nodup := by
  unfold RType.words pairWords
  split
  · simp
  · split <;> simp

theorem typed_ok (v : Iss) (t : RType) (d : Reg) (f : Nat → Nat) :
    ((v.typed t d f).map fun x => (x.1, x.2.1)).Nodup ∧ ∀ x ∈ v.typed t d f, x.2.1 < 32 :=
  lane_words_nodup _ _ (fun l => (typed_words t d l (f l)).1) (fun l => (typed_words t d l (f l)).2)

theorem lane_map_flatMap (m : Mask) (f : Nat → Nat × Nat × Word) : (Mask.lanes m).map f = (Mask.lanes m).flatMap fun l => [f l] := by
  generalize Mask.lanes m = ls
  induction ls with
  | nil => rfl
  | cons l ls ih => simp [ih]

theorem each_ok (m : Mask) (r : Nat) (f : Nat → Word) :
    ((((Mask.lanes m).map fun l => (r, l, f l)) : List (Nat × Nat × Word)).map fun x => (x.1, x.2.1)).Nodup ∧
      ∀ x ∈ (Mask.lanes m).map fun l => (r, l, f l), x.2.1 < 32 := by
  rw [lane_map_flatMap]
  exact lane_words_nodup _ _ (fun l x h => by simp at h; rw [h]) (fun l => by simp)

/-! ### FLAGS -/

theorem flagOnly_late (lat l : Nat) (f : Flags) : FlagOnly fun w => w.lateFlags lat l f :=
  fun _ => ⟨rfl, fun _ => rfl, fun _ _ => rfl⟩

theorem flagOnly_step (m : RMode) : FlagOnly fun w => if w.mode m = .sto then { w with flags := stepSeq w.flags } else w := by
  intro w
  dsimp only
  split
  · exact ⟨rfl, fun _ => rfl, fun _ _ => rfl⟩
  · exact ⟨rfl, fun _ => rfl, fun _ _ => rfl⟩

theorem flagOnly_put (m : Word) (f : Word → Word) : FlagOnly fun w => w.putFlags m f := by
  intro w
  unfold Wave.putFlags Wave.settleBits
  dsimp only
  split
  · exact ⟨rfl, fun _ => rfl, fun _ _ => rfl⟩
  · exact ⟨rfl, fun _ => rfl, fun _ _ => rfl⟩

@[simp] theorem Wave.lateFlags_flags (w : Wave) (lat l : Nat) (f : Flags) : (w.lateFlags lat l f).flags = orFlags w.flags f := rfl

theorem putFlags_flags (w : Wave) (m : Word) (f : Word → Word) : (w.putFlags m f).flags = f w.flags := rfl

theorem orFlags_zero (x : Word) : orFlags x 0 = x := by simp [orFlags]

theorem flagsRm_orFlags (x : Word) (f : Flags) : flagsRm (orFlags x f) = flagsRm x := by
  have : (orFlags x f).extractLsb' 15 3 = x.extractLsb' 15 3 := by
    apply BitVec.eq_of_getLsbD_eq
    intro i hi
    have : ¬ (15 + i < 7) := by omega
    have hz : BitVec.getLsbD f (15 + i) = false := BitVec.getLsbD_of_ge _ _ (by omega)
    simp [orFlags, hi, hz]
  unfold flagsRm; rw [this]

theorem foldl_map_snd {β : Type} (ls : List Nat) (f : Nat → β × Flags) (a : Flags) :
    (ls.map fun l => (l, f l)).foldl (fun a r => a ||| r.2.2) a = ls.foldl (fun a l => a ||| (f l).2) a := by
  induction ls generalizing a with
  | nil => rfl
  | cons l ls ih => exact ih _

theorem foldr_map_words (t : RType) (d : Reg) (ls : List Nat) (f : Nat → Nat × Flags) :
    (ls.map fun l => (l, f l)).foldr (fun r ws => RType.words t d r.1 r.2.1 ++ ws) [] = ls.flatMap fun l => RType.words t d l (f l).1 := by
  induction ls with
  | nil => rfl
  | cons l ls ih => rw [List.map_cons, List.foldr_cons, ih, List.flatMap_cons]

/-! ### Shapes -/

section
variable {s : State} {c : Cur} {w : Wave} {nd : Need} {body : Iss → Eff} {rs cross : List Nat}

/-- A next state of a register instruction: words, FLAGS, and nothing else. -/
def Done (s : State) (c : Cur) (w : Wave) (o : Out) (ws : List (Nat × Nat × Word)) (fl : Word) : Prop :=
  ∃ t, o = .next t ∧ Passed s t c ∧ Holds s t c.wave ws ∧ (t.wave c.wave).flags = fl ∧
      ((s.block w.block).depth = 0 → Kept s t c.wave)

/-- The needs of an instruction are among the registers of `Ready`. -/
def Covers (nd : Need) (rs cross : List Nat) : Prop := nd.sup = false ∧ (∀ r ∈ nd.srcs ++ nd.dsts, r ∈ rs) ∧
  ∀ r ∈ nd.cross ++ nd.names ++ nd.spans, r ∈ rs ∨ r ∈ cross

theorem lanesT_done {t : RType} {d : Reg} {f : Nat → Nat} {lat : Nat} (hr : s.Ready c w nd.h rs cross) (hc : Covers nd rs cross)
    (hb : body (s.issAt c w nd (w.active s.free c.path nd.h)) = (s.issAt c w nd (w.active s.free c.path nd.h)).lanesT lat t d f) :
    Done s c w (issue s nd body) ((s.issOf c w nd.h).typed t d f) w.flags := by
  obtain ⟨h1, h2⟩ := typed_ok (s.issOf c w nd.h) t d f
  refine reg_delivers hr lat _ (fun w => w) _ ?_ hc.1 hc.2.1 hc.2.2 flagOnly_id ?_ h2 h1
  · rw [hb, State.putWords_upd]
    unfold Iss.lanesT
    rw [foldr_flatMap]; rfl
  · simp [Wave.advanced_flags]

theorem each_done {r : Nat} {f : Nat → Word} {lat : Nat} (hr : s.Ready c w nd.h rs cross) (hc : Covers nd rs cross)
    (hb : body (s.issAt c w nd (w.active s.free c.path nd.h)) =
      .done ((s.advance nd c.wave c.path c.pc (w.active s.free c.path nd.h)).putWords c.wave lat
        ((Mask.lanes (w.active s.free c.path nd.h)).map fun l => (r, l, f l)))) :
    Done s c w (issue s nd body) ((Mask.lanes (w.active s.free c.path nd.h)).map fun l => (r, l, f l)) w.flags := by
  obtain ⟨h1, h2⟩ := each_ok (w.active s.free c.path nd.h) r f
  refine reg_delivers hr lat _ (fun w => w) _ ?_ hc.1 hc.2.1 hc.2.2 flagOnly_id ?_ h2 h1
  · rw [hb, State.putWords_upd]
  · simp [Wave.advanced_flags]

theorem lanesF_done {t : RType} {d : Reg} {f : Nat → Nat × Flags} {lat : Nat} (hr : s.Ready c w nd.h rs cross) (hc : Covers nd rs cross)
    (hb : body (s.issAt c w nd (w.active s.free c.path nd.h)) = (s.issAt c w nd (w.active s.free c.path nd.h)).lanesF lat t d f) :
    Done s c w (issue s nd body) ((s.issOf c w nd.h).typed t d fun l => (f l).1) ((s.issOf c w nd.h).sticky fun l => (f l).2) := by
  obtain ⟨h1, h2⟩ := typed_ok (s.issOf c w nd.h) t d fun l => (f l).1
  refine reg_delivers hr lat _ (fun x => x.lateFlags lat (Mask.low c.path) ((Mask.lanes (w.active s.free c.path nd.h)).foldl (fun a l => a ||| (f l).2) 0))
    _ ?_ hc.1 hc.2.1 hc.2.2 (flagOnly_late _ _ _) ?_ h2 h1
  · rw [hb]
    unfold Iss.lanesF
    dsimp only
    rw [foldr_map_words, foldl_map_snd]; rfl
  · simp [Wave.advanced_flags]; rfl

/-- FLAGS after a rounding instruction's own part. -/
theorem sto_flags (v : Iss) (m : RMode) (x : Wave) (hx : x.flags = v.w.flags) (f : Flags) (lat l : Nat) :
    ((fun w : Wave => if w.mode m = .sto then { w with flags := stepSeq w.flags } else w) (x.lateFlags lat l f)).flags =
      if v.w.mode m == .sto then stepSeq (orFlags v.w.flags f) else orFlags v.w.flags f := by
  have hm : (x.lateFlags lat l f).mode m = v.w.mode m := by
    unfold Wave.mode
    rw [Wave.lateFlags_flags, hx, flagsRm_orFlags]
  dsimp only
  rw [hm]
  by_cases h : v.w.mode m = .sto <;> simp [h, hx]

/-- Words, flags, and the stochastic sequence where some lane is active and the instruction rounds. -/
theorem rounds_done {ws : List (Nat × Nat × Word)} {lat : Nat} {fl : Flags} {m : RMode} (b : Bool) (hr : s.Ready c w nd.h rs cross)
    (hc : Covers nd rs cross) (hl : ∀ x ∈ ws, x.2.1 < 32) (hd : (ws.map fun x => (x.1, x.2.1)).Nodup)
    (hb : body (s.issAt c w nd (w.active s.free c.path nd.h)) =
      .done (let t := ((s.advance nd c.wave c.path c.pc (w.active s.free c.path nd.h)).putWords c.wave lat ws).orFlagsAt c.wave lat c.path fl
        if w.active s.free c.path nd.h == 0 || !b then t else t.stepSto c.wave m)) :
    Done s c w (issue s nd body) ws (if b then (s.issOf c w nd.h).stepped m (orFlags w.flags fl) else orFlags w.flags fl) := by
  by_cases h : (w.active s.free c.path nd.h == 0 || !b) = true
  · refine reg_delivers hr lat ws (fun x => x.lateFlags lat (Mask.low c.path) fl) _ ?_ hc.1 hc.2.1 hc.2.2 (flagOnly_late _ _ _) ?_ hl hd
    · rw [hb]; simp only [h, if_true]; rfl
    · rw [Wave.lateFlags_flags, Wave.putWords_flags, Wave.advanced_flags]
      unfold Iss.stepped
      cases b
      · simp
      · simp at h; simp [State.issOf, h]
  · refine reg_delivers hr lat ws (fun x => (fun w : Wave => if w.mode m = .sto then { w with flags := stepSeq w.flags } else w)
      (x.lateFlags lat (Mask.low c.path) fl)) _ ?_ hc.1 hc.2.1 hc.2.2 (flagOnly_comp (flagOnly_step m) (flagOnly_late _ _ _)) ?_ hl hd
    · rw [hb]
      simp only [h]
      unfold State.orFlagsAt State.stepSto
      rw [State.updWave_updWave]
      rfl
    · rw [sto_flags (s.issOf c w nd.h) m _ (by simp [Wave.advanced_flags, State.issOf])]
      simp at h
      unfold Iss.stepped
      simp [h.1, h.2, State.issOf]

theorem lanesR_done {t : RType} {d : Reg} {m : RMode} {sat : Bool} {f : Nat → Nat → FVal × Flags} {lat : Nat} (hr : s.Ready c w nd.h rs cross)
    (hc : Covers nd rs cross)
    (hb : body (s.issAt c w nd (w.active s.free c.path nd.h)) = (s.issAt c w nd (w.active s.free c.path nd.h)).lanesR lat t m sat d f) :
    Done s c w (issue s nd body) ((s.issOf c w nd.h).floatResult nd.h t m sat d [] f).words
      ((s.issOf c w nd.h).floatResult nd.h t m sat d [] f).flags := by
  let v := s.issOf c w nd.h
  obtain ⟨h1, h2⟩ := typed_ok v t d fun l => (RType.join t fun k =>
    let x := (RType.ffmt t).ofVal (v.rnd m l k) sat (f l k).1
    (x.1, (f l k).2 ||| x.2)).1
  refine rounds_done (lat := lat) (fl := (Mask.lanes v.act).foldl (fun a l => a ||| (RType.join t fun k =>
    let x := (RType.ffmt t).ofVal (v.rnd m l k) sat (f l k).1
    (x.1, (f l k).2 ||| x.2)).2) 0) (m := m) true hr hc h2 h1 ?_
  rw [hb]
  unfold Iss.lanesR Iss.lanesF
  dsimp only
  rw [foldr_map_words, foldl_map_snd]
  simp only [Iss.idle, State.issAt, Bool.not_true, Bool.or_false, v, State.issOf, Iss.lanes]
  rfl
end

theorem covers_simple {nd : Need} {rs : List Nat} (h1 : nd.sup = false) (h2 : ∀ r ∈ nd.srcs ++ nd.dsts, r ∈ rs) (h3 : nd.cross = [])
    (h4 : ∀ r ∈ nd.names, r ∈ rs) (h5 : nd.spans = []) : Covers nd rs [] :=
  ⟨h1, h2, fun r h => .inl (by rw [h3, h5] at h; simp at h; exact h4 r h)⟩

theorem need3_covers (h : Hdr) (t : RType) (d : Reg) (srcs : List Reg) : Covers (need3 h t d srcs) (typedRegs t srcs ++ regsOf t d) [] :=
  covers_simple rfl (fun r hr => by unfold need3 at hr; rw [foldr_flatMap] at hr; exact hr) rfl (fun r h => by cases h) rfl

theorem need3_covers1 (h : Hdr) (t : RType) (d a : Reg) : Covers (need3 h t d [a]) (regsOf t a ++ regsOf t d) [] :=
  covers_simple rfl (fun r hr => by simpa [need3] using hr) rfl (fun r h => by cases h) rfl

theorem need3_covers0 (h : Hdr) (t : RType) (d : Reg) : Covers (need3 h t d []) ([] ++ regsOf t d) [] :=
  covers_simple rfl (fun r hr => by simpa [need3] using hr) rfl (fun r h => by cases h) rfl

theorem zeros_none {s : State} {c : Cur} {w : Wave} {h : Hdr} {nd : Need} {t : RType} {b : Reg} (hh : nd.h = h)
    (hok : ((s.issOf c w h).lanes.all fun l => (s.issOf c w h).int t b l 0 != 0) = true) :
    (s.issAt c w nd (w.active s.free c.path nd.h)).zeros t b = 0 := by
  subst hh
  apply BitVec.eq_of_getLsbD_eq
  intro l hl
  unfold Iss.zeros
  rw [Mask.of_getLsbD _ _ hl]
  have hz : BitVec.getLsbD (0 : Mask) l = false := BitVec.getLsbD_zero
  rw [hz]
  simp only [List.all_eq_true] at hok
  by_cases hm : (w.active s.free c.path nd.h).getLsbD l = true
  · have := hok l (mem_lanes.2 ⟨hl, hm⟩)
    have h2 : ((s.issAt c w nd (w.active s.free c.path nd.h)).int t b l 0 == 0) = false := by
      exact (by simpa using this : ((s.issOf c w nd.h).int t b l 0 == 0) = false)
    rw [h2]; simp
  · have : (s.issAt c w nd (w.active s.free c.path nd.h)).act.getLsbD l = false := by simpa [State.issAt] using hm
    rw [this]; rfl

theorem covers_list {nd : Need} {rs : List Nat} (h1 : nd.sup = false) (h2 : nd.srcs ++ nd.dsts = rs) (h3 : nd.cross = [])
    (h4 : nd.names = []) (h5 : nd.spans = []) : Covers nd rs [] :=
  ⟨h1, fun r hr => h2 ▸ hr, fun r h => by rw [h3, h4, h5] at h; cases h⟩

theorem mask_eq_zero {m : Mask} : m = 0 ↔ ∀ l, l < 32 → m.getLsbD l = false := by
  constructor
  · intro h l _; rw [h]; exact BitVec.getLsbD_zero
  · intro h
    apply BitVec.eq_of_getLsbD_eq
    intro l hl
    rw [h l hl]; exact BitVec.getLsbD_zero.symm

theorem any_lanes {m : Mask} {p : Nat → Bool} : ((Mask.of fun l => m.getLsbD l && p l) != 0) = (Mask.lanes m).any p := by
  rw [Bool.eq_iff_iff]
  simp only [bne_iff_ne, ne_eq, mask_eq_zero, List.any_eq_true, mem_lanes]
  constructor
  · intro h
    apply Classical.byContradiction
    intro hn
    apply h
    intro l hl
    rw [Mask.of_getLsbD _ _ hl]
    cases hp : m.getLsbD l && p l
    · rfl
    · simp at hp; exact absurd ⟨l, ⟨hl, hp.1⟩, hp.2⟩ hn
  · rintro ⟨l, ⟨hl, hm⟩, hp⟩ h
    have := h l hl
    rw [Mask.of_getLsbD _ _ hl, hm, hp] at this
    cases this

theorem all_lanes {m : Mask} {p : Nat → Bool} : ((Mask.of fun l => m.getLsbD l && p l) == m) = (Mask.lanes m).all p := by
  rw [Bool.eq_iff_iff]
  simp only [beq_iff_eq, List.all_eq_true, mem_lanes]
  constructor
  · rintro h l ⟨hl, hm⟩
    have := congrArg (fun x : Mask => x.getLsbD l) h
    simp only [Mask.of_getLsbD _ _ hl, hm, Bool.true_and] at this
    exact this
  · intro h
    apply BitVec.eq_of_getLsbD_eq
    intro l hl
    rw [Mask.of_getLsbD _ _ hl]
    cases hm : m.getLsbD l
    · rfl
    · simp [h l ⟨hl, hm⟩]

theorem differ_lanes {α : Type} [BEq α] {i : Iss} {f : Nat → α} : (i.differ f == 0) = i.lanes.all fun l => f l == f i.low := by
  have := any_lanes (m := i.act) (p := fun l => !(f l == f i.low))
  have h2 : (i.differ f == 0) = !(i.differ f != 0) := by simp [bne]
  rw [h2]
  show (!((Mask.of fun l => i.act.getLsbD l && !(f l == f i.low)) != 0)) = _
  rw [this]
  show (!((Mask.lanes i.act).any fun l => !(f l == f i.low))) = (Mask.lanes i.act).all fun l => f l == f i.low
  generalize Mask.lanes i.act = ls
  induction ls with
  | nil => rfl
  | cons x ls ih => rw [List.any_cons, List.all_cons, Bool.not_or, ih, Bool.not_not]

/-- A typed result with flags that rounds where `b` says so. -/
theorem lanesFm_done {s : State} {c : Cur} {w : Wave} {nd : Need} {body : Iss → Eff} {rs cross : List Nat}
    {t : RType} {d : Reg} {f : Nat → Nat × Flags} {lat : Nat} {m : RMode} (b : Bool) (hr : s.Ready c w nd.h rs cross) (hc : Covers nd rs cross)
    (hb : body (s.issAt c w nd (w.active s.free c.path nd.h)) =
      (match (s.issAt c w nd (w.active s.free c.path nd.h)).lanesF lat t d f with
        | .done t => .done (if w.active s.free c.path nd.h == 0 || !b then t else t.stepSto c.wave m)
        | e => e)) :
    Done s c w (issue s nd body) ((s.issOf c w nd.h).typed t d fun l => (f l).1)
      (if b then (s.issOf c w nd.h).stepped m ((s.issOf c w nd.h).sticky fun l => (f l).2) else (s.issOf c w nd.h).sticky fun l => (f l).2) := by
  obtain ⟨h1, h2⟩ := typed_ok (s.issOf c w nd.h) t d fun l => (f l).1
  refine rounds_done (lat := lat) (fl := (Mask.lanes (w.active s.free c.path nd.h)).foldl (fun a l => a ||| (f l).2) 0) (m := m) b hr hc h2 h1 ?_
  rw [hb]
  unfold Iss.lanesF
  dsimp only
  rw [foldr_map_words, foldl_map_snd]
  rfl

/-- Words written, and FLAGS through a map that changes FLAGS alone, in an instruction's own part. -/
theorem plain_done {s : State} {c : Cur} {w : Wave} {nd : Need} {body : Iss → Eff} {rs cross : List Nat}
    (ws : List (Nat × Nat × Word)) {lat : Nat} (b : Bool) (m : Word) (f : Word → Word) (hr : s.Ready c w nd.h rs cross)
    (hc : Covers nd rs cross) (hl : ∀ x ∈ ws, x.2.1 < 32) (hd : (ws.map fun x => (x.1, x.2.1)).Nodup)
    (hb : body (s.issAt c w nd (w.active s.free c.path nd.h)) =
      .done (((s.advance nd c.wave c.path c.pc (w.active s.free c.path nd.h)).putWords c.wave lat ws).updWave c.wave
        fun w => if b then w else w.putFlags m f)) :
    Done s c w (issue s nd body) ws (if b then w.flags else f w.flags) := by
  refine reg_delivers hr lat ws (fun w => if b then w else w.putFlags m f) _ hb hc.1 hc.2.1 hc.2.2 ?_ ?_ hl hd
  · cases b
    · exact flagOnly_put m f
    · exact flagOnly_id
  · cases b
    · simp [putFlags_flags, Wave.advanced_flags]
    · simp [Wave.advanced_flags]

theorem flagsOnly_done {s : State} {c : Cur} {w : Wave} {h : Hdr} (m : Word) (f : Word → Word) (hr : s.Ready c w h [] []) :
    Done s c w (issue s (needFlags h []) fun i => i.setFlags m f) [] (if (s.issOf c w h).act = 0 then w.flags else f w.flags) := by
  have := plain_done (lat := 1) (nd := needFlags h []) (body := fun i => i.setFlags m f) [] ((s.issOf c w h).act == 0) m f hr (covers_list rfl rfl rfl rfl rfl)
    (by simp) (by simp) (by rw [State.putWords_nil]; rfl)
  simpa using this

theorem runWords_ok (ls : Mask) (d n : Nat) (f : Nat → Nat → Word) :
    (((Mask.lanes ls).flatMap fun l => (List.range n).map fun k => (d + k, l, f l k)).map fun x => (x.1, x.2.1)).Nodup ∧
      ∀ x ∈ (Mask.lanes ls).flatMap fun l => (List.range n).map fun k => (d + k, l, f l k), x.2.1 < 32 := by
  refine lane_words_nodup _ _ (fun l x h => ?_) (fun l => ?_)
  · obtain ⟨k, -, rfl⟩ := List.mem_map.1 h; rfl
  · rw [List.map_map]
    exact List.Pairwise.map (R := fun a b => a ≠ b) _ (fun a b h e => h (by simp at e; exact e)) List.nodup_range

theorem and_allOnes {m : Mask} (h : m &&& BitVec.allOnes 32 = 0) : m = 0 := by
  rw [BitVec.and_allOnes] at h; exact h

theorem cross_clean {s : State} {c : Cur} {w : Wave} {h : Hdr} {rs cross : List Nat} (hr : s.Ready c w h rs cross) {r : Nat} (hm : r ∈ cross) :
    Tab.get 0 w.pend r = 0 ∧ Tab.get 0 w.ecc r = 0 ∧ Tab.get 0 w.pois r = 0 := by
  have hrr := hr.2
  simp only [State.ready, Bool.and_eq_true, List.all_eq_true] at hrr
  have := Wave.usable_iff.1 (hrr.2 r hm)
  exact ⟨and_allOnes this.2.2.1, this.2.2.2.1, and_allOnes this.2.2.2.2⟩

theorem sourced_zero (i : Iss) (src : Nat → Option Nat) : i.sourced src 0 = 0 := by
  rw [mask_eq_zero]
  intro l hl
  unfold Iss.sourced
  rw [Mask.of_getLsbD _ _ hl]
  cases src l <;> simp

theorem sources_zero (i : Iss) (src : Nat → Option Nat) : i.sources src 0 = 0 := by
  unfold Iss.sources
  generalize i.lanes = ls
  have : ∀ (a : Mask), ls.foldl (fun a l => match src l with
    | some j => if i.act.getLsbD j && (0 : Mask).getLsbD j then setBit a j else a
    | none => a) a = a := by
    intro a
    induction ls generalizing a with
    | nil => rfl
    | cons l ls ih =>
      rw [List.foldl_cons]
      have : (match src l with
        | some j => if i.act.getLsbD j && (0 : Mask).getLsbD j then setBit a j else a
        | none => a) = a := by
        cases src l <;> simp
      rw [this]; exact ih a
  exact this 0

theorem flatMap_same {α β : Type} (ls : List α) (f g : α → List β) (h : ∀ l ∈ ls, f l = g l) : ls.flatMap f = ls.flatMap g := by
  induction ls with
  | nil => rfl
  | cons l ls ih => rw [List.flatMap_cons, List.flatMap_cons, h l (List.mem_cons_self ..), ih fun x hx => h x (List.mem_cons_of_mem _ hx)]

theorem fetch_clean {i : Iss} {rs : List Nat} {src : Nat → Option Nat} {go : Eff}
    (h : ∀ r ∈ rs, Tab.get 0 i.w.pend r = 0 ∧ Tab.get 0 i.w.ecc r = 0 ∧ Tab.get 0 i.w.pois r = 0) : i.fetch rs src go = go := by
  unfold Iss.fetch
  have h1 : (rs.any fun r => i.sourced src (Tab.get 0 i.w.pend r) != 0) = false := by
    rw [List.any_eq_false]; intro r hr; rw [(h r hr).1, sourced_zero]; simp
  have h2 : (rs.find? fun r => i.sources src (Tab.get 0 i.w.ecc r) != 0) = none := by
    rw [List.find?_eq_none]; intro r hr; rw [(h r hr).2.1, sources_zero]; simp
  have h3 : (rs.find? fun r => i.sourced src (Tab.get 0 i.w.pois r ||| Tab.get 0 i.w.ecc r) != 0) = none := by
    rw [List.find?_eq_none]; intro r hr
    rw [(h r hr).2.2, (h r hr).2.1]
    have : (0 : Mask) ||| 0 = 0 := rfl
    rw [this, sourced_zero]; simp
  dsimp only
  simp only [h1, h2, h3, Bool.false_eq_true, if_false]

theorem shuffle_done {s : State} {c : Cur} {w : Wave} {nd : Need} {body : Iss → Eff} {rs : List Nat} {t : RType} {d a : Reg}
    {fill : Option Reg} {idx : Nat → Int} (hr : s.Ready c w nd.h rs (regsOf t a)) (hc : Covers nd rs (regsOf t a))
    (hb : body (s.issAt c w nd (w.active s.free c.path nd.h)) = (s.issAt c w nd (w.active s.free c.path nd.h)).shuffle t d a fill idx) :
    Done s c w (issue s nd body) ((s.issOf c w nd.h).shuffleResult nd.h t d a [] (fun l => laneOf (idx l) fill) ((s.issOf c w nd.h).fillOf t fill)).words w.flags := by
  refine lanesT_done (lat := 4) (d := d) (t := t) hr hc ?_
  rw [hb]
  unfold Iss.shuffle
  rw [fetch_clean (fun r h => cross_clean hr h)]
  rfl

theorem red_done {s : State} {c : Cur} {w : Wave} {nd : Need} {body : Iss → Eff} {rs cross : List Nat} {t : RType} {d : Reg} {op : RedOp}
    {m : RMode} {f : Nat → Nat} {fl : Flags} (hr : s.Ready c w nd.h rs cross) (hc : Covers nd rs cross)
    (hb : body (s.issAt c w nd (w.active s.free c.path nd.h)) = (s.issAt c w nd (w.active s.free c.path nd.h)).redDone op t m d f fl) :
    Done s c w (issue s nd body) ((s.issOf c w nd.h).typed t d f) (if (s.issOf c w nd.h).act = 0 then w.flags else
        if redRounds op t then (s.issOf c w nd.h).stepped m (orFlags w.flags fl) else orFlags w.flags fl) := by
  obtain ⟨h1, h2⟩ := typed_ok (s.issOf c w nd.h) t d f
  by_cases ha : (s.issOf c w nd.h).act = 0
  · rw [if_pos ha]
    have hi : (s.issAt c w nd (w.active s.free c.path nd.h)).idle = true := by
      show ((s.issOf c w nd.h).act == 0) = true; simp [ha]
    have := plain_done (lat := 6) (nd := nd) (body := body) _ true 0 id hr hc h2 h1 (by
      rw [hb]; unfold Iss.redDone; dsimp only
      rw [hi, foldr_flatMap]
      simp only [if_true]
      rw [State.putWords_upd]; rfl)
    exact this
  · rw [if_neg ha]
    have hi : (s.issAt c w nd (w.active s.free c.path nd.h)).idle = false := by
      show ((s.issOf c w nd.h).act == 0) = false; simp; exact ha
    have h3 : (w.active s.free c.path nd.h == 0) = false := hi
    refine rounds_done (lat := 6) (fl := fl) (m := m) (redRounds op t) hr hc h2 h1 ?_
    rw [hb]; unfold Iss.redDone; dsimp only
    rw [hi, foldr_flatMap, h3]
    cases redRounds op t <;> rfl

end Sys2Proof.Machine
end

