-- ==== Sys2Proof/Laws/Flow.lean ====
section
/-! SUPPORT. What a control instruction's own part does, and where its lanes go. -/

namespace Sys2Proof.Machine

/-- A next state of a control instruction: lanes at their counters, words written, nothing else. -/
def FlowDone (s : State) (c : Cur) (w : Wave) (h : Hdr) (o : Out) (ws : List (Nat × Nat × Word)) (goal : Nat → Ctr) : Prop :=
  ∃ t, o = .next t ∧ Went s t c (s.issOf c w h).act goal ∧ Holds s t c.wave ws ∧
      (t.wave c.wave).flags = w.flags ∧ ((s.block w.block).depth = 0 → Kept s t c.wave)

theorem pass_flow {s : State} {c : Cur} {w : Wave} {nd : Need} {body : Iss → Eff} {rs : List Nat} {goal : Nat → Ctr} {ws : List (Nat × Nat × Word)} (hr : s.Ready c w nd.h rs)
    (hc : Covers nd rs []) (hb : body (s.issAt c w nd (w.active s.free c.path nd.h)) = .done (s.issAt c w nd (w.active s.free c.path nd.h)).t)
    (ha : (s.issOf c w nd.h).act = 0) (hw : ws = []) :
    FlowDone s c w nd.h (issue s nd body) ws goal := by
  obtain ⟨t, h1, h2, h3, h4, h5⟩ := issue_passes (nd := nd) (body := body) hr hb (by rw [hc.1]; simp) hc.2.1 hc.2.2
  subst hw
  refine ⟨t, h1, fun l hl => ?_, h3, h4, fun _ => h5⟩
  rw [h2 l hl, ha]; simp

theorem goes_flow {s : State} {c : Cur} {w : Wave} {nd : Need} {body : Iss → Eff} {rs : List Nat} {goal : Nat → Ctr} {ws : List (Nat × Nat × Word)} (hr : s.Ready c w nd.h rs)
    (hc : Covers nd rs []) (hb : body (s.issAt c w nd (w.active s.free c.path nd.h)) =
      .done (((s.advance nd c.wave c.path c.pc (w.active s.free c.path nd.h)).putWords c.wave 1 ws).goTo c.wave (w.active s.free c.path nd.h) goal))
    (hl : ∀ x ∈ ws, x.2.1 < 32) (hd : (ws.map fun x => (x.1, x.2.1)).Nodup) :
    FlowDone s c w nd.h (issue s nd body) ws goal := by
  obtain ⟨t, h1, h2, h3, h4, h5⟩ := flow_goes (nd := nd) (body := body) hr 1 ws goal hb hc.1 hc.2.1 hc.2.2 hl hd
  exact ⟨t, h1, h2, h3, h4, h5⟩

theorem goes_flow0 {s : State} {c : Cur} {w : Wave} {nd : Need} {body : Iss → Eff} {rs : List Nat} {goal : Nat → Ctr} (hr : s.Ready c w nd.h rs)
    (hc : Covers nd rs []) (hb : body (s.issAt c w nd (w.active s.free c.path nd.h)) =
      .done ((s.advance nd c.wave c.path c.pc (w.active s.free c.path nd.h)).goTo c.wave (w.active s.free c.path nd.h) goal)) :
    FlowDone s c w nd.h (issue s nd body) [] goal := by
  refine goes_flow hr hc ?_ (by simp) (by simp)
  rw [hb]
  unfold State.goTo
  rw [State.putWords_nil]

theorem links_eq (i : Iss) (d : Reg) : i.links d = i.linkWords d := by
  unfold Iss.links Iss.each2 Iss.linkWords
  rw [foldr_flatMap]
  refine flatMap_same _ _ _ fun l _ => ?_
  unfold pairWords
  have e1 : BitVec.extractLsb' 0 32 (BitVec.setWidth 64 (nextPc i.pc)) = (nextPc i.pc).setWidth 32 := by
    apply BitVec.eq_of_getLsbD_eq; intro j hj
    have h64 : j < 64 := by omega
    simp only [BitVec.getLsbD_extractLsb', BitVec.getLsbD_setWidth, hj, decide_true, Bool.true_and, Nat.zero_add, h64]
  have e2 : BitVec.extractLsb' 32 32 (BitVec.setWidth 64 (nextPc i.pc)) = ((nextPc i.pc).extractLsb' 32 16).setWidth 32 := by
    apply BitVec.eq_of_getLsbD_eq; intro j hj
    simp only [BitVec.getLsbD_extractLsb', BitVec.getLsbD_setWidth, hj, decide_true, Bool.true_and]
    by_cases h : j < 16
    · simp [h]; omega
    · have h2 : (nextPc i.pc).getLsbD (32 + j) = false := BitVec.getLsbD_of_ge _ _ (by omega)
      simp [h, h2]
  rw [e1, e2]

theorem links_ok (i : Iss) (d : Reg) : ((i.linkWords d).map fun x => (x.1, x.2.1)).Nodup ∧ ∀ x ∈ i.linkWords d, x.2.1 < 32 :=
  lane_words_nodup _ _ (fun l x h => by simp at h; rcases h with rfl | rfl <;> rfl) (fun l => by simp)

theorem enters_go {i : Iss} {t : Target} {lanes : Mask} {go : Ctr → Eff} (h : i.enters t = true) : i.toTarget t lanes go = go ((Target.counter t i.pc).getD 0) := by
  unfold Iss.enters at h
  unfold Iss.toTarget
  split at h
  · rename_i d hd
    rw [hd]
    dsimp only
    generalize i.s.targetClear i.core i.w.ctx i.b.launch d = x at h
    obtain ⟨b, u⟩ := x
    simp at h; subst h; rfl
  · cases h

theorem act_cases (v : Iss) : v.act = 0 ∨ (v.act ≠ 0 ∧ v.idle = false ∧ (v.act == 0) = false) := by
  by_cases h : v.act = 0
  · exact .inl h
  · exact .inr ⟨h, by show (v.act == 0) = false; simpa using h, by simpa using h⟩

theorem idle_of {v : Iss} (h : v.act = 0) : v.idle = true := by show (v.act == 0) = true; simp [h]

theorem links_idle {v : Iss} {d : Reg} (h : v.act = 0) : v.linkWords d = [] := by
  have : v.lanes = [] := by unfold Iss.lanes; rw [h]; decide
  unfold Iss.linkWords; rw [this]; rfl

theorem counters_go {i : Iss} {f : Nat → DWord} {go : Eff} (h : (i.lanes.all fun l => isCounter (f l)) = true) : i.counters f go = go := by
  unfold Iss.counters
  have : (Mask.of fun l => i.act.getLsbD l && !isCounter (f l)) = 0 := by
    have h2 : ((Mask.of fun l => i.act.getLsbD l && !isCounter (f l)) != 0) = false := by
      rw [any_lanes, List.any_eq_false]
      intro l hl
      have := List.all_eq_true.1 h l hl
      rw [this]; simp
    simpa using h2
  rw [this]; simp

theorem idle_pass {v : Iss} (h : v.act = 0) (x : Eff) : (if v.idle then Eff.done v.t else x) = .done v.t := by rw [idle_of h]; rfl

theorem idle_go {v : Iss} (h : v.idle = false) (x : Eff) : (if v.idle then Eff.done v.t else x) = x := by rw [h]; rfl

theorem call_go {i : Iss} {d : Reg} {t : Target} (hi : i.idle = false) (he : i.enters t = true) :
    (if i.idle then Eff.done i.t else i.toTarget t i.act fun c => .done ((i.t.putWords i.k 1 (i.links d)).goTo i.k i.act fun _ => c)) =
      .done ((i.t.putWords i.k 1 (i.linkWords d)).goTo i.k i.act fun _ => (Target.counter t i.pc).getD 0) := by
  rw [idle_go hi, enters_go he, links_eq]

theorem br_go {i : Iss} {t : Target} (hi : i.idle = false) (he : i.enters t = true) :
    (if i.idle then Eff.done i.t else i.toTarget t i.act fun c => .done (i.t.goTo i.k i.act fun _ => c)) =
      .done (i.t.goTo i.k i.act fun _ => (Target.counter t i.pc).getD 0) := by
  rw [idle_go hi, enters_go he]

theorem jmp_go {i : Iss} {t : Target} {m : Mask} (hi : i.idle = false) (hp : (i.act == i.path) = true) (he : i.enters t = true) :
    (if i.idle then Eff.done i.t else if i.act != i.path then i.raise .uniformity none m
      else i.toTarget t i.act fun c => .done (i.t.goTo i.k i.act fun _ => c)) =
      .done (i.t.goTo i.k i.act fun _ => (Target.counter t i.pc).getD 0) := by
  rw [idle_go hi, enters_go he]
  have : (i.act != i.path) = false := by simp [bne, hp]
  rw [this]; rfl

theorem calli_go {i : Iss} {d a : Reg} (h : (i.lanes.all fun l => isCounter (i.rd2 a.toNat l) &&
      !(i.s.targetClear i.core i.w.ctx i.b.launch ((i.rd2 a.toNat l).setWidth 48)).1) = true) :
    (let t := fun l => (i.rd2 a.toNat l).setWidth 48
    i.counters (fun l => i.rd2 a.toNat l) (
      let clear := fun l => (i.s.targetClear i.core i.w.ctx i.b.launch (t l)).1
      let bad := Mask.of fun l => i.act.getLsbD l && clear l
      if bad = 0 then .done ((i.t.putWords i.k 1 (i.links d)).goTo i.k i.act t)
      else i.raise .branchTarget (some ((t (Mask.low bad)).setWidth 64)) bad)) =
    .done ((i.t.putWords i.k 1 (i.linkWords d)).goTo i.k i.act fun l => (i.rd2 a.toNat l).setWidth 48) := by
  have hall := List.all_eq_true.1 h
  have h1 : (i.lanes.all fun l => isCounter (i.rd2 a.toNat l)) = true := List.all_eq_true.2 fun l hl => by
    have := hall l hl; simp only [Bool.and_eq_true] at this; exact this.1
  have h2 : (Mask.of fun l => i.act.getLsbD l && (i.s.targetClear i.core i.w.ctx i.b.launch ((i.rd2 a.toNat l).setWidth 48)).1) = 0 := by
    have h3 : ((Mask.of fun l => i.act.getLsbD l && (i.s.targetClear i.core i.w.ctx i.b.launch ((i.rd2 a.toNat l).setWidth 48)).1) != 0) = false := by
      rw [any_lanes, List.any_eq_false]
      intro l hl
      have := hall l hl; simp only [Bool.and_eq_true, Bool.not_eq_true'] at this
      rw [this.2]; simp
    simpa using h3
  dsimp only
  rw [counters_go h1, if_pos h2, links_eq]

end Sys2Proof.Machine
end

