-- ==== Sys2Proof/Laws/Hash.lean ====
section
/-! SUPPORT. The lengths of what the hash functions answer. -/

namespace Sys2Proof.Machine

theorem spongeBytes_length (a : Sponge) (n : Nat) : (spongeBytes a n).length = n := by simp [spongeBytes]

theorem sha3_length (bs : List Byte) : (sha3 bs).length = 32 := by
  rw [sha3, spongeHash, spongeBytes_length]

theorem kmac128_length (key msg custom : List Byte) (n : Nat) : (kmac128 key msg n custom).length = n := by
  rw [kmac128, spongeHash, spongeBytes_length]

theorem tagMessage_length (index gen ctx kind dev : Nat) : (tagMessage index gen ctx kind dev).length = 16 := by
  simp [tagMessage, leBytes]

end Sys2Proof.Machine
end

