-- ==== Sys2Proof/Laws/Reach.lean ====
section
/-! SUPPORT. What the memory instructions do on their way to memory: translations, reads, writes at the homes and in the
spaces, and where each read instruction ends. -/

namespace Sys2Proof.Machine

variable {o : Option Nat}

/-! ### Calm -/

theorem calm_markOpt (t : State) (core ctx : Nat) (x : Option Xlat) : Calm o t (t.markOpt core ctx x) := by
  cases x
  · exact Calm.refl t
  · exact calm_marked ..

theorem calm_markSpanOpt (t : State) (core ctx : Nat) (x : Option Span) : Calm o t (t.markSpanOpt core ctx x) := by
  cases x
  · exact Calm.refl t
  · exact calm_markSpan ..

theorem calm_fdtOpt (t : State) (core ctx : Nat) (x : Option Nat) : Calm o t (t.fdtOpt core ctx x) := by
  cases x
  · exact Calm.refl t
  · exact calm_fdtUsed ..

theorem calm_touch1 (i : Iss) (t : State) (p : Place) : Calm o t (i.touch1 t p) := by
  unfold Iss.touch1
  refine Calm.trans ?_ (calm_fdtOpt ..)
  exact ((calm_markOpt ..).trans (calm_markSpanOpt ..)).trans (Calm.foldl _ (fun t x => calm_markSpanOpt ..) _ _)

theorem calm_touch (i : Iss) (ps : List (Nat × Place)) (t : State) : Calm o t (i.touch t ps) :=
  Calm.foldl (fun t (p : Nat × Place) => i.touch1 t p.2) (fun t p => calm_touch1 i t p.2) _ _

theorem calm_poisonFill (s : State) (core key place launch : Nat) (need : Nat → Bool) :
    Calm o s (s.poisonFill core key place launch need) := by
  unfold State.poisonFill
  refine Calm.foldl _ (fun t w => ?_) _ _
  dsimp only
  split
  · exact Calm.trans (t := t.poisonWord (place + 32 * w)) (Calm.of_eq rfl rfl rfl rfl rfl) (calm_noteDi ..)
  · exact Calm.refl t

theorem calm_noteFills (i : Iss) (t : State) (cells needed : List (Nat × Nat)) : Calm o t (i.noteFills t cells needed) := by
  unfold Iss.noteFills
  exact Calm.foldl _ (fun t x => calm_poisonFill ..) _ _

theorem calm_readG (s0 : State) (core ctx : Nat) (cells : List (Nat × Nat)) (s : State) : Calm o s (s0.readG core ctx s cells).2 := by
  induction cells generalizing s with
  | nil => exact Calm.refl s
  | cons x xs ih =>
    obtain ⟨va, place⟩ := x
    unfold State.readG
    exact (calm_l1Read s core ctx va (place - va % 128)).trans (ih _)

theorem calm_homeWrite (s : State) (bs : List (Nat × Byte)) (own : Author) : Calm o s (s.homeWrite bs own) := by
  unfold State.homeWrite
  refine Calm.trans (t := { s with
    mem := s.mem.write bs
    waves := Tab.mapVals s.waves fun k w => { w with resv := keepResv (s.ownChange own k) (bs.map fun b => homeLine b.1) w.resv } }) ?_ ?_
  · refine ⟨fun j => ?_, fun _ => rfl, rfl, rfl, rfl⟩
    dsimp only
    rw [find_mapVals]
    cases Tab.find s.waves j <;> rfl
  · exact calm_mapWaves _ _ _ fun _ => rfl

theorem calm_l2Write (s : State) (ctx : Nat) (places : List Nat) : Calm o s (s.l2Write ctx places) :=
  (calm_l2Read s ctx places).trans (Calm.of_eq rfl rfl rfl rfl rfl)

theorem calm_lostWords (s : State) (place : Nat) (lost : BitVec 4) : Calm o s (s.lostWords place lost) := by
  unfold State.lostWords
  split
  · exact Calm.refl s
  · exact Calm.of_eq rfl rfl rfl rfl rfl

theorem calm_yieldDirty (s : State) (ctx off : Nat) (place : Nat → Nat) (l : L1Line) (dirty : List (Nat × Byte × Nat)) (core : Nat) :
    Calm o s (s.yieldDirty ctx off place l dirty core) := by
  unfold State.yieldDirty
  split
  · exact Calm.refl s
  · exact ((calm_homeWrite ..).trans (calm_l2Write ..)).trans (calm_lostWords ..)

theorem calm_yieldBytes (s : State) (core ctx va n : Nat) (place : Nat → Nat) : Calm o s (s.yieldBytes core ctx va n place) := by
  unfold State.yieldBytes
  dsimp only
  exact ((calm_updFly ..).trans (calm_yieldDirty ..)).trans (Calm.of_eq rfl rfl rfl rfl rfl)

theorem calm_readHome (s : State) (core ctx : Nat) (p : Span) : Calm o s (s.readHome core ctx p).2 := by
  unfold State.readHome
  dsimp only
  split
  · exact ((calm_yieldBytes ..).trans (calm_yieldBytes ..)).trans (calm_l2Read ..)
  · exact (calm_yieldBytes ..).trans (calm_l2Read ..)

theorem calm_readBytes (i : Iss) (t : State) (fresh : Bool) (sp : Space) (addr n : Nat) (span : Option Span) :
    Calm o t (i.readBytes t fresh sp addr n span).2 := by
  unfold Iss.readBytes
  cases span with
  | none => exact Calm.refl t
  | some p =>
    cases fresh
    · exact calm_readG ..
    · exact calm_readHome ..

theorem calm_readScales (i : Iss) (fresh : Bool) (p : Place) (xs : List (Nat × Nat × Option Span)) (t : State) :
    Calm o t (i.readScales fresh p t xs).2 := by
  induction xs generalizing t with
  | nil => exact Calm.refl t
  | cons x xs ih =>
    unfold Iss.readScales
    exact (calm_readBytes ..).trans (ih _)

theorem calm_load1 (i : Iss) (t : State) (fresh : Bool) (p : Place) : Calm o t (i.load1 t fresh p).2 := by
  unfold Iss.load1
  exact (calm_readBytes ..).trans (calm_readScales ..)

theorem calm_loads (i : Iss) (ty : RType) (m : RMode) (sat fresh : Bool) (ps : List (Nat × Place)) (t : State) :
    Calm o t (i.loads ty m sat fresh t ps).2 := by
  induction ps generalizing t with
  | nil => exact Calm.refl t
  | cons x xs ih =>
    obtain ⟨l, p⟩ := x
    unfold Iss.loads
    exact (calm_load1 ..).trans (ih _)

theorem calm_portCost (i : Iss) (t : State) (sp : Space) (n : Nat) : Calm o t (i.portCost t sp n) := by
  unfold Iss.portCost
  split <;> first | exact (calm_spend ..).trans (Calm.of_eq rfl rfl rfl rfl rfl) | exact Calm.refl t

/-! ### Memory -/

/-- The bytes outside `p`. -/
theorem GrewBut.refl (p : Nat → Bool) (m : Memory) : Memory.GrewBut p m m := fun a _ => Memory.Grew.refl m a

theorem GrewBut.trans {p : Nat → Bool} {m n o : Memory} (h : Memory.GrewBut p m n) (g : Memory.GrewBut p n o) : Memory.GrewBut p m o := by
  intro a ha
  obtain ⟨x, hx, ex⟩ := h a ha
  obtain ⟨y, hy, ey⟩ := g a ha
  exact ⟨x ||| y, or_marks hx hy, by rw [ey, ex, BitVec.or_assoc]⟩

theorem GrewBut.of_grew {p : Nat → Bool} {m n : Memory} (h : Memory.Grew m n) : Memory.GrewBut p m n := fun a _ => h a

theorem GrewBut.of_bytes {p : Nat → Bool} {m n : Memory} (h : ∀ a, p a = false → n.byte a = m.byte a) : Memory.GrewBut p m n :=
  fun a ha => ⟨0, .inl rfl, by rw [h a ha]; exact (BitVec.or_zero (x := _)).symm⟩

theorem GrewBut.write {p : Nat → Bool} (m : Memory) (bs : List (Nat × Byte)) (h : ∀ b ∈ bs, p b.1 = true) : Memory.GrewBut p m (m.write bs) :=
  GrewBut.of_bytes fun a ha => m.byte_write_other bs fun b hb e => by rw [← e, h b hb] at ha; cases ha

/-- The marks of every translation are ACC and DIRTY bits. -/
def Xlat.proper (x : Xlat) : Prop := ∀ p ∈ x.marks, p.2 = pteAcc ∨ p.2 = pteDirty ∨ p.2 = pteAcc ||| pteDirty

/-- Every translation of an access is proper. -/
def Place.proper (p : Place) : Prop :=
  (∀ x, p.gov = some x → x.proper) ∧ (∀ q, p.span = some q → q.x.proper ∧ q.y.proper ∧ q.n = p.n) ∧
  ∀ y ∈ p.scales, ∀ q, y.2.2 = some q → q.x.proper ∧ q.y.proper

theorem span_proper {s : State} {core ctx va n : Nat} {a : Access} {q : Span} (h : s.span core ctx va n a = .ok q) :
    q.x.proper ∧ q.y.proper ∧ q.n = n := by
  unfold State.span at h
  split at h
  · cases h
  · rename_i hx
    split at h
    · cases h; exact ⟨unitXlate_marks hx, unitXlate_marks hx, rfl⟩
    · split at h
      · cases h
      · rename_i hy
        cases h
        exact ⟨unitXlate_marks hx, unitXlate_marks hy, rfl⟩

theorem governing_proper {i : Iss} {op : MemOp} {b : Bool} {sp : Space} {a : Nat} {f : Fdt} {n : Option Nat} {x : Xlat}
    (h : i.governing op b sp a = .ok (f, n, some x)) : x.proper := by
  unfold Iss.governing at h
  cases sp <;> simp only at h
  case g =>
    split at h
    · cases h
    · rename_i hx; cases h; exact unitXlate_marks hx
  all_goals first
    | cases h
    | (split at h <;> cases h)

theorem grew_markOpt (t : State) (core ctx : Nat) {x : Option Xlat} (h : ∀ y, x = some y → y.proper) :
    Memory.Grew t.mem (t.markOpt core ctx x).mem := by
  cases x
  · exact Memory.Grew.refl _
  · exact grew_marked (h _ rfl) _ _ _

theorem grew_markSpanOpt (t : State) (core ctx : Nat) {x : Option Span} (h : ∀ q, x = some q → q.x.proper ∧ q.y.proper) :
    Memory.Grew t.mem (t.markSpanOpt core ctx x).mem := by
  cases x
  · exact Memory.Grew.refl _
  · exact Memory.Grew.trans (grew_marked (h _ rfl).1 _ _ _) (grew_marked (h _ rfl).2 _ _ _)

theorem fdtOpt_mem (t : State) (core ctx : Nat) (x : Option Nat) : (t.fdtOpt core ctx x).mem = t.mem := by
  cases x
  · rfl
  · exact fdtUsed_mem ..

theorem grew_scales (core ctx : Nat) (xs : List (Nat × Nat × Option Span)) (h : ∀ y ∈ xs, ∀ q, y.2.2 = some q → q.x.proper ∧ q.y.proper)
    (t : State) : Memory.Grew t.mem (xs.foldl (fun t x => t.markSpanOpt core ctx x.2.2) t).mem := by
  induction xs generalizing t with
  | nil => exact Memory.Grew.refl _
  | cons y xs ih =>
    rw [List.foldl_cons]
    exact Memory.Grew.trans (grew_markSpanOpt _ _ _ (h y (List.mem_cons_self ..))) (ih (fun z hz => h z (List.mem_cons_of_mem _ hz)) _)

theorem grew_touch (i : Iss) (ps : List (Nat × Place)) (hp : ∀ x ∈ ps, x.2.proper) (t : State) : Memory.Grew t.mem (i.touch t ps).mem := by
  unfold Iss.touch
  induction ps generalizing t with
  | nil => exact Memory.Grew.refl _
  | cons p ps ih =>
    rw [List.foldl_cons]
    refine Memory.Grew.trans ?_ (ih (fun x hx => hp x (List.mem_cons_of_mem _ hx)) _)
    obtain ⟨g1, g2, g3⟩ := hp p (List.mem_cons_self ..)
    unfold Iss.touch1
    rw [fdtOpt_mem]
    exact Memory.Grew.trans (grew_markOpt _ _ _ g1) (Memory.Grew.trans (grew_markSpanOpt _ _ _ fun q hq => ⟨(g2 q hq).1, (g2 q hq).2.1⟩) (grew_scales _ _ _ g3 _))

theorem grew_poisonFill (s : State) (core key place launch : Nat) (need : Nat → Bool) :
    Memory.Grew s.mem (s.poisonFill core key place launch need).mem := by
  unfold State.poisonFill
  refine Memory.Grew.foldl _ (fun t w => ?_) _ _
  dsimp only
  split
  · exact Memory.Grew.of_bytes rfl rfl
  · exact Memory.Grew.refl _

/-- Words that become poisoned keep their bytes (R188). -/
theorem grew_noteFills (i : Iss) (t : State) (cells needed : List (Nat × Nat)) : Memory.Grew t.mem (i.noteFills t cells needed).mem := by
  unfold Iss.noteFills
  generalize (((cells.filter fun c => i.s.absent i.core i.w.ctx c.1).map fun c => (lineKey i.w.ctx c.1, c.2 - c.1 % 128)).eraseDups) = lines
  induction lines generalizing t with
  | nil => exact Memory.Grew.refl _
  | cons x xs ih =>
    rw [List.foldl_cons]
    exact Memory.Grew.trans (grew_poisonFill t i.core x.1 x.2 i.b.launch _) (ih _)

theorem grew_readG (s0 : State) (core ctx : Nat) (cells : List (Nat × Nat)) (s : State) : Memory.Grew s.mem (s0.readG core ctx s cells).2.mem := by
  induction cells generalizing s with
  | nil => exact Memory.Grew.refl _
  | cons x xs ih =>
    obtain ⟨va, place⟩ := x
    unfold State.readG
    exact Memory.Grew.trans (grew_l1Read s core ctx va (place - va % 128)) (ih _)

theorem portCost_mem (i : Iss) (t : State) (sp : Space) (n : Nat) : (i.portCost t sp n).mem = t.mem := by
  unfold Iss.portCost; split <;> rfl

theorem locate_proper {i : Iss} {op : MemOp} {sp : Space} {chk : Option (BitVec 4)} {t : RType} {a : Nat} {e : Option Int} {p : Place}
    (h : i.locate op sp chk t a e = .ok p) : p.proper := by
  unfold Iss.locate at h
  dsimp only at h
  split at h
  · cases h
  · cases h
  · rename_i p' _ hspan
    cases h
    refine ⟨fun x hx => ?_, fun q hq => ?_, fun y hy q hq => ?_⟩
    · dsimp only at hx
      split at hx
      · rename_i r hr
        obtain ⟨f, n, gx⟩ := r
        dsimp only at hx
        subst hx
        exact governing_proper hr
      · cases hx
    · dsimp only at hq
      subst hq
      split at hspan
      · split at hspan
        · cases hspan
        · rename_i hs; cases hspan; exact span_proper hs
      · cases hspan
    · dsimp only at hy
      obtain ⟨b, -, rfl⟩ := List.mem_map.1 hy
      dsimp only at hq
      split at hq
      · rename_i a' b'
        cases hs : i.s.span i.core i.w.ctx b.2 _ op.acc with
        | error e => rw [hs] at hq; cases hq
        | ok q' => rw [hs] at hq; cases hq; exact ⟨(span_proper hs).1, (span_proper hs).2.1⟩
      · cases hq

/-! ### Locating -/

theorem firstOk (rs : List (Nat × Except Miss Place)) (h : rs.filterMap missOf = []) : (rs.filterMap fun r => r.2.toOption.map fun p => (r.1, p)).map Prod.fst = rs.map Prod.fst ∧
      ∀ x ∈ rs.filterMap (fun r => r.2.toOption.map fun p => (r.1, p)), (x.1, Except.ok x.2) ∈ rs := by
  induction rs with
  | nil => simp
  | cons r rs ih =>
    obtain ⟨l, e⟩ := r
    cases e with
    | error m => simp [missOf] at h
    | ok p =>
      simp only [List.filterMap_cons, missOf] at h
      obtain ⟨h1, h2⟩ := ih h
      refine ⟨by simp only [List.filterMap_cons, Except.toOption, Option.map_some, List.map_cons]; rw [← h1]; rfl, fun x hx => ?_⟩
      simp only [List.filterMap_cons, Except.toOption, Option.map_some] at hx
      rcases List.mem_cons.1 hx with rfl | hx
      · exact List.mem_cons_self ..
      · exact List.mem_cons_of_mem _ (h2 x hx)

theorem foldl_some {α : Type} (f : Option α → α → Option α) (hf : ∀ x a, (f x a).isSome) (ls : List α) (x : Option α)
    (h : (ls.foldl f x) = none) : ls = [] ∧ x = none := by
  induction ls generalizing x with
  | nil => exact ⟨rfl, h⟩
  | cons a ls ih =>
    have := (ih (f x a) h).2
    have h2 := hf x a
    rw [this] at h2; cases h2

theorem locateAll_ok {i : Iss} {f : Nat → Except Miss Place} {ps : List (Nat × Place)} (h : i.locateAll f = .ok ps) :
    ps.map Prod.fst = i.lanes ∧ ∀ x ∈ ps, f x.1 = .ok x.2 := by
  unfold Iss.locateAll at h
  dsimp only at h
  split at h
  · cases h
  · rename_i hn
    cases h
    have hms := (foldl_some _ (fun x a => by cases x <;> dsimp only <;> (try split) <;> rfl) _ _ hn).1
    obtain ⟨h1, h2⟩ := firstOk _ hms
    refine ⟨by rw [h1, List.map_map]; exact (List.map_congr_left fun _ _ => rfl).trans (List.map_id _), fun x hx => ?_⟩
    obtain ⟨l, -, e⟩ := List.mem_map.1 (h2 x hx)
    rw [Prod.mk.injEq] at e
    obtain ⟨rfl, e⟩ := e
    exact e

theorem located_ok {i : Iss} {f : Nat → Except Miss Place} {ps : List (Nat × Place)} (h : i.locateAll f = .ok ps)
    (go : List (Nat × Place) → Eff) : i.located f go = go ps := by
  unfold Iss.located; rw [h]

theorem reach_proper {i : Iss} {op : MemOp} {ma : MemArg} {t : RType} {idx : Option Reg} {l : Nat} {p : Place}
    (h : i.reach op ma t idx l = .ok p) : p.proper := by
  unfold Iss.reach at h
  cases idx <;> exact locate_proper h

/-! ### FLAGS -/

theorem orFlags_mask (x : Word) (f : Flags) : orFlags x f &&& 0x3FF80 = x &&& 0x3FF80 := by
  apply BitVec.eq_of_getLsbD_eq
  intro i hi
  unfold orFlags
  simp only [BitVec.getLsbD_and, BitVec.getLsbD_or]
  by_cases h : i < 7
  · have : (0x3FF80 : Word).getLsbD i = false := by
      have : ∀ j, j < 7 → (0x3FF80 : Word).getLsbD j = false := by decide
      exact this i h
    rw [this]; simp
  · have : (f.setWidth 32 : Word).getLsbD i = false := by
      rw [BitVec.getLsbD_setWidth]
      have hz : BitVec.getLsbD f i = false := BitVec.getLsbD_of_ge _ _ (by omega)
      rw [hz]; simp
    rw [this]; simp

theorem stepSeq_mask (x : Word) : stepSeq x &&& 0x3FF80 = x &&& 0x3FF80 := by
  apply BitVec.eq_of_getLsbD_eq
  intro i hi
  unfold stepSeq
  show (((x.extractLsb' 0 18).setWidth 32 ||| ((x.extractLsb' 18 14 + 1).setWidth 32 <<< 18)) &&& 0x3FF80 : Word).getLsbD i = _
  simp only [BitVec.getLsbD_and, BitVec.getLsbD_or]
  by_cases h : i < 18
  · have h1 : ((x.extractLsb' 0 18).setWidth 32 : Word).getLsbD i = x.getLsbD i := by
      rw [BitVec.getLsbD_setWidth, BitVec.getLsbD_extractLsb']; simp [hi, h]
    have h2 : (((x.extractLsb' 18 14 + 1).setWidth 32 <<< 18 : Word)).getLsbD i = false := by
      rw [BitVec.getLsbD_shiftLeft]; simp [h]
    rw [h1, h2]; simp
  · have : ∀ j, j < 32 → 18 ≤ j → (0x3FF80 : Word).getLsbD j = false := by decide
    rw [this i hi (by omega)]; simp

/-! ### The invariant of an access's work -/

/-- Where an access's work has got to. -/
structure Reaches (s t : State) (c : Cur) (w : Wave) (ps : List (Nat × Place)) (p : Nat → Mask) : Prop where
  began : Began (some w.block) s t c w p
  mem : Memory.GrewBut (fun a => ps.any fun x => x.2.homes.contains a) s.mem t.mem
  buf : ∀ sp a, (∀ x ∈ ps, x.2.touches sp a = false) → ((t.block w.block).buf sp).byte a = ((s.block w.block).buf sp).byte a

theorem buf_of_calm {s t : State} (h : Calm none s t) (blk : Nat) (sp : Space) : (t.block blk).buf sp = (s.block blk).buf sp := by
  have := h.block blk
  have hb : ∀ b : Block, b.buf sp = (b.strip none blk).buf sp := fun b => by cases sp <;> rfl
  rw [hb, this, ← hb]

theorem calm_weaken {s t : State} (h : Calm none s t) (o : Option Nat) : Calm o s t := by
  obtain ⟨h1, h2, h3⟩ := h
  refine ⟨h1, fun n => ?_, h3⟩
  have := h2 n
  have e : ∀ b : Block, Block.strip o n b = (fun x : Block => if o = some n then { x with s := Buffer.blank, a := Buffer.blank } else x) (b.strip none n) :=
    fun b => by unfold Block.strip; simp
  have e2 : ∀ b : Option Block, b.map (Block.strip o n) = (b.map (Block.strip none n)).map
      (fun x : Block => if o = some n then { x with s := Buffer.blank, a := Buffer.blank } else x) := fun b => by
    cases b
    · rfl
    · simp only [Option.map_some]; rw [e]
  rw [e2, e2, this]

theorem Reaches.calm {s t u : State} {c : Cur} {w : Wave} {ps : List (Nat × Place)} {p : Nat → Mask} (h : Reaches s t c w ps p)
    (g : Calm none t u) (m : Memory.GrewBut (fun a => ps.any fun x => x.2.homes.contains a) t.mem u.mem) : Reaches s u c w ps p :=
  ⟨h.began.calm (calm_weaken g _), GrewBut.trans h.mem m, fun sp a ha => by rw [buf_of_calm g]; exact h.buf sp a ha⟩

theorem Reaches.quiet {s t u : State} {c : Cur} {w : Wave} {ps : List (Nat × Place)} {p : Nat → Mask} (h : Reaches s t c w ps p)
    (g : Calm none t u) (m : u.mem = t.mem) : Reaches s u c w ps p :=
  h.calm g (by rw [m]; exact GrewBut.refl _ _)

theorem Reaches.wave {s t u : State} {c : Cur} {w : Wave} {ps : List (Nat × Place)} {p q : Nat → Mask} (h : Reaches s t c w ps p)
    (g : Began (some w.block) s u c w q) (m : u.mem = t.mem) (b : u.blocks = t.blocks) : Reaches s u c w ps q :=
  ⟨g, by rw [m]; exact h.mem, fun sp a ha => by
    have : u.block w.block = t.block w.block := by unfold State.block; rw [b]
    rw [this]; exact h.buf sp a ha⟩

theorem reaches_advance {s : State} {c : Cur} {w : Wave} {nd : Need} (ps : List (Nat × Place)) (act : Mask)
    (hw : Tab.find s.waves c.wave = some w) (he : ∀ r ∈ nd.looks, Tab.get 0 w.ecc r = 0) :
    Reaches s (s.advance nd c.wave c.path c.pc act) c w ps fun r => Tab.get 0 w.pend r := by
  obtain ⟨h1, h2, -, -⟩ := State.advance_clean (nd := nd) c.path c.pc act hw he
  simp only [State.frameOf, Prod.mk.injEq] at h2
  refine ⟨began_advance act hw he, ?_, fun sp a _ => ?_⟩
  · rw [h2.1]; exact GrewBut.refl _ _
  · have : (s.advance nd c.wave c.path c.pc act).block w.block = s.block w.block := by unfold State.block; rw [h2.2.2.2.2.2.2.1]
    rw [this]

theorem recordWords_mem_grew (s : State) (k : Nat) (ws : List (Nat × Nat)) : Memory.Grew s.mem (s.recordWords k ws).mem := by
  unfold State.recordWords
  dsimp only
  split
  · exact Memory.Grew.refl _
  · exact Memory.Grew.foldl _ (fun s x => grew_recordAt s _ _ _ _ _) ws s

theorem Reaches.deliver {s t : State} {c : Cur} {w : Wave} {ps : List (Nat × Place)} {p : Nat → Mask} (h : Reaches s t c w ps p)
    (ws : List (Nat × Nat × Word)) (bad : List (Nat × Nat)) (owes : List OwedFault) (imm : Bool) :
    Reaches s (t.deliver c.wave ws bad owes imm) c w ps (pendAdd p (ws.map fun x => (x.1, x.2.1))) := by
  have h1 : Reaches s (t.recordWords c.wave (ws.map fun x => (x.1, x.2.1))) c w ps p :=
    h.calm (calm_recordWords ..) (GrewBut.of_grew (recordWords_mem_grew t c.wave _))
  exact h1.wave (h.began.deliver ws bad owes imm) rfl rfl

theorem Reaches.park {s t : State} {c : Cur} {w : Wave} {ps : List (Nat × Place)} {p : Nat → Mask} (h : Reaches s t c w ps p)
    (mark : Bool) : Reaches s (t.park c.wave mark) c w ps p := by
  refine h.wave (h.began.park mark) ?_ ?_ <;> (unfold State.park; split <;> rfl)

theorem deliver_result (t : State) (k : Nat) (ws : List (Nat × Nat × Word)) (bad : List (Nat × Nat)) (owes : List OwedFault) (imm : Bool) :
    ∃ id x, Tab.find (t.deliver k ws bad owes imm).fly.results id = some x ∧ x.wave = k ∧
      x.writes.map Prod.fst = ws.map fun x => wordKey x.1 x.2.1 := by
  unfold State.deliver
  refine ⟨_, _, Tab.find_put_self .., rfl, ?_⟩
  rw [List.map_map]; rfl

theorem park_fly (t : State) (k : Nat) (m : Bool) : (t.park k m).fly = t.fly := by unfold State.park; split <;> rfl

theorem wave_flags_of_calm {s t : State} {o : Option Nat} (h : Calm o s t) (k : Nat) : (t.wave k).flags = (s.wave k).flags := by
  have := h.wave k
  have e : ∀ v : Wave, v.flags = v.body.flags := fun _ => rfl
  rw [e, this, ← e]

theorem deliver_flags (t : State) (k : Nat) (ws : List (Nat × Nat × Word)) (bad : List (Nat × Nat)) (owes : List OwedFault) (imm : Bool) :
    ((t.deliver k ws bad owes imm).wave k).flags = (t.wave k).flags := by
  unfold State.deliver State.pendWords
  have : ((t.recordWords k (ws.map fun x => (x.1, x.2.1))).wave k).flags = (t.wave k).flags :=
    wave_flags_of_calm (o := none) (calm_recordWords ..) k
  rw [← this]
  dsimp only
  rw [State.updFly_wave, State.named_wave]
  unfold State.wave
  rw [State.updWave_waves]
  unfold Tab.get
  rw [Tab.find_upd]
  simp only [if_true]
  cases Tab.find (t.recordWords k (ws.map fun x => (x.1, x.2.1))).waves k <;> rfl

theorem park_flags (t : State) (k : Nat) (m : Bool) : ((t.park k m).wave k).flags = (t.wave k).flags := by
  unfold State.park
  split
  · unfold State.wave
    rw [State.updWave_waves]
    unfold Tab.get
    rw [Tab.find_upd]
    simp only [if_true]
    cases Tab.find t.waves k <;> rfl
  · rfl

theorem words_keys (t : RType) (d : Reg) (l v : Nat) :
    (RType.words t d l v).map (fun x => (x.1, x.2.1)) = (regsOf t d).map fun r => (r, l) := by
  unfold RType.words regsOf pairWords
  split
  · rfl
  · split <;> rfl

theorem foldr_words_keys (ty : RType) (d : Reg) (rs : List (Nat × Nat × Option (Cause × Nat))) :
    (rs.foldr (fun r ws => RType.words ty d r.1 r.2.1 ++ ws) []).map (fun x => (x.1, x.2.1)) =
      (rs.map Prod.fst).flatMap fun l => (regsOf ty d).map fun r => (r, l) := by
  induction rs with
  | nil => rfl
  | cons r rs ih => rw [List.foldr_cons, List.map_append, ih, words_keys, List.map_cons, List.flatMap_cons]

theorem loads_fst (i : Iss) (ty : RType) (m : RMode) (sat fresh : Bool) (ps : List (Nat × Place)) (t : State) :
    (i.loads ty m sat fresh t ps).1.map Prod.fst = ps.map Prod.fst := by
  induction ps generalizing t with
  | nil => rfl
  | cons x xs ih =>
    obtain ⟨l, p⟩ := x
    unfold Iss.loads
    dsimp only
    rw [List.map_cons, ih]; rfl

theorem loads_raw (i : Iss) (ty : RType) (m : RMode) (sat fresh : Bool) (ps : List (Nat × Place)) (t : State)
    (h : ∀ x ∈ ps, x.2.fdt.fmt = 0) : ∀ r ∈ (i.loads ty m sat fresh t ps).1, r.2.1.2 = 0 := by
  induction ps generalizing t with
  | nil => intro r hr; cases hr
  | cons x xs ih =>
    obtain ⟨l, p⟩ := x
    unfold Iss.loads
    dsimp only
    intro r hr
    rcases List.mem_cons.1 hr with rfl | hr
    · unfold Iss.loadValue
      rw [if_pos (h _ (List.mem_cons_self ..))]
    · exact ih _ (fun y hy => h y (List.mem_cons_of_mem _ hy)) r hr

theorem foldl_or_zero {α : Type} (f : α → Flags) (ls : List α) (h : ∀ r ∈ ls, f r = 0) (a : Flags) : ls.foldl (fun a r => a ||| f r) a = a := by
  induction ls generalizing a with
  | nil => rfl
  | cons x ls ih =>
    rw [List.foldl_cons, h x (List.mem_cons_self ..), ih fun r hr => h r (List.mem_cons_of_mem _ hr)]
    exact BitVec.or_zero

/-- What FLAGS are after the flags of an access and perhaps a step of the stochastic sequence. -/
theorem flags_after (old : Word) (f : Flags) (b : Bool) (ps : List (Nat × Place)) (new : Word)
    (hn : new = orFlags old f ∨ (new = stepSeq (orFlags old f) ∧ b = true)) (hf : (ps.all fun x => x.2.fdt.fmt == 0) = true → f = 0 ∧ b = false) :
    FlagsFrom old new ps := by
  refine ⟨?_, fun h => ?_⟩
  · rcases hn with rfl | ⟨rfl, -⟩
    · exact orFlags_mask ..
    · rw [stepSeq_mask, orFlags_mask]
  · obtain ⟨rfl, rfl⟩ := hf h
    rcases hn with rfl | ⟨-, h⟩
    · exact orFlags_zero _
    · cases h

theorem orFlags_wave (t : State) (k : Nat) (f : Flags) (h : (Tab.find t.waves k).isSome) : ((t.orFlags k f).wave k).flags = orFlags (t.wave k).flags f := by
  unfold State.orFlags State.wave
  rw [State.updWave_waves]
  unfold Tab.get
  rw [Tab.find_upd]
  simp only [if_true]
  cases hw : Tab.find t.waves k with
  | none => rw [hw] at h; cases h
  | some w => rfl

theorem stepSto_wave (t : State) (k : Nat) (m : RMode) (h : (Tab.find t.waves k).isSome) :
    ((t.stepSto k m).wave k).flags = (t.wave k).flags ∨ ((t.stepSto k m).wave k).flags = stepSeq (t.wave k).flags := by
  unfold State.stepSto State.wave
  rw [State.updWave_waves]
  unfold Tab.get
  rw [Tab.find_upd]
  simp only [if_true]
  cases hw : Tab.find t.waves k with
  | none => rw [hw] at h; cases h
  | some w =>
    simp only [Option.map_some]
    split
    · exact .inr rfl
    · exact .inl rfl

/-- An order that lets an immediate access go. -/
theorem afterPublish_clear {i : Iss} {ps : List (Nat × Place)} (h : i.clear (.ok ps) = true) (go : Eff) : i.afterPublish go = go := by
  unfold Iss.clear at h
  unfold Iss.afterPublish
  exact if_neg (by simpa using h)

/-- The source words of an instruction that may issue have good check bits. -/
theorem ready_ecc {s : State} {c : Cur} {w : Wave} {h : Hdr} {rs cross : List Nat} (hr : s.Ready c w h rs cross) {r : Nat} (hm : r ∈ rs) :
    Tab.get 0 w.ecc r = 0 := by
  have hrr := hr.2
  simp only [State.ready, Bool.and_eq_true, List.all_eq_true, List.mem_append] at hrr
  exact (Wave.usable_iff.1 (hrr.1.2 r (.inr hm))).2.2.2.1

theorem Began.find {o : Option Nat} {s t : State} {c : Cur} {w : Wave} {p : Nat → Mask} (h : Began o s t c w p) : (Tab.find t.waves c.wave).isSome := by
  obtain ⟨⟨x, hx, -⟩, -⟩ := h
  rw [hx]; rfl

theorem advance_flags {s : State} {c : Cur} {w : Wave} {nd : Need} (act : Mask)
    (hw : Tab.find s.waves c.wave = some w) (he : ∀ r ∈ nd.looks, Tab.get 0 w.ecc r = 0) :
    ((s.advance nd c.wave c.path c.pc act).wave c.wave).flags = w.flags := by
  obtain ⟨h1, -⟩ := State.advance_clean (nd := nd) c.path c.pc act hw he
  unfold State.wave Tab.get
  rw [h1, Tab.find_upd]
  simp only [if_true, hw, Option.map_some]
  exact w.advanced_flags nd c.path c.pc

/-- What the statements say of a read, from where its work has got to. -/
theorem Reaches.reached {s t : State} {c : Cur} {w : Wave} {ps : List (Nat × Place)} {p : Nat → Mask} (h : Reaches s t c w ps p)
    (hw : Tab.find s.waves c.wave = some w) : Reached s t c w ps := by
  have hq := (h.began.facts hw).2.2
  obtain ⟨⟨-, h5, h6, h7, h8, -⟩, hm, hbuf⟩ := h
  have hb : ∀ n, (t.block n).strip (some w.block) n = (s.block n).strip (some w.block) n := by
    intro n
    have := h6 n
    unfold State.block Tab.get
    cases ht : Tab.find t.blocks n <;> cases hs : Tab.find s.blocks n <;> simp_all
  refine ⟨hm, hbuf, h5, hq, fun n hn => ?_, ?_, h7, h8⟩
  · have := hb n
    unfold Block.strip at this
    rw [if_neg (fun e => hn (Option.some.inj e).symm), if_neg (fun e => hn (Option.some.inj e).symm)] at this
    exact this
  · have := hb w.block
    unfold Block.strip at this
    rw [if_pos rfl, if_pos rfl] at this
    exact this

/-- The end of every read: a result for the lanes on its way. -/
theorem read_done {s t : State} {c : Cur} {w : Wave} {ps : List (Nat × Place)} (hw : Tab.find s.waves c.wave = some w)
    (h : Reaches s t c w ps fun r => Tab.get 0 w.pend r) (hf : FlagsFrom w.flags (t.wave c.wave).flags ps) (ty : RType) (d : Reg)
    (rs : List (Nat × Nat × Option (Cause × Nat))) (lanes : List Nat) (hl : rs.map Prod.fst = lanes) (bad : List (Nat × Nat)) (owes : List OwedFault)
    (imm mark : Bool) :
    let words := lanes.flatMap fun l => (regsOf ty d).map fun r => (r, l)
    let u := (t.deliver c.wave (rs.foldr (fun r ws => RType.words ty d r.1 r.2.1 ++ ws) []) bad owes imm).park c.wave mark
    ∃ id x, Passed s u c ∧ Holds s u c.wave [] ∧ Pends s u c.wave words ∧
      Tab.find u.fly.results id = some x ∧ x.wave = c.wave ∧ x.writes.map Prod.fst = words.map (fun d => wordKey d.1 d.2) ∧
      FlagsFrom w.flags (u.wave c.wave).flags ps ∧ Reached s u c w ps := by
  intro words u
  have hk : (rs.foldr (fun r ws => RType.words ty d r.1 r.2.1 ++ ws) []).map (fun x => (x.1, x.2.1)) = words := by
    rw [foldr_words_keys, hl]
  have hd := (h.deliver (rs.foldr (fun r ws => RType.words ty d r.1 r.2.1 ++ ws) []) bad owes imm).park mark
  rw [hk] at hd
  obtain ⟨id, x, hx, hxw, hxk⟩ := deliver_result t c.wave (rs.foldr (fun r ws => RType.words ty d r.1 r.2.1 ++ ws) []) bad owes imm
  obtain ⟨f1, f2, -⟩ := hd.began.facts hw
  refine ⟨id, x, f1, f2, hd.began.pends hw, ?_, hxw, ?_, ?_, hd.reached hw⟩
  · rw [park_fly]; exact hx
  · rw [hxk, ← hk, List.map_map]; rfl
  · rw [park_flags, deliver_flags]; exact hf

theorem calm_updCore {o : Option Nat} (s : State) (core : Nat) (f : Core → Core) : Calm o s (s.updCore core f) :=
  Calm.of_eq rfl rfl rfl rfl rfl

theorem calm_policed (i : Iss) (t : State) (ma : MemArg) (ps : List (Nat × Place)) : Calm none t (i.policed t ma ps) := by
  unfold Iss.policed
  refine Calm.foldl _ (fun t p => ?_) _ _
  split
  · exact Calm.refl t
  · exact Calm.foldl _ (fun t k => calm_updCore t i.core _) _ _

theorem policed_mem (i : Iss) (t : State) (ma : MemArg) (ps : List (Nat × Place)) : (i.policed t ma ps).mem = t.mem := by
  unfold Iss.policed
  have key : ∀ (cp : Nat) (ks : List Nat) (t : State), (ks.foldl (fun t key =>
      t.updCore i.core fun c => { c with l1 := Tab.upd c.l1 key fun l => { l with cp := cp } }) t).mem = t.mem := by
    intro cp ks
    induction ks with
    | nil => exact fun _ => rfl
    | cons k ks ih => exact fun t => ih _
  induction ps generalizing t with
  | nil => rfl
  | cons p ps ih =>
    rw [List.foldl_cons, ih]
    split
    · rfl
    · exact key _ _ _

theorem grew_lostWords_of (s : State) (m : Memory) (place : Nat) (lost : BitVec 4) (h : s.mem = m) : Memory.Grew m (s.lostWords place lost).mem := by
  unfold State.lostWords
  split
  · rw [h]; exact Memory.Grew.refl _
  · subst h; exact Memory.Grew.of_bytes rfl rfl

theorem homeWrite_mem (s : State) (bs : List (Nat × Byte)) (own : Author) : (s.homeWrite bs own).mem = s.mem.write bs := rfl

theorem but_yieldDirty {P : Nat → Bool} (s : State) (ctx off : Nat) (place : Nat → Nat) (l : L1Line) (dirty : List (Nat × Byte × Nat))
    (core : Nat) (h : ∀ b ∈ dirty, P (place (b.1 - off)) = true) : Memory.GrewBut P s.mem (s.yieldDirty ctx off place l dirty core).mem := by
  unfold State.yieldDirty
  split
  · exact GrewBut.refl _ _
  · refine GrewBut.trans (n := s.mem.write (dirty.map fun b => (place (b.1 - off), b.2.1))) (GrewBut.write _ _ fun b hb => ?_)
      (GrewBut.of_grew (grew_lostWords_of _ _ _ _ (l2Write_mem _ _ _)))
    obtain ⟨x, hx, rfl⟩ := List.mem_map.1 hb
    exact h x hx

/-- The bytes that go ahead of an access are bytes of it (R216). -/
theorem aheadOf_within {s : State} {core key off n : Nat} {l : L1Line} {b : Nat × Byte × Nat} (h : b ∈ s.aheadOf core key off n l) :
    ∃ j, j < n ∧ b.1 = off + j := by
  unfold State.aheadOf at h
  obtain ⟨j, hj, e⟩ := List.mem_filterMap.1 h
  refine ⟨j, List.mem_range.1 hj, ?_⟩
  cases hf : l.loose.find? fun b => b.1 == off + j with
  | some x =>
    rw [hf] at e
    cases e
    simpa using List.find?_some hf
  | none =>
    rw [hf] at e
    change s.evicted core key (off + j) = some b at e
    unfold State.evicted at e
    obtain ⟨y, -, e⟩ := Option.bind_eq_some_iff.1 e
    simpa using List.find?_some e

theorem but_yieldBytes {P : Nat → Bool} (s : State) (core ctx va n : Nat) (place : Nat → Nat)
    (h : ∀ j, j < n → P (place j) = true) : Memory.GrewBut P s.mem (s.yieldBytes core ctx va n place).mem := by
  unfold State.yieldBytes
  dsimp only
  refine but_yieldDirty (s.overtake core (lineKey ctx va) _) ctx (va % 128) place _ _ core fun b hb => ?_
  obtain ⟨j, hj, e⟩ := aheadOf_within hb
  rw [e, Nat.add_sub_cancel_left]
  exact h j hj

theorem but_readHome {P : Nat → Bool} (s : State) (core ctx : Nat) (q : Span) (h : ∀ j, j < q.n → P (q.place j) = true) :
    Memory.GrewBut P s.mem (s.readHome core ctx q).2.mem := by
  unfold State.readHome
  dsimp only
  have h1 := but_yieldBytes s core ctx q.va (min q.n (128 - q.va % 128)) q.place fun j hj => h j (by omega)
  rw [l2Read_mem]
  split
  · exact GrewBut.trans h1 (but_yieldBytes _ core ctx _ _ _ fun j hj => h _ (by omega))
  · exact h1

theorem but_readBytes {P : Nat → Bool} (i : Iss) (t : State) (fresh : Bool) (sp : Space) (addr n : Nat) (span : Option Span)
    (h : ∀ q, span = some q → ∀ j, j < q.n → P (q.place j) = true) : Memory.GrewBut P t.mem (i.readBytes t fresh sp addr n span).2.mem := by
  unfold Iss.readBytes
  cases span with
  | none => exact GrewBut.refl _ _
  | some q =>
    cases fresh
    · exact GrewBut.of_grew (grew_readG i.s i.core i.w.ctx q.cells t)
    · exact but_readHome t i.core i.w.ctx q (h q rfl)

theorem but_readScales {P : Nat → Bool} (i : Iss) (fresh : Bool) (p : Place) (xs : List (Nat × Nat × Option Span))
    (h : ∀ y ∈ xs, ∀ q, y.2.2 = some q → ∀ j, j < q.n → P (q.place j) = true) (t : State) :
    Memory.GrewBut P t.mem (i.readScales fresh p t xs).2.mem := by
  induction xs generalizing t with
  | nil => exact GrewBut.refl _ _
  | cons x xs ih =>
    unfold Iss.readScales
    exact GrewBut.trans (but_readBytes i t fresh p.sp x.2.1 (fmtScaleBytes p.fdt.fmt) x.2.2 (h x (List.mem_cons_self ..)))
      (ih (fun y hy => h y (List.mem_cons_of_mem _ hy)) _)

/-- The places of an access and its scales lie in `P`. -/
def Place.within (p : Place) (P : Nat → Bool) : Prop :=
  (∀ q, p.span = some q → ∀ j, j < q.n → P (q.place j) = true) ∧
  ∀ y ∈ p.scales, ∀ q, y.2.2 = some q → ∀ j, j < q.n → P (q.place j) = true

theorem within_homes (ps : List (Nat × Place)) (x : Nat × Place) (hx : x ∈ ps) :
    x.2.within fun a => ps.any fun x => x.2.homes.contains a := by
  have key : ∀ a, a ∈ x.2.homes → (ps.any fun x => x.2.homes.contains a) = true := fun a ha =>
    List.any_eq_true.2 ⟨x, hx, by simpa using ha⟩
  refine ⟨fun q hq j hj => key _ ?_, fun y hy q hq j hj => key _ ?_⟩
  · unfold Place.homes
    rw [hq]
    exact List.mem_append_left _ (List.mem_map.2 ⟨j, List.mem_range.2 hj, rfl⟩)
  · unfold Place.homes
    refine List.mem_append_right _ (List.mem_flatMap.2 ⟨y, hy, ?_⟩)
    rw [hq]
    exact List.mem_map.2 ⟨j, List.mem_range.2 hj, rfl⟩

theorem but_load1 {P : Nat → Bool} (i : Iss) (t : State) (fresh : Bool) (p : Place) (h : p.within P) :
    Memory.GrewBut P t.mem (i.load1 t fresh p).2.mem := by
  unfold Iss.load1
  exact GrewBut.trans (but_readBytes i t fresh p.sp p.addr p.n p.span h.1) (but_readScales i fresh p p.scales h.2 _)

theorem but_loads {P : Nat → Bool} (i : Iss) (ty : RType) (m : RMode) (sat fresh : Bool) (ps : List (Nat × Place)) (h : ∀ x ∈ ps, x.2.within P) (t : State) :
    Memory.GrewBut P t.mem (i.loads ty m sat fresh t ps).2.mem := by
  induction ps generalizing t with
  | nil => exact GrewBut.refl _ _
  | cons x xs ih =>
    obtain ⟨l, p⟩ := x
    unfold Iss.loads
    exact GrewBut.trans (but_load1 i t fresh p (h _ (List.mem_cons_self ..))) (ih (fun y hy => h y (List.mem_cons_of_mem _ hy)) _)

theorem any_false_of_all {ps : List (Nat × Place)} {f : Nat × Place → Bool} (h : ∀ x ∈ ps, f x = false) : ps.any f = false :=
  List.any_eq_false.2 fun x hx => by rw [h x hx]; simp

theorem maybeSto_flags (t : State) (k : Nat) (m : RMode) (b : Bool) (h : (Tab.find t.waves k).isSome) :
    ((if b then t.stepSto k m else t).wave k).flags = (t.wave k).flags ∨
      (((if b then t.stepSto k m else t).wave k).flags = stepSeq (t.wave k).flags ∧ b = true) := by
  cases b
  · exact .inl rfl
  · rcases stepSto_wave t k m h with e | e
    · exact .inl e
    · exact .inr ⟨e, rfl⟩

/-- LD's own part where every lane locates its access. -/
theorem ld_done {s : State} {c : Cur} {w : Wave} {h : Hdr} {t : RType} {m : RMode} {sat : Bool} {d : Reg} {ma : MemArg} {idx : Option Reg}
    {fresh : Bool} {ps : List (Nat × Place)} (hr : s.Ready c w h (pairOf ma.base ++ (idx.map (·.toNat)).toList ++ regsOf t d))
    (hact : (s.issOf c w h).act ≠ 0)
    (ha : (s.issOf c w h).locateAll ((s.issOf c w h).reach { acc := .read, imm := fresh, spaces := allSpaces } ma t idx) = .ok ps)
    (hok : (!fresh || (s.issOf c w h).clear (.ok ps)) = true) :
    let words := (s.issOf c w h).lanes.flatMap fun l => (regsOf t d).map fun r => (r, l)
    ∃ u id x, execLd h t m sat d ma idx fresh s = .next u ∧ Passed s u c ∧ Holds s u c.wave [] ∧ Pends s u c.wave words ∧
      Tab.find u.fly.results id = some x ∧ x.wave = c.wave ∧ x.writes.map Prod.fst = words.map (fun d => wordKey d.1 d.2) ∧
      FlagsFrom w.flags (u.wave c.wave).flags ps ∧ Reached s u c w ps := by
  intro words
  let nd : Need := { h := h, srcs := pairOf ma.base ++ (idx.map (·.toNat)).toList, dsts := regsOf t d }
  have hv := State.Ready.verdict (nd := nd) hr (fun h => by cases h) (fun r hr => hr) (fun r hr => by cases hr)
  let i := s.issAt c w nd (w.active s.free c.path h)
  have hidle : i.idle = false := by show ((s.issOf c w h).act == 0) = false; simpa using hact
  obtain ⟨hl, hp⟩ := locateAll_ok ha
  -- the state at the end of the own part, but for the delivery
  let t0 := i.touch i.t ps
  let t1 := if fresh then t0 else i.noteFills t0 (cellsOf ps) (cellsOf ps)
  let r := i.loads t m sat fresh t1 ps
  let fl : Flags := r.1.foldl (fun a r => a ||| r.2.1.2) 0
  let t2 := i.portCost (if fresh then r.2 else i.policed r.2 ma ps) ma.sp (bytesOf ps)
  let t3 := t2.orFlags c.wave fl
  let t4 := if ps.any fun p => memRounds t p.2.fdt.fmt then t3.stepSto c.wave m else t3
  have hbody : (if i.idle then Eff.done i.t else i.ld t m sat d ma idx fresh) =
      .done (i.deliverLanes t4 t d (r.1.map fun r => (r.1, r.2.1.1, r.2.2)) fresh) := by
    rw [hidle]
    unfold Iss.ld
    rw [located_ok (show i.locateAll (i.reach { acc := .read, imm := fresh, spaces := allSpaces } ma t idx) = .ok ps from ha)]
    cases hf : fresh
    · subst hf; rfl
    · subst hf
      have hc : i.clear (.ok ps) = true := (by simpa using hok : (s.issOf c w h).clear (.ok ps) = true)
      simp only [Bool.false_eq_true, if_false, if_true]
      rw [afterPublish_clear hc]; rfl
  -- where it has got to
  have hecc := State.Ready.looks_clean (nd := nd) hr (fun r h => h) (fun r h => by cases h)
  have hprop : ∀ x ∈ ps, x.2.proper := fun x hx => reach_proper (hp x hx)
  have g0 : Reaches s i.t c w ps fun r => Tab.get 0 w.pend r := reaches_advance ps _ hr.1.2 hecc
  have c1 : Calm none i.t t1 := by
    have : Calm none i.t t0 := calm_touch i ps i.t
    show Calm none i.t (if fresh then t0 else i.noteFills t0 (cellsOf ps) (cellsOf ps))
    split
    · exact this
    · exact this.trans (calm_noteFills ..)
  have m1 : Memory.Grew i.t.mem t1.mem := by
    have : Memory.Grew i.t.mem t0.mem := grew_touch i ps hprop i.t
    show Memory.Grew i.t.mem (if fresh then t0 else i.noteFills t0 (cellsOf ps) (cellsOf ps)).mem
    split
    · exact this
    · exact Memory.Grew.trans this (grew_noteFills _ _ _ _)
  have cp : ∀ b : Bool, Calm none r.2 (if b then r.2 else i.policed r.2 ma ps) := fun b => by
    cases b
    · exact calm_policed ..
    · exact Calm.refl _
  have mp : ∀ b : Bool, (if b then r.2 else i.policed r.2 ma ps).mem = r.2.mem := fun b => by
    cases b
    · exact policed_mem ..
    · rfl
  have c2 : Calm none t1 t2 := ((calm_loads i t m sat fresh ps t1).trans (cp _)).trans (calm_portCost ..)
  have m2 : Memory.GrewBut (fun a => ps.any fun x => x.2.homes.contains a) t1.mem t2.mem := by
    show Memory.GrewBut _ t1.mem (i.portCost (if fresh then r.2 else i.policed r.2 ma ps) ma.sp _).mem
    rw [portCost_mem, mp]
    exact but_loads i t m sat fresh ps (within_homes ps) t1
  have g2 : Reaches s t2 c w ps fun r => Tab.get 0 w.pend r :=
    g0.calm (c1.trans c2) (GrewBut.trans (GrewBut.of_grew m1) m2)
  have g3 : Reaches s t3 c w ps fun r => Tab.get 0 w.pend r := g2.wave (g2.began.orFlags fl) rfl rfl
  have f2 : (t2.wave c.wave).flags = w.flags := by
    rw [wave_flags_of_calm (c1.trans c2) c.wave]; exact advance_flags _ hr.1.2 hecc
  have f3 : (t3.wave c.wave).flags = orFlags w.flags fl := by
    rw [orFlags_wave _ _ _ g2.began.find, f2]
  have g4 : Reaches s t4 c w ps fun r => Tab.get 0 w.pend r := by
    show Reaches s (if _ then t3.stepSto c.wave m else t3) c w ps _
    split
    · exact g3.wave (g3.began.stepSto m) rfl rfl
    · exact g3
  have f4 : FlagsFrom w.flags (t4.wave c.wave).flags ps := by
    refine flags_after w.flags fl (ps.any fun p => memRounds t p.2.fdt.fmt) ps _ ?_ fun hraw => ?_
    · rw [← f3]
      exact maybeSto_flags t3 c.wave m _ g3.began.find
    · have hz : ∀ x ∈ ps, x.2.fdt.fmt = 0 := fun x hx => by simpa using List.all_eq_true.1 hraw x hx
      refine ⟨foldl_or_zero _ _ (loads_raw i t m sat fresh ps t1 hz) 0, any_false_of_all fun x hx => ?_⟩
      rw [hz x hx]; rfl
  obtain ⟨id, x, hfin⟩ := read_done hr.1.2 g4 f4 t d (r.1.map fun r => (r.1, r.2.1.1, r.2.2)) (s.issOf c w h).lanes
    (by rw [List.map_map]; exact (loads_fst i t m sat fresh ps t1).trans hl)
    (((r.1.map fun r => (r.1, r.2.1.1, r.2.2)).filterMap fun r => r.2.2.map fun b => (r.1, b)).foldr (fun b ws => (regsOf t d).map (fun r => (r, b.1)) ++ ws) [])
    (i.strikes ((r.1.map fun r => (r.1, r.2.1.1, r.2.2)).filterMap fun r => r.2.2.map fun b => (r.1, b))) fresh h.mark
  refine ⟨_, id, x, ?_, hfin⟩
  unfold execLd
  rw [issue_go hr.1 hv]
  show Host.Outcome.next (s.after c h.mark ((if i.idle then Eff.done i.t else i.ld t m sat d ma idx fresh).settled c nd _)) = _
  rw [hbody]; rfl

theorem firstMiss_none {l : List (Option Miss)} (h : firstMiss l = none) : ∀ m ∈ l, m = none := by
  induction l with
  | nil => intro m hm; cases hm
  | cons x l ih =>
    cases x with
    | some y =>
      unfold firstMiss at h
      split at h
      · cases h
      · split at h <;> cases h
    | none =>
      intro m hm
      rcases List.mem_cons.1 hm with rfl | hm
      · rfl
      · exact ih h m hm

theorem missIf_none {c : Bool} {a b : Nat} {x : Cause} {d : Nat} (h : missIf c a b x d = none) : c = false := by
  unfold missIf at h; cases c
  · rfl
  · cases h

/-- A located access is in a space that its instruction accepts, raw or of its own format where that is asked. -/
theorem locate_space {i : Iss} {op : MemOp} {sp : Space} {chk : Option (BitVec 4)} {t : RType} {a : Nat} {e : Option Int} {p : Place}
    (h : i.locate op sp chk t a e = .ok p) : p.sp = sp ∧ op.spaces.contains sp = true := by
  unfold Iss.locate at h
  dsimp only at h
  split at h
  · cases h
  · cases h
  · rename_i hm _
    cases h
    refine ⟨rfl, ?_⟩
    have := missIf_none (firstMiss_none hm _ (by
      iterate 4 refine List.mem_cons_of_mem _ ?_
      exact List.mem_cons_self ..))
    simpa using this

theorem reach_space {i : Iss} {op : MemOp} {ma : MemArg} {t : RType} {idx : Option Reg} {l : Nat} {p : Place}
    (h : i.reach op ma t idx l = .ok p) : p.sp = ma.sp ∧ op.spaces.contains p.sp = true := by
  unfold Iss.reach at h
  cases idx
  · obtain ⟨h1, h2⟩ := locate_space h; exact ⟨h1, h1 ▸ h2⟩
  · obtain ⟨h1, h2⟩ := locate_space h; exact ⟨h1, h1 ▸ h2⟩

/-! ### Writes -/

theorem calm_recordHome1 {o : Option Nat} (s : State) (blk wib d line : Nat) (places : List Nat) : Calm o s (s.recordHome1 blk wib d line places) := by
  unfold State.recordHome1
  by_cases h : (s.block blk).rcv.has d (.home line) = true
  · rw [if_pos h]; exact calm_updRcv s blk _
  · rw [if_neg h]; exact calm_recordAt s blk wib d _ _

theorem grew_recordHome1 (s : State) (blk wib d line : Nat) (places : List Nat) : Memory.Grew s.mem (s.recordHome1 blk wib d line places).mem := by
  unfold State.recordHome1
  by_cases h : (s.block blk).rcv.has d (.home line) = true
  · rw [if_pos h]; exact Memory.Grew.refl s.mem
  · rw [if_neg h]; exact grew_recordAt s blk wib d _ _

theorem calm_recordHome {o : Option Nat} (s : State) (blk wib d : Nat) (places : List Nat) : Calm o s (s.recordHome blk wib d places) := by
  unfold State.recordHome
  split
  · exact Calm.refl s
  · exact Calm.foldl _ (fun s line => calm_recordHome1 ..) _ _

theorem grew_recordHome (s : State) (blk wib d : Nat) (places : List Nat) : Memory.Grew s.mem (s.recordHome blk wib d places).mem := by
  unfold State.recordHome
  split
  · exact Memory.Grew.refl _
  · exact Memory.Grew.foldl _ (fun s line => grew_recordHome1 s _ _ _ _ _) _ _

theorem calm_homeWriteFor {o : Option Nat} (s : State) (blk wib d : Nat) (bs : List (Nat × Byte)) (own : Author) :
    Calm o s (s.homeWriteFor blk wib d bs own) :=
  ((calm_recordHome ..).trans (calm_l2Write ..)).trans (calm_homeWrite ..)

theorem but_homeWriteFor {P : Nat → Bool} (s : State) (blk wib d : Nat) (bs : List (Nat × Byte)) (own : Author)
    (h : ∀ b ∈ bs, P b.1 = true) : Memory.GrewBut P s.mem (s.homeWriteFor blk wib d bs own).mem :=
  GrewBut.trans (GrewBut.of_grew (grew_recordHome s blk wib d (bs.map Prod.fst))) (by
    show Memory.GrewBut P _ (((s.recordHome blk wib d (bs.map Prod.fst)).l2Write (s.block blk).ctx (bs.map Prod.fst)).homeWrite bs own).mem
    rw [homeWrite_mem, l2Write_mem]
    exact GrewBut.write _ _ h)

theorem foldl_set_other (t : Tab Byte) (addr : Nat) (bs : List (Byte × Nat)) {a : Nat} (h : ∀ x ∈ bs, a ≠ addr + x.2) :
    Tab.get 0 (bs.foldl (fun t p => Tab.set 0 t (addr + p.2) p.1) t) a = Tab.get 0 t a := by
  induction bs generalizing t with
  | nil => rfl
  | cons x bs ih =>
    rw [List.foldl_cons, ih _ fun y hy => h y (List.mem_cons_of_mem _ hy), Tab.get_set_other _ _ _ _ (h x (List.mem_cons_self ..))]

/-- A write of a buffer leaves every byte outside it. -/
theorem put_byte_other (b : Buffer) (addr : Nat) (bs : List Byte) {a : Nat} (h : a < addr ∨ addr + bs.length ≤ a) : (b.put addr bs).byte a = b.byte a := by
  unfold Buffer.put Buffer.byte
  refine foldl_set_other _ _ _ fun x hx e => ?_
  have := List.mem_zipIdx_iff_getElem?.1 hx
  have hl : x.2 < bs.length := by
    rw [List.getElem?_eq_some_iff] at this; exact this.1
  omega

theorem leBytes_length (n v : Nat) : (leBytes n v).length = n := by
  induction n generalizing v with
  | zero => rfl
  | succ n ih => show (leBytes n (v / 256)).length + 1 = n + 1; rw [ih]

theorem calm_recordScratch {o : Option Nat} (s : State) (blk wib d word : Nat) : Calm o s (s.recordScratch blk wib d word) := calm_recordAt ..
theorem calm_recordGranule {o : Option Nat} (s : State) (blk wib d owner : Nat) (sp : Space) (seg : Nat) :
    Calm o s (s.recordGranule blk wib d owner sp seg) := calm_recordAt ..

theorem calm_recordBuf {o : Option Nat} (s : State) (blk wib d : Nat) (sp : Space) (addr n : Nat) : Calm o s (s.recordBuf blk wib d sp addr n) := by
  unfold State.recordBuf
  split
  · exact Calm.refl s
  · split
    · exact Calm.foldl _ (fun s w => calm_recordScratch ..) _ _
    · exact Calm.foldl _ (fun s w => calm_recordGranule ..) _ _
    · exact Calm.foldl _ (fun s w => calm_recordGranule ..) _ _
    · exact Calm.refl s

theorem grew_recordBuf (s : State) (blk wib d : Nat) (sp : Space) (addr n : Nat) : Memory.Grew s.mem (s.recordBuf blk wib d sp addr n).mem := by
  unfold State.recordBuf
  split
  · exact Memory.Grew.refl _
  · split
    · exact Memory.Grew.foldl _ (fun s w => grew_recordAt s _ _ _ _ _) _ _
    · exact Memory.Grew.foldl _ (fun s w => grew_recordAt s _ _ _ _ _) _ _
    · exact Memory.Grew.foldl _ (fun s w => grew_recordAt s _ _ _ _ _) _ _
    · exact Memory.Grew.refl _

theorem calm_updBuf (s : State) (blk : Nat) {sp : Space} (h : wrSpaces.contains sp = true) (f : Buffer → Buffer) :
    Calm (some blk) s (s.updBuf blk sp f) := by
  refine ⟨fun _ => rfl, fun n => ?_, rfl, rfl, rfl⟩
  show (Tab.find (Tab.upd s.blocks blk fun b => b.updBuf sp f) n).map (Block.strip (some blk) n) = _
  rw [Tab.find_upd]
  split
  · rename_i e
    subst e
    cases Tab.find s.blocks n with
    | none => rfl
    | some b =>
      simp only [Option.map_some]
      unfold Block.strip
      rw [if_pos rfl, if_pos rfl]
      cases sp <;> first | rfl | cases h
  · rfl

theorem updBuf_buf (s : State) (blk : Nat) (sp sp' : Space) (f : Buffer → Buffer) (hf : f Buffer.blank = Buffer.blank ∨ (Tab.find s.blocks blk).isSome) :
    ((s.updBuf blk sp f).block blk).buf sp' = if sp' = sp ∧ sp ≠ .g then f ((s.block blk).buf sp) else (s.block blk).buf sp' := by
  unfold State.updBuf State.block
  rw [State.updBlock_blocks]
  unfold Tab.get
  rw [Tab.find_upd]
  simp only [if_true]
  cases hb : Tab.find s.blocks blk with
  | none =>
    rcases hf with hf | hf
    · simp only [Option.map_none]
      cases sp <;> cases sp' <;> simp [Block.blank, Block.buf] <;> exact hf.symm
    · rw [hb] at hf; cases hf
  | some b =>
    simp only [Option.map_some]
    cases sp <;> cases sp' <;> rfl

/-- Writing bytes of a lane into a space of its block: the bytes outside stay. -/
theorem bufWrite_other (s : State) (blk wib d : Nat) (sp sp' : Space) (addr : Nat) (bs : List Byte) {a : Nat}
    (h : sp' = sp → a < addr ∨ addr + bs.length ≤ a) :
    (((s.bufWrite blk wib d sp addr bs).block blk).buf sp').byte a = ((s.block blk).buf sp').byte a := by
  unfold State.bufWrite
  have hrec : Calm none s (s.recordBuf blk wib d sp addr bs.length) := calm_recordBuf ..
  rw [← buf_of_calm hrec blk sp']
  generalize s.recordBuf blk wib d sp addr bs.length = s1
  unfold State.updBuf State.block
  rw [State.updBlock_blocks]
  unfold Tab.get
  rw [Tab.find_upd]
  simp only [if_true]
  cases hb : Tab.find s1.blocks blk with
  | none => rfl
  | some b =>
    simp only [Option.map_some]
    by_cases e : sp' = sp
    · subst e
      have hh := h rfl
      cases sp' <;> first | rfl | exact put_byte_other _ _ _ hh
    · cases sp <;> cases sp' <;> first | rfl | exact absurd rfl e

theorem calm_bufResv {o : Option Nat} (s : State) (blk : Nat) (sp : Space) (addr n : Nat) (own : Nat × Nat) : Calm o s (s.bufResv blk sp addr n own) := by
  unfold State.bufResv
  refine ⟨fun j => ?_, fun _ => rfl, rfl, rfl, rfl⟩
  dsimp only
  rw [find_mapVals]
  cases Tab.find s.waves j with
  | none => rfl
  | some w => simp only [Option.map_some]; split <;> rfl


/-! ### One step of an immediate access -/


theorem reaches_bufWrite {s t : State} {c : Cur} {w : Wave} {ps : List (Nat × Place)} {q : Nat → Mask} (h : Reaches s t c w ps q)
    (wib d : Nat) {sp : Space} (hs : wrSpaces.contains sp = true) (addr : Nat) (bs : List Byte)
    (hb : ∀ sp' a, (∀ x ∈ ps, x.2.touches sp' a = false) → sp' = sp → a < addr ∨ addr + bs.length ≤ a) :
    Reaches s (t.bufWrite w.block wib d sp addr bs) c w ps q := by
  have h1 : Reaches s (t.recordBuf w.block wib d sp addr bs.length) c w ps q :=
    h.calm (calm_recordBuf ..) (GrewBut.of_grew (grew_recordBuf t w.block wib d sp addr bs.length))
  refine ⟨h1.began.calm (calm_updBuf _ _ hs _), ?_, fun sp' a ha => ?_⟩
  · exact h1.mem
  · rw [bufWrite_other t w.block wib d sp sp' addr bs fun e => hb sp' a ha e]
    exact h.buf sp' a ha

theorem reaches_step1 {s t : State} {c : Cur} {w : Wave} {ps : List (Nat × Place)} {q : Nat → Mask} (h : Reaches s t c w ps q)
    {i : Iss} (hi : i.blk = w.block) {x : Nat × Place} (hx : x ∈ ps) (hsp : x.2.span = none → wrSpaces.contains x.2.sp = true)
    (hn : ∀ r, x.2.span = some r → r.n = x.2.n) (f : State → Nat → Option Nat) :
    Reaches s (i.step1 t x.1 x.2 f).2 c w ps q := by
  have hw := within_homes ps x hx
  unfold Iss.step1
  split
  · rename_i r hr
    have hh : ∀ j, j < x.2.n → (ps.any fun x => x.2.homes.contains (r.place j)) = true := fun j hj => hw.1 r hr j (by rw [hn r hr]; exact hj)
    have h1 : Reaches s ((t.yieldBytes i.core i.w.ctx x.2.addr x.2.n r.place).l2Read i.w.ctx (r.cells.map Prod.snd)) c w ps q :=
      (h.calm (calm_yieldBytes ..) (but_yieldBytes _ _ _ _ _ _ hh)).quiet (calm_l2Read ..) (l2Read_mem ..)
    dsimp only
    split
    · exact h1
    · split
      · exact h1
      · refine h1.calm (calm_homeWriteFor ..) (but_homeWriteFor _ _ _ _ _ _ fun b hb => ?_)
        obtain ⟨y, hy, rfl⟩ := List.mem_map.1 hb
        have := List.mem_zipIdx_iff_getElem?.1 hy
        rw [List.getElem?_eq_some_iff] at this
        obtain ⟨hl, -⟩ := this
        rw [leBytes_length] at hl
        exact hh _ hl
  · rename_i hr
    dsimp only
    split
    · exact h
    · split
      · exact h
      · rw [show ∀ (t : State) l bs, i.writeBytes t l x.2.sp x.2.addr none bs =
          (t.bufWrite i.blk i.w.wib i.b.depth x.2.sp x.2.addr bs).bufResv i.blk x.2.sp x.2.addr bs.length (i.k, l) from fun _ _ _ => rfl]
        rw [hi]
        refine Reaches.quiet (reaches_bufWrite h _ _ (hsp hr) _ _ fun sp' a ha e => ?_) (calm_bufResv ..) rfl
        have := ha x hx
        rw [leBytes_length]
        unfold Place.touches at this
        rw [e] at this
        simp only [beq_self_eq_true, Bool.true_and, Bool.or_eq_false_iff, Bool.and_eq_false_iff, decide_eq_false_iff_not] at this
        have := this.1
        omega

theorem reaches_steps {s : State} {c : Cur} {w : Wave} {ps : List (Nat × Place)} {q : Nat → Mask}
    {i : Iss} (hi : i.blk = w.block) (op : ImmOp)
    (hafter : ∀ l p t, Reaches s t c w ps q → Reaches s (op.after l p t) c w ps q) (qs : List (Nat × Place))
    (hq : ∀ x ∈ qs, x ∈ ps ∧ (x.2.span = none → wrSpaces.contains x.2.sp = true) ∧ ∀ r, x.2.span = some r → r.n = x.2.n)
    (t : State) (h : Reaches s t c w ps q) : Reaches s (i.steps op t qs).2 c w ps q := by
  induction qs generalizing t with
  | nil => exact h
  | cons x xs ih =>
    obtain ⟨l, p⟩ := x
    unfold Iss.steps
    obtain ⟨a, b, e⟩ := hq (l, p) (List.mem_cons_self ..)
    exact ih (fun y hy => hq y (List.mem_cons_of_mem _ hy)) _ (hafter _ _ _ (reaches_step1 h hi a b e _))

theorem calm_step1 {i : Iss} (t : State) (l : Nat) {p : Place} (hsp : p.span = none → wrSpaces.contains p.sp = true)
    (f : State → Nat → Option Nat) : Calm (some i.blk) t (i.step1 t l p f).2 := by
  unfold Iss.step1
  split
  · dsimp only
    split
    · exact (calm_yieldBytes ..).trans (calm_l2Read ..)
    · split
      · exact (calm_yieldBytes ..).trans (calm_l2Read ..)
      · exact ((calm_yieldBytes ..).trans (calm_l2Read ..)).trans (calm_homeWriteFor ..)
  · rename_i hr
    dsimp only
    split
    · exact Calm.refl t
    · split
      · exact Calm.refl t
      · exact ((calm_recordBuf ..).trans (calm_updBuf _ _ (hsp hr) _)).trans (calm_bufResv ..)

theorem calm_steps {i : Iss} (op : ImmOp) (hafter : ∀ l p t, Calm (some i.blk) t (op.after l p t)) (qs : List (Nat × Place))
    (hq : ∀ x ∈ qs, x.2.span = none → wrSpaces.contains x.2.sp = true) (t : State) : Calm (some i.blk) t (i.steps op t qs).2 := by
  induction qs generalizing t with
  | nil => exact Calm.refl t
  | cons x xs ih =>
    obtain ⟨l, p⟩ := x
    unfold Iss.steps
    exact ((calm_step1 t l (hq (l, p) (List.mem_cons_self ..)) _).trans (hafter ..)).trans
      (ih (fun y hy => hq y (List.mem_cons_of_mem _ hy)) _)

theorem steps_fst (i : Iss) (op : ImmOp) (ps : List (Nat × Place)) (t : State) : (i.steps op t ps).1.map Prod.fst = ps.map Prod.fst := by
  induction ps generalizing t with
  | nil => rfl
  | cons x xs ih =>
    obtain ⟨l, p⟩ := x
    unfold Iss.steps
    dsimp only
    rw [List.map_cons, ih]; rfl

theorem flagsFrom_refl (x : Word) (ps : List (Nat × Place)) : FlagsFrom x x ps := ⟨rfl, fun _ => rfl⟩

theorem idle_false {s : State} {c : Cur} {w : Wave} {h : Hdr} {nd : Need} (hact : (s.issOf c w h).act ≠ 0) :
    (s.issAt c w nd (w.active s.free c.path h)).idle = false := by
  show ((s.issOf c w h).act == 0) = false; simpa using hact

/-- An immediate access that returns a result, where every lane locates its access. -/
theorem imm_done {s : State} {c : Cur} {w : Wave} {nd : Need} {ma : MemArg} {t : RType} {acc : Access} {ps : List (Nat × Place)}
    (op : ImmOp) (ty : RType) (d : Reg) (cross : List Nat) (rs : List Nat) (hr : s.Ready c w nd.h rs cross) (hecc : ∀ r ∈ nd.looks, Tab.get 0 w.ecc r = 0)
    (ha : (s.issOf c w nd.h).immReach acc ma t = .ok ps) (hok : (s.issOf c w nd.h).clear (.ok ps) = true)
    (hafter : ∀ l p t, Calm (some w.block) t (op.after l p t))
    (hafter' : ∀ l p t q, Reaches s t c w ps q → Reaches s (op.after l p t) c w ps q) :
    let i := s.issAt c w nd (w.active s.free c.path nd.h)
    let words := (s.issOf c w nd.h).lanes.flatMap fun l => (regsOf ty d).map fun r => (r, l)
    let go : List (Nat × Place) → Eff := fun ps =>
      let (rs, t1) := i.steps op (i.touch i.t ps) ps
      .done (i.deliverLanes (i.portCost t1 ma.sp (bytesOf ps)) ty d rs true)
    ∃ u id x, s.after c nd.h.mark (i.immediate acc ma t go) = u ∧ Passed s u c ∧ Holds s u c.wave [] ∧ Pends s u c.wave words ∧
      Tab.find u.fly.results id = some x ∧ x.wave = c.wave ∧ x.writes.map Prod.fst = words.map (fun d => wordKey d.1 d.2) ∧
      FlagsFrom w.flags (u.wave c.wave).flags ps ∧ Reached s u c w ps := by
  intro i words go
  obtain ⟨hl, hp⟩ := locateAll_ok ha
  have hbody : i.immediate acc ma t go = go ps := by
    unfold Iss.immediate
    rw [located_ok (show i.locateAll (i.reach { acc := acc, imm := true, own := true, spaces := wrSpaces } ma t none) = .ok ps from ha)]
    exact afterPublish_clear (show i.clear (.ok ps) = true from hok) _
  have hprop : ∀ x ∈ ps, x.2.proper := fun x hx => reach_proper (hp x hx)
  have hsp : ∀ x ∈ ps, x.2.span = none → wrSpaces.contains x.2.sp = true := fun x hx _ => (reach_space (hp x hx)).2
  have hn : ∀ x ∈ ps, ∀ r, x.2.span = some r → r.n = x.2.n := fun x hx r h => ((hprop x hx).2.1 r h).2.2
  have g0 : Reaches s i.t c w ps fun r => Tab.get 0 w.pend r := reaches_advance ps _ hr.1.2 hecc
  have g1 : Reaches s (i.touch i.t ps) c w ps fun r => Tab.get 0 w.pend r :=
    g0.calm (calm_touch i ps i.t) (GrewBut.of_grew (grew_touch i ps hprop i.t))
  have g2 : Reaches s (i.steps op (i.touch i.t ps) ps).2 c w ps fun r => Tab.get 0 w.pend r :=
    reaches_steps (i := i) rfl op (fun l p t h => hafter' l p t _ h) ps (fun x hx => ⟨hx, hsp x hx, hn x hx⟩) _ g1
  have f2 : ((i.steps op (i.touch i.t ps) ps).2.wave c.wave).flags = w.flags := by
    rw [wave_flags_of_calm ((calm_touch i ps i.t).trans (calm_steps (i := i) op hafter ps hsp _)) c.wave]
    exact advance_flags _ hr.1.2 hecc
  have g3 : Reaches s (i.portCost (i.steps op (i.touch i.t ps) ps).2 ma.sp (bytesOf ps)) c w ps fun r => Tab.get 0 w.pend r :=
    g2.quiet (calm_portCost ..) (portCost_mem ..)
  have f3 : ((i.portCost (i.steps op (i.touch i.t ps) ps).2 ma.sp (bytesOf ps)).wave c.wave).flags = w.flags := by
    rw [wave_flags_of_calm (o := none) (calm_portCost ..) c.wave, f2]
  obtain ⟨id, x, hfin⟩ := read_done hr.1.2 g3 (by rw [f3]; exact flagsFrom_refl _ _) ty d (i.steps op (i.touch i.t ps) ps).1 (s.issOf c w nd.h).lanes
    ((steps_fst i op ps _).trans hl)
    (((i.steps op (i.touch i.t ps) ps).1.filterMap fun r => r.2.2.map fun b => (r.1, b)).foldr (fun b ws => (regsOf ty d).map (fun r => (r, b.1)) ++ ws) [])
    (i.strikes ((i.steps op (i.touch i.t ps) ps).1.filterMap fun r => r.2.2.map fun b => (r.1, b))) true nd.h.mark
  refine ⟨_, id, x, ?_, hfin⟩
  rw [hbody]; rfl

theorem calm_resv {o : Option Nat} (k : Nat) (f : Wave → Wave) (hf : ∀ w, (f w).body = w.body) (t : State) : Calm o t (t.updWave k f) := by
  refine ⟨fun j => ?_, fun _ => rfl, rfl, rfl, rfl⟩
  show (Tab.find (Tab.upd t.waves k f) j).map Wave.body = _
  rw [Tab.find_upd]
  split
  · rename_i e; subst e
    cases Tab.find t.waves j with
    | none => rfl
    | some w => exact congrArg some (hf w)
  · rfl

theorem reaches_resv {s t : State} {c : Cur} {w : Wave} {ps : List (Nat × Place)} {q : Nat → Mask} (h : Reaches s t c w ps q)
    (k : Nat) (f : Wave → Wave) (hf : ∀ w, (f w).body = w.body) : Reaches s (t.updWave k f) c w ps q :=
  h.quiet (calm_resv k f hf t) rfl

theorem locate_whole {i : Iss} {op : MemOp} {sp : Space} {chk : Option (BitVec 4)} {t : RType} {a : Nat} {e : Option Int} {p : Place}
    (h : i.locate op sp chk t a e = .ok p) (hw : op.whole = true) : p.fdt.fmt ≠ 0 := by
  unfold Iss.locate at h
  dsimp only at h
  split at h
  · cases h
  · cases h
  · rename_i hm _
    cases h
    have := missIf_none (firstMiss_none hm _ (by
      iterate 11 refine List.mem_cons_of_mem _ ?_
      exact List.mem_cons_self ..))
    intro h0
    dsimp only at h0
    rw [hw, h0] at this
    simp at this

/-- A block instruction whose lanes agree goes on at the block that its lowest lane locates (R239). -/
theorem blockAt_go {i : Iss} {op : MemOp} {ma : MemArg} {t : RType} {go : Place → Eff} {p : Place}
    (hu : (i.lanes.all fun l => i.ea ma l == i.ea ma i.low) = true) (ha : i.locate op ma.sp ma.chk t (i.ea ma i.low) none = .ok p) :
    i.blockAt op ma t (fun _ => 0) go = go p := by
  have h0 : (i.differ fun l => (i.ea ma l, 0)) = 0 := by
    rw [← beq_iff_eq, differ_lanes]
    exact List.all_eq_true.2 fun l hl => by simpa using List.all_eq_true.1 hu l hl
  unfold Iss.blockAt Iss.uniformAt
  rw [if_pos h0, ha]

theorem ldb_done {s : State} {c : Cur} {w : Wave} {h : Hdr} {code : Bool} {t : RType} {m : RMode} {sat : Bool} {d : Reg} {ma : MemArg}
    {p : Place} (hr : s.Ready c w h (pairOf ma.base ++ regsOf t d))
    (hact : (s.issOf c w h).act ≠ 0)
    (ha : (s.issOf c w h).locate { acc := .read, whole := true, spaces := allSpaces } ma.sp ma.chk t ((s.issOf c w h).ea ma (s.issOf c w h).low) none = .ok p)
    (hu : ((s.issOf c w h).lanes.all fun l => (s.issOf c w h).ea ma l == (s.issOf c w h).ea ma (s.issOf c w h).low) = true)
    (hok : (!code || fmtMx p.fdt.fmt || fmtDx p.fdt.fmt) = true) :
    let ps := [((s.issOf c w h).low, p)]
    let words := (s.issOf c w h).lanes.flatMap fun l => (regsOf t d).map fun r => (r, l)
    ∃ u id x, execLdb h code t m sat d ma s = .next u ∧ Passed s u c ∧ Holds s u c.wave [] ∧ Pends s u c.wave words ∧
      Tab.find u.fly.results id = some x ∧ x.wave = c.wave ∧ x.writes.map Prod.fst = words.map (fun d => wordKey d.1 d.2) ∧
      FlagsFrom w.flags (u.wave c.wave).flags ps ∧ Reached s u c w ps := by
  intro ps words
  let nd : Need := { h := h, srcs := pairOf ma.base, dsts := regsOf t d }
  have hv := State.Ready.verdict (nd := nd) hr (fun h => by cases h) (fun r hr => hr) (fun r hr => by cases hr)
  let i := s.issAt c w nd (w.active s.free c.path h)
  have hidle : i.idle = false := idle_false hact
  have hprop : p.proper := locate_proper ha
  let cells := cellsOf [(i.low, p)]
  let need := cells.filter fun c => decide (c.1 < p.addr) || decide (p.addr + p.n ≤ c.1) || i.lanes.any fun l =>
    decide (p.addr + p.w * l / 8 ≤ c.1) && decide (c.1 < p.addr + (p.w * (l + 1) + 7) / 8)
  let t0 := i.noteFills (i.touch i.t ps) cells need
  let r1 := i.load1 t0 false p
  let v := r1.1.1
  let ss := r1.1.2.1
  let t1 := r1.2
  let sbad := (i.readScales false p t0 p.scales).1.2
  let bad := i.blockBad t1 p
  let scale := (ss.head?.map Prod.snd).getD 0
  let elem := fun l => v / 2 ^ (p.w * l) % 2 ^ p.w
  let rs := i.lanes.map fun l =>
    (l, (if code then (scale * 256 + elem l, 0) else i.loadElem t m sat l 0 p.fdt.fmt scale (elem l)),
      (laneBad p l bad).orElse fun _ => sbad)
  let fl : Flags := rs.foldl (fun a r => a ||| r.2.1.2) 0
  let t2 := i.portCost (i.policed t1 ma [(i.low, p)]) ma.sp p.n
  let t3 := t2.orFlags c.wave fl
  let t4 := if !code && memRounds t p.fdt.fmt then t3.stepSto c.wave m else t3
  have hbody : (if i.idle then Eff.done i.t else i.ldb code t m sat d ma) =
      .done (i.deliverLanes t4 t d (rs.map fun r => (r.1, r.2.1.1, r.2.2)) false) := by
    rw [hidle]
    rw [if_neg Bool.false_ne_true]
    show i.blockAt { acc := .read, whole := true, spaces := allSpaces } ma t (fun _ => 0) _ = _
    rw [blockAt_go (i := i) hu ha]
    dsimp only
    rw [if_neg (by
      cases code
      · simp
      · simp only [Bool.not_true, Bool.false_or, Bool.true_and] at hok ⊢
        rw [hok]; simp)]
    rfl
  have hecc := State.Ready.looks_clean (nd := nd) hr (fun r h => h) (fun r h => by cases h)
  have hpr : ∀ x ∈ ps, x.2.proper := fun x hx => by
    rcases List.mem_cons.1 hx with rfl | hx
    · exact hprop
    · cases hx
  have g0 : Reaches s i.t c w ps fun r => Tab.get 0 w.pend r := reaches_advance ps _ hr.1.2 hecc
  have c1 : Calm none i.t t0 := (calm_touch i ps i.t).trans (calm_noteFills ..)
  have m1 : Memory.Grew i.t.mem t0.mem := by
    exact Memory.Grew.trans (grew_touch i ps hpr i.t) (grew_noteFills _ _ _ _)
  have c2 : Calm none t0 t2 := ((calm_load1 i t0 false p).trans (calm_policed ..)).trans (calm_portCost ..)
  have m2 : Memory.GrewBut (fun a => ps.any fun x => x.2.homes.contains a) t0.mem t2.mem := by
    show Memory.GrewBut _ t0.mem (i.portCost (i.policed r1.2 ma _) ma.sp _).mem
    rw [portCost_mem, policed_mem]
    exact but_load1 i t0 false p (within_homes ps _ (List.mem_cons_self ..))
  have g2 : Reaches s t2 c w ps fun r => Tab.get 0 w.pend r := g0.calm (c1.trans c2) (GrewBut.trans (GrewBut.of_grew m1) m2)
  have g3 : Reaches s t3 c w ps fun r => Tab.get 0 w.pend r := g2.wave (g2.began.orFlags fl) rfl rfl
  have f2 : (t2.wave c.wave).flags = w.flags := by
    rw [wave_flags_of_calm (c1.trans c2) c.wave]; exact advance_flags _ hr.1.2 hecc
  have f3 : (t3.wave c.wave).flags = orFlags w.flags fl := by
    rw [orFlags_wave _ _ _ g2.began.find, f2]
  have g4 : Reaches s t4 c w ps fun r => Tab.get 0 w.pend r := by
    show Reaches s (if _ then t3.stepSto c.wave m else t3) c w ps _
    split
    · exact g3.wave (g3.began.stepSto m) rfl rfl
    · exact g3
  have f4 : FlagsFrom w.flags (t4.wave c.wave).flags ps := by
    refine flags_after w.flags fl (!code && memRounds t p.fdt.fmt) ps _ ?_ fun hraw => ?_
    · rw [← f3]
      exact maybeSto_flags t3 c.wave m _ g3.began.find
    · have := List.all_eq_true.1 hraw _ (List.mem_cons_self ..)
      exact absurd (by simpa using this) (locate_whole ha rfl)
  obtain ⟨id, x, hfin⟩ := read_done hr.1.2 g4 f4 t d (rs.map fun r => (r.1, r.2.1.1, r.2.2)) (s.issOf c w h).lanes
    (by rw [List.map_map, List.map_map]; exact (List.map_congr_left fun _ _ => rfl).trans (List.map_id _))
    (((rs.map fun r => (r.1, r.2.1.1, r.2.2)).filterMap fun r => r.2.2.map fun b => (r.1, b)).foldr (fun b ws => (regsOf t d).map (fun r => (r, b.1)) ++ ws) [])
    (i.strikes ((rs.map fun r => (r.1, r.2.1.1, r.2.2)).filterMap fun r => r.2.2.map fun b => (r.1, b))) false h.mark
  refine ⟨_, id, x, ?_, hfin⟩
  unfold execLdb
  rw [issue_go hr.1 hv]
  show Host.Outcome.next (s.after c h.mark ((if i.idle then Eff.done i.t else i.ldb code t m sat d ma).settled c nd _)) = _
  rw [hbody]; rfl

end Sys2Proof.Machine
end

