-- ==== Sys2Proof/Laws/Store.lean ====
section
/-! SUPPORT. Stores: bytes of lines and spaces through the instructions that write memory, home bytes as they were. -/

namespace Sys2Proof.Machine

theorem calm_preFill {o : Option Nat} (s : State) (core key place launch : Nat) :
    Calm o s ((s.poisonFill core key place launch fun _ => false).fill core key place) :=
  Calm.trans (calm_poisonFill s core key place launch fun _ => false) (calm_fill (s.poisonFill core key place launch fun _ => false) core key place)

theorem grew_preFill (s : State) (core key place launch : Nat) :
    Memory.Grew s.mem ((s.poisonFill core key place launch fun _ => false).fill core key place).mem :=
  Memory.Grew.trans (grew_poisonFill s core key place launch fun _ => false)
    (grew_fill (s.poisonFill core key place launch fun _ => false) core key place)

theorem calm_recordLine {o : Option Nat} (s : State) (core key place blk wib : Nat) : Calm o s (s.recordLine core key place blk wib) := by
  unfold State.recordLine
  dsimp only
  split
  · exact Calm.refl s
  · refine Calm.trans ?_ (calm_record ..)
    split
    · exact Calm.trans (calm_capture s core key none) (calm_preFill (s.capture core key none) core key place (s.block blk).launch)
    · exact calm_capture s core key none

theorem grew_recordLine (s : State) (core key place blk wib : Nat) : Memory.Grew s.mem (s.recordLine core key place blk wib).mem := by
  unfold State.recordLine
  dsimp only
  split
  · exact Memory.Grew.refl _
  · refine Memory.Grew.trans ?_ (grew_recordAt _ _ _ _ _ _)
    split
    · have := grew_preFill (s.capture core key none) core key place (s.block blk).launch
      rw [capture_mem] at this; exact this
    · rw [capture_mem]; exact Memory.Grew.refl _

theorem calm_l1Write {o : Option Nat} (s : State) (core ctx va place blk wib : Nat) (v : Byte) : Calm o s (s.l1Write core ctx va place blk wib v) := by
  unfold State.l1Write
  dsimp only
  have h : Calm o s ((s.allocate core (lineKey ctx va)).recordLine core (lineKey ctx va) place blk wib) := (calm_allocate ..).trans (calm_recordLine ..)
  split
  · exact (h.trans (Calm.of_eq rfl rfl rfl rfl rfl)).trans (calm_updRcv ..)
  · exact h.trans (Calm.of_eq rfl rfl rfl rfl rfl)

theorem grew_l1Write (s : State) (core ctx va place blk wib : Nat) (v : Byte) : Memory.Grew s.mem (s.l1Write core ctx va place blk wib v).mem := by
  unfold State.l1Write
  dsimp only
  have h : Memory.Grew s.mem ((s.allocate core (lineKey ctx va)).recordLine core (lineKey ctx va) place blk wib).mem :=
    Memory.Grew.trans (grew_allocate s core (lineKey ctx va)) (grew_recordLine _ _ _ _ _ _)
  split <;> exact h

theorem calm_eachCore {o : Option Nat} (core : Nat) (g : Nat → Core → Core) (ls : List Nat) (s : State) :
    Calm o s (ls.foldl (fun s va => s.updCore core (g va)) s) :=
  Calm.foldl (fun s va => s.updCore core (g va)) (fun _ _ => Calm.of_eq rfl rfl rfl rfl rfl) ls s

theorem eachCore_mem (core : Nat) (g : Nat → Core → Core) (ls : List Nat) (s : State) :
    (ls.foldl (fun s va => s.updCore core (g va)) s).mem = s.mem := by
  induction ls generalizing s with
  | nil => rfl
  | cons x ls ih => rw [List.foldl_cons, ih]; rfl

theorem calm_l1Clear {o : Option Nat} (s : State) (core ctx : Nat) (vas : List Nat) : Calm o s (s.l1Clear core ctx vas) := by
  unfold State.l1Clear
  dsimp only
  exact (calm_eachCore core _ _ _).trans (calm_eachCore core _ _ _)

theorem l1Clear_mem (s : State) (core ctx : Nat) (vas : List Nat) : (s.l1Clear core ctx vas).mem = s.mem := by
  unfold State.l1Clear
  dsimp only
  exact (eachCore_mem core _ _ _).trans (eachCore_mem core _ _ _)

/-- Where a write's work has got to: as `Reaches`, with home bytes as they were. -/
structure Stores (s t : State) (c : Cur) (w : Wave) (ps : List (Nat × Place)) : Prop where
  reaches : Reaches s t c w ps fun r => Tab.get 0 w.pend r
  grew : Memory.Grew s.mem t.mem
  flags : (t.wave c.wave).flags = w.flags

theorem Stores.calm {s t u : State} {c : Cur} {w : Wave} {ps : List (Nat × Place)} (h : Stores s t c w ps) (g : Calm none t u)
    (m : Memory.Grew t.mem u.mem) : Stores s u c w ps :=
  ⟨h.reaches.calm g (GrewBut.of_grew m), Memory.Grew.trans h.grew m, by rw [wave_flags_of_calm g]; exact h.flags⟩

theorem calm_bufWrite {s : State} {blk wib d : Nat} {sp : Space} (hs : wrSpaces.contains sp = true) (addr : Nat) (bs : List Byte) :
    Calm (some blk) s (s.bufWrite blk wib d sp addr bs) := (calm_recordBuf ..).trans (calm_updBuf _ _ hs _)

theorem Stores.bufWrite {s t : State} {c : Cur} {w : Wave} {ps : List (Nat × Place)} (h : Stores s t c w ps) (wib d : Nat) {sp : Space}
    (hs : wrSpaces.contains sp = true) (addr : Nat) (bs : List Byte)
    (hb : ∀ sp' a, (∀ x ∈ ps, x.2.touches sp' a = false) → sp' = sp → a < addr ∨ addr + bs.length ≤ a) :
    Stores s (t.bufWrite w.block wib d sp addr bs) c w ps :=
  ⟨reaches_bufWrite h.reaches wib d hs addr bs hb,
    Memory.Grew.trans h.grew (show Memory.Grew t.mem (t.recordBuf w.block wib d sp addr bs.length).mem from grew_recordBuf t w.block wib d sp addr bs.length),
    by rw [wave_flags_of_calm (calm_bufWrite hs addr bs)]; exact h.flags⟩

/-- A lane's bytes written at its access or at a scale of it. -/
theorem Stores.writeBytes {s t : State} {c : Cur} {w : Wave} {ps : List (Nat × Place)} (h : Stores s t c w ps) {i : Iss}
    (hi : i.blk = w.block) (l : Nat) {sp : Space} (addr : Nat) (span : Option Span) (bs : List Byte)
    (hs : span = none → wrSpaces.contains sp = true)
    (hb : ∀ sp' a, (∀ x ∈ ps, x.2.touches sp' a = false) → sp' = sp → a < addr ∨ addr + bs.length ≤ a) :
    Stores s (i.writeBytes t l sp addr span bs) c w ps := by
  unfold Iss.writeBytes
  split
  · rename_i q
    generalize q.cells.zip bs = cs
    induction cs generalizing t with
    | nil => exact h
    | cons x cs ih => exact ih (h.calm (calm_l1Write ..) (grew_l1Write _ _ _ _ _ _ _ _))
  · rw [hi]
    exact (h.bufWrite i.w.wib i.b.depth (hs rfl) addr bs hb).calm (calm_bufResv ..) (Memory.Grew.refl _)

theorem touches_out {ps : List (Nat × Place)} {x : Nat × Place} (hx : x ∈ ps) (n : Nat) (hn : n = x.2.n) :
    ∀ sp' a, (∀ x ∈ ps, x.2.touches sp' a = false) → sp' = x.2.sp → a < x.2.addr ∨ x.2.addr + n ≤ a := by
  intro sp' a ha e
  have := ha x hx
  unfold Place.touches at this
  rw [e] at this
  simp only [beq_self_eq_true, Bool.true_and, Bool.or_eq_false_iff, Bool.and_eq_false_iff, decide_eq_false_iff_not] at this
  have := this.1
  omega

theorem touches_scale {ps : List (Nat × Place)} {x : Nat × Place} (hx : x ∈ ps) {y : Nat × Nat × Option Span} (hy : y ∈ x.2.scales) (n : Nat)
    (hn : n = fmtScaleBytes x.2.fdt.fmt) :
    ∀ sp' a, (∀ x ∈ ps, x.2.touches sp' a = false) → sp' = x.2.sp → a < y.2.1 ∨ y.2.1 + n ≤ a := by
  intro sp' a ha e
  have := ha x hx
  unfold Place.touches at this
  rw [e] at this
  simp only [beq_self_eq_true, Bool.true_and, Bool.or_eq_false_iff, Bool.and_eq_false_iff, decide_eq_false_iff_not, List.any_eq_false,
    Bool.and_eq_true, decide_eq_true_eq] at this
  have := this.2 y hy
  omega

/-- A stamp of granules changes no byte. -/
theorem Stores.stamp {s t : State} {c : Cur} {w : Wave} {ps : List (Nat × Place)} (h : Stores s t c w ps) {sp : Space}
    (hs : wrSpaces.contains sp = true) (addr n idx : Nat) : Stores s (t.stampGranules w.block sp addr n idx) c w ps := by
  have hc : Calm (some w.block) t (t.stampGranules w.block sp addr n idx) := calm_updBuf t w.block hs _
  refine ⟨⟨h.reaches.began.calm hc, h.reaches.mem, fun sp' a ha => ?_⟩, h.grew, by rw [wave_flags_of_calm hc]; exact h.flags⟩
  rw [← h.reaches.buf sp' a ha]
  unfold State.stampGranules State.updBuf State.block
  rw [State.updBlock_blocks]
  unfold Tab.get
  rw [Tab.find_upd]
  simp only [if_true]
  cases Tab.find t.blocks w.block with
  | none => rfl
  | some b => cases sp <;> cases sp' <;> rfl

theorem Stores.implicitStamp {s t : State} {c : Cur} {w : Wave} {ps : List (Nat × Place)} (h : Stores s t c w ps) {i : Iss}
    (hi : i.blk = w.block) (ty : RType) {sp : Space} (hs : wrSpaces.contains sp = true) (addr n : Nat) :
    Stores s (i.implicitStamp t ty sp addr n) c w ps := by
  unfold Iss.implicitStamp
  split
  · exact h
  · rename_i x hx
    clear hx
    generalize unitsOfSpan addr n (Space.granule sp) = gs
    induction gs generalizing t with
    | nil => exact h
    | cons g gs ih =>
      rw [List.foldl_cons]
      have : Stores s (if ((t.fdt i.core i.w.ctx (((t.block i.blk).buf sp).index sp (g * Space.granule sp))).fmt = 0 && !(t.fdt i.core i.w.ctx (((t.block i.blk).buf sp).index sp (g * Space.granule sp))).bad) = true then t.stampGranules i.blk sp (g * Space.granule sp) 1 x else t) c w ps := by
        split
        · rw [hi]; exact h.stamp hs _ _ _
        · exact h
      exact ih this

theorem Stores.store1 {s t : State} {c : Cur} {w : Wave} {ps : List (Nat × Place)} (h : Stores s t c w ps) {i : Iss}
    (hi : i.blk = w.block) (ty : RType) (m : RMode) (sat : Bool) (d : Reg) {x : Nat × Place} (hx : x ∈ ps)
    (hs : wrSpaces.contains x.2.sp = true) : Stores s (i.store1 t ty m sat d x.1 x.2).1 c w ps := by
  have hw : ∀ (t1 : State) val, Stores s t1 c w ps → Stores s (if x.2.sp = .g then i.writeBytes t1 x.1 x.2.sp x.2.addr x.2.span (leBytes x.2.n val)
      else i.implicitStamp (i.writeBytes t1 x.1 x.2.sp x.2.addr x.2.span (leBytes x.2.n val)) ty x.2.sp x.2.addr x.2.n) c w ps := by
    intro t1 val h1
    have h2 := h1.writeBytes hi x.1 (sp := x.2.sp) x.2.addr x.2.span (leBytes x.2.n val) (fun _ => hs)
      (by rw [leBytes_length]; exact touches_out hx _ rfl)
    split
    · exact h2
    · exact h2.implicitStamp hi ty hs _ _
  unfold Iss.store1
  dsimp only
  by_cases hb : 8 ≤ x.2.w
  · rw [if_pos hb]; exact hw t _ h
  · rw [if_neg hb]
    refine hw _ _ ((h.calm (calm_noteFills ..) (grew_noteFills i t (x.2.span.elim [] Span.cells) [])).calm (calm_readBytes ..) ?_)
    generalize i.noteFills t (x.2.span.elim [] Span.cells) [] = t
    unfold Iss.readBytes
    cases x.2.span with
    | none => exact Memory.Grew.refl _
    | some q => exact grew_readG i.s i.core i.w.ctx q.cells t

theorem Stores.stores {s t : State} {c : Cur} {w : Wave} {ps : List (Nat × Place)} (h : Stores s t c w ps) {i : Iss}
    (hi : i.blk = w.block) (ty : RType) (m : RMode) (sat : Bool) (d : Reg) (qs : List (Nat × Place))
    (hq : ∀ x ∈ qs, x ∈ ps ∧ wrSpaces.contains x.2.sp = true) : Stores s (i.stores ty m sat d t qs).1 c w ps := by
  induction qs generalizing t with
  | nil => exact h
  | cons x xs ih =>
    obtain ⟨l, p⟩ := x
    unfold Iss.stores
    obtain ⟨a, b⟩ := hq (l, p) (List.mem_cons_self ..)
    exact ih (h.store1 hi ty m sat d a b) (fun y hy => hq y (List.mem_cons_of_mem _ hy))

theorem store1_raw (i : Iss) (t : State) (ty : RType) (m : RMode) (sat : Bool) (d : Reg) (l : Nat) (p : Place) (h : p.fdt.fmt = 0) :
    (i.store1 t ty m sat d l p).2 = 0 := by
  unfold Iss.store1
  dsimp only
  rw [if_pos h]

theorem stores_raw (i : Iss) (ty : RType) (m : RMode) (sat : Bool) (d : Reg) (qs : List (Nat × Place)) (h : ∀ x ∈ qs, x.2.fdt.fmt = 0) (t : State) :
    (i.stores ty m sat d t qs).2 = 0 := by
  induction qs generalizing t with
  | nil => rfl
  | cons x xs ih =>
    obtain ⟨l, p⟩ := x
    unfold Iss.stores
    dsimp only
    rw [store1_raw _ _ _ _ _ _ _ _ (h (l, p) (List.mem_cons_self ..)), ih fun y hy => h y (List.mem_cons_of_mem _ hy)]
    rfl

theorem GrewBut.grew {p : Nat → Bool} {m n : Memory} (h : Memory.Grew m n) : Memory.GrewBut p m n := GrewBut.of_grew h

/-- The state as the path passes. -/
theorem stores_touch {s : State} {c : Cur} {w : Wave} {nd : Need} (act : Mask) {ps : List (Nat × Place)}
    (hw : Tab.find s.waves c.wave = some w) (he : ∀ r ∈ nd.looks, Tab.get 0 w.ecc r = 0) (i : Iss) (hprop : ∀ x ∈ ps, x.2.proper) :
    Stores s (i.touch (s.advance nd c.wave c.path c.pc act) ps) c w ps := by
  have h0 : Stores s (s.advance nd c.wave c.path c.pc act) c w ps := by
    refine ⟨reaches_advance ps act hw he, ?_, advance_flags act hw he⟩
    obtain ⟨-, h2, -, -⟩ := State.advance_clean (nd := nd) c.path c.pc act hw he
    simp only [State.frameOf, Prod.mk.injEq] at h2
    rw [h2.1]; exact Memory.Grew.refl _
  exact h0.calm (calm_touch ..) (grew_touch i ps hprop _)

/-- The end of every write. -/
theorem write_done {s t : State} {c : Cur} {w : Wave} {ps : List (Nat × Place)} (hw : Tab.find s.waves c.wave = some w)
    (h : Reaches s t c w ps fun r => Tab.get 0 w.pend r) (hf : FlagsFrom w.flags (t.wave c.wave).flags ps) (mark : Bool) :
    let u := t.park c.wave mark
    Passed s u c ∧ Holds s u c.wave [] ∧ Pends s u c.wave [] ∧ FlagsFrom w.flags (u.wave c.wave).flags ps ∧ Reached s u c w ps := by
  intro u
  have hd := h.park mark
  obtain ⟨f1, f2, -⟩ := hd.began.facts hw
  exact ⟨f1, f2, hd.began.pends_none hw, by rw [park_flags]; exact hf, hd.reached hw⟩

theorem park_mem (t : State) (k : Nat) (m : Bool) : (t.park k m).mem = t.mem := by unfold State.park; split <;> rfl

theorem Stores.cleansed {s t : State} {c : Cur} {w : Wave} {ps : List (Nat × Place)} (h : Stores s t c w ps) (i : Iss) (vas : List Nat) :
    Stores s (i.cleansed t vas) c w ps := h.calm (calm_l1Clear ..) (by unfold Iss.cleansed; rw [l1Clear_mem]; exact Memory.Grew.refl _)

theorem Stores.portCost {s t : State} {c : Cur} {w : Wave} {ps : List (Nat × Place)} (h : Stores s t c w ps) (i : Iss) (sp : Space) (n : Nat) :
    Stores s (i.portCost t sp n) c w ps := h.calm (calm_portCost ..) (by rw [portCost_mem]; exact Memory.Grew.refl _)

/-- The flags of a store and its step of the stochastic sequence. -/
theorem Stores.flagged {s t : State} {c : Cur} {w : Wave} {ps : List (Nat × Place)} (h : Stores s t c w ps) (fl : Flags) (m : RMode) (b : Bool)
    (hraw : (ps.all fun x => x.2.fdt.fmt == 0) = true → fl = 0 ∧ b = false) :
    let u := if b then (t.orFlags c.wave fl).stepSto c.wave m else t.orFlags c.wave fl
    (Reaches s u c w ps fun r => Tab.get 0 w.pend r) ∧ FlagsFrom w.flags (u.wave c.wave).flags ps ∧ u.mem = t.mem := by
  intro u
  have g3 : Reaches s (t.orFlags c.wave fl) c w ps fun r => Tab.get 0 w.pend r := h.reaches.wave (h.reaches.began.orFlags fl) rfl rfl
  have f3 : ((t.orFlags c.wave fl).wave c.wave).flags = orFlags w.flags fl := by
    rw [orFlags_wave _ _ _ h.reaches.began.find, h.flags]
  refine ⟨?_, ?_, ?_⟩
  · show Reaches s (if b then _ else _) c w ps _
    split
    · exact g3.wave (g3.began.stepSto m) rfl rfl
    · exact g3
  · refine flags_after w.flags fl b ps _ ?_ hraw
    rw [← f3]
    exact maybeSto_flags _ c.wave m b g3.began.find
  · show (if b then _ else _ : State).mem = _
    split <;> rfl

theorem zeroAt_facts {i : Iss} {sp : Space} {a : Nat} {p : Place} (h : i.zeroAt sp a = .ok p) :
    p.proper ∧ wrSpaces.contains p.sp = true ∧ p.n = 128 ∧ p.sp = sp ∧ p.scales = [] := by
  unfold Iss.zeroAt at h
  dsimp only at h
  generalize hspan : i.s.span i.core i.w.ctx a 128 .write = r at h
  split at h
  · cases h
  · cases h
  · rename_i q hm
    injection h with h; subst h
    refine ⟨⟨fun x hx => (by cases hx), fun r hr => ?_, fun y hy => (by cases hy)⟩, ?_, rfl, rfl, rfl⟩
    · cases hr; exact span_proper hspan
    · have := missIf_none (firstMiss_none hm (missIf (!wrSpaces.contains .g) 8 0 .bufferPermission a) (by simp))
      simpa using this
  · rename_i hm
    injection h with h; subst h
    refine ⟨⟨fun x hx => (by cases hx), fun r hr => (by cases hr), fun y hy => (by cases hy)⟩, ?_, rfl, rfl, rfl⟩
    rename_i sp' _ _ _ _ _ _
    have := missIf_none (firstMiss_none hm (missIf (!wrSpaces.contains sp') 8 0 .bufferPermission a) (by simp))
    simpa using this

theorem writes_tail {s : State} {c : Cur} {w : Wave} {ps : List (Nat × Place)} {t : State} (hw : Tab.find s.waves c.wave = some w)
    (h : Stores s t c w ps) (fl : Flags) (m : RMode) (b : Bool)
    (hraw : (ps.all fun x => x.2.fdt.fmt == 0) = true → fl = 0 ∧ b = false) (mark : Bool) (e : Eff)
    (he : e = .done (if b then (t.orFlags c.wave fl).stepSto c.wave m else t.orFlags c.wave fl)) :
    let u := s.after c mark e
    Passed s u c ∧ Holds s u c.wave [] ∧ Pends s u c.wave [] ∧ FlagsFrom w.flags (u.wave c.wave).flags ps ∧ Reached s u c w ps ∧
      Memory.Grew s.mem u.mem := by
  subst he
  obtain ⟨a1, a2, a3⟩ := h.flagged fl m b hraw
  obtain ⟨b1, b2, b3, b4, b5⟩ := write_done hw a1 a2 mark
  refine ⟨b1, b2, b3, b4, b5, ?_⟩
  show Memory.Grew s.mem (State.park _ _ _).mem
  rw [park_mem, a3]; exact h.grew

theorem writes_tail0 {s : State} {c : Cur} {w : Wave} {ps : List (Nat × Place)} {t : State} (hw : Tab.find s.waves c.wave = some w)
    (h : Stores s t c w ps) (mark : Bool) (e : Eff) (he : e = .done t) :
    let u := s.after c mark e
    Passed s u c ∧ Holds s u c.wave [] ∧ Pends s u c.wave [] ∧ FlagsFrom w.flags (u.wave c.wave).flags ps ∧ Reached s u c w ps ∧
      Memory.Grew s.mem u.mem := by
  subst he
  have hf : FlagsFrom w.flags (t.wave c.wave).flags ps := by rw [h.flags]; exact flagsFrom_refl _ _
  obtain ⟨b1, b2, b3, b4, b5⟩ := write_done hw h.reaches hf mark
  refine ⟨b1, b2, b3, b4, b5, ?_⟩
  show Memory.Grew s.mem (State.park _ _ _).mem
  rw [park_mem]; exact h.grew

theorem zero_writes {s : State} {c : Cur} {w : Wave} {ps : List (Nat × Place)} {i : Iss} (hi : i.blk = w.block)
    (qs : List (Nat × Place)) (hq : ∀ x ∈ qs, x ∈ ps ∧ wrSpaces.contains x.2.sp = true ∧ x.2.n = 128) :
    ∀ t, Stores s t c w ps →
    Stores s (qs.foldl (fun t p => i.writeBytes t p.1 p.2.sp p.2.addr p.2.span (List.replicate 128 0)) t) c w ps := by
  induction qs with
  | nil => exact fun t h => h
  | cons x xs ih =>
    intro t h
    obtain ⟨a, b, e⟩ := hq x (List.mem_cons_self ..)
    exact ih (fun y hy => hq y (List.mem_cons_of_mem _ hy)) _
      (h.writeBytes hi x.1 (sp := x.2.sp) x.2.addr x.2.span _ (fun _ => b) (by rw [List.length_replicate]; exact touches_out a 128 e.symm))

theorem scale_writes {s : State} {c : Cur} {w : Wave} {ps : List (Nat × Place)} {i : Iss} (hi : i.blk = w.block) {x : Nat × Place} (hx : x ∈ ps)
    (hs : wrSpaces.contains x.2.sp = true) (l v : Nat) (ys : List (Nat × Nat × Option Span)) (hy : ∀ y ∈ ys, y ∈ x.2.scales) :
    ∀ t, Stores s t c w ps →
    Stores s (ys.foldl (fun t y => i.writeBytes t l x.2.sp y.2.1 y.2.2 (leBytes (fmtScaleBytes x.2.fdt.fmt) v)) t) c w ps := by
  induction ys with
  | nil => exact fun t h => h
  | cons y ys ih =>
    intro t h
    exact ih (fun z hz => hy z (List.mem_cons_of_mem _ hz)) _
      (h.writeBytes hi l (sp := x.2.sp) y.2.1 y.2.2 _ (fun _ => hs)
        (by rw [leBytes_length]; exact touches_scale hx (hy y (List.mem_cons_self ..)) _ rfl))

end Sys2Proof.Machine
end

