-- ==== Sys2Proof/Safety.lean ====
section
/-! DEFINITION. What counts as a safe run: a run whose every step ends in a next state. -/

namespace Sys2Proof

/-- The step at `s` ends neither in a fault nor in a refusal. -/
def StepsOn (s : Machine.State) : Prop := ∃ t, Machine.step s = .next t

/-- `n` steps from `s` all end in a next state. -/
def SafeRun : Nat → Machine.State → Prop
  | 0, _ => True
  | n + 1, s => ∃ t, Machine.step s = .next t ∧ SafeRun n t

end Sys2Proof
end

