-- ==== Sys2Proof/Tests/Base.lean ====
section
/-! SUPPORT. The small states on which the tests stand. -/

namespace Sys2Proof.Tests
open Sys2Proof.Machine

/-- No guard, no switch marker, no hint. -/
def h0 : Hdr := ⟨none, false, none⟩

/-- Registers with one value in every lane. -/
def inEvery (rs : List (Nat × Word)) : Tab Word :=
  rs.flatMap fun x => (List.range 32).map fun l => (x.1 * 32 + l, x.2)

/-- One wave of 256 registers on core 0 in context 0, whose virtual addresses 0 to 2^30 − 1 are the same places of DRAM, at
its instruction at 0x4000, with every lane active. -/
def small : State :=
  { State.reset.placed 0 with agenda := [], cur := some ⟨0, BitVec.allOnes 32, 0x4000⟩ }

/-- Its wave. -/
def w0 : Wave := fetchWave

/-- What it executes. -/
def c0 : Cur := ⟨0, BitVec.allOnes 32, 0x4000⟩

/-- With these registers. -/
def regs (rs : List (Nat × Word)) : State := { small with waves := [(0, { w0 with regs := inEvery rs })] }

/-- The state after an instruction. -/
def after (i : Instr) (s : State) : Option State :=
  match exec i s with
  | .next t => some t
  | _ => none

/-- A register's word in a lane after an instruction. -/
def word (i : Instr) (rs : List (Nat × Word)) (r l : Nat) : Option Word := (after i (regs rs)).map fun t => (t.wave 0).word r l

/-- A register's word in a lane after an instruction, over registers whose lanes differ. -/
def wordOf (i : Instr) (rs : Tab Word) (r l : Nat) : Option Word :=
  (after i { small with waves := [(0, { w0 with regs := rs })] }).map fun t => (t.wave 0).word r l

/-- A register that holds in each lane its number and more. -/
def laneWords (r n : Nat) : Tab Word := (List.range 32).map fun l => (r * 32 + l, BitVec.ofNat 32 (n + l))

/-- The sticky bits of FLAGS after an instruction. -/
def sticky (i : Instr) (rs : List (Nat × Word)) : Option Nat := (after i (regs rs)).map fun t => (t.wave 0).flags.toNat % 128

end Sys2Proof.Tests
end

