-- ==== Sys2Proof/Tests/Slice0.lean ====
section
/-! SUPPORT. Small tests: terms that the encoding tables do not admit, the spec's worked words, one step from a placed word,
and values worked from the spec's rules. -/

namespace Sys2Proof.Tests
open Sys2Proof.Machine

set_option Elab.async false

/-! ### Ill-formed terms, for every check of `Instr.wf` -/

theorem test_wf_refuses_control : (([
    .br ⟨none, false, some 1⟩ ⟨0, 0⟩,
    .br h0 ⟨0, 5⟩,
    .jmp ⟨none, false, some 1⟩ ⟨0, 0⟩,
    .jmp h0 ⟨0, 7⟩,
    .call h0 3 ⟨0, 0⟩,
    .call h0 2 ⟨0, 6⟩,
    .call ⟨none, false, some 1⟩ 2 ⟨0, 0⟩,
    .calli h0 3 2,
    .calli h0 2 3,
    .ret h0 5,
    .nap ⟨none, false, some 1⟩ 1] : List Instr).all fun i => !Instr.wf i) = true := by decide +kernel

theorem test_wf_refuses_integer : (([
    .mov h0 .s64 3 2,
    .mov h0 .f64 2 3,
    .movi ⟨none, false, some 1⟩ .s32 1 0,
    .movi h0 .s8 1 0,
    .movi h0 .z64 1 0,
    .movih ⟨none, false, some 1⟩ 2 0,
    .movih h0 3 0,
    .add h0 .f32 false 1 2 3,
    .add h0 .s64 false 1 2 4,
    .sub h0 .s64 false 2 3 4,
    .add h0 .z64 false 2 4 5,
    .addi h0 .s16 false 1 2 0,
    .addi ⟨none, false, some 1⟩ .s32 false 1 2 0,
    .addi h0 .s64 false 3 2 0,
    .mul h0 .s8x4 false 1 2 3,
    .mulh h0 .s16 1 2 3,
    .mad h0 .s8x4 false 1 2 3 4,
    .mad h0 .s64 false 2 4 6 9,
    .madw h0 .s64 false 2 4 6 8,
    .madw h0 .s32 false 3 4 6 8,
    .madw h0 .s32 false 2 4 6 9] : List Instr).all fun i => !Instr.wf i) = true := by decide +kernel

theorem test_wf_refuses_integer_2 : (([
    .div h0 .s16 false 1 2 3,
    .div h0 .s64 false 2 4 7,
    .rem h0 .f32 1 2 3,
    .rem h0 .s64 3 4 6,
    .neg h0 .h2 false 1 2,
    .neg h0 .s64 false 1 2,
    .abs h0 .z32 false 1 2,
    .abs h0 .s64 false 2 1,
    .min h0 .f32 1 2 3,
    .max h0 .b2 1 2 3,
    .max h0 .z64 2 4 5,
    .clamp h0 .f16 1 2 3 4,
    .clamp h0 .s64 2 4 6 7,
    .lea h0 .s16 2 4 6 0,
    .lea h0 .s32 3 4 6 0,
    .lea h0 .s32 2 5 6 0,
    .lea h0 .s64 2 4 7 0] : List Instr).all fun i => !Instr.wf i) = true := by decide +kernel

theorem test_wf_refuses_logic : (([
    .and h0 .s16 1 2 3,
    .or h0 .f32 1 2 3,
    .xor h0 .s64 1 2 4,
    .not h0 .z8 1 2,
    .not h0 .z64 2 3,
    .bool3 h0 .s8 1 2 3 4 0,
    .bool3 h0 .s64 2 4 6 7 0,
    .shl h0 .s16 1 2 (.reg 3),
    .shr h0 .s64 1 2 (.imm 3),
    .sar h0 .f32 1 2 (.imm 3),
    .rot h0 .z64 2 3 (.imm 3),
    .popc h0 .s32 1 2,
    .popc h0 .z64 1 3,
    .clz h0 .s64 1 2,
    .ctz h0 .f64 1 2,
    .bfx h0 .s16 1 2 (.imm 0),
    .bfx h0 .s64 1 2 (.imm 0),
    .bfi h0 .f32 1 2 3 (.imm 0),
    .bfi h0 .s64 2 4 5 (.imm 0)] : List Instr).all fun i => !Instr.wf i) = true := by decide +kernel

theorem test_wf_refuses_compare : (([
    .cmp h0 .un .s32 1 2 3,
    .cmp h0 .ord .z64 1 2 4,
    .cmp h0 .eq .h2 1 2 3,
    .cmp h0 .eq .s64 1 3 4,
    .cmp h0 .eq .f64 1 2 5,
    .cmpi ⟨none, false, some 1⟩ .eq .s32 1 2 0,
    .cmpi h0 .un .s32 1 2 0,
    .cmpi h0 .eq .f16 1 2 0,
    .cmpi h0 .eq .s64 1 3 0,
    .sel h0 .f64 1 2 4 6,
    .sel h0 .s64 2 3 4 6,
    .sel h0 .z64 2 4 5 6,
    .veq h0 .s32 1 2,
    .veq h0 .z64 1 3] : List Instr).all fun i => !Instr.wf i) = true := by decide +kernel

theorem test_wf_refuses_float : (([
    .fadd h0 .s32 .rne false 1 2 3,
    .fadd h0 .f64 .rne false 1 2 4,
    .fsub h0 .f64 .rne false 2 3 4,
    .fmul h0 .z8 .rne false 1 2 3,
    .fdiv h0 .f64 .rne false 2 4 5,
    .ffma h0 .f64 .rne false 2 4 6 7,
    .ffma h0 .s8x4 .rne false 1 2 3 4,
    .fsqrt h0 .s32 .rne 1 2,
    .fsqrt h0 .f64 .rne 1 2,
    .fmin h0 .s32 1 2 3,
    .fmax h0 .f64 1 2 4,
    .fneg h0 .s32 1 2,
    .fabs h0 .f64 2 3,
    .frcp h0 .z32 .rne false 1 2,
    .frcp h0 .f64 .rne false 1 2,
    .frnd h0 .s32 .rne 1 2,
    .frndExact h0 .f64 .rne 2 1,
    .fscale h0 .s32 .rne false 1 2 3,
    .fscale h0 .f64 .rne false 2 3 4,
    .fclass h0 .s32 1 2,
    .fclass h0 .f64 1 3] : List Instr).all fun i => !Instr.wf i) = true := by decide +kernel

theorem test_wf_refuses_float_2 : (([
    .frsq h0 .f64 .rne false 1 2,
    .fexp2 h0 .f64 .rne false 1 2,
    .flog2 h0 .s32 .rne false 1 2,
    .fsin h0 .f64 .rne false 1 2,
    .fcos h0 .f64 .rne false 1 2,
    .ftanh h0 .f64 .rne false 1 2,
    .dot2 h0 .f32 .rne false 1 2 3 4] : List Instr).all fun i => !Instr.wf i) = true := by decide +kernel

theorem test_wf_refuses_convert_cross : (([
    .cvt h0 .h2 .f32 .rne false 1 2,
    .cvt h0 .f32 .s8x4 .rne false 1 2,
    .cvt h0 .f64 .f32 .rne false 1 2,
    .cvt h0 .f32 .s64 .rne false 1 3,
    .pack h0 .e2m1 .rne false 1 249,
    .pack h0 .f16 .rne false 1 255,
    .unpack h0 .s8 253 1,
    .flagsClr h0 0x80,
    .flagsSet h0 0x80,
    .flagsRm h0 6,
    .flagsTake h0 1 0x80,
    .shfl h0 .s64 1 2 3 none,
    .shfl h0 .s64 2 4 3 (some 5),
    .shflx h0 .f64 2 3 1,
    .shflup h0 .z64 2 4 1 (some 5),
    .shfldn h0 .z64 1 4 1 none,
    .bcast h0 .f64 2 3 (.imm 0),
    .wred h0 .and .f32 .rne false 1 2,
    .wred h0 .add .h2 .rne false 1 2,
    .wred h0 .min .f32 .rz false 1 2,
    .wscan h0 .add .s32 .rne true 1 2,
    .wscan h0 .add .f64 .rne false 1 2] : List Instr).all fun i => !Instr.wf i) = true := by decide +kernel

theorem test_wf_refuses_memory : (([
    .ld ⟨none, false, some 1⟩ .s32 .rne false 1 ⟨.g, 2, 0, 0, none⟩ none false,
    .ld h0 .s64 .rne false 1 ⟨.g, 2, 0, 0, none⟩ none false,
    .ld h0 .s32 .rne false 1 ⟨.g, 3, 0, 0, none⟩ none false,
    .ld h0 .s32 .rne false 1 ⟨.s, 2, 0, 0, none⟩ none true,
    .ld h0 .s32 .rne false 1 ⟨.g, 2, 0, 1, none⟩ none true,
    .ld h0 .s32 .rne false 1 ⟨.g, 2, 0, 0, none⟩ (some 3) true,
    .st h0 .f64 .rne false 1 ⟨.g, 2, 0, 0, none⟩ none,
    .st h0 .s32 .rne false 1 ⟨.g, 3, 0, 0, none⟩ none,
    .ldb h0 true .s32 .rne false 1 ⟨.g, 2, 0, 0, none⟩,
    .ldb h0 false .h2 .rne false 1 ⟨.g, 2, 0, 0, none⟩,
    .stb ⟨none, false, some 1⟩ .rne 1 ⟨.g, 2, 0, 0, none⟩ none,
    .stb h0 .rne 1 ⟨.g, 3, 0, 0, none⟩ none,
    .zero h0 ⟨.g, 2, 0, 0, some 1⟩,
    .zero h0 ⟨.g, 3, 0, 0, none⟩,
    .pref h0 ⟨.g, 2, 0, 0, some 1⟩,
    .prefL2 h0 ⟨.g, 3, 0, 0, none⟩,
    .flush h0 ⟨.g, 2, 0, 1, none⟩,
    .flush h0 ⟨.g, 2, 0, 0, some 1⟩] : List Instr).all fun i => !Instr.wf i) = true := by decide +kernel

theorem test_wf_refuses_atomic : (([
    .atom h0 .and .f32 1 ⟨.g, 2, 0, 0, none⟩ 4,
    .atom h0 .inc .s32 1 ⟨.g, 2, 0, 0, none⟩ 4,
    .atom h0 .add .s32 1 ⟨.g, 2, 0, 1, none⟩ 4,
    .atom h0 .add .s64 1 ⟨.g, 2, 0, 0, none⟩ 4,
    .atom h0 .add .s64 4 ⟨.g, 2, 0, 0, none⟩ 5,
    .atomn h0 .add .s16 ⟨.g, 2, 0, 0, none⟩ 4,
    .atomn h0 .add .s32 ⟨.g, 3, 0, 0, none⟩ 4,
    .cas h0 .f32 1 ⟨.g, 2, 0, 0, none⟩ 4,
    .cas h0 .s32 1 ⟨.g, 2, 0, 0, none⟩ 255,
    .cas h0 .s64 4 ⟨.g, 2, 0, 0, none⟩ 253,
    .cas h0 .s64 4 ⟨.g, 2, 0, 0, none⟩ 5,
    .lr h0 .s16 1 ⟨.g, 2, 0, 0, none⟩,
    .lr h0 .s64 1 ⟨.g, 2, 0, 0, none⟩,
    .lr h0 .s32 1 ⟨.g, 2, 0, 2, none⟩,
    .sc h0 .f32 1 ⟨.g, 2, 0, 0, none⟩ 4,
    .sc h0 .s64 1 ⟨.g, 2, 0, 0, none⟩ 5,
    .sc h0 .s32 1 ⟨.g, 3, 0, 0, none⟩ 4] : List Instr).all fun i => !Instr.wf i) = true := by decide +kernel

theorem test_wf_refuses_engine : (([
    .cpy ⟨none, false, some 1⟩ 1 8 ⟨.g, .a, 0, none, .rne, false⟩,
    .cpy h0 1 249 ⟨.g, .a, 0, none, .rne, false⟩,
    .cpy h0 1 8 ⟨.g, .a, 0, some 7, .rne, false⟩,
    .cpy h0 1 8 ⟨.g, .a, 0, none, .rz, false⟩,
    .cpy h0 1 8 ⟨.g, .a, 0, none, .rne, true⟩,
    .cpym h0 1 8 20 (some 255) ⟨.g, .a, 0, none, .rne, false⟩,
    .cpym h0 1 249 20 none ⟨.g, .a, 0, none, .rne, false⟩,
    .cpyxGather h0 1 249 4 ⟨.g, .a, 0, none, .rne, false⟩,
    .cpyxScatter h0 1 250 4 ⟨.g, .a, 0, none, .rne, false⟩,
    .cpys h0 1 8 255 1 ⟨.g, .a, 0, none, .rne, false⟩,
    .cpys h0 1 8 20 0 ⟨.g, .a, 0, none, .rne, false⟩,
    .cpyw h0 1 8 20 ⟨.g, .a, 0, none, .rne, false⟩,
    .cpyw h0 1 8 255 ⟨.a, .g, 0, none, .rne, false⟩,
    .shadow h0 1 254,
    .shadowDrop h0 1 254,
    .publish h0 1 255 none,
    .publishKeep h0 1 8 (some 255),
    .sdpark h0 1 254 4 false .keep false none,
    .sdpark h0 1 8 255 false .keep false none,
    .sdcall h0 1 8 12 255 false,
    .sddrop h0 1 254 12 false,
    .sdstat h0 1 3] : List Instr).all fun i => !Instr.wf i) = true := by decide +kernel

theorem test_wf_refuses_tile : (([
    .tcfg h0 253,
    .tcfg ⟨none, false, some 1⟩ 8,
    .tzero ⟨none, false, some 1⟩ 1 0,
    .tloadc h0 .f32 .rne 1 255 0,
    .tloadc h0 .s32 .rz 1 8 0,
    .mmt h0 1 255 8 ⟨0, 0, false, none, none⟩,
    .mmt h0 1 8 255 ⟨0, 0, false, none, none⟩,
    .mmt ⟨none, false, some 1⟩ 1 8 12 ⟨0, 0, false, none, none⟩,
    .tdrain h0 .rne false 1 252 ⟨0, false, 0, none, false, false, none, none⟩,
    .tdrain h0 .rne false 1 8 ⟨0, true, 1, none, false, false, none, none⟩,
    .tdrain h0 .rne false 1 8 ⟨0, false, 0, some ⟨254, 0⟩, false, false, none, none⟩,
    .tdrain h0 .rne false 1 8 ⟨0, false, 0, some ⟨20, 3⟩, false, false, none, none⟩,
    .tdrain h0 .rne false 1 8 ⟨0, false, 0, none, false, false, some 254, none⟩] : List Instr).all fun i => !Instr.wf i) = true := by decide +kernel

theorem test_wf_refuses_queue_task : (([
    .qcfg h0 0 255 1,
    .qsend h0 1 3 4,
    .qsendIdx h0 1 3 4 5,
    .rsend h0 false 1 3 4 0,
    .rsend h0 true 1 2 5 0,
    .rsendIdx h0 true 1 2 5 6 0,
    .expect h0 250 6,
    .grantReg h0 3 1 0 0 true false 0 0,
    .grantReg h0 2 1 255 1 true false 0 0,
    .grantReg h0 2 1 0 0 false false 0 0,
    .grantReg h0 2 1 0 0 true false 3 0,
    .grantReg h0 2 1 0 0 true false 0 3,
    .grantQ h0 3 1 0 0 0,
    .grantQ h0 2 1 0 3 0,
    .grantQ h0 2 1 0 0 3,
    .revoke h0 1 3,
    .spawn h0 1 247,
    .spawn ⟨none, false, some 1⟩ 1 8,
    .launch h0 1 255 0,
    .heapget ⟨none, false, some 1⟩ 1 2 none] : List Instr).all fun i => !Instr.wf i) = true := by decide +kernel

theorem test_wf_refuses_recovery_counter_system : (([
    .ensure h0 ⟨0, 5⟩ none none,
    .ensure ⟨none, false, some 1⟩ ⟨0, 0⟩ none none,
    .elseby h0 ⟨0, 6⟩ none,
    .elseerr ⟨none, false, some 1⟩,
    .elseerrGo h0 ⟨0, 7⟩,
    .cinit h0 1 252,
    .cinitCont h0 1 252 0,
    .cinc h0 1 3 (.imm 1),
    .cdec h0 1 2 (.imm 0),
    .crd h0 1 3,
    .crdF h0 1 3,
    .cwaitLe h0 3 4,
    .cwaitGe h0 3 4,
    .cwaitWt h0 2 5,
    .cwaitWs h0 3 4,
    .bara h0 1 5,
    .barw h0 1 6,
    .winrdT h0 3 4,
    .winrdS h0 2 5] : List Instr).all fun i => !Instr.wf i) = true := by decide +kernel

theorem test_wf_refuses_system : (([
    .srd h0 true 2 0x000,
    .srd h0 false 1 0x011,
    .srd h0 false 1 0x012,
    .srd h0 true 3 0x011,
    .swr h0 false 0x000 1,
    .swr h0 true 0x020 2,
    .swr h0 true 0x033 3,
    .frame h0 0 253,
    .bkpt ⟨none, false, some 1⟩ 0,
    .trap ⟨none, false, some 1⟩ 0,
    .tlbinvVa h0 1 3 none] : List Instr).all fun i => !Instr.wf i) = true := by decide +kernel

/-! ### Words that the spec works out -/

/-- Words from the worked line of 03_encoding.md. -/
theorem test_decode_line :
    decoded (slotWords 0x08000014 0x04000008 0x10) = some (.addi h0 .s32 false 8 8 16) ∧
    decoded (slotWords 0x04009053 0x0A070605 0x9) = some (.ffma ⟨none, true, some 9⟩ .f32 .rne false 4 5 6 7) ∧
    decoded (slotWords 0x00096001 0x0 0x0) = some (.br ⟨some ⟨true, 9⟩, false, none⟩ ⟨0, 0⟩) ∧
    decoded (slotWords 0x6 0x0 0x0) = some (.exit h0) :=
  ⟨rfl, rfl, rfl, rfl⟩

/-- Words from the worked encodings after R126, 20_program_nested_traps.md. -/
theorem test_decode_integer_logic_compare :
    decoded (slotWords 0x0A000240 0x04000504 0x0) = some (.cmp h0 .lt .s32 10 4 5) ∧
    decoded (slotWords 0x02000541 0x05000009 0x64) = some (.cmpi h0 .ge .z32 2 9 100) ∧
    decoded (slotWords 0x04000034 0x05070605 0x9600) = some (.bool3 h0 .z32 4 5 6 7 0x96) ∧
    decoded (slotWords 0x04000135 0x05000005 0x300) = some (.shl h0 .z32 4 5 (.imm 3)) ∧
    decoded (slotWords 0x0600013D 0x04000007 0x0C0400) = some (.bfx h0 .s32 6 7 (.imm 0x0C04)) ∧
    decoded (slotWords 0x0A000019 0x840C0504 0x0) = some (.madw h0 .s32 true 10 4 5 12) ∧
    decoded (slotWords 0x0A000021 0x04000C08 0x300) = some (.lea h0 .s32 10 8 12 3) ∧
    decoded (slotWords 0x0700001A 0x04000605 0x0) = some (.div h0 .s32 false 7 5 6) ∧
    decoded (slotWords 0x063C2011 0x04000000 0x1) = some (.movi ⟨some ⟨false, 60⟩, false, none⟩ .s32 6 1) ∧
    decoded (slotWords 0x0D1C6010 0x0500000B 0x0) = some (.mov ⟨some ⟨true, 28⟩, false, none⟩ .z32 13 11) :=
  ⟨rfl, rfl, rfl, rfl, rfl, rfl, rfl, rfl, rfl, rfl⟩

/-- Words from the worked encodings of 06_float_convert_lane_control.md and 17_program_inversion.md. -/
theorem test_decode_float_convert_lane_control :
    decoded (slotWords 0x04000058 0x1B000806 0x0) = some (.fdiv h0 .f64 .rz false 4 6 8) ∧
    decoded (slotWords 0x03000068 0x14000007 0xA00) = some (.cvt h0 .s32 .f32 .rz false 3 7) ∧
    decoded (slotWords 0x0900016B 0x0A000008 0x0) = some (.dxpack h0 .dx6 .rne 9 8) ∧
    decoded (slotWords 0x05000172 0x0A070006 0x100) = some (.shflup h0 .f32 5 6 1 (some 7)) ∧
    decoded (slotWords 0x02000075 0x0A000003 0x0) = some (.wred h0 .add .f32 .rne false 2 3) ∧
    decoded (slotWords 0x1E000003 0x0 0x18) = some (.call h0 30 ⟨3, 0⟩) ∧
    decoded (slotWords 0x8 0x0 0x1F4) = some (.nap h0 500) ∧
    decoded (slotWords 0x060000F0 0x07000000 0x1100) = some (.srd h0 true 6 0x011) ∧
    decoded (slotWords 0x280000C4 0x0 0x700) = some (.expect h0 40 7) ∧
    decoded (slotWords 0x140000C3 0x05000C0A 0x300) = some (.rsend h0 false 20 10 12 3) ∧
    decoded (slotWords 0x1A000174 0x08001504 0x0) = some (.bcast h0 .f16 26 4 (.reg 21)) ∧
    decoded (slotWords 0x04192058 0x08001A04 0x0) = some (.fdiv ⟨some ⟨false, 25⟩, false, none⟩ .f16 .rne false 4 4 26) ∧
    decoded (slotWords 0x04196053 0x08041C1B 0x0) = some (.ffma ⟨some ⟨true, 25⟩, false, none⟩ .f16 .rne false 4 27 28 4) :=
  ⟨rfl, rfl, rfl, rfl, rfl, rfl, rfl, rfl, rfl, rfl, rfl, rfl, rfl⟩

/-- Words from the worked encodings of 09_memory_instructions.md and of the programs. -/
theorem test_decode_memory :
    decoded (slotWords 0x04000080 0x0A000008 0x100) = some (.ld h0 .f32 .rne false 4 ⟨.g, 8, 256, 0, none⟩ none false) ∧
    decoded (slotWords 0x05000080 0x0520000A 0x0) = some (.ld h0 .z32 .rne false 5 ⟨.g, 10, 0, 0, none⟩ none true) ∧
    decoded (slotWords 0x07000381 0x0812000C 0x40) = some (.st h0 .f16 .rne false 7 ⟨.a, 12, 64, 0, some 2⟩ none) ∧
    decoded (slotWords 0x0A000882 0x0500000E 0x0) = some (.ldb h0 true .z32 .rne false 10 ⟨.g, 14, 0, 0, none⟩) ∧
    decoded (slotWords 0x06000084 0x0A000908 0x0) = some (.atom h0 .add .f32 6 ⟨.g, 8, 0, 0, none⟩ 9) ∧
    decoded (slotWords 0x00000885 0x05000908 0x0) = some (.atomn h0 .inc .z32 ⟨.g, 8, 0, 0, none⟩ 9) ∧
    decoded (slotWords 0x03000088 0x05000408 0x0) = some (.sc h0 .z32 3 ⟨.g, 8, 0, 0, none⟩ 4) ∧
    decoded (slotWords 0x00000289 0x0 0x0) = some (.phaseBoth h0) ∧
    decoded (slotWords 0x00000189 0x0 0x0) = some (.phaseAdopt h0) ∧
    decoded (slotWords 0x48472084 0x04004644 0x0) = some (.atom ⟨some ⟨false, 71⟩, false, none⟩ .add .s32 72 ⟨.g, 68, 0, 0, none⟩ 70) ∧
    decoded (slotWords 0x06000081 0x0400003E 0x80) = some (.st h0 .s32 .rne false 6 ⟨.g, 62, 128, 0, none⟩ none) :=
  ⟨rfl, rfl, rfl, rfl, rfl, rfl, rfl, rfl, rfl, rfl, rfl⟩

/-- Words from the worked encodings of 10_engine_instructions.md and of the programs. -/
theorem test_decode_engine_tile :
    decoded (slotWords 0x140000A0 0x00000020 0x18) = some (.cpy h0 20 32 ⟨.g, .a, 0, none, .rne, false⟩) ∧
    decoded (slotWords 0x140000A0 0x00000020 0xD0) = some (.cpy h0 20 32 ⟨.g, .w, 3, none, .rne, false⟩) ∧
    decoded (slotWords 0x180000A3 0x00280020 0x100003) = some (.cpys h0 24 32 40 1 ⟨.a, .g, 0, none, .rne, false⟩) ∧
    decoded (slotWords 0x000002A7 0x0 0x500) = some (.cpyqFree h0 5) ∧
    decoded (slotWords 0x000000B0 0x28 0x0) = some (.tcfg h0 40) ∧
    decoded (slotWords 0x150000B3 0x2C28 0x3F9) = some (.mmt h0 21 40 44 ⟨1, 127, false, none, none⟩) ∧
    decoded (slotWords 0x160000B4 0x3530 0x5043) = some (.tdrain h0 .rne false 22 48 ⟨3, false, 4, some ⟨53, 0⟩, false, true, none, none⟩) ∧
    decoded (slotWords 0x160000B4 0x3630 0x1808) = some (.tdrain h0 .rne false 22 48 ⟨0, true, 0, some ⟨54, 2⟩, false, false, none, none⟩) ∧
    decoded (slotWords 0x170000AA 0x0042403C 0x10) = some (.sdcall h0 23 60 64 66 true) ∧
    decoded (slotWords 0x200000A9 0x1C14 0x15) = some (.sdpark h0 32 20 28 true .dx6 true none) :=
  ⟨rfl, rfl, rfl, rfl, rfl, rfl, rfl, rfl, rfl, rfl⟩

/-- Words from the worked encodings of 11_queues.md, 13_tables.md and 19_program_persistent_tiles.md. -/
theorem test_decode_queue_task :
    decoded (slotWords 0x000000C0 0x0 0xC80F0100) = some (.qcfg h0 1 200 15) ∧
    decoded (slotWords 0x140000C1 0x05000C0A 0x0) = some (.qsend h0 20 10 12) ∧
    decoded (slotWords 0x1E0002C1 0x05000C00 0x0) = some (.qsendYoke h0 30 12) ∧
    decoded (slotWords 0x040001C2 0x05000000 0x50000) = some (.qpopTry h0 4 5 0) ∧
    decoded (slotWords 0x180000C7 0x28 0x0) = some (.spawn h0 24 40) ∧
    decoded (slotWords 0x190000C8 0x32 0x2) = some (.launch h0 25 50 2) ∧
    decoded (slotWords 0x160000C9 0x908 0x0) = some (.heapput h0 22 8 9 none) ∧
    decoded (slotWords 0x100002C9 0x0 0x0) = some (.heapputClose h0 16 none) ∧
    decoded (slotWords 0x150000CA 0x1E 0x0) = some (.heapget h0 21 30 none) ∧
    decoded (slotWords 0x140000C5 0x6 0x01072800) = some (.grantReg h0 20 6 40 7 true false 0 0) ∧
    decoded (slotWords 0x160001C5 0x6 0x50000100) = some (.grantQ h0 22 6 1 2 2) ∧
    decoded (slotWords 0x030000C6 0x14 0x0) = some (.revoke h0 3 20) :=
  ⟨rfl, rfl, rfl, rfl, rfl, rfl, rfl, rfl, rfl, rfl, rfl, rfl⟩

/-- Words from the worked encodings of 14_recovery.md. -/
theorem test_decode_recovery :
    decoded (slotWords 0x000003D8 0x1514 0x10) = some (.ensure h0 ⟨2, 0⟩ (some 20) (some 21)) ∧
    decoded (slotWords 0x000000D8 0x0 0xB) = some (.ensure h0 ⟨1, 3⟩ none none) ∧
    decoded (slotWords 0x000001D9 0x1600 0x18) = some (.elseby h0 ⟨3, 0⟩ (some 22)) ∧
    decoded (slotWords 0x000000DA 0x0 0x0) = some (.elseerr h0) ∧
    decoded (slotWords 0x000001DA 0x0 0xA) = some (.elseerrGo h0 ⟨1, 2⟩) ∧
    decoded (slotWords 0x000001DB 0x5 0x0) = some (.acceptIf h0 5) ∧
    decoded (slotWords 0x000000DC 0x0 0x700) = some (.reject h0 7) ∧
    decoded (slotWords 0x1E0000DE 0x201F 0x0) = some (.sitjoin h0 30 31 32) :=
  ⟨rfl, rfl, rfl, rfl, rfl, rfl, rfl, rfl⟩

/-- Words from the worked encodings of 15_counters.md. -/
theorem test_decode_counter_barrier :
    decoded (slotWords 0x140000E0 0x28 0xA) = some (.cinitCont h0 20 40 2) ∧
    decoded (slotWords 0x150000E2 0x8 0x100) = some (.cdec h0 21 8 (.imm 1)) ∧
    decoded (slotWords 0x030001E1 0x408 0x0) = some (.cinc h0 3 8 (.reg 4)) ∧
    decoded (slotWords 0x000000E4 0x908 0x0) = some (.cwaitLe h0 8 9) ∧
    decoded (slotWords 0x000001E5 0x0 0x200) = some (.barG h0 2) ∧
    decoded (slotWords 0x060000E6 0x0 0x400) = some (.bara h0 6 4) ∧
    decoded (slotWords 0x000000E7 0x6 0x400) = some (.barw h0 6 4) ∧
    decoded (slotWords 0x0A0000E8 0xC 0x0) = some (.winrdT h0 10 12) :=
  ⟨rfl, rfl, rfl, rfl, rfl, rfl, rfl, rfl⟩

/-- Words from the worked encodings of 13_tables.md and 20_program_nested_traps.md. -/
theorem test_decode_system :
    decoded (slotWords 0x030000F4 0x8 0x0) = some (.tlbinvVa h0 3 8 none) ∧
    decoded (slotWords 0x030002F4 0x0 0x0) = some (.tlbinvAll h0 3) ∧
    decoded (slotWords 0x000000F2 0x0 0x1234) = some (.trap h0 0x1234) ∧
    decoded (slotWords 0x000000F3 0x0 0x0) = some (.rett h0) ∧
    decoded (slotWords 0x030000F6 0x4 0x500) = some (.lease h0 3 4 true) ∧
    decoded (slotWords 0x400000F0 0x07000000 0x3600) = some (.srd h0 true 64 0x036) ∧
    decoded (slotWords 0x004F20F2 0x0 0xE1) = some (.trap ⟨some ⟨false, 79⟩, false, none⟩ 0xE1) :=
  ⟨rfl, rfl, rfl, rfl, rfl, rfl, rfl⟩

/-! ### Values -/

/-! ### Integer and address (R120 to R135), with the values of the example after R145 -/

theorem test_add_s8_sat : word (.add h0 .s8 true 3 1 2) [(1, 100), (2, 50)] 3 0 = some 0x7F := by decide +kernel

theorem test_add_s8_sat_flag : sticky (.add h0 .s8 true 3 1 2) [(1, 0xFFFFFF9C), (2, 0xFFFFFFCE)] = some 32 := by decide +kernel

theorem test_add_wraps : word (.add h0 .s32 false 3 1 2) [(1, 0x7FFFFFFF), (2, 1)] 3 31 = some 0x80000000 := by decide +kernel

theorem test_addi_own_source : word (.addi h0 .s32 false 1 1 0xFFFFFFFF) [(1, 5)] 1 7 = some 4 := by decide +kernel

theorem test_sub_s8x4 : word (.sub h0 .s8x4 false 3 1 2) [(1, 0x01020304), (2, 0x02020202)] 3 0 = some 0xFF000102 := by decide +kernel

theorem test_mul_s16_wraps : word (.mul h0 .s16 false 3 1 2) [(1, 300), (2, 300)] 3 0 = some 0x5F90 := by decide +kernel

theorem test_mulh_z32 : word (.mulh h0 .z32 3 1 2) [(1, 0xFFFFFFFF), (2, 0xFFFFFFFF)] 3 0 = some 0xFFFFFFFE := by decide +kernel

theorem test_mad_z32 : word (.mad h0 .z32 false 3 1 2 4) [(1, 0x10000), (2, 0x10000), (4, 5)] 3 0 = some 5 := by decide +kernel

theorem test_madw_high : word (.madw h0 .s32 false 6 1 2 4) [(1, 0xFFFFFFFE), (2, 3)] 7 0 = some 0xFFFFFFFF := by decide +kernel

theorem test_div_least : word (.div h0 .s32 false 3 1 2) [(1, 0x80000000), (2, 0xFFFFFFFF)] 3 0 = some 0x80000000 := by decide +kernel

theorem test_div_toward_zero : word (.div h0 .s32 false 3 1 2) [(1, 0xFFFFFFF9), (2, 2)] 3 0 = some 0xFFFFFFFD := by decide +kernel

theorem test_rem_sign : word (.rem h0 .s32 3 1 2) [(1, 0xFFFFFFF9), (2, 2)] 3 0 = some 0xFFFFFFFF := by decide +kernel

theorem test_abs_s32 : word (.abs h0 .s32 false 3 1) [(1, 0xFFFFFFFB)] 3 0 = some 5 := by decide +kernel

theorem test_min_signed : word (.min h0 .s32 3 1 2) [(1, 0xFFFFFFFF), (2, 1)] 3 0 = some 0xFFFFFFFF := by decide +kernel

theorem test_max_unsigned : word (.max h0 .z32 3 1 2) [(1, 0xFFFFFFFF), (2, 1)] 3 0 = some 0xFFFFFFFF := by decide +kernel

theorem test_clamp_s32 : word (.clamp h0 .s32 3 1 2 4) [(1, 50), (2, 0), (4, 9)] 3 0 = some 9 := by decide +kernel

theorem test_lea_negative : word (.lea h0 .s32 6 4 1 3) [(4, 0), (5, 1), (1, 0xFFFFFFFF)] 6 0 = some 0xFFFFFFF8 := by decide +kernel

theorem test_movih_high : word (.movih h0 4 9) [(4, 1), (5, 2)] 5 3 = some 9 := by decide +kernel

/-! ### Logic and bits (R136 to R141) -/

theorem test_bool3_by_code : word (.bool3 h0 .z32 4 1 2 3 0x96) [(1, 0xF0), (2, 0xCC), (3, 0xAA)] 4 0 = some 0x96 := by decide +kernel

theorem test_shl_by_width : word (.shl h0 .z32 3 1 (.reg 2)) [(1, 1), (2, 32)] 3 0 = some 0 := by decide +kernel

theorem test_sar_beyond_width : word (.sar h0 .z32 3 1 (.imm 40)) [(1, 0x80000000)] 3 0 = some 0xFFFFFFFF := by decide +kernel

theorem test_shr_logical : word (.shr h0 .s32 3 1 (.imm 4)) [(1, 0x80000000)] 3 0 = some 0x08000000 := by decide +kernel

theorem test_rot_left : word (.rot h0 .z32 3 1 (.imm 1)) [(1, 0x80000001)] 3 0 = some 3 := by decide +kernel

theorem test_funsh : word (.funsh h0 3 1 2 4) [(1, 1), (2, 0x80000000), (4, 31)] 3 0 = some 3 := by decide +kernel

theorem test_popc : word (.popc h0 .z32 3 1) [(1, 0xF0F0)] 3 0 = some 8 := by decide +kernel

theorem test_clz : word (.clz h0 .z32 3 1) [(1, 1)] 3 0 = some 31 := by decide +kernel

theorem test_ctz_pair : word (.ctz h0 .z64 3 4) [(4, 0), (5, 1)] 3 0 = some 32 := by decide +kernel

theorem test_bfx_signed : word (.bfx h0 .s32 6 7 (.imm 0x0C04)) [(7, 0xABC0)] 6 0 = some 0xFFFFFABC := by decide +kernel

theorem test_bfx_unsigned : word (.bfx h0 .z32 6 7 (.imm 0x0C04)) [(7, 0xABC0)] 6 0 = some 0xABC := by decide +kernel

theorem test_bfi : word (.bfi h0 .z32 6 7 8 (.imm 0x0404)) [(7, 0xFFFF), (8, 0x12)] 6 0 = some 0xFF2F := by decide +kernel

/-! ### Compare, select, vote (R142 to R145) -/

theorem test_cmp_signed : word (.cmp h0 .lt .s32 3 1 2) [(1, 0xFFFFFFFF), (2, 1)] 3 0 = some 1 := by decide +kernel

theorem test_cmp_unordered : word (.cmp h0 .un .f32 3 1 2) [(1, 0x7FC00000), (2, 0)] 3 0 = some 1 := by decide +kernel

theorem test_cmpi_unsigned : word (.cmpi h0 .ge .z32 3 1 100) [(1, 0xFFFFFFFF)] 3 0 = some 1 := by decide +kernel

theorem test_sel_bit_0 : word (.sel h0 .z32 4 1 2 3) [(1, 7), (2, 8), (3, 2)] 4 0 = some 8 := by decide +kernel

theorem test_ballot_odd_lanes : wordOf (.ballot h0 3 1) (laneWords 1 0) 3 0 = some 0xAAAAAAAA := by decide +kernel

theorem test_vall : word (.vall h0 3 1) [(1, 1)] 3 0 = some 1 := by decide +kernel

/-! ### Float (R148 to R157) -/

theorem test_fadd : word (.fadd h0 .f32 .rne false 3 1 2) [(1, 0x3DCCCCCD), (2, 0x3E4CCCCD)] 3 0 = some 0x3E99999A := by decide +kernel

theorem test_fsub_zero_rdn : word (.fsub h0 .f32 .rdn false 3 1 2) [(1, 0x3F800000), (2, 0x3F800000)] 3 0 = some 0x80000000 := by decide +kernel

theorem test_fmul_overflow : sticky (.fmul h0 .f32 .rne false 3 1 2) [(1, 0x7F7FFFFF), (2, 0x40000000)] = some 20 := by decide +kernel

theorem test_ffma_one_rounding : word (.ffma h0 .f32 .rne false 3 1 2 4) [(1, 0x3F800800), (2, 0x3F800800), (4, 0xBF801000)] 3 0 = some 0x33800000 := by decide +kernel

theorem test_fdiv_third : word (.fdiv h0 .f32 .rne false 3 1 2) [(1, 0x3F800000), (2, 0x40400000)] 3 0 = some 0x3EAAAAAB := by decide +kernel

theorem test_fdiv_by_zero : sticky (.fdiv h0 .f32 .rne false 3 1 2) [(1, 0x3F800000), (2, 0)] = some 2 := by decide +kernel

theorem test_fsqrt_two : word (.fsqrt h0 .f32 .rne 3 1) [(1, 0x40000000)] 3 0 = some 0x3FB504F3 := by decide +kernel

theorem test_fmin_zeros : word (.fmin h0 .f32 3 1 2) [(1, 0), (2, 0x80000000)] 3 0 = some 0x80000000 := by decide +kernel

theorem test_fscale_h2 : word (.fscale h0 .h2 .rne false 3 1 2) [(1, 0x3C003C00), (2, 0xFFFF0003)] 3 0 = some 0x38004800 := by decide +kernel

theorem test_fclass_subnormal : word (.fclass h0 .f32 3 1) [(1, 1)] 3 0 = some 128 := by decide +kernel

theorem test_dot2 : word (.dot2 h0 .h2 .rne false 3 1 2 4) [(1, 0x40003C00), (2, 0x44004200), (4, 0x3F800000)] 3 0 = some 0x41400000 := by decide +kernel

theorem test_frnd_tie : word (.frnd h0 .f32 .rne 3 1) [(1, 0x40200000)] 3 0 = some 0x40000000 := by decide +kernel

/-! ### Convert (R46, R158 to R164), with the dx6 block worked under R43 -/

theorem test_cvt_rz : word (.cvt h0 .s32 .f32 .rz false 3 1) [(1, 0x402CCCCD)] 3 0 = some 2 := by decide +kernel

theorem test_pack_e4m3 : word (.pack h0 .e4m3 .rne false 6 1) [(1, 0x3F800000), (2, 0x3F800000), (3, 0x3F800000), (4, 0xBF800000)] 6 0 = some 0xB8383838 := by decide +kernel

theorem test_unpack_e4m3 : word (.unpack h0 .e4m3 8 1) [(1, 0xB8383838)] 11 0 = some 0xBF800000 := by decide +kernel

theorem test_dxpack_lane_0 : wordOf (.dxpack h0 .dx6 .rne 9 8) [(256, 0x407A0000), (257, 0x3F900000), (258, 0xBDC80000), (259, 0x3E7D0000)] 9 0 = some 0x00807C1F := by decide +kernel

theorem test_dxpack_lane_2 : wordOf (.dxpack h0 .dx6 .rne 9 8) [(256, 0x407A0000), (257, 0x3F900000), (258, 0xBDC80000), (259, 0x3E7D0000)] 9 2 = some 0x00807C26 := by decide +kernel

theorem test_dxunpk_lane_3 : word (.dxunpk h0 .dx6 10 9) [(9, 0x00807C11)] 10 3 = some 0x3E800000 := by decide +kernel

theorem test_dxunpk_lane_0 : word (.dxunpk h0 .dx6 10 9) [(9, 0x00807C1F)] 10 0 = some 0x40700000 := by decide +kernel

/-! ### Cross-lane (R165 to R169) -/

theorem test_shfl_wraps : wordOf (.shfl h0 .z32 5 6 7 none) (laneWords 6 100 ++ laneWords 7 40) 5 0 = some 108 := by decide +kernel

theorem test_shflup_fill : wordOf (.shflup h0 .z32 5 6 1 (some 7)) (laneWords 6 100 ++ laneWords 7 40) 5 0 = some 40 := by decide +kernel

theorem test_shflx : wordOf (.shflx h0 .z32 5 6 3) (laneWords 6 100) 5 4 = some 107 := by decide +kernel

theorem test_bcast : wordOf (.bcast h0 .z32 5 6 (.imm 9)) (laneWords 6 100) 5 4 = some 109 := by decide +kernel

theorem test_wred_add : wordOf (.wred h0 .add .z32 .rne false 5 6) (laneWords 6 0) 5 4 = some 496 := by decide +kernel

theorem test_wscan_add : wordOf (.wscan h0 .add .z32 .rne false 5 6) (laneWords 6 0) 5 5 = some 15 := by decide +kernel

/-! ### Control, traps and memory -/

/-- BR to slot 0 of its own line, which its TGT bit lets in (R66, R172). -/
theorem test_br : (after (.br h0 ⟨0, 0⟩) small).map (fun t => (t.wave 0).pc 31) = some 0x4000 := by decide +kernel

/-- TRAP writes its code into TADDR, SOFTWARE into TCAUSE and the next counter into TEPC, one level up (R181, R367). -/
theorem test_trap : (after (.trap h0 5) small).map (fun t => ((t.wave 0).trap.level, (t.wave 0).trap.a.addr,
    (t.wave 0).trap.a.cause, Tab.get 0 (t.wave 0).trap.a.epc 3)) =
    some (1, 5, BitVec.ofNat 32 Cause.software.code, 0x4001) := by decide +kernel

/-- An atomic add acts at the home: 32 lanes of one word (R241). -/
theorem test_atomn : (after (.atomn h0 .add .z32 ⟨.g, 2, 0, 0, none⟩ 4) (regs [(2, 0x8000), (4, 3)])).map
    (fun t => (t.mem.byte (placeOf 0x8000)).toNat) = some 96 := by decide +kernel

/-! ### The hash functions -/

/-- The digest of no bytes that FIPS 202 gives, its first four bytes. -/
theorem test_sha3_none : (sha3 []).take 4 = [0xa7, 0xff, 0xc6, 0xf8] := by decide +kernel

/-- Sample 1 of NIST for KMAC128: key 40 to 5F, message 00 to 03, 32 bytes; the first four. -/
theorem test_kmac128_sample : (kmac128 ((List.range 32).map fun i => BitVec.ofNat 8 (0x40 + i)) [0, 1, 2, 3] 32 []).take 4 =
    [0xe5, 0x78, 0x0b, 0x0d] := by decide +kernel

/-! ### A step from a placed word -/

/-- MOVI.z32 v4, #7: the word of R126 placed, fetched through the page table, decoded and executed by one step. -/
theorem test_step_placed : (match step (State.reset.withFetchWord 96 0x00000007_05000000_04000011) with
    | .next t => ((t.wave 0).word 4 31, (t.wave 0).pc 31)
    | _ => (0, 0)) = (7, 0x4001) := by decide +kernel

theorem test_decodeTableWord : decodeTableWord 96 0x00000007_05000000_04000011 = some (.movi h0 .z32 4 7) := rfl

end Sys2Proof.Tests
end

