-- ==== Sys2Proof/Tests/WitnessRegs.lean ====
section
/-! SUPPORT. Witnesses: states and operands that meet the hypotheses of the statements about encodings, the step, the checks
and the register instructions. -/

namespace Sys2Proof.Tests
open Sys2Proof.Machine

set_option Elab.async false

/-! ### Encodings and the step -/

theorem witness_encode_then_decode : Instr.wf (.add h0 .s32 true 3 1 2) = true ∧
    encode (.add h0 .s32 true 3 1 2) = some (slotWords 0x03000013 0x84000201 0) := ⟨rfl, rfl⟩

theorem witness_decode_then_encode : decodeWord (slotWords 0x03000013 0x84000201 0) = .ok (.add h0 .s32 true 3 1 2) := rfl

/-- The lowest and the highest unassigned opcode. -/
theorem witness_refused_opcode : unassigned 0x09 ∧ unassigned 0xFE := by unfold unassigned; omega

theorem witness_refused_type : (slotWords 0x03000013 0x0F000201 0).extractLsb' 56 4 = 15 ∧
    (slotWords 0x03000013 0x0F000201 0).extractLsb' 0 8 ≠ 0xFF := by decide +kernel

theorem witness_refused_guard : (slotWords 0x03004013 0x04000201 0).getLsbD 13 = false ∧
    (slotWords 0x03004013 0x04000201 0).getLsbD 14 = true ∧ (slotWords 0x03004013 0x04000201 0).extractLsb' 0 8 ≠ 0xFF := by
  decide +kernel

theorem witness_refused_slot : decoded (slotWords 9 0 0) = none ∧ Tab.find small.waves 0 = some w0 ∧
    (Tab.find small.blocks w0.block).isSome = true := ⟨rfl, rfl, rfl⟩

/-- A turn in which core 0 issues a NOP. -/
def issuing : State := State.reset.placed 0

/-- It with the looks of its agenda taken. -/
def looking : State := { issuing with agenda := [] }.looked 0

/-- It with the vote written. -/
def voted (v : Vote) : State := looking.updWave 0 fun w => { w with fcount := v.fcount, lastA := v.first, lastB := 0 }

/-- The answer is good and passes. -/
def okAnd {α ε : Type} (x : Except ε α) (p : α → Bool) : Bool :=
  match x with
  | .ok a => p a
  | .error _ => false

theorem ok_and {α β ε : Type} (x : Except ε α × β) (p : α → Bool) (h : okAnd x.1 p = true) :
    ∃ a b, x = (.ok a, b) ∧ p a = true := by
  obtain ⟨a | a, b⟩ := x
  · simp [okAnd] at h
  · exact ⟨a, b, rfl, h⟩

theorem some_and {α} (x : Option α) (p : α → Bool) (h : x.any p = true) : ∃ a, x = some a ∧ p a = true := by
  cases x with
  | none => simp at h
  | some a => exact ⟨a, rfl, h⟩

/-- The line that the vote's path reads lets it in, and its slot holds a NOP. -/
def linePasses (v : Vote) (line : BitVec 512) : Bool :=
  tgtBit line (slotOfPc v.first) && match decodeWord (slotBits line (slotOfPc v.first)) with
    | .ok i => decide (i = .nop h0)
    | .error _ => false

theorem witness_step_issue : issuing.agenda = .issue 0 :: [] ∧ looking.picked 0 = some 0 ∧ (looking.wave 0).duty = none ∧
    ∃ v, vote (looking.ctx (looking.wave 0).ctx).fair (looking.wave 0).fcount (looking.wave 0).lastB (looking.readyPaths 0) = some v ∧
      ∃ line s3, (voted v).lineFor 0 v.first ((looking.wave 0).pathAt v.first) = (.ok line, s3) ∧ linePasses v line = true := by
  refine ⟨rfl, by decide +kernel, by decide +kernel, ?_⟩
  obtain ⟨v, hv, hp⟩ := some_and
    (vote (looking.ctx (looking.wave 0).ctx).fair (looking.wave 0).fcount (looking.wave 0).lastB (looking.readyPaths 0))
    (fun v => okAnd ((voted v).lineFor 0 v.first ((looking.wave 0).pathAt v.first)).1 (linePasses v)) (by decide +kernel)
  exact ⟨v, hv, ok_and _ _ hp⟩

theorem witness_step_event : ({ small with agenda := [.event (.poolMove 0 3)] } : State).agenda = .event (.poolMove 0 3) :: [] ∧
    (Instr.poolMove 0 3).fields = none := ⟨rfl, rfl⟩

theorem witness_step_tidy : State.reset.tidy ∧ ∃ t, step State.reset = .next t := ⟨by unfold State.tidy; decide +kernel, _, rfl⟩

/-! ### Register instructions -/

/-- Registers 0 to 31 hold 1. -/
def ones : State := regs ((List.range 32).map fun r => (r, 1))

/-- Its wave. -/
def w1 : Wave := { w0 with regs := inEvery ((List.range 32).map fun r => (r, 1)) }

theorem ones_issues : ones.Issues c0 w1 := ⟨rfl, rfl⟩

/-- The instruction's hypotheses hold in `ones`. -/
def Meets (table : State → Cur → Wave → Instr → Option RegResult) (i : Instr) : Prop :=
  ∃ r, table ones c0 w1 i = some r ∧ ones.Ready c0 w1 r.h r.rs r.cross ∧ r.ok = true

theorem meets_all {table : State → Cur → Wave → Instr → Option RegResult} {l : List Instr} (hl : (l.all fun i => match table ones c0 w1 i with
    | some r => ones.ready c0 w1 r.h r.rs r.cross && r.ok
    | none => false) = true) : ∀ i ∈ l, Meets table i := by
  intro i hi
  have h := List.all_eq_true.mp hl i hi
  split at h
  · next r hr => simp only [Bool.and_eq_true] at h; exact ⟨r, hr, ⟨ones_issues, h.1⟩, h.2⟩
  · simp at h

theorem witness_integer : ∀ i ∈ [
    .mov h0 .s32 1 2, .movi h0 .s64 2 7, .movih h0 2 7, .add h0 .s64 true 2 4 6, .addi h0 .z32 false 1 2 7,
    .sub h0 .s8x4 true 1 2 3, .mul h0 .z16 true 1 2 3, .mulh h0 .s64 2 4 6, .mad h0 .s32 false 1 2 3 4,
    .madw h0 .z32 false 2 4 5 6, .div h0 .s32 false 1 2 3, .rem h0 .z64 2 4 6, .neg h0 .s8 true 1 2,
    .abs h0 .s8x4 false 1 2, .min h0 .z8 1 2 3, .max h0 .s64 2 4 6, .clamp h0 .s32 1 2 3 4, .lea h0 .s32 2 4 6 3,
    .add ⟨some ⟨true, 9⟩, true, some 8⟩ .s32 false 1 1 1], Meets integerResult i := meets_all (by decide +kernel)

theorem witness_logic : ∀ i ∈ [
    .and h0 .s32 1 2 3, .or h0 .z64 2 4 6, .xor h0 .s32 1 1 1, .not h0 .z32 1 2, .bool3 h0 .s64 2 4 6 8 0x96,
    .shl h0 .z32 1 2 (.imm 32), .shr h0 .s64 2 4 (.reg 6), .sar h0 .z32 1 2 (.imm 127), .rot h0 .z32 1 2 (.reg 3),
    .funsh h0 1 2 3 4, .popc h0 .z64 1 2, .clz h0 .z32 1 2, .ctz h0 .z32 1 2, .bfx h0 .s32 1 2 (.imm 0x0C04),
    .bfi h0 .z64 2 4 6 (.reg 8)], Meets logicResult i := meets_all (by decide +kernel)

theorem witness_compare : ∀ i ∈ [
    .cmp h0 .lt .s32 1 2 3, .cmp h0 .un .f64 1 2 4, .cmpi h0 .ge .z64 1 2 7, .sel h0 .h2 1 2 3 4, .ballot h0 1 2, .vany h0 1 2,
    .vall h0 1 2, .veq h0 .z64 1 2, .active h0 1, .activePath h0 1, .activeLive h0 1], Meets compareResult i :=
  meets_all (by decide +kernel)

theorem witness_float : ∀ i ∈ [
    .fadd h0 .f32 .rne false 1 2 3, .fsub h0 .h2 .rz true 1 2 3, .fmul h0 .bf16 .sto false 1 2 3,
    .ffma h0 .f64 .dyn false 2 4 6 8, .fdiv h0 .f16 .rpl false 1 2 3, .fsqrt h0 .b2 .rdn 1 2, .fmin h0 .f32 1 2 3,
    .fmax h0 .f64 2 4 6, .fneg h0 .h2 1 2, .fabs h0 .f32 1 2, .frcp h0 .f64 .rne false 2 4, .frsq h0 .f32 .rne false 1 2,
    .fexp2 h0 .f16 .rne true 1 2, .flog2 h0 .f32 .rne false 1 2, .fsin h0 .bf16 .rne false 1 2, .fcos h0 .h2 .rne false 1 2,
    .ftanh h0 .f32 .rne false 1 2, .frnd h0 .f32 .rna 1 2, .frndExact h0 .f32 .rz 1 2, .fscale h0 .h2 .rne false 1 2 3,
    .fclass h0 .f64 1 2, .dot2 h0 .b2 .rne false 1 2 3 4], Meets floatResult i := meets_all (by decide +kernel)

theorem witness_convert : ∀ i ∈ [
    .cvt h0 .s32 .f32 .rz true 1 2, .pack h0 .e2m1 .rne false 9 1, .unpack h0 .s4 9 1, .dxpack h0 .dx6 .rne 1 2,
    .mxpack h0 .mxs8 .rne 1 2, .dxunpk h0 .dx8 1 2, .mxunpk h0 .mxe4m3 1 2, .flagsClr h0 0x7F, .flagsSet h0 0x100, .flagsRm h0 5,
    .flagsTake h0 1 0x7F7F], Meets convertResult i := meets_all (by decide +kernel)

theorem witness_cross : ∀ i ∈ [
    .shfl h0 .z32 1 2 3 none, .shfl h0 .z64 2 4 3 (some 6), .shflx h0 .f32 1 2 31, .shflup h0 .f32 5 6 1 (some 7), .shfldn h0 .s16 1 2 1 none,
    .bcast h0 .z32 1 2 (.imm 31), .bcast h0 .z64 2 4 (.reg 6), .wred h0 .add .f32 .rne false 1 2, .wscan h0 .xor .z64 .rne false 2 4],
    Meets crossResult i := meets_all (by decide +kernel)

theorem witness_special_read : ∀ i ∈ [
    .srd h0 false 1 0x000, .srd h0 true 2 0x011, .srd h0 false 1 0x037, .srd h0 true 2 0x072, .srd h0 false 1 0x080],
    Meets systemResult i := meets_all (by decide +kernel)

/-! ### Checks -/

theorem witness_checks : ∃ r, anyResult ones c0 w1 (.add h0 .s32 false 1 2 3) = some r ∧ ones.Issues c0 w1 ∧
    (Tab.find ones.blocks w1.block).isSome = true := ⟨_, rfl, ones_issues, rfl⟩

/-- A footprint of 8 and a register above it. -/
def w8 : Wave := { w0 with foot := 8 }

theorem witness_check_range : ∃ r, anyResult { small with waves := [(0, w8)] } c0 w8 (.add h0 .s32 false 1 2 8) = some r ∧
    ({ small with waves := [(0, w8)] } : State).Issues c0 w8 ∧ ∃ x ∈ r.named, w8.foot ≤ x :=
  ⟨_, rfl, ⟨rfl, rfl⟩, 8, by decide +kernel, by decide +kernel⟩

/-- A queue over registers 4 to 7. -/
def wq : Wave := { w0 with queues := [(0, ⟨4, 4⟩)] }

theorem witness_check_queue : ∃ r, anyResult { small with waves := [(0, wq)] } c0 wq (.add h0 .s32 false 1 2 7) = some r ∧
    ({ small with waves := [(0, wq)] } : State).Issues c0 wq ∧ (∀ x ∈ r.named, x < wq.foot) ∧
    ∃ x ∈ r.named, (wq.queueAt x).isSome = true :=
  ⟨_, rfl, ⟨rfl, rfl⟩, by decide +kernel, 7, by decide +kernel, by decide +kernel⟩

/-- Register 9, a guard, is pending in lane 5, and register 1 in every lane. -/
def wp : Wave := { w0 with pend := [(9, 32), (1, BitVec.allOnes 32)] }

theorem witness_check_guard : ∃ r, anyResult { small with waves := [(0, wp)] } c0 wp (.add ⟨some ⟨false, 9⟩, false, none⟩ .s32 false 4 2 3) = some r ∧
    ({ small with waves := [(0, wp)] } : State).Issues c0 wp ∧ (∀ x ∈ r.named, x < wp.foot ∧ wp.queueAt x = none) ∧
    wp.dispatch = false ∧ ∃ x ∈ guardRegs r.h, Tab.get 0 wp.pend x &&& c0.path ≠ 0 :=
  ⟨_, rfl, ⟨rfl, rfl⟩, by decide +kernel, rfl, 9, by decide +kernel, by decide +kernel⟩

theorem witness_check_pending : ∃ r, anyResult { small with waves := [(0, wp)] } c0 wp (.add h0 .s32 false 1 2 3) = some r ∧
    ({ small with waves := [(0, wp)] } : State).Issues c0 wp ∧ (∀ x ∈ r.named, x < wp.foot ∧ wp.queueAt x = none) ∧
    wp.dispatch = false ∧ (∀ x ∈ guardRegs r.h, wp.usable c0.path x = true) ∧
    ∃ x ∈ r.words, (Tab.get 0 wp.pend x.1).getLsbD x.2.1 = true :=
  ⟨_, rfl, ⟨rfl, rfl⟩, by decide +kernel, rfl, by decide +kernel, (1, 0, 0), by decide +kernel, by decide +kernel⟩

theorem witness_division : small.Ready c0 w0 h0 (typedRegs .s32 [2, 3] ++ regsOf .s32 1) ∧
    (Tab.find small.blocks w0.block).isSome = true ∧
    (Mask.of fun l => (small.issOf c0 w0 h0).act.getLsbD l && (small.issOf c0 w0 h0).int .s32 3 l 0 == 0) ≠ (0 : Mask) :=
  ⟨⟨⟨rfl, rfl⟩, by decide +kernel⟩, rfl, by decide +kernel⟩

theorem witness_bitwise : ∃ h d a b f, bitwise (.xor h0 .z64 4 6 8) = some (h, .z64, d, a, b, f) ∧
    Instr.wf (.xor h0 .z64 4 6 8) = true ∧ ones.Ready c0 w1 h (regsOf .z64 a ++ regsOf .z64 b ++ regsOf .z64 d) ∧ w1.window = [] :=
  ⟨_, _, _, _, _, rfl, rfl, ⟨ones_issues, by decide +kernel⟩, rfl⟩

end Sys2Proof.Tests
end

