-- ==== Sys2Proof/Tests/WitnessMem.lean ====
section
/-! SUPPORT. Witnesses: states and operands that meet the hypotheses of the statements about memory instructions. -/

namespace Sys2Proof.Tests
open Sys2Proof.Machine

set_option Elab.async false

/-- Pairs 2, 6, 18, 20 and 22 hold 0x8000, 0x40, 0x4000, 0x8000 and 0xC000 in every lane, pair 8 holds 0x8000 and 8 times the lane, register 10 the lane; the
other registers hold 0. -/
def wm : Wave :=
  { w0 with
    regs := inEvery [(2, 0x8000), (6, 0x40), (18, 0x4000), (20, 0x8000), (22, 0xC000)] ++ (List.range 32).map (fun l => (8 * 32 + l, BitVec.ofNat 32 (0x8000 + 8 * l))) ++
      laneWords 10 0 }

/-- A zeroed typed buffer of 64 KiB: its granules raw, f32, mxe4m3 and t2. -/
def buffer : Buffer := { Buffer.blank with size := 0x10000, fdt := [(1, 1), (2, 2), (3, 3)] }

/-- A block with buffers. -/
def bm : Block := { fetchBlock with s := { Buffer.blank with size := 0x4000 }, a := buffer, w := buffer, c := { Buffer.blank with size := 0x80000 } }

/-- An FDT whose entries 1 to 4 are f32, mxe4m3, t2 and f16, the scales of the block formats at 0x100. -/
def tabled (m : Memory) : Memory :=
  m.write [(placeOf 0x3020, 2), (placeOf 0x3040, 14), (placeOf 0x3051, 1), (placeOf 0x3060, 24), (placeOf 0x3071, 1), (placeOf 0x3080, 3)]

/-- The first 16 bytes of a line at 0x8000. -/
def line0 : L1Line := { L1Line.blank with bytes := (List.range 16).map fun n => (n, ⟨BitVec.ofNat 8 n, none, none⟩) }

/-- Lanes 0 and 31 are on the path. -/
def c2 : Cur := ⟨0, 0x80000001, 0x4000⟩

/-- The wave in a block with buffers. -/
def mem : State :=
  { small with
    cur := some c2
    waves := [(0, wm)]
    blocks := [(0, bm)]
    mem := tabled small.mem
    ctxs := Tab.put small.ctxs 0 { small.ctx 0 with fdtbase := 0x3000 } }

/-- And core 0 holds a line. -/
def held : State := { mem with cores := Tab.put mem.cores 0 { mem.core 0 with l1 := [(lineKey 0 0x8000, line0)] } }

theorem mem_issues : mem.Issues c2 wm := ⟨rfl, rfl⟩

theorem held_issues : held.Issues c2 wm := ⟨rfl, rfl⟩

/-- The accesses of a memory instruction's lanes where it may go. -/
def places (r : Reaching) : Option (List (Nat × Place)) :=
  match r.accesses with
  | .ok ps => some ps
  | .error _ => none

/-- The hypotheses of a memory instruction's completion hold in `mem`. -/
def Reaches (table : State → Cur → Wave → Instr → Option Reaching) (i : Instr) : Prop :=
  ∃ r ps, table mem c2 wm i = some r ∧ mem.Ready c2 wm r.h r.rs ∧ (mem.issOf c2 wm r.h).act ≠ 0 ∧ r.accesses = .ok ps ∧ r.ok = true

theorem reaches_all {table : State → Cur → Wave → Instr → Option Reaching} {l : List Instr}
    (hl : (l.all fun i => (table mem c2 wm i).any fun r => mem.ready c2 wm r.h r.rs [] && (mem.issOf c2 wm r.h).act != 0 &&
      (places r).isSome && r.ok) = true) : ∀ i ∈ l, Reaches table i := by
  intro i hi
  obtain ⟨r, hr, h⟩ := some_and _ _ (List.all_eq_true.mp hl i hi)
  simp only [Bool.and_eq_true, bne_iff_ne] at h
  obtain ⟨⟨⟨h1, h2⟩, h3⟩, h4⟩ := h
  unfold places at h3
  split at h3
  · next ps hps => exact ⟨r, ps, hr, ⟨mem_issues, h1⟩, h2, hps, h4⟩
  · simp at h3

/-- A global address of pair 2. -/
def g2 : MemArg := ⟨.g, 2, 0, 0, none⟩

/-- An address of a typed buffer of pair 6. -/
def b6 (sp : Space) : MemArg := ⟨sp, 6, 0, 0, none⟩

theorem witness_reads : ∀ i ∈ [
    .ld h0 .s32 .rne false 1 g2 none false, .ld h0 .z64 .rne false 12 ⟨.g, 8, 16, 1, none⟩ none false,
    .ld h0 .f32 .rne false 1 (b6 .a) (some 10) false, .ld h0 .z8 .rne false 1 (b6 .w) none false, .ld h0 .s32 .rne false 1 g2 none true,
    .ldb h0 false .f32 .rne false 1 ⟨.a, 18, 0, 0, none⟩, .ldb h0 true .z32 .rne false 1 ⟨.a, 20, 0, 0, none⟩, .atom h0 .add .f32 1 g2 4, .atom h0 .inc .z32 1 (b6 .s) 4, .cas h0 .s32 1 g2 14, .lr h0 .z64 12 g2,
    .sc h0 .s32 1 g2 4], Reaches readReach i := reaches_all (by decide +kernel)

theorem witness_writes : ∀ i ∈ [
    .st h0 .s32 .rne false 1 g2 none, .st h0 .z64 .rne false 12 ⟨.g, 8, 0, 0, none⟩ none, .st h0 .z8 .rne false 1 (b6 .a) (some 10),
    .stb h0 .rne 1 ⟨.a, 18, 0, 0, none⟩ none, .stb h0 .rne 1 ⟨.a, 22, 0, 0, none⟩ (some 4), .zero h0 g2, .atomn h0 .add .s32 g2 4], Reaches writeReach i := reaches_all (by decide +kernel)

theorem ok_some {α ε : Type} (x : Except ε α) (p : α → Bool) (h : okAnd x p = true) : ∃ a, x = .ok a ∧ p a = true := by
  obtain a | a := x
  · simp [okAnd] at h
  · exact ⟨a, rfl, h⟩

/-! ### Values -/

/-- What a load of the wave reaches. -/
def loads (s : State) (t : RType) (ma : MemArg) (idx : Option Reg) (fresh : Bool) : Except (Miss × Mask) (List (Nat × Place)) :=
  (s.issOf c2 wm h0).locateAll ((s.issOf c2 wm h0).reach { acc := .read, imm := fresh, spaces := allSpaces } ma t idx)

/-- Its bytes and its scales are where its value comes from. -/
def loadable (s : State) (fresh : Bool) (ps : List (Nat × Place)) : Bool :=
  let v := s.issOf c2 wm h0
  let held := if fresh then s.noneHeld v else s.allHeld v
  (!fresh || v.clear (.ok ps)) && ps.all fun x => held x.2.span && x.2.scales.all fun y => held y.2.2

/-- A load from the core's line. -/
theorem witness_load_held : held.Ready c2 wm h0 (pairOf 2 ++ regsOf .s32 1) ∧ (held.issOf c2 wm h0).act ≠ 0 ∧
    ∃ ps, loads held .s32 g2 none false = .ok ps ∧ loadable held false ps = true :=
  ⟨⟨held_issues, by decide +kernel⟩, by decide +kernel, ok_some _ _ (by decide +kernel)⟩

/-- A load at the home. -/
theorem witness_load_fresh : mem.Ready c2 wm h0 (pairOf 2 ++ regsOf .z64 12) ∧ (mem.issOf c2 wm h0).act ≠ 0 ∧
    ∃ ps, loads mem .z64 g2 none true = .ok ps ∧ loadable mem true ps = true :=
  ⟨⟨mem_issues, by decide +kernel⟩, by decide +kernel, ok_some _ _ (by decide +kernel)⟩

/-- A load of elements of a block format, by lane, with their scales. -/
theorem witness_load_block : mem.Ready c2 wm h0 (pairOf 20 ++ [10] ++ regsOf .f32 1) ∧ (mem.issOf c2 wm h0).act ≠ 0 ∧
    ∃ ps, loads mem .f32 ⟨.a, 20, 0, 0, none⟩ (some 10) false = .ok ps ∧ loadable mem false ps = true :=
  ⟨⟨mem_issues, by decide +kernel⟩, by decide +kernel, ok_some _ _ (by decide +kernel)⟩

/-- The places of a store lie in lines that the core holds. -/
def storable (s : State) (ps : List (Nat × Place)) : Bool :=
  ps.all fun x => x.2.span.elim true fun q => q.cells.all fun y =>
    decide (y.1 < 2 ^ 48) && (Tab.find (s.core 0).l1 (lineKey wm.ctx y.1)).any fun l => !l.out

/-- A store's bytes are whole. -/
def wholly (t : RType) (ps : List (Nat × Place)) : Bool :=
  ps.all fun x => decide (x.2.fdt.fmt = 0) || (decide (x.2.bit = 0) && decide (x.2.w * RType.elems t % 8 = 0))

/-- What a store of the wave reaches. -/
def stores (s : State) (t : RType) (ma : MemArg) (idx : Option Reg) : Except (Miss × Mask) (List (Nat × Place)) :=
  (s.issOf c2 wm h0).locateAll ((s.issOf c2 wm h0).reach { acc := .write, spaces := wrSpaces } ma t idx)

theorem witness_store_held : held.Ready c2 wm h0 (pairOf 2 ++ regsOf .s32 1) ∧ (held.issOf c2 wm h0).act ≠ 0 ∧
    (held.block wm.block).depth = 0 ∧
    ∃ ps, stores held .s32 g2 none = .ok ps ∧ (storable held ps && wholly .s32 ps) = true :=
  ⟨⟨held_issues, by decide +kernel⟩, by decide +kernel, rfl, ok_some _ _ (by decide +kernel)⟩

/-- A store to a granule of f32, each lane its own element. -/
theorem witness_store_element : held.Ready c2 wm h0 (pairOf 18 ++ [10] ++ regsOf .f16 1) ∧ (held.issOf c2 wm h0).act ≠ 0 ∧
    ∃ ps, stores held .f16 ⟨.a, 18, 0, 0, none⟩ (some 10) = .ok ps ∧ (storable held ps && wholly .f16 ps) = true :=
  ⟨⟨held_issues, by decide +kernel⟩, by decide +kernel, ok_some _ _ (by decide +kernel)⟩

theorem witness_store_zero : held.Ready c2 wm h0 (pairOf 2) ∧ (held.issOf c2 wm h0).act ≠ 0 ∧
    ∃ ps, (held.issOf c2 wm h0).locateAll (fun l => (held.issOf c2 wm h0).zeroAt .g ((held.issOf c2 wm h0).ea g2 l)) = .ok ps ∧
      storable held ps = true :=
  ⟨⟨held_issues, by decide +kernel⟩, by decide +kernel, ok_some _ _ (by decide +kernel)⟩

/-- Lane 0 alone is on the path. -/
def one : State := { mem with cur := some ⟨0, 1, 0x4000⟩ }

/-- What lane 0 executes. -/
def c1 : Cur := ⟨0, 1, 0x4000⟩

/-- An immediate access of lane 0 meets its hypotheses. -/
def actable (i : Instr) : Bool :=
  let v := one.issOf c1 wm h0
  okAnd (v.immReach .both g2 .s32) fun ps => match ps with
    | [(l, p)] => (immValue v l p i).any (fun r => one.ready c1 wm h0 r.2.1 [] && decide (r.1 = h0) && decide (r.2.2.1 = g2) &&
        decide (r.2.2.2.1 = .s32)) && v.clear (.ok ps) && one.noneHeld v p.span && decide p.homes.Nodup &&
        (p.span.elim none fun q => one.mem.badAt q.cells).isNone && p.span.isSome
    | _ => false

theorem witness_immediates : ([.atom h0 .add .s32 1 g2 4, .atomn h0 .max .s32 g2 4, .cas h0 .s32 1 g2 4,
    .sc h0 .s32 1 g2 4].all actable) = true ∧ one.Issues c1 wm ∧ (one.block wm.block).depth = 0 ∧ (one.issOf c1 wm h0).act ≠ 0 :=
  ⟨by decide +kernel, ⟨rfl, rfl⟩, rfl, by decide +kernel⟩

/-- A reservation of lane 0, its access a read. -/
theorem witness_immediate_reservation : okAnd ((one.issOf c1 wm h0).immReach .read g2 .s32) (fun ps => match ps with
    | [(l, p)] => ((immValue (one.issOf c1 wm h0) l p (.lr h0 .s32 1 g2)).any fun r => one.ready c1 wm h0 r.2.1 []) &&
        (one.issOf c1 wm h0).clear (.ok ps) && one.noneHeld (one.issOf c1 wm h0) p.span && decide p.homes.Nodup
    | _ => false) = true := by decide +kernel

end Sys2Proof.Tests
end

