-- ==== Sys2Proof/Tests/WitnessStart.lean ====
section
/-! SUPPORT. Witnesses: states and operands that meet the hypotheses of the statements about instructions that order memory and
start work. -/

namespace Sys2Proof.Tests
open Sys2Proof.Machine

set_option Elab.async false

/-- The operands of every run that these tests use, by register; the others hold 0. -/
def workRegs : Tab Word := inEvery
  [(2, 0x8000),
   -- a copy's run at 32: a row of 256 bytes from 0x8000 to 0
   (32, 0x8000), (36, 256), (37, 1), (42, 0x8000), (44, 0x100),
   -- a shadow's run at 48: a page at 0x10000; a command's at 52: one page there
   (48, 0x10000), (50, 0x1000), (52, 0x10000), (54, 1),
   -- tile runs: 60 and 62 for a, 64 for w, 66 for a drain
   (60, 0x4000), (61, 64), (62, 0x10000), (63, 64), (64, 0x10000), (65, 64), (66, 0x4000), (68, 64), (69, 0x3F800000),
   -- SPAWN's at 80: one wave of 16 registers; LAUNCH's at 92; CINIT.cont's at 96
   (80, 0x4000), (82, 0x201), (92, 0x8000), (96, 0x8000), (99, 0x9000),
   -- scratch ways 12 to 15, a count of 2, a sitting's key
   (101, 0xF000), (102, 2), (103, 77), (104, 0x40000), (106, 0x1000)]

/-- A wave with two live lanes. -/
def ww : Wave := { w0 with live := 0x80000001, regs := workRegs }

/-- A block with buffers of five granules, the last of f16, and an f32 tile. -/
def bw : Block :=
  { bm with
    a := { buffer with size := 0x14000, fdt := [(1, 1), (2, 2), (3, 3), (4, 4)] }
    w := { buffer with size := 0x14000, fdt := [(4, 4)] }
    tiles := [(1, 0x10)]
    gang := some 0 }

/-- Its launch: recovery of depth 2, children of two levels. -/
def lw : Launch :=
  { Launch.blank with left := 1, lpb := { Lpb.blank with flags := 2, rdepth := 2, spawnDepth := 2, rlimit := 9 } }

/-- An enabled device-fed launch queue of 4 slots. -/
def qw : LaunchQueue := ⟨0xA000, 2 ^ 31 + 256 + 2, 0, 0, [], 0, []⟩

/-- A device with work to start on. -/
def work : State :=
  { mem with
    waves := [(0, ww)]
    blocks := [(0, bw)]
    launches := [(0, lw)]
    ctxs := Tab.put mem.ctxs 0 { mem.ctx 0 with capq := 4, lqs := [(0, qw)], binds := [⟨0x40000, 0x1000, [], 0, 0, 0, none⟩] }
    dev := { mem.dev with heaps := [(0, ⟨some 0, 1, 1, []⟩)], winOut := [(0, ⟨0, 0, 5⟩)] } }

theorem work_issues : work.Issues c2 ww := ⟨rfl, rfl⟩

/-- The wave's instruction as its own part sees it. -/
def vw : Iss := work.issOf c2 ww h0

/-- The hypotheses of an instruction that starts work hold in `work`. -/
def Startable (table : State → Cur → Wave → Instr → Option Starting) (i : Instr) : Prop :=
  ∃ r, table work c2 ww i = some r ∧ work.Ready c2 ww r.h r.rs ∧ ww.names r.names = true ∧ (r.sup = true → ww.ctx = 0) ∧
    (work.issOf c2 ww r.h).act ≠ 0 ∧ r.ok


/-! ### Order -/

theorem witness_phase_pub : Startable orderStart (.phasePub h0) :=
  ⟨_, rfl, ⟨work_issues, by decide +kernel⟩, by decide +kernel, fun _ => rfl, by decide +kernel, trivial⟩

theorem witness_phase_adopt : Startable orderStart (.phaseAdopt h0) :=
  ⟨_, rfl, ⟨work_issues, by decide +kernel⟩, by decide +kernel, fun _ => rfl, by decide +kernel, rfl⟩

theorem witness_phase_both : Startable orderStart (.phaseBoth h0) :=
  ⟨_, rfl, ⟨work_issues, by decide +kernel⟩, by decide +kernel, fun _ => rfl, by decide +kernel, ⟨rfl, rfl⟩⟩

theorem witness_fence : Startable orderStart (.fence h0) :=
  ⟨_, rfl, ⟨work_issues, by decide +kernel⟩, by decide +kernel, fun _ => rfl, by decide +kernel, trivial⟩

theorem witness_pref : Startable orderStart (.pref h0 g2) :=
  ⟨_, rfl, ⟨work_issues, by decide +kernel⟩, by decide +kernel, fun _ => rfl, by decide +kernel, rfl⟩

theorem witness_prefL2 : Startable orderStart (.prefL2 h0 g2) :=
  ⟨_, rfl, ⟨work_issues, by decide +kernel⟩, by decide +kernel, fun _ => rfl, by decide +kernel, rfl⟩

theorem witness_flush : Startable orderStart (.flush h0 g2) :=
  ⟨_, rfl, ⟨work_issues, by decide +kernel⟩, by decide +kernel, fun _ => rfl, by decide +kernel, rfl⟩

theorem witness_sways : Startable orderStart (.sways h0 1 101) :=
  ⟨_, rfl, ⟨work_issues, by decide +kernel⟩, by decide +kernel, fun _ => rfl, by decide +kernel, ⟨by decide +kernel, by decide +kernel⟩⟩

/-! ### Copies -/

/-- A copy mover's hypotheses hold in `work`. -/
def copyable (i : Instr) : Bool :=
  (copyForm i).any fun f => work.ready c2 ww f.h (f.srcs ++ [f.d.toNat]) [] && decide (f.h = h0) &&
    (f.srcs.all fun r => vw.lanes.all fun l => vw.rd r l == vw.rd r vw.low) &&
    (vw.copyChecks f.op f.x (vw.slice f.d f.a f.idx f.x 0)).isNone && !work.publishing 0 && vw.collective.isNone &&
    (!f.takes vw || (maskMembers (f.runs vw).1).all fun g => vw.b.free g != 0)

theorem witness_copies : work.Issues c2 ww ∧ vw.act ≠ 0 ∧ (Tab.find work.blocks ww.block).isSome = true ∧
    (([.cpy h0 1 32 ⟨.g, .a, 0, none, .rne, false⟩, .cpy h0 1 32 ⟨.g, .s, 0, some 3, .rne, false⟩,
      .cpym h0 1 32 102 (some 42) ⟨.g, .a, 0, none, .rne, false⟩, .cpyxGather h0 1 32 44 ⟨.g, .a, 0, none, .rne, false⟩,
      .cpyxScatter h0 1 32 44 ⟨.g, .a, 0, none, .rne, false⟩, .cpys h0 1 32 42 1 ⟨.g, .a, 0, none, .rne, false⟩,
      .cpyw h0 1 32 42 ⟨.g, .g, 0, none, .rne, false⟩] : List Instr).all copyable) = true :=
  ⟨work_issues, by decide +kernel, rfl, by decide +kernel⟩

/-- A second arrival joins a collective that gathers. -/
theorem witness_copy_joins : ({ work with fly := { work.fly with copies := [(3, ⟨.plain, ⟨.g, .a, 0, none, .rne, false⟩, 0, false, some (0, 0), true, 0,
    false, 0, .gathering, [], [], none, 0, 0, 0, false, false, []⟩)] } } : State).issOf c2 ww h0 |>.collective.any
    (fun p => decide (p.2.stage ≠ .ended)) := by decide +kernel

theorem witness_slots_return : work.Ready c2 ww h0 [] ∧ vw.act ≠ 0 ∧ (work.block ww.block).gang = some 0 :=
  ⟨⟨work_issues, by decide +kernel⟩, by decide +kernel, rfl⟩

/-- A message of core 0 to the block, with no earlier one. -/
theorem witness_slots_arrive : ∃ s : State, Tab.find s.fly.frees 1 = some ⟨0, 0, 3⟩ ∧ (Tab.find s.blocks 0).isSome = true ∧
    s.messageWaits 1 0 (s.block 0).core = false :=
  ⟨{ work with fly := { work.fly with frees := [(1, ⟨0, 0, 3⟩)] } }, rfl, rfl, by decide +kernel⟩

theorem witness_cancels : cancels c2 ww (.cpyc h0 1) ≠ none ∧ work.Ready c2 ww h0 [] ∧ ww.names [1] = true ∧
    cancels c2 ww (.cpycAll h0) ≠ none :=
  ⟨Option.some_ne_none _, ⟨work_issues, by decide +kernel⟩, by decide +kernel, Option.some_ne_none _⟩

theorem witness_cpyq_tok : Startable copyQuery (.cpyqTok h0 1 2) :=
  ⟨_, rfl, ⟨work_issues, by decide +kernel⟩, by decide +kernel, fun _ => rfl, by decide +kernel, trivial⟩

theorem witness_cpyq_slots : Startable copyQuery (.cpyqSlots h0 1 2) :=
  ⟨_, rfl, ⟨work_issues, by decide +kernel⟩, by decide +kernel, fun _ => rfl, by decide +kernel, rfl⟩

/-- A Sheepdog command's hypotheses hold in `work`. -/
def sheepable (i : Instr) : Bool :=
  (sdForm i).any fun f => work.ready c2 ww f.h (f.srcs ++ [f.d.toNat]) [] && decide (f.h = h0) &&
    (f.srcs.all fun r => vw.lanes.all fun l => vw.rd r l == vw.rd r vw.low) && f.base vw % pageBytes f.p64 == 0 &&
    decide (f.count vw = 0 ∨ f.base vw + f.count vw * pageBytes f.p64 ≤ 2 ^ 48) && !work.publishing 0

theorem witness_sheepdog : vw.act ≠ 0 ∧ (([.sdpark h0 1 52 56 true .dx6 true (some 42), .sdcall h0 1 52 56 42 false,
    .sddrop h0 1 52 56 true] : List Instr).all sheepable) = true := ⟨by decide +kernel, by decide +kernel⟩

/-- A handle of no slot ends the command at once. -/
theorem witness_sheepdog_at_once : (sdForm (.sddrop h0 1 52 56 true)).map (fun f => f.atOnce work vw) = some (some ⟨5, 5, 0, 0, 0⟩) := by
  decide +kernel

/-- A word's halves. -/
theorem append_parts (t : Word) (lo : Word) : (t ++ lo).extractLsb' 32 32 = t ∧ (t ++ lo).extractLsb' 0 20 = lo.extractLsb' 0 20 ∧
    (t ++ lo).extractLsb' 20 12 = lo.extractLsb' 20 12 := by
  refine ⟨?_, ?_, ?_⟩ <;> ext i hi <;> rw [BitVec.getElem_extractLsb', BitVec.getLsbD_append]
  · simp [BitVec.getLsbD_eq_getElem, hi]
  · rw [if_pos (by omega)]; simp
  · rw [if_pos (by omega)]; simp

/-- A slot of the context whose handle the command's run holds does not. -/
theorem witness_sheepdog_taken : ({ small with dev := { small.dev with fold := [(3, ⟨0, 0, 2, 0, 1, 0, 100, []⟩)] } } : State).foldSlot 0
    (handleOf (small.tag .fold 3 0 0) 0 3) = some ⟨0, 0, 2, 0, 1, 0, 100, []⟩ := by
  have h := append_parts (small.tag .fold 3 0 0) (BitVec.ofNat 32 3)
  have e : handleOf (small.tag .fold 3 0 0) 0 3 = small.tag .fold 3 0 0 ++ BitVec.ofNat 32 3 := by
    unfold handleOf; rw [BitVec.append_assoc]; rfl
  rw [e]
  unfold State.foldSlot handleLow handleGen handleTag
  rw [h.1, h.2.1, h.2.2]
  have q : (Tab.find ([(3, ⟨0, 0, 2, 0, 1, 0, 100, []⟩)] : Tab FoldSlot) 3) = some ⟨0, 0, 2, 0, 1, 0, 100, []⟩ := rfl
  have n : ((BitVec.ofNat 32 3).extractLsb' 0 20).toNat = 3 := rfl
  have m : ((BitVec.ofNat 32 3).extractLsb' 20 12).toNat = 0 := rfl
  rw [n, m, q]
  simp [Option.filter, State.tag]

theorem witness_sdstat : Startable statStart (.sdstat h0 1 56) :=
  ⟨_, rfl, ⟨work_issues, by decide +kernel⟩, by decide +kernel, fun _ => rfl, by decide +kernel, trivial⟩

/-! ### Shadows -/

theorem witness_shadow : Startable shadowStart (.shadow h0 1 48) :=
  ⟨_, rfl, ⟨work_issues, by decide +kernel⟩, by decide +kernel, fun _ => rfl, by decide +kernel, ⟨by decide +kernel, by decide +kernel, rfl, by decide +kernel, by decide +kernel⟩⟩

theorem witness_shadow_drop : Startable shadowStart (.shadowDrop h0 1 104) :=
  ⟨_, rfl, ⟨work_issues, by decide +kernel⟩, by decide +kernel, fun _ => rfl, by decide +kernel, ⟨by decide +kernel, by decide +kernel, rfl, by decide +kernel⟩⟩

theorem witness_publish : Startable shadowStart (.publish h0 1 104 none) :=
  ⟨_, rfl, ⟨work_issues, by decide +kernel⟩, by decide +kernel, fun _ => rfl, by decide +kernel, ⟨by decide +kernel, rfl, by decide +kernel⟩⟩

theorem witness_publish_keep : Startable shadowStart (.publishKeep h0 1 104 (some 42)) :=
  ⟨_, rfl, ⟨work_issues, by decide +kernel⟩, by decide +kernel, fun _ => rfl, by decide +kernel, ⟨by decide +kernel, rfl, by decide +kernel⟩⟩

/-! ### Tiles -/

theorem witness_tzero : Startable tileStart (.tzero h0 1 0) :=
  ⟨_, rfl, ⟨work_issues, by decide +kernel⟩, by decide +kernel, fun _ => rfl, by decide +kernel, ⟨trivial, by decide +kernel, by decide +kernel⟩⟩

theorem witness_tloadc : Startable tileStart (.tloadc h0 .f32 .sto 1 60 0) :=
  ⟨_, rfl, ⟨work_issues, by decide +kernel⟩, by decide +kernel, fun _ => rfl, by decide +kernel, ⟨by decide +kernel, by decide +kernel, by decide +kernel⟩⟩

theorem witness_mmt : Startable tileStart (.mmt h0 1 62 64 ⟨0, 0, false, none, none⟩) :=
  ⟨_, rfl, ⟨work_issues, by decide +kernel⟩, by decide +kernel, fun _ => rfl, by decide +kernel, ⟨by decide +kernel, by decide +kernel, by decide +kernel⟩⟩

theorem witness_tdrain : Startable tileStart (.tdrain h0 .rne true 1 66 ⟨1, false, 1, none, true, true, none, none⟩) :=
  ⟨_, rfl, ⟨work_issues, by decide +kernel⟩, by decide +kernel, fun _ => rfl, by decide +kernel, ⟨by decide +kernel, by decide +kernel, by decide +kernel⟩⟩

theorem witness_tchk : Startable tileStart (.tchk h0 1 0) :=
  ⟨_, rfl, ⟨work_issues, by decide +kernel⟩, by decide +kernel, fun _ => rfl, by decide +kernel, ⟨trivial, by decide +kernel, by decide +kernel⟩⟩

theorem witness_tstat : Startable tileStart (.tstat h0 1 0) :=
  ⟨_, rfl, ⟨work_issues, by decide +kernel⟩, by decide +kernel, fun _ => rfl, by decide +kernel, ⟨trivial, by decide +kernel, by decide +kernel⟩⟩

theorem witness_tstat_clr : Startable tileStart (.tstatClr h0 1 0) :=
  ⟨_, rfl, ⟨work_issues, by decide +kernel⟩, by decide +kernel, fun _ => rfl, by decide +kernel, ⟨trivial, by decide +kernel, by decide +kernel⟩⟩

theorem witness_tcfg : work.Ready c2 ww h0 (runOf 72 4) ∧ vw.act ≠ 0 ∧ (∀ r ∈ runOf 72 4, ∀ l ∈ vw.lanes, vw.rd r l = vw.rd r vw.low) ∧
    vw.desc 72 0 &&& 0xFF88 = 0 ∧ ∃ n, n < 4 ∧ n ≠ ww.tcur ∧ ∀ p ∈ work.fly.tiles, p.2.wave = c2.wave → p.2.ver ≠ n :=
  ⟨⟨work_issues, by decide +kernel⟩, by decide +kernel, by decide +kernel, by decide +kernel, 1, by decide, by decide,
    fun p hp => absurd hp List.not_mem_nil⟩

/-! ### Queues and sends -/

theorem witness_qcfg : work.Ready c2 ww h0 [] ∧ ww.names (runOf 200 16) = true ∧ vw.act ≠ 0 ∧ Tab.find ww.queues 1 = none ∧
    work.yokeWindow c2.wave 1 = false ∧ (work.block ww.block).depth = 0 ∧
    (∀ r ∈ runOf 200 16, Tab.get 0 ww.pend r &&& ww.live = 0 ∧ Tab.get 0 ww.expt r &&& ww.live = 0) :=
  ⟨⟨work_issues, by decide +kernel⟩, by decide +kernel, by decide +kernel, rfl, by decide +kernel, rfl, by decide +kernel⟩

/-- The wave with a queue of two entries in each lane, the first at register 201. -/
def wfull : Wave := { ww with queues := [(1, ⟨200, 4⟩)], fifos := [(32, ⟨1, 2, 0, []⟩), (63, ⟨1, 2, 0, []⟩)] }

theorem witness_qcfg_release : ({ work with waves := [(0, wfull)] } : State).Ready c2 wfull h0 [] ∧ Tab.find wfull.queues 1 = some ⟨200, 4⟩ ∧
    ({ work with waves := [(0, wfull)] } : State).yokeWindow c2.wave 1 = false ∧
    (∀ r ∈ (List.range 4).map (200 + ·), Tab.get 0 wfull.pend r &&& wfull.live = 0) :=
  ⟨⟨⟨rfl, rfl⟩, by decide +kernel⟩, rfl, by decide +kernel, by decide +kernel⟩

theorem witness_pop : ({ work with waves := [(0, wfull)] } : State).Ready c2 wfull h0 [1] ∧ Tab.find wfull.queues 1 = some ⟨200, 4⟩ ∧
    (({ work with waves := [(0, wfull)] } : State).issOf c2 wfull h0).act ≠ 0 ∧
    ∀ l ∈ (({ work with waves := [(0, wfull)] } : State).issOf c2 wfull h0).lanes, decide ((wfull.fifo 1 l).count ≠ 0) = true ∧
      Tab.get 0 wfull.ecc (wfull.headReg 1 ⟨200, 4⟩ l) = 0 ∧ (Tab.get 0 wfull.pois (wfull.headReg 1 ⟨200, 4⟩ l)).getLsbD l = false :=
  ⟨⟨⟨rfl, rfl⟩, by decide +kernel⟩, rfl, by decide +kernel, by decide +kernel⟩

/-- QPOP.try of an empty queue. -/
theorem witness_pop_try : ({ work with waves := [(0, { wfull with fifos := [] })] } : State).Ready c2 { wfull with fifos := [] } h0 [1, 5] ∧
    ({ wfull with fifos := [] } : Wave).fifo 1 0 = Fifo.blank := ⟨⟨⟨rfl, rfl⟩, by decide +kernel⟩, rfl⟩

theorem witness_qsend : Startable sendStart (.qsend h0 1 2 4) :=
  ⟨_, rfl, ⟨work_issues, by decide +kernel⟩, by decide +kernel, fun _ => rfl, by decide +kernel, ⟨by decide +kernel, rfl⟩⟩

theorem witness_qsend_idx : Startable sendStart (.qsendIdx h0 1 2 4 102) :=
  ⟨_, rfl, ⟨work_issues, by decide +kernel⟩, by decide +kernel, fun _ => rfl, by decide +kernel, ⟨by decide +kernel, rfl⟩⟩

theorem witness_rsend : Startable sendStart (.rsend h0 true 1 2 4 3) :=
  ⟨_, rfl, ⟨work_issues, by decide +kernel⟩, by decide +kernel, fun _ => rfl, by decide +kernel, ⟨by decide +kernel, rfl⟩⟩

theorem witness_rsend_idx : Startable sendStart (.rsendIdx h0 false 1 2 4 102 0) :=
  ⟨_, rfl, ⟨work_issues, by decide +kernel⟩, by decide +kernel, fun _ => rfl, by decide +kernel, ⟨by decide +kernel, rfl⟩⟩

theorem witness_expect : Startable sendStart (.expect h0 40 7) :=
  ⟨_, rfl, ⟨work_issues, by decide +kernel⟩, by decide +kernel, fun _ => rfl, by decide +kernel, by decide +kernel⟩

/-- A yokemate, wave 32 of its block, and its compute wave. -/
def wy : Wave := { ww with wib := 32 }

/-- They share a block. -/
def yoked : State := { work with waves := [(0, wy), (1, w0)], blocks := [(0, { bw with waves := [0, 1] })] }

theorem witness_qsend_yoke : ∃ r, sendStart yoked c2 wy (.qsendYoke h0 1 4) = some r ∧ yoked.Ready c2 wy r.h r.rs ∧ wy.names r.names = true ∧
    (yoked.issOf c2 wy r.h).act ≠ 0 ∧ r.ok :=
  ⟨_, rfl, ⟨⟨rfl, rfl⟩, by decide +kernel⟩, rfl, by decide +kernel,
    ⟨by decide, by decide +kernel, fun p hp => absurd hp List.not_mem_nil, rfl⟩⟩

/-! ### Capabilities -/

theorem witness_grants : ∀ i ∈ [Instr.grantReg h0 20 4 40 7 true false 0 0, .grantQ h0 20 4 1 2 2],
    ∃ f, grantForm i = some f ∧ work.Ready c2 ww f.h (f.a.toNat :: pairOf f.d) ∧ (∀ r ∈ f.spans, r < ww.foot) ∧
      (work.issOf c2 ww f.h).act ≠ 0 ∧ work.lowestFree.isSome = true ∧ ¬(work.ctx ww.ctx).capq ≤ (work.ctx ww.ctx).caps ∧
      ∀ l ∈ (work.issOf c2 ww f.h).lanes, (work.issOf c2 ww f.h).rd f.a.toNat l = (work.issOf c2 ww f.h).rd f.a.toNat (work.issOf c2 ww f.h).low := by
  intro i hi
  simp only [List.mem_cons, List.not_mem_nil, or_false] at hi
  rcases hi with rfl | rfl <;>
    exact ⟨_, rfl, ⟨work_issues, by decide +kernel⟩, by decide +kernel, by decide +kernel, by decide +kernel, by decide +kernel,
      by decide +kernel⟩

/-- Where the context's quota is 0, the grant is refused. -/
theorem witness_grant_refused : (mem.ctx 0).capq ≤ (mem.ctx 0).caps ∧ mem.Ready c2 wm h0 (4 :: pairOf 20) :=
  ⟨by decide +kernel, mem_issues, by decide +kernel⟩

theorem witness_revoke : work.Ready c2 ww h0 (pairOf 2 ++ [1]) ∧ vw.act ≠ 0 ∧ (∀ l ∈ vw.lanes, vw.rd2 2 l = vw.rd2 2 vw.low) :=
  ⟨⟨work_issues, by decide +kernel⟩, by decide +kernel, by decide +kernel⟩

/-- Index 0 is one of device 9's. -/
theorem witness_revoke_elsewhere : ∃ s : State, s.Ready c2 ww h0 (pairOf 2 ++ [1]) ∧ (s.issOf c2 ww h0).act ≠ 0 ∧
    s.rangeOf (handleLow 0) = some 9 ∧ 9 ≠ s.dev.id ∧ (s.issOf c2 ww h0).rd2 3 0 = 0 :=
  ⟨{ work with dev := { work.dev with ranges := [(0, 16, 9)] } }, ⟨⟨rfl, rfl⟩, by decide +kernel⟩, by decide +kernel, by decide +kernel,
    by decide, by decide +kernel⟩

/-- A device whose port 9 has room for the flits of an answer to device 9. -/
def linked : State := { work with dev := { work.dev with ports := [(9, { Port.reset with up := true, units := 512, window := [] })] } }

theorem witness_revoked_from_outside : 9 ≠ linked.dev.id ∧ ∃ u, linked.sendFlits 0 9 .reply = some u := by
  refine ⟨by decide, ?_⟩
  have h : linked.portFor 0 9 = some 9 := by decide +kernel
  have e : linked.elsewhere 0 9 9 = false := by decide +kernel
  have n : 1 + Config.choice 20 linked.free 64 % 64 ≤ 64 := by omega
  unfold State.sendFlits
  simp only [h]
  rw [if_neg]
  · exact ⟨_, rfl⟩
  · rw [e]
    rw [show (linked.port 9).units = 512 from rfl, show (linked.port 9).window = [] from rfl, List.length_nil]
    rintro (x | x | x)
    · omega
    · omega
    · cases x

/-- A capability that a context may revoke. -/
theorem witness_revocable : ({ small with dev := { small.dev with caps := [(3, ⟨7, 0, 1, 1, 0, 40, 7, 0, 1, 0, 0⟩)] } } : State).revocable 0
    (handleOf (small.tag .cap 3 0 0) 0 3) = true := by
  have h := append_parts (small.tag .cap 3 0 0) (BitVec.ofNat 32 3)
  have e : handleOf (small.tag .cap 3 0 0) 0 3 = small.tag .cap 3 0 0 ++ BitVec.ofNat 32 3 := by
    unfold handleOf; rw [BitVec.append_assoc]; rfl
  rw [e]
  unfold State.revocable handleLow handleGen handleTag
  rw [h.1, h.2.1, h.2.2]
  have n : ((BitVec.ofNat 32 3).extractLsb' 0 20).toNat = 3 := rfl
  have m : ((BitVec.ofNat 32 3).extractLsb' 20 12).toNat = 0 := rfl
  rw [n, m]
  simp [State.tag, Tab.find, Cap.live]

theorem witness_revoke_all : work.Ready c2 ww h0 [1] ∧ vw.act ≠ 0 := ⟨⟨work_issues, by decide +kernel⟩, by decide +kernel⟩

/-! ### Tasks -/

theorem witness_spawn : work.Ready c2 ww h0 (runOf 80 10 ++ [1]) ∧ vw.act ≠ 0 ∧
    (∀ r ∈ runOf 80 10, ∀ l ∈ vw.lanes, vw.rd r l = vw.rd r vw.low) ∧ isCounter (vw.desc2 80 0) = true ∧ work.publishing c2.wave = false ∧
    (work.block ww.block).spawnDepth + 1 ≤ min 4 (work.lpb ww.block).spawnDepth ∧ work.tooBig (childShape 1 16 0) = false ∧
    work.childrenOffered (coreDie vw.core) < 4096 ∧ (Tab.find work.launches (work.block ww.block).launch).isSome = true ∧
    ((vw.desc 80 2).extractLsb' 0 6).toNat = 1 ∧ 8 * ((vw.desc 80 2).extractLsb' 8 6).toNat = 16 ∧ ((vw.desc 80 3).extractLsb' 0 21).toNat = 0 :=
  ⟨⟨work_issues, by decide +kernel⟩, by decide +kernel, by decide +kernel, by decide +kernel, rfl, by decide +kernel, by decide +kernel,
    by decide +kernel, rfl, by decide +kernel, by decide +kernel, by decide +kernel⟩

/-- What LAUNCH reads can be read, its queue has room, and its entry can be written. -/
def launchable : Bool :=
  okAnd (work.unitRead vw.core ww.ctx (vw.desc2 92 0).toNat 256) fun x =>
    okAnd (x.2.unitWrite farUnit ww.ctx (qw.base + 256 * qw.tail) x.1) fun _ => true

theorem witness_launch : work.Ready c2 ww h0 (runOf 92 2 ++ [1]) ∧ vw.act ≠ 0 ∧
    (∀ r ∈ runOf 92 2, ∀ l ∈ vw.lanes, vw.rd r l = vw.rd r vw.low) ∧ (vw.desc2 92 0).toNat % 256 = 0 ∧ work.publishing c2.wave = false ∧
    launchable = true ∧ work.lq ww.ctx 0 = qw ∧ (ctlEn qw.ctl && ctlDevfed qw.ctl) = true ∧ qw.full = false ∧ qw.held = [] :=
  ⟨⟨work_issues, by decide +kernel⟩, by decide +kernel, by decide +kernel, by decide +kernel, rfl, by decide +kernel, rfl, by decide +kernel,
    by decide +kernel, rfl⟩

/-- Queue 1 is disabled; a queue of 4 slots with tail 3 and head 0 is full. -/
theorem witness_launch_unusable : (ctlEn (work.lq ww.ctx 1).ctl && ctlDevfed (work.lq ww.ctx 1).ctl) = false ∧
    ({ qw with tail := 3 } : LaunchQueue).full = true := ⟨by decide +kernel, by decide +kernel⟩

/-- A heap instruction's hypotheses hold in `work`. -/
theorem witness_heap : work.Ready c2 ww h0 [4, 5, 1] ∧ vw.act ≠ 0 ∧ work.publishing c2.wave = false ∧ vw.heapOf (some 0) = some 0 ∧
    work.heapEntries 0 + vw.lanes.length ≤ 65536 ∧ vw.heapOf none = none :=
  ⟨⟨work_issues, by decide +kernel⟩, by decide +kernel, rfl, by decide +kernel, by decide +kernel, by decide +kernel⟩

theorem witness_heap_forms : ∀ i ∈ [Instr.heapput h0 1 4 5 none, .heapputOpen h0 1 (some 0), .heapputClose h0 1 (some 0)],
    ∃ f, heapForm work c2 ww i = some f ∧ work.Ready c2 ww f.h f.rs ∧ (work.issOf c2 ww f.h).act ≠ 0 ∧ f.ok := by
  intro i hi
  simp only [List.mem_cons, List.not_mem_nil, or_false] at hi
  rcases hi with rfl | rfl | rfl
  · exact ⟨_, rfl, ⟨work_issues, by decide +kernel⟩, by decide +kernel, fun m hm => absurd (hm.symm.trans (by decide +kernel : vw.heapOf none = none)) (by simp)⟩
  all_goals exact ⟨_, rfl, ⟨work_issues, by decide +kernel⟩, by decide +kernel, trivial⟩

theorem witness_heapget : Startable heapgetStart (.heapget h0 1 4 (some 0)) :=
  ⟨_, rfl, ⟨work_issues, by decide +kernel⟩, by decide +kernel, fun _ => rfl, by decide +kernel, ⟨by decide +kernel, by decide +kernel, by decide +kernel, rfl⟩⟩

theorem witness_heapget_none : Startable heapgetStart (.heapget h0 1 4 none) :=
  ⟨_, rfl, ⟨work_issues, by decide +kernel⟩, by decide +kernel, fun _ => rfl, by decide +kernel, ⟨by decide +kernel, by decide +kernel, by decide +kernel, rfl⟩⟩

end Sys2Proof.Tests
end

