-- ==== Sys2Proof/Tests/WitnessScope.lean ====
section
/-! SUPPORT. Witnesses: states and operands that meet the hypotheses of the statements about recovery scopes, counters and
barriers. -/

namespace Sys2Proof.Tests
open Sys2Proof.Machine

set_option Elab.async false

/-! ### Recovery -/

theorem witness_ensure : work.Ready c2 ww h0 (optRegs [some 4, some 102]) ∧ (Tab.find work.blocks ww.block).isSome = true ∧
    vw.act = ww.live ∧ ww.live ≠ 0 ∧ (∀ r ∈ optRegs [some 4, some 102], ∀ n ∈ vw.lanes, vw.rd r n = vw.rd r vw.low) ∧
    (work.lpb ww.block).recovery = true ∧ (work.block ww.block).depth < (work.lpb ww.block).rdepth ∧ ww.trap.level = 0 ∧
    work.publishing c2.wave = false ∧ Target.counter ⟨1, 3⟩ c2.pc = some 0x4043 :=
  ⟨⟨work_issues, by decide +kernel⟩, rfl, by decide +kernel, by decide, by decide +kernel, by decide +kernel, by decide +kernel, rfl, rfl,
    by decide +kernel⟩

/-- A frame, whose alternates are to be passed over or not. -/
def frame (skip : Bool) : Frame := ⟨0x4040, 0x1E0, 100, 0, 0, 0, false, skip, false, false, 0⟩

/-- A block with frames open. -/
def bf (fs : List Frame) : Block := { bw with rcv := { Recovery.blank with frames := fs } }

/-- The wave at a dispatch point of `n` frames. -/
def wd (n : Nat) : Wave := { ww with dispatch := true, saves := (List.range n).map fun d => (d + 1, ⟨0, 0⟩) }

/-- The wave at a dispatch point. -/
def dispatching (fs : List Frame) : State := { work with waves := [(0, wd fs.length)], blocks := [(0, bf fs)] }

theorem witness_elseby : ∀ skip, (dispatching [frame skip]).AtDispatch c2 (wd 1) h0 (optRegs [some 102]) ∧
    (Tab.find (dispatching [frame skip]).blocks (wd 1).block).isSome = true ∧
    ((dispatching [frame skip]).issOf c2 (wd 1) h0).act = (wd 1).live ∧ (bf [frame skip]).rcv.frame 1 = some (frame skip) ∧
    Target.counter ⟨0, 0⟩ c2.pc = some 0x4000 ∧ ((dispatching [frame skip]).issOf c2 (wd 1) h0).enters ⟨0, 0⟩ = true := by
  intro skip
  cases skip <;>
    exact ⟨⟨⟨rfl, rfl⟩, rfl, by decide +kernel⟩, rfl, by decide +kernel, rfl, by decide +kernel, by decide +kernel⟩

theorem witness_elseerr : ∀ n ∈ [1, 2], (dispatching (List.replicate n (frame false))).AtDispatch c2 (wd n) h0 [] ∧
    ((dispatching (List.replicate n (frame false))).issOf c2 (wd n) h0).act = (wd n).live ∧ (wd n).scope = n ∧
    (((bf (List.replicate n (frame false))).rcv.frame (wd n).scope).any (·.sit)) = false ∧ (wd n).trap.level = 0 := by
  intro n hn
  simp only [List.mem_cons, List.not_mem_nil, or_false] at hn
  rcases hn with rfl | rfl <;>
    exact ⟨⟨⟨rfl, rfl⟩, rfl, by decide +kernel⟩, by decide +kernel, by decide +kernel, by decide +kernel, rfl⟩

/-- The wave inside a scope. -/
def inside : State := { work with blocks := [(0, bf [frame false])] }

theorem witness_scope_ends : ∀ i ∈ [Instr.accept h0, .acceptIf h0 102, .acceptIf h0 4, .reject h0 7, .abandon h0 8],
    ∃ r, scopeEnd inside c2 ww i = some r ∧ inside.Ready c2 ww r.1 r.2.1 ∧ (inside.issOf c2 ww r.1).act ≠ 0 ∧
      (inside.issOf c2 ww r.1).act = ww.live ∧ (inside.block ww.block).depth ≠ 0 ∧ inside.publishing c2.wave = false := by
  intro i hi
  simp only [List.mem_cons, List.not_mem_nil, or_false] at hi
  rcases hi with rfl | rfl | rfl | rfl | rfl <;>
    exact ⟨_, rfl, ⟨⟨rfl, rfl⟩, by decide +kernel⟩, by decide +kernel, by decide +kernel, by decide +kernel, rfl⟩

theorem witness_sitjoin : work.Ready c2 ww h0 [103, 102, 1] ∧ vw.act ≠ 0 ∧
    (∀ r ∈ [103, 102], ∀ l ∈ vw.lanes, vw.rd r l = vw.rd r vw.low) ∧ (work.block ww.block).depth = 0 ∧ work.publishing c2.wave = false ∧
    work.joinRefusals ww.block ww.ctx (vw.rd 103 vw.low) (vw.rd 102 vw.low).toNat = [] ∧
    work.joinRefusals ww.block ww.ctx (vw.rd 103 vw.low) 33 = [5] :=
  ⟨⟨work_issues, by decide +kernel⟩, by decide +kernel, by decide +kernel, rfl, rfl, by decide +kernel, by decide +kernel⟩

theorem witness_sitleave : work.Ready c2 ww h0 [1] ∧ vw.act ≠ 0 ∧ (work.block ww.block).depth = 0 ∧ work.publishing c2.wave = false :=
  ⟨⟨work_issues, by decide +kernel⟩, by decide +kernel, rfl, rfl⟩

/-! ### Counters -/

/-- The place of the counter that pair 2 names. -/
def at8 : Nat := placeOf 0x8000

/-- The wave may use it. -/
theorem witness_counter : (∃ u, vw.counterAt (vw.rd2 2 vw.low) at8 u) ∧ work.mem.good at8 := by
  have h : ∃ a, work.counterPlace vw.core ww.ctx (vw.rd2 2 vw.low).toNat = .ok a ∧ decide (a.1 = at8) = true :=
    ok_some _ _ (by decide +kernel)
  obtain ⟨⟨place, u⟩, hp, hg⟩ := h
  obtain rfl : place = at8 := of_decide_eq_true hg
  exact ⟨⟨u, rfl, hp, by decide +kernel⟩, by decide +kernel, by decide +kernel⟩

/-- A counter instruction's hypotheses hold. -/
theorem witness_counting : ∀ i ∈ [Instr.cinc h0 1 2 (.imm 4095), .cinc h0 1 2 (.reg 102), .cdec h0 1 2 (.imm 1),
    .crd h0 1 2, .crdF h0 1 2], ∃ f, countForm work c2 ww at8 i = some f ∧ work.Ready c2 ww f.h (f.rs ++ [f.d.toNat]) ∧
      (work.issOf c2 ww f.h).act ≠ 0 ∧ f.handle = vw.rd2 2 vw.low ∧
      ∀ l ∈ (work.issOf c2 ww f.h).lanes, ∀ r ∈ f.rs, (work.issOf c2 ww f.h).rd r l = (work.issOf c2 ww f.h).rd r (work.issOf c2 ww f.h).low := by
  intro i hi
  simp only [List.mem_cons, List.not_mem_nil, or_false] at hi
  rcases hi with rfl | rfl | rfl | rfl | rfl <;>
    exact ⟨_, rfl, ⟨work_issues, by decide +kernel⟩, by decide +kernel, rfl, by decide +kernel⟩

/-- CINIT and CINIT.cont with a value of 0, whose continuation fires at once. -/
theorem witness_cinit : ∀ i ∈ [Instr.cinit h0 1 96, .cinitCont h0 1 96 0],
    ∃ f, countForm work c2 ww at8 i = some f ∧ work.Ready c2 ww f.h (f.rs ++ [f.d.toNat]) ∧ f.whole = true ∧
      f.handle = vw.rd2 2 vw.low ∧ (i = .cinitCont h0 1 96 0 → ∀ r, f.fires r = true) ∧
      ∀ l ∈ (work.issOf c2 ww f.h).lanes, ∀ r ∈ f.rs, (work.issOf c2 ww f.h).rd r l = (work.issOf c2 ww f.h).rd r (work.issOf c2 ww f.h).low := by
  intro i hi
  simp only [List.mem_cons, List.not_mem_nil, or_false] at hi
  rcases hi with rfl | rfl
  · refine ⟨_, rfl, ⟨work_issues, by decide +kernel⟩, rfl, by decide +kernel, ?_, by decide +kernel⟩
    intro h
    cases h
  · have z : ((some (0 : BitVec 3)).isSome && (vw.initRec 96 (some 0)).value == 0) = true := by decide +kernel
    exact ⟨_, rfl, ⟨work_issues, by decide +kernel⟩, rfl, by decide +kernel, fun _ _ => z, by decide +kernel⟩

/-- Its LPB can be read, and its entry written. -/
def continues : Bool :=
  okAnd (work.counterPlace vw.core ww.ctx 0x8000) fun p =>
    let r := vw.initRec 96 (some 0)
    okAnd ((p.2.homeWrite (fromPlace p.1 r.bytes)).unitRead farUnit r.ctx r.cont 256) fun x =>
      okAnd (x.2.unitWrite farUnit r.ctx (qw.base + 256 * qw.tail) x.1) fun _ => true

theorem witness_continuation : continues = true ∧ (work.ctx 0).st = 1 ∧ work.lq 0 0 = qw ∧ ctlEn qw.ctl = true ∧ ctlDevfed qw.ctl = true ∧
    qw.full = false ∧ qw.held = [] := ⟨by decide +kernel, by decide +kernel, rfl, by decide +kernel, by decide +kernel, by decide +kernel, rfl⟩

/-! ### Waits and windows -/

/-- The waits on a counter: one that holds and one that does not. -/
theorem witness_waits : ∃ u, (∃ f, waitForm work c2 ww at8 u (.cwaitLe h0 2 102) = some f ∧ work.Ready c2 ww f.h f.rs ∧ f.ok) ∧
    ∃ f, waitForm work c2 ww at8 u (.cwaitGe h0 2 102) = some f ∧ work.Ready c2 ww f.h f.rs ∧ f.ok ∧
      (ww.cwaits.find? fun x => x.isOf c2 f at8) = none := by
  obtain ⟨⟨u, h1⟩, h2⟩ := witness_counter
  have r : work.ready c2 ww h0 (pairOf 2 ++ [102]) [] = true := by decide +kernel
  exact ⟨u, ⟨_, rfl, ⟨work_issues, r⟩, h1, h2⟩, _, rfl, ⟨work_issues, r⟩, ⟨h1, h2⟩, rfl⟩

/-- The counter at 0x8000 is 0: CWAIT.le of 2 holds and CWAIT.ge of 2 does not. -/
theorem witness_wait_values : (work.mem.counter at8).value ≤ (vw.rd 102 vw.low).toNat ∧
    ¬(vw.rd 102 vw.low).toNat ≤ (work.mem.counter at8).value := ⟨by decide +kernel, by decide +kernel⟩

/-- The waits on an outbound window that the context owns. -/
theorem witness_wait_window : ∃ f, waitForm work c2 ww (2 ^ 64) work (.cwaitWs h0 4 102) = some f ∧ work.Ready c2 ww f.h f.rs ∧ f.ok :=
  ⟨_, rfl, ⟨work_issues, by decide +kernel⟩, by decide, by decide +kernel, rfl⟩

/-- A device with an open window. -/
def windowed : State := { small with dev := { small.dev with winIn := [(3, ⟨0, 0, true, 0, 0x8000, 0x1000, 6⟩)] } }

/-- The inbound window that a handle names. -/
theorem witness_window_in : windowed.windowIn 0 (handleOf (small.tag .window 3 0 0) 0 3) = some 3 := by
  have h := append_parts (small.tag .window 3 0 0) (BitVec.ofNat 32 3)
  have e : handleOf (small.tag .window 3 0 0) 0 3 = small.tag .window 3 0 0 ++ BitVec.ofNat 32 3 := by
    unfold handleOf; rw [BitVec.append_assoc]; rfl
  rw [e]
  unfold State.windowIn handleLow handleGen handleTag
  rw [h.1, h.2.1, h.2.2]
  have n : ((BitVec.ofNat 32 3).extractLsb' 0 20).toNat = 3 := rfl
  have m : ((BitVec.ofNat 32 3).extractLsb' 20 12).toNat = 0 := rfl
  have q : Tab.find windowed.dev.winIn (3 % 4096) = some ⟨0, 0, true, 0, 0x8000, 0x1000, 6⟩ := rfl
  rw [n, m]
  simp only [q]
  simp [State.tag, windowed, small, State.placed, State.reset, Device.reset]

theorem witness_winrd : Startable winStart (.winrdS h0 6 4) :=
  ⟨_, rfl, ⟨work_issues, by decide +kernel⟩, by decide +kernel, fun _ => rfl, by decide +kernel, ⟨by decide +kernel, by decide +kernel, rfl⟩⟩

/-! ### Barriers -/

theorem witness_bar : work.Ready c2 ww h0 [] ∧ (Tab.find work.blocks ww.block).isSome = true ∧ vw.mayArrive 4 ∧ vw.mayArrive 0 ∧
    vw.barrierAt 4 = some (.block 0 false) ∧ vw.barrierAt 0 = none :=
  ⟨⟨work_issues, by decide +kernel⟩, rfl,
    ⟨by decide +kernel, by decide, rfl, rfl, fun b hb => by cases (hb.symm.trans (by decide +kernel : vw.barrierAt 4 = some (.block 0 false))); decide +kernel⟩,
    ⟨by decide +kernel, by decide, rfl, rfl, fun b hb => by cases (hb.symm.trans (by decide +kernel : vw.barrierAt 0 = none))⟩,
    by decide +kernel, by decide +kernel⟩

theorem witness_bara : work.Ready c2 ww h0 [1] := ⟨work_issues, by decide +kernel⟩

/-- The block barrier has completed its generation 0; the ticket is 0, or 1. -/
def gone : State := { work with blocks := [(0, { bw with barC := ⟨[], 1⟩ })] }

theorem witness_barw : gone.Ready c2 ww h0 [4] ∧ (gone.issOf c2 ww h0).act = ww.live ∧ armedHit (ww.seenFlags gone.free) = false ∧
    (gone.issOf c2 ww h0).barrierAt 4 = some (.block 0 false) ∧
    ((BitVec.ofNat 32 (gone.barrierGen (.block 0 false)) : Word) - 0).toNat = 1 ∧
    ((BitVec.ofNat 32 (gone.barrierGen (.block 0 false)) : Word) - 1).toNat = 0 :=
  ⟨⟨⟨rfl, rfl⟩, by decide +kernel⟩, by decide +kernel, rfl, by decide +kernel, by decide +kernel, by decide +kernel⟩

end Sys2Proof.Tests
end

