-- ==== Sys2Proof/Tests/WitnessSteps.lean ====
section
/-! SUPPORT. Witnesses: states that meet the conditions of the steps of units: of waves, lines, arrivals, engines, scopes and the
scheduler. -/

namespace Sys2Proof.Tests
open Sys2Proof.Machine

set_option Elab.async false

/-- A step's conditions hold. -/
def Met (table : State → Instr → Option Happening) (s : State) (i : Instr) : Prop := ∃ r, table s i = some r ∧ r.ok

/-- The device with its wave changed. -/
def wave (f : Wave → Wave) : State := { work with waves := [(0, f ww)] }

/-- The device with its block changed. -/
def block (f : Block → Block) : State := { work with blocks := [(0, f bw)] }

/-- The device with something on its way. -/
def flying (f : Flight) : State := { work with fly := f }

/-- The device with its first core changed. -/
def core0 (f : Core → Core) : State := { work with cores := Tab.upd work.cores 0 f }

/-- Nothing on its way. -/
def f0 : Flight := Flight.reset

/-! ### Waves -/

theorem witness_owed : Met waveEvent (wave fun w => { w with owed := [⟨.queue, 5, 1, 0, true, 0⟩] }) (.takeOwedFault 0) :=
  ⟨_, rfl, by decide +kernel⟩

theorem witness_result : Met waveEvent (flying { f0 with results := [(1, ⟨0, [(160, 7)], [], [], 0, false, false, 0, none, false⟩)] })
    (.variableResultReturn 1) := ⟨_, rfl, by unfold Distinct; decide +kernel, fun _ h => nomatch h⟩

theorem witness_fairness : Met waveEvent (wave fun w => { w with live := 7, pcs := [(1, 0x4001), (2, 0x4002)], fcount := 300 })
    (.fairnessSweep 0) := ⟨_, rfl, by decide +kernel⟩

theorem witness_age : Met waveEvent (core0 fun c => { c with active := [1], pending := [(0, 2048)] }) (.pendingAgeExchange 0) :=
  ⟨_, rfl, by decide +kernel⟩

theorem witness_nap : Met waveEvent (wave fun w => { w with nap := 1 }) (.napExpiry 0) := ⟨_, rfl, by decide +kernel⟩

theorem witness_sways_done : Met waveEvent (core0 fun c => { c with sways := [⟨0, 1, 1, 0xF800, 0, 0, 0⟩] }) (.swaysComplete 0) :=
  ⟨_, rfl, by decide +kernel⟩

/-- A copy of 256 bytes that runs from `a` to `s`, its A run's rows in scratch. -/
def copy (op : CopyOp) (st : CopyStage) (landed : List (Nat × Nat × Nat)) : Copy :=
  ⟨op, ⟨.a, .s, 0, none, .rne, false⟩, 0, false, some (0, 0), true, 0, false, 0, st,
    [⟨0, 0, 1, 1, 0, 0, 256, 1, 256, 256, 0, [], .rne, false, 0, 0, 0⟩], landed, none, 0, 0, 0, false, false, []⟩

theorem witness_sways_timeout : Met waveEvent { core0 fun c => { c with sways := [⟨0, 1, 1, 0xE000, 65536, 0, 0⟩] } with
      blocks := [(0, { bw with s := { buffer with size := 0x14000 }, granules := [12 * 16, 12 * 16 + 1, 12 * 16 + 2, 12 * 16 + 3, 12 * 16 + 4] })]
      fly := { f0 with copies := [(3, copy .plain .running [])] } } (.swaysTimeout 0) := ⟨_, rfl, by decide +kernel⟩

/-! ### Publishes -/

theorem witness_merge : Met publishEvent (flying { f0 with lines := [(1, ⟨none, 0, 0, 0x8000, [(0, 7, 0)], 0⟩)] }) (.publishLineMerge 1) :=
  ⟨_, rfl, by decide +kernel⟩

theorem witness_bridge : Met publishEvent { flying { f0 with publishes := [(1, ⟨0, none, [], [(1, 2)]⟩)] } with
    dev := { work.dev with bridges := [(0, ⟨[(fenceKey 0 1, 2)], false, 0⟩)] } } (.bridgePublishAccept 0 1) :=
  ⟨_, rfl, by decide +kernel⟩

/-! ### Arrivals -/

/-- A send of lane 0 through a capability that is no capability. -/
def sent (o : Option Nat) : Arrival := ⟨0, 0, 0, 0, 5, false, false, false, 0, 1, [(0, 9)], 4, 1, o, 0, false⟩

theorem witness_arrival : Met arrivalEvent (flying { f0 with arrivals := [(1, sent none)] }) (.remoteArrival 1) :=
  ⟨_, rfl, by decide +kernel⟩

theorem witness_outcome : Met arrivalEvent (flying { f0 with arrivals := [(1, sent (some 3))] }) (.arrivalOutcome 1) :=
  ⟨_, rfl, by decide +kernel⟩

theorem witness_push : Met arrivalEvent { wave fun w => { w with queues := [(0, ⟨16, 4⟩)] } with
    fly := { f0 with pushes := [(1, ⟨1, 0, 1, [(0, 9)], 4, 0⟩)] } } (.yokePushLand 1) := ⟨_, rfl, by decide +kernel⟩

/-! ### Copies and shadows -/

/-- A block whose scratch has room. -/
def roomS (b : Block) : Block := { b with s := { buffer with size := 0x14000 } }

/-- A device with one copy. -/
def copying (c : Copy) : State :=
  { block roomS with waves := [(0, { ww with copies := 1 })], fly := { f0 with copies := [(3, c)] } }

theorem witness_copy_start : Met copyEvent (copying (copy .plain .gathering [])) (.copyQueueStart 3) := ⟨_, rfl, by decide +kernel⟩

theorem witness_packet : Met copyEvent (copying (copy .plain .running [])) (.copyPacket 3 0 0 0) := ⟨_, rfl, by decide +kernel⟩

theorem witness_copy_end : Met copyEvent (copying (copy .plain .running [(0, 0, 0)])) (.copyComplete 3) :=
  ⟨_, rfl, rfl, by decide +kernel, fun h => (h (by decide +kernel)).elim⟩

theorem witness_put_merge : Met copyEvent (copying (copy .window .running [(0, 0, 0)])) (.windowPutMerge 3) :=
  ⟨_, rfl, by decide +kernel⟩

theorem witness_put_ack : Met copyEvent (copying { copy .window .running [(0, 0, 0)] with merged := true }) (.windowPutAck 3) :=
  ⟨_, rfl, by decide +kernel⟩

theorem witness_swap : Met copyEvent (flying { f0 with shadows := [(1, ⟨0, 0, 0, 4, 1, 0x40000, true, false, false, none, 0, 9⟩)] })
    (.shadowPublishSwap 1) := ⟨_, rfl, by decide +kernel⟩

/-! ### Tiles -/

/-- A device with one tile operation on tile 1, of two rows and two columns. -/
def tiling (op : TileKindOp) (n : Nat) : State :=
  flying { f0 with tiles := [(2, ⟨op, 1, [1], 0, 0, 4, 1, 0x101, 0, n, none, 0, 0, 0, none⟩)] }

theorem witness_tile_end : ∀ op ∈ [TileKindOp.zero, .check, .status false, .status true, .load .f32 .rne 0 64 { Fdt.raw with fmt := 1 }],
    Met tileEvent (tiling op 0) (.tileOpComplete 2) := by
  intro op hop
  simp only [List.mem_cons, List.not_mem_nil, or_false] at hop
  rcases hop with rfl | rfl | rfl | rfl | rfl <;>
    exact ⟨_, rfl, by decide +kernel, by decide +kernel, by decide, fun _ h => (h (by decide +kernel)).elim⟩

/-- A matrix multiplication of f16 rows in `a` and `w`. -/
def mmt1 : TileKindOp :=
  .mmt ⟨1, 0, false, none, none⟩ 0x10000 0x10000 64 64 { Fdt.raw with fmt := 4 } { Fdt.raw with fmt := 4 } 1

theorem witness_mmt_step : Met tileEvent (tiling mmt1 0) (.mmtStep 2) := ⟨_, rfl, by decide +kernel⟩

/-- A drain to f32 rows in `a`. -/
def drain1 : DrainArg := ⟨1, false, 0, none, false, false, none, none⟩

/-- Its run. -/
def run1 : List Word := drainDesc (fun r => vw.rd r vw.low) 66 drain1

theorem witness_drain : Met tileEvent (tiling (.drain drain1 .rne false run1 Fdt.raw Fdt.raw 0 false) 0) (.tdrainRow 2) :=
  ⟨_, rfl, by decide +kernel, by decide +kernel, by decide +kernel, by decide +kernel, fun _ _ => ⟨rfl, rfl⟩⟩

theorem witness_drain_row : ((Tab.find (tiling (.drain drain1 .rne false run1 Fdt.raw Fdt.raw 0 false) 0).fly.tiles 2).any fun o =>
    okAnd ((tiling (.drain drain1 .rne false run1 Fdt.raw Fdt.raw 0 false) 0).drainRow o drain1 .rne false run1 Fdt.raw Fdt.raw 0 0) fun r => r.1.codes.length == 16) = true := by
  decide +kernel

/-! ### Sheepdog and the heap -/

/-- A command of one page, whose drive has acknowledged it or not. -/
def sheep (k : SdKind) (acked : Bool) (tries : Nat) (rest : Nat := 0) : State :=
  flying { f0 with
    sd := [(4, ⟨k, 0, 0, 0, 0, 0, 1, 1, 5, false, [0x10000], true, 0, none, 3, none, 0, 0⟩)]
    nvme := [(6, ⟨4, 0x10000, tries, acked, [], [], 0x20000, none, rest⟩)] }

theorem witness_parked : Met sheepdogEvent (sheep (.park .dx6 true) true 0) (.sdPageParked 4) := ⟨_, rfl, trivial⟩

theorem witness_recalled : Met sheepdogEvent (sheep .call true 0) (.sdPageRecalled 4 0x10000) := ⟨_, rfl, rfl⟩

theorem witness_dropped : Met sheepdogEvent (sheep .drop true 0) (.sdPageDropped 4 0x10000) := ⟨_, rfl, rfl⟩

theorem witness_last_page : ∃ c, (sheep .drop true 0).lastPage 4 c 0x10000 :=
  ⟨_, rfl, rfl, rfl, rfl, rfl, rfl, by decide +kernel⟩

theorem witness_nvme : Met sheepdogEvent (sheep .call false 3) (.nvmeCompletion 6 0x4080) := ⟨_, rfl, rfl⟩

/-- A command that completes well: another follows, or it is acknowledged and no command has more to submit. -/
theorem witness_nvme_done : ∀ n ∈ [1, 0], Met sheepdogEvent (sheep .call false 3 n) (.nvmeCompletion 6 0) ∧
    ∀ c ∈ (sheep .call false 3 n).fly.sd, c.2.started = true ∧ c.2.ending = 0 ∧ c.2.pages ≠ [] ∧
      ∀ p ∈ c.2.pages, ∃ y ∈ (sheep .call false 3 n).fly.nvme, y.2.cmd = c.1 ∧ y.2.page = p := by
  intro n _
  refine ⟨⟨_, rfl, rfl⟩, fun c hc => ?_⟩
  obtain rfl := List.mem_singleton.1 hc
  refine ⟨rfl, rfl, (fun h => nomatch h), fun p hp => ?_⟩
  obtain rfl := List.mem_singleton.1 hp
  exact ⟨_, List.mem_cons_self .., rfl, rfl⟩

theorem witness_nvme_late : Met sheepdogEvent (sheep .call false 3) (.nvmeTimeout 6) := ⟨_, rfl, rfl⟩

/-- A request of an instance with one entry, or of a sealed one with none. -/
def asking (sealed : Bool) : State :=
  { flying { f0 with heap := [(7, ⟨0, 0, 0, 1, 1, 0, 0, 0⟩)] } with
    dev := { work.dev with heaps := [(0, ⟨some 0, if sealed then 2 else 1, 1, if sealed then [] else [(3, 9, 0)]⟩)] } }

theorem witness_heap_answer : ∀ b, Met sheepdogEvent (asking b) (.heapgetServe 0 0) := fun b => by
  cases b <;> exact ⟨_, rfl, by decide +kernel⟩

/-! ### Barriers and scopes -/

theorem witness_barrier : Met scopeEvent (block fun b => { b with barC := ⟨[0], 5⟩ }) (.barrierComplete (.block 0 false)) :=
  ⟨_, rfl, by decide +kernel⟩

theorem witness_group_barrier : Met scopeEvent { work with launches := [(0, { lw with groups := [⟨[0], none, [0], 5, []⟩] })] }
    (.barrierComplete (.group 0 0)) := ⟨_, rfl, by decide +kernel⟩

/-- The block's recovery state. -/
def rcv (r : Recovery) : State := block fun b => { b with rcv := r }

/-- The sitting table with the block's own. -/
def sitting (s : State) (st : Nat) : State :=
  { s with dev := { s.dev with sits := [(3, ⟨77, 0, 1, [0], [0], [0], 0, st, [], []⟩)] } }

/-- A block that has arrived at its opening barrier, in a sitting or not. -/
def opening (n : Option Nat) : State :=
  sitting (rcv { Recovery.blank with opening := [(0, ⟨0x4040, 0, 0⟩)], sitting := n }) 2

theorem witness_opening : Met scopeEvent (opening none) (.openingBarrierComplete 0) :=
  ⟨_, rfl, by decide +kernel, .inr (.inl rfl)⟩

theorem witness_opening_round : Met scopeEvent (opening (some 3)) (.openingBarrierComplete 0) :=
  ⟨_, rfl, by decide +kernel, .inr (.inr ⟨_, _, rfl, by decide +kernel⟩)⟩

/-- A block that has arrived at its accept barrier, in a sitting's round or not. -/
def accepting (sit : Bool) : State :=
  sitting (rcv { Recovery.blank with
    frames := [{ frame false with sit := sit }], accepting := [0], sitting := if sit then some 3 else none }) 3

theorem witness_accepting : Met scopeEvent (accepting false) (.acceptBarrierComplete 0) :=
  ⟨_, rfl, by decide +kernel, .inl (.inr rfl)⟩

theorem witness_accepting_round : Met scopeEvent (accepting true) (.acceptBarrierComplete 0) :=
  ⟨_, rfl, by decide +kernel, .inr ⟨_, _, rfl, by decide +kernel⟩⟩

theorem witness_rollback : Met scopeEvent (rcv { Recovery.blank with
      frames := [frame false], failing := some ⟨1, 0x800, 0⟩, recs := [⟨1, .reg 0 5 0, .reg 9 false false true, false, false, [], false⟩] })
    (.rollback 0) := ⟨_, rfl, by decide +kernel, by decide +kernel, by decide +kernel, rfl, by decide +kernel, by decide +kernel,
  fun r hr k n l hl => by
    obtain rfl : r = _ := List.mem_singleton.1 hr
    cases hl
    decide, by decide +kernel⟩

theorem witness_limit : Met scopeEvent (rcv { Recovery.blank with frames := [{ frame false with limit := 100, count := 100 }] })
    (.recoveryLimitExpiry 0 1) := ⟨_, rfl, by decide +kernel⟩

/-! ### Placement -/

/-- A launch of class 3 whose one block takes a core's whole accumulator. -/
def lpb3 (priority : Nat) : Lpb :=
  { Lpb.blank with version := 1, flags := 10, gx := 1, gy := 1, gz := 1, waves := 1, regs := 256, cbuf := 0x80000, opclass := 3, priority := priority }

/-- A device that has one block in a state on core 0 and may have another, offered; the context may use these cores. -/
def crowd (b : Block) (bs : List Block) (cores : BitVec 256) : State :=
  { work with
    blocks := (b :: bs).zipIdx.map fun p => (p.2, { p.1 with launch := p.2 })
    launches := (b :: bs).zipIdx.map fun p => (p.2, { Launch.blank with left := 1, lpb := lpb3 p.2 })
    ctxs := Tab.put work.ctxs 0 { work.ctx 0 with cores := cores, saveBase := 0x100000, saveSize := 0x1000000 } }

/-- The block, in no gang. -/
def lone (st : BlockState) : Block := { bw with gang := none, st := st }

/-- A block that no core has had. -/
def offered : Block := { fetchBlock with st := .offered, waves := [], waited := 60, age := 60 }

/-- A launch queue with an entry in memory that every check passes. -/
def admitting : State :=
  { work with
    mem := work.mem.write [(placeOf 0xA000, 1), (placeOf 0xA018, 1), (placeOf 0xA01C, 1), (placeOf 0xA020, 1), (placeOf 0xA024, 1),
      (placeOf 0xA026, 16), (placeOf 0xA045, 3)]
    ctxs := Tab.put work.ctxs 0 { work.ctx 0 with
      lqs := [(0, { qw with tail := 1 })], cqs := [(0, { ComplQueue.reset with base := 0xB000, ctl := 2 ^ 31 + 2 })] } }

theorem witness_admit : Met placeEvent admitting (.launchAdmit 0 0) ∧
    okAnd (admitting.unitRead farUnit 0 0xA000 256) (fun x => !admitting.lpbBad 0 (Lpb.ofBytes x.1) &&
      (admitting.groupTable 0 (Lpb.ofBytes x.1)).1 == some []) = true := ⟨⟨_, rfl, by decide +kernel⟩, by decide +kernel⟩

/-- The same block before its relief. -/
def young : Block := { offered with waited := 0 }

theorem witness_place : Met placeEvent (crowd young [] 1) (.blockPlace 0) ∧ (crowd young [] 1).placement 0 = some [(0, 0)] :=
  ⟨⟨_, rfl, by decide +kernel⟩, by decide +kernel⟩

theorem witness_no_place : Met placeEvent (crowd young [] 0) (.blockPlace 0) ∧ (crowd young [] 0).placement 0 = none ∧
    (crowd young [] 0).gangOf 0 = none := ⟨⟨_, rfl, by decide +kernel⟩, by decide +kernel, rfl⟩

theorem witness_tick : Met placeEvent (crowd offered [] 1) (.priorityAgeTick 0) := ⟨_, rfl, by decide +kernel⟩

theorem witness_relief : Met placeEvent (crowd offered [] 1) (.starvationRelief 0) ∧ (crowd offered [] 1).placement 0 = some [(0, 0)] :=
  ⟨⟨_, rfl, by decide +kernel⟩, by decide +kernel⟩

theorem witness_start : Met placeEvent (crowd (lone .starting) [] 1) (.staggeredStart 0) := ⟨_, rfl, by decide +kernel⟩

theorem witness_ramp : Met placeEvent (core0 fun c => { c with ramp := 1, started := 256 }) (.matrixEngineRamp 0) :=
  ⟨_, rfl, by decide +kernel⟩

theorem witness_pool_move : Met placeEvent { crowd offered [] 1 with clusters := [(0, { Cluster.reset with pool := 0 })] } (.poolMove 0 3) :=
  ⟨_, rfl, _, List.mem_cons_self .., by decide +kernel⟩

theorem witness_pool_moved : Met placeEvent { work with clusters := [(0, { Cluster.reset with moving := true })] } (.poolMoveComplete 0) :=
  ⟨_, rfl, by decide +kernel⟩

/-! ### Moves and retirement -/

theorem witness_preempt : Met moveEvent (crowd (lone .running) [offered] 1) (.preempt 1) :=
  ⟨_, rfl, by decide +kernel⟩

theorem witness_restore : Met moveEvent (crowd (lone .saved) [] 1) (.restore 0) :=
  ⟨_, rfl, by decide +kernel⟩

theorem witness_migration : Met moveEvent (crowd { lone .running with want := some 1 } [] 3) (.migration 0 1) :=
  ⟨_, rfl, by decide +kernel⟩

theorem witness_migrated : Met moveEvent (crowd (lone .moving) [] 3) (.migrationDrain 0) := ⟨_, rfl, by decide +kernel⟩

theorem witness_retire : Met moveEvent (crowd (lone .draining) [] 3) (.blockRetire 0) := ⟨_, rfl, by decide +kernel⟩

/-- A held continuation. -/
def continuation : HeldLpb := ⟨List.replicate 256 0, 0, 0, 0, 0⟩

theorem witness_held_continuation : Met moveEvent { work with
      ctxs := Tab.put work.ctxs 0 { work.ctx 0 with lqs := [(0, { qw with held := [continuation] })] } } (.heldContinuationAppend 0 0) :=
  ⟨_, rfl, by decide +kernel, by decide +kernel, by decide +kernel, by decide +kernel,
    (ok_some _ (fun _ => true) (by decide +kernel)).imp fun _ h => h.1⟩

/-! ### Queues, vaults and power -/

/-- An entry of a completion queue. -/
def entry : Entry := ⟨5, 0, Err.none, 0, 0, 0, 0, 0⟩

/-- A completion queue. -/
def queue (q : ComplQueue) : State := { work with ctxs := Tab.put work.ctxs 0 { work.ctx 0 with cqs := [(0, q)] } }

theorem witness_retry : Met powerEvent (queue { ComplQueue.reset with base := 0xB000, ctl := 2 ^ 31 + 2, held := [entry] })
    (.completionQueueRetry 0 0) :=
  ⟨_, rfl, rfl, by decide +kernel, by decide +kernel, rfl, by decide +kernel,
    (ok_some _ (fun _ => true) (by decide +kernel)).imp fun _ h => h.1⟩

theorem witness_irq : Met powerEvent (queue { ComplQueue.reset with ien := true, since := 3 }) (.cqIrqTimeout 0 0) :=
  ⟨_, rfl, by decide +kernel⟩

theorem witness_sensor : Met powerEvent work (.vaultSensorRead 255 1521) := ⟨_, rfl, by decide⟩

theorem witness_charging : Met powerEvent (core0 fun c => { c with units := 8, unitsOf := [(0, (0, 8))] }) (.chargingIntervalClose 0) :=
  ⟨_, rfl, trivial⟩

theorem witness_lease_ends : Met powerEvent { work with launches := [(0, { lw with lease := 1 })] } (.leaseExpiry 0) :=
  ⟨_, rfl, by decide +kernel⟩

theorem witness_throttle : Met powerEvent work (.powerThrottleTick 1900) := ⟨_, rfl, trivial⟩

theorem witness_trip : Met powerEvent work (.junctionTrip 1761) ∧ (work.ctx 0).st = 1 := ⟨⟨_, rfl, by decide⟩, rfl⟩

theorem witness_trip_release : Met powerEvent { work with dev := { work.dev with trip := true } } (.junctionHoldRelease 1519) :=
  ⟨_, rfl, by decide, rfl⟩

end Sys2Proof.Tests
end

