-- ==== Sys2Proof/Tests/WitnessHost.lean ====
section
/-! SUPPORT. Witnesses: states that meet the conditions of the host's accesses, the supervisor's commands, resets and ports. -/

namespace Sys2Proof.Tests
open Sys2Proof.Machine

set_option Elab.async false

/-! ### The host -/

theorem witness_events : ctlEn work.dev.evctl = false ∧
    okAnd (({ work with dev := { work.dev with evctl := 2 ^ 31 + 2, evbase := 0xC000 } } : State).unitWrite farUnit 0 0xC000
      (leBytes 1 1 ++ leBytes 1 (2 * 16) ++ leBytes 2 3 ++ leBytes 1 4 ++ leBytes 3 0 ++ leBytes 8 5)) (fun _ => true) = true :=
  ⟨by decide, by decide +kernel⟩

theorem witness_host : ∀ i ∈ [Instr.hostApertureAccess 0 0x8000 none 4, .hostApertureAccess 0 0x8000 (some [1, 2]) 2, .lqTailWrite 0 0 3,
    .lqCtlWrite 0 0 0x80000004, .cqHeadWrite 0 0 1, .cqCtlWrite 0 0 0x80000002, .eheadWrite 0 1, .pkglimWrite 1500,
    .opclassTableWrite 7 0x10640028A, .accountingCounterWrite 0 0, .foldDriveNqpWrite 0 1 true, .foldDriveNqpWrite 0 1 false],
    Met hostEvent work i := by
  intro i hi
  simp only [List.mem_cons, List.not_mem_nil, or_false] at hi
  rcases hi with rfl | rfl | rfl | rfl | rfl | rfl | rfl | rfl | rfl | rfl | rfl | rfl <;> exact ⟨_, rfl, by decide +kernel⟩

theorem witness_aperture : (work.hostRead 0 0x8000 4).isSome = true ∧ (work.hostRead 0 (2 ^ 40) 4).isSome = false ∧
    okAnd (work.unitPlaces farUnit 0 0x8000 [1, 2]) (fun _ => true) = true := ⟨by decide +kernel, by decide +kernel, by decide +kernel⟩

/-- A write of class 7 within the other classes' bounds, 650 mV and 1600 MHz; and one that is not. -/
theorem witness_class7 : ∀ v : DWord, v = 0x10640028A →
    (v.getLsbD 33 = false ∧ 550 ≤ (v.extractLsb' 0 16).toNat ∧ (v.extractLsb' 0 16).toNat ≤ 800 ∧ 400 ≤ (v.extractLsb' 16 16).toNat ∧
      ∃ c, c < 6 ∧ ((Tab.get 0 work.dev.opclass c).extractLsb' 0 16).toNat ≤ (v.extractLsb' 0 16).toNat ∧
        (v.extractLsb' 16 16).toNat ≤ ((Tab.get 0 work.dev.opclass c).extractLsb' 16 16).toNat) := by
  rintro v rfl
  exact ⟨by decide, by decide, by decide, by decide, 2, by decide +kernel⟩

/-- Nothing waits for a completion queue. -/
theorem witness_unheld : work.unheld := by
  have h : ∀ (m : Tab Context), (∀ p ∈ m, p.2.cqs = []) → ∀ k, (Tab.get Context.reset m k).cqs = [] := by
    intro m hm k
    unfold Tab.get
    induction m with
    | nil => rfl
    | cons p m ih =>
      unfold Tab.find
      by_cases e : p.1 = k
      · rw [if_pos e]; exact hm p (List.mem_cons_self ..)
      · rw [if_neg e]; exact ih fun q hq => hm q (List.mem_cons_of_mem _ hq)
  refine ⟨rfl, by decide, fun c n => ?_⟩
  unfold State.cq State.ctx
  rw [h work.ctxs (by decide +kernel) c]
  rfl

/-- The counters that count. -/
theorem witness_counter_at : (work.counterAt 0).isSome = true := by decide +kernel

/-! ### Commands -/

/-- A device whose supervisor can command everything: a drive in service, a Fold slot, an open window, a block that may move. -/
def office (busy : Bool) : State :=
  { crowd (lone .running) [] 3 with
    dev := { work.dev with
      drives := [(0, ⟨0, 1, 1, 12, 8, 5, 1⟩)]
      fold := [(9, ⟨1, 0, 1, 0, 1, 0, 100, []⟩)]
      winIn := [(7, ⟨1, 0, true, 0, 0x8000, 0x1000, 0⟩)]
      scmdBusy := busy } }

theorem witness_commands : ∀ b, ∀ i ∈ [Instr.killContext 1, .resetContext 1, .migrateBlock ww.handle 1, .resetHeapInstance 0,
    .createFoldSlot 0 0 1 0 100, .releaseFoldSlot 9, .openWindow 0 0 0x8000 0x1000, .closeWindow 7, .foldAdminPassThrough 0 0 0x9000 16,
    .attest 5 0x9000, .raiseFirmwareSecurityVersion, .enterOutboundWindowHandle 5 0],
    (commandOp i).isSome = true ∧ (office b).dev.fw.bootfail = false ∧ (office b).dev.scmdBusy = b := by
  intro b i hi
  simp only [List.mem_cons, List.not_mem_nil, or_false] at hi
  rcases hi with rfl | rfl | rfl | rfl | rfl | rfl | rfl | rfl | rfl | rfl | rfl | rfl <;> exact ⟨rfl, rfl, rfl⟩

/-- The arguments above are good ones: the cases that have an effect. -/
theorem witness_good_arguments : ((office false).ctx 1).st ≠ 1 ∧ (office false).waveOf ww.handle = some 0 ∧ (office false).eligible 0 1 = true ∧
    ((office false).block 0).gang = none ∧ ((office false).lpb 0).preemptible = true ∧ ((office false).drive 0).st = 1 ∧
    (Tab.find (office false).dev.fold 9).any (·.st != 0) = true ∧ (Tab.find (office false).dev.winIn 7).any (·.open_) = true ∧
    Tab.find (office false).dev.fold 0 = none ∧ Tab.find (office false).dev.winIn 0 = none ∧ Tab.has (office false).dev.winOut 1 = false := by
  decide +kernel

/-- OP names a command with its arguments. -/
theorem witness_names : ({ office false with dev := { (office false).dev with scmdArg := [(0, 3)] } } : State).names 1 (.killContext 3) := rfl

/-- A device without firmware, a function's registers, and the supervisor's. -/
theorem witness_registers : ({ work with dev := { work.dev with fw := { work.dev.fw with bootfail := true } } } : State).dev.fw.bootfail = true ∧
    work.dev.fw.bootfail = false ∧ ctlEn (work.ctx 0).ectl = false := ⟨rfl, rfl, rfl⟩

/-! ### Resets and ports -/

theorem witness_resets : ∀ i ∈ [Instr.deviceReset, .functionLevelReset 0, .functionLevelReset 1, .firmwareStagingUpdate],
    Met resetEvent work i := by
  intro i hi
  simp only [List.mem_cons, List.not_mem_nil, or_false] at hi
  rcases hi with rfl | rfl | rfl | rfl <;> exact ⟨_, rfl, trivial⟩

/-- A port with a flit in its window, up or down. -/
def ported (up : Bool) : State :=
  { work with dev := { work.dev with ports := [(0, { Port.reset with
      up := up, seq := 3, window := (List.range 65).map fun n => ⟨n, 0, .reply, 0⟩, waking := 4 })] } }

theorem witness_ports : ∀ i ∈ [Instr.ezleyFlitReceive 0 0 true, .ezleyAck 0 2 1, .ezleyReplay 0 2, .ezleyAudit 0 0, .ezleyPortDown 0,
    .ezleyGroupWake 0 1, .ezleyGroupLit 0 2, .ezleyGroupDark 0 2], Met portEvent (ported true) i := by
  intro i hi
  simp only [List.mem_cons, List.not_mem_nil, or_false] at hi
  rcases hi with rfl | rfl | rfl | rfl | rfl | rfl | rfl | rfl
  · exact ⟨_, rfl, trivial⟩
  · exact ⟨_, rfl, trivial⟩
  · exact ⟨_, rfl, trivial⟩
  · exact ⟨_, rfl, trivial⟩
  all_goals exact ⟨_, rfl, by decide +kernel⟩

theorem witness_port_up : Met portEvent (ported false) (.ezleyPortUp 0) := ⟨_, rfl, by decide +kernel⟩

end Sys2Proof.Tests
end

