-- ==== Sys2Proof/Tests/WitnessSystem.lean ====
section
/-! SUPPORT. Witnesses: states and operands that meet the hypotheses of the statements about control and system instructions. -/

namespace Sys2Proof.Tests
open Sys2Proof.Machine

set_option Elab.async false

/-- Pair 2 holds the counter 0x4000 in every lane, the other registers 0. -/
def wf : Wave := { w0 with regs := inEvery [(2, 0x4000)] }

/-- The wave with it. -/
def jumps : State := { small with waves := [(0, wf)] }

theorem jumps_issues : jumps.Issues c0 wf := ⟨rfl, rfl⟩

/-- A guard that no lane meets. -/
def hOff : Hdr := ⟨some ⟨false, 9⟩, false, none⟩

/-- The hypotheses of a control transfer hold in `jumps`. -/
def Flows (i : Instr) : Prop := ∃ r, flowGoal jumps c0 wf i = some r ∧ jumps.Ready c0 wf r.h r.rs ∧ r.ok = true

theorem flows_all {l : List Instr} (hl : (l.all fun i => (flowGoal jumps c0 wf i).any fun r => jumps.ready c0 wf r.h r.rs [] && r.ok) = true) :
    ∀ i ∈ l, Flows i := by
  intro i hi
  obtain ⟨r, hr, h⟩ := some_and _ _ (List.all_eq_true.mp hl i hi)
  simp only [Bool.and_eq_true] at h
  exact ⟨r, hr, ⟨jumps_issues, h.1⟩, h.2⟩

theorem witness_flows : ∀ i ∈ [
    .nop h0, .nop hOff, .br h0 ⟨0, 0⟩, .br hOff ⟨0, 1⟩, .jmp h0 ⟨0, 0⟩, .call h0 6 ⟨0, 0⟩, .calli h0 6 2, .ret h0 2], Flows i :=
  flows_all (by decide +kernel)

theorem witness_yield : jumps.Ready c0 wf h0 [] ∧ ((jumps.core (jumps.coreOf c0.wave)).pending.all fun x => x.1 != c0.wave) = true :=
  ⟨⟨jumps_issues, by decide +kernel⟩, by decide +kernel⟩

theorem witness_exit : jumps.Ready c0 wf h0 [] ∧ (jumps.block wf.block).depth = 0 ∧ armedHit (wf.seenFlags jumps.free) = false ∧
    (jumps.issOf c0 wf h0).act ≠ 0 ∧ wf.live &&& ~~~(jumps.issOf c0 wf h0).act = 0 :=
  ⟨⟨jumps_issues, by decide +kernel⟩, rfl, rfl, by decide +kernel, by decide +kernel⟩

/-- With the guard no lane exits. -/
theorem witness_exit_stays : jumps.Ready c0 wf hOff [] ∧ wf.live &&& ~~~(jumps.issOf c0 wf hOff).act ≠ 0 :=
  ⟨⟨jumps_issues, by decide +kernel⟩, by decide +kernel⟩

/-- The operands of SWR, uniform ones. -/
def swrable (wide : Bool) (num : BitVec 12) : Bool :=
  ones.ready c0 w1 h0 (if wide then pairOf 2 else [2]) [] && decide (num = 0x080 → w1.ctx = 0) &&
    ((ones.issOf c0 w1 h0).lanes.all fun l => (ones.issOf c0 w1 h0).swrValue wide 2 l ==
      (ones.issOf c0 w1 h0).swrValue wide 2 (ones.issOf c0 w1 h0).low)

theorem witness_swr : ones.Issues c0 w1 ∧ (ones.issOf c0 w1 h0).act ≠ 0 ∧ (Tab.find ones.blocks w1.block).isSome = true ∧
    ([(false, 0x020), (false, 0x021), (true, 0x033), (true, 0x035), (false, 0x037), (true, 0x039), (true, 0x03A), (false, 0x080)].all
      fun x => swrable x.1 x.2) = true := ⟨ones_issues, by decide +kernel, rfl, by decide +kernel⟩

theorem witness_frame : ones.Ready c0 w1 h0 (runOf 4 4) ∧ (ones.issOf c0 w1 h0).act ≠ 0 ∧
    ((ones.issOf c0 w1 h0).lanes.all fun l => (List.range 4).all fun j => (ones.issOf c0 w1 h0).rd (4 + j) l ==
      (ones.issOf c0 w1 h0).rd (4 + j) (ones.issOf c0 w1 h0).low) = true ∧ (Tab.find ones.blocks w1.block).isSome = true :=
  ⟨⟨ones_issues, by decide +kernel⟩, by decide +kernel, by decide +kernel, rfl⟩

theorem witness_traps : ∀ i ∈ [Instr.trap h0 5, .bkpt h0 6],
    ∃ r, trapOf c0 (jumps.issOf c0 wf h0).act i = some r ∧ r.1 = h0 ∧ jumps.Ready c0 wf r.1 [] ∧
      (Tab.find jumps.blocks wf.block).isSome = true ∧ r.2.2.2.1 ≠ 0 := by
  intro i hi
  simp only [List.mem_cons, List.not_mem_nil, or_false] at hi
  rcases hi with rfl | rfl <;>
    exact ⟨_, rfl, rfl, ⟨jumps_issues, by decide +kernel⟩, rfl, by decide +kernel⟩

/-- With the guard a TRAP passes. -/
theorem witness_trap_passes : ∃ r, trapOf c0 (jumps.issOf c0 wf hOff).act (.trap hOff 5) = some r ∧ jumps.Ready c0 wf r.1 [] ∧
    r.2.2.2.1 = 0 := ⟨_, rfl, ⟨jumps_issues, by decide +kernel⟩, by decide +kernel⟩

theorem witness_ill : jumps.Issues c0 wf ∧ (Tab.find jumps.blocks wf.block).isSome = true := ⟨jumps_issues, rfl⟩

/-- At trap level 2, with good saved counters. -/
def w2 : Wave := { wf with trap := { wf.trap with level := 2 } }

theorem witness_rett : ({ small with waves := [(0, w2)] } : State).Ready c0 w2 h0 [] ∧ w2.trap.level ≠ 0 ∧
    (({ small with waves := [(0, w2)] } : State).issOf c0 w2 h0).act = w2.live ∧
    ((Mask.lanes w2.live).all fun l => isCounter ((Tab.get 0 w2.trap.top.epc l).setWidth 64)) = true :=
  ⟨⟨⟨rfl, rfl⟩, by decide +kernel⟩, by decide, by decide +kernel, by decide +kernel⟩

/-- At level 0. -/
theorem witness_rett_illegal : jumps.Ready c0 wf h0 [] ∧ wf.trap.level = 0 := ⟨⟨jumps_issues, by decide +kernel⟩, rfl⟩

/-- An invalidation's conditions hold. -/
def dropping (i : Instr) : Bool :=
  (tlbReach ones c0 w1 i).any fun r => ones.ready c0 w1 r.h r.rs [] && r.ok && decide ((ones.issOf c0 w1 r.h).act ≠ 0) &&
    !ones.publishing 0 && decide (r.sup = true → w1.ctx = 0)

theorem witness_invalidations : ones.Issues c0 w1 ∧ ([.tlbinvVa h0 1 2 none, .tlbinvVa h0 1 2 (some 3), .tlbinvCtx h0 1 2, .tlbinvAll h0 1,
    .tlbinvFdt h0 1 2].all dropping) = true := ⟨ones_issues, by decide +kernel⟩

/-- Each pool has microseconds to lend; cluster 0 alone is in the pool of class 5. -/
def rich : State :=
  { ones with dev := { ones.dev with budgets := (List.range 8).map fun n => (n, 9) }, clusters := [(0, ⟨5, false, false, 0⟩)] }

/-- The operands of LEASE. -/
theorem witness_lease : rich.Ready c0 w1 h0 [2, 1] ∧ (rich.issOf c0 w1 h0).act ≠ 0 ∧
    ((rich.issOf c0 w1 h0).lanes.all fun l => (rich.issOf c0 w1 h0).rd 2 l == (rich.issOf c0 w1 h0).rd 2 (rich.issOf c0 w1 h0).low) = true ∧
    (Tab.find rich.launches (rich.block w1.block).launch).isSome = true ∧
    rich.leaseRefusals (rich.block w1.block).launch (rich.cluster 0).pool 5 1 = [] :=
  ⟨⟨⟨rfl, rfl⟩, by decide +kernel⟩, by decide +kernel, by decide +kernel, rfl, by decide +kernel⟩

/-- Without a budget it is refused. -/
theorem witness_lease_refused : ones.leaseRefusals (ones.block w1.block).launch (ones.cluster 0).pool 4 1 ≠ [] := by decide +kernel

theorem witness_lease_release : ones.Ready c0 w1 h0 [1] ∧ (ones.issOf c0 w1 h0).act ≠ 0 ∧ (ones.launch (ones.block w1.block).launch).lease = 0 :=
  ⟨⟨ones_issues, by decide +kernel⟩, by decide +kernel, rfl⟩

/-- A launch that holds a lease. -/
theorem witness_lease_held : ({ rich with launches := [(0, { rich.launch 0 with lease := 7, leaseCls := 4 })] } : State).Ready c0 w1 h0 [1] ∧
    (({ rich with launches := [(0, { rich.launch 0 with lease := 7, leaseCls := 4 })] } : State).launch (rich.block w1.block).launch).lease ≠ 0 :=
  ⟨⟨⟨rfl, rfl⟩, by decide +kernel⟩, by decide +kernel⟩

end Sys2Proof.Tests
end

/-! PROOFS. The integer, logic, compare, float and conversion instructions: each row of a table of results is one of a few
shapes of own part (typed words, typed words with flags, a rounded result, one word per lane), and each shape is settled
once, here or in Laws/Results. -/

namespace Sys2Proof.Machine

/-! ### Records, needs and tests -/

theorem State.wave_of_find {s : State} {k : Nat} {w : Wave} (h : Tab.find s.waves k = some w) : s.wave k = w := by
  simp [State.wave, Tab.get, h]

theorem State.block_of_find {s : State} {n : Nat} {b : Block} (h : Tab.find s.blocks n = some b) : s.block n = b := by
  simp [State.block, Tab.get, h]

/-- An instruction whose needs are plain lists covers just these registers. -/
theorem covers_plain (h : Hdr) (srcs dsts : List Nat) : Covers { h := h, srcs := srcs, dsts := dsts } (srcs ++ dsts) [] :=
  covers_list rfl rfl rfl rfl rfl

/-- The wide type of MADW takes a register pair, signed or not (R133). -/
theorem regsOf_wideOf (t : RType) (r : Reg) : regsOf (wideOf t) r = pairOf r := by
  unfold wideOf
  cases t.isSigned <;> rfl

theorem madw_covers (h : Hdr) (t : RType) (d a b e : Reg) :
    Covers { h := h, srcs := [a.toNat, b.toNat] ++ pairOf e, dsts := pairOf d }
      ([a.toNat, b.toNat] ++ pairOf e ++ regsOf (wideOf t) d) [] := by
  rw [regsOf_wideOf]
  exact covers_plain ..

/-- MOVIH writes the high register of its pair and only names the low one (R129). -/
theorem movih_covers (h : Hdr) (d : Reg) :
    Covers { h := h, srcs := [], dsts := [d.toNat + 1], names := [d.toNat] } [d.toNat, d.toNat + 1] [] :=
  covers_simple rfl (by simp) rfl (by simp) rfl

/-- Where no active lane's divisor is zero, a division goes on past its test for zero (R134). -/
theorem zeros_go {s : State} {c : Cur} {w : Wave} {nd : Need} {t : RType} {b : Reg} {x y : Eff}
    (hok : ((s.issOf c w nd.h).lanes.all fun l => (s.issOf c w nd.h).int t b l 0 != 0) = true) :
    (if (s.issAt c w nd (w.active s.free c.path nd.h)).zeros t b ≠ 0 then x else y) = y :=
  if_neg fun h => h (zeros_none rfl hok)

/-- Where every active lane has the lowest one's value, an instruction goes on past its uniformity test (R366). -/
theorem uniform_go {α : Type} [BEq α] {i : Iss} {f : Nat → α} {go : Eff} (h : (i.lanes.all fun l => f l == f i.low) = true) :
    i.uniform (i.differ f) go = go := by
  have hd : i.differ f = 0 := by simpa using differ_lanes.trans h
  exact if_pos hd

theorem votes_any (v : Iss) (a : Reg) : (v.votes a != 0) = v.lanes.any fun l => (v.rd a.toNat l).getLsbD 0 := any_lanes

theorem votes_all (v : Iss) (a : Reg) : (v.votes a == v.act) = v.lanes.all fun l => (v.rd a.toNat l).getLsbD 0 := all_lanes

/-! ### Shapes of own parts -/

section
variable {s : State} {c : Cur} {w : Wave} {h : Hdr} {d a : Reg}

/-- One word per lane, given by another expression for it. -/
theorem lanesW_done {nd : Need} {body : Iss → Eff} {rs cross : List Nat} {f g : Nat → Word} {lat : Nat}
    (hr : s.Ready c w nd.h rs cross) (hc : Covers nd rs cross)
    (hb : body (s.issAt c w nd (w.active s.free c.path nd.h)) = (s.issAt c w nd (w.active s.free c.path nd.h)).lanesW lat d f)
    (hfg : ∀ l, f l = g l) :
    Done s c w (issue s nd body) ((s.issOf c w nd.h).lanes.map fun l => (d.toNat, l, g l)) w.flags := by
  obtain rfl := funext hfg
  exact each_done hr hc hb

/-- A vector function is within its bound in f32 and rounded once in every other type (R53, R153). -/
theorem vfun_done {f : VFun} {t : RType} {m : RMode} {sat : Bool} {r : RegResult}
    (e : (s.issOf c w h).vfunResult f h t m sat d a = r) (hr : s.Ready c w r.h r.rs r.cross) :
    Done s c w (issue s (need3 h t d [a]) fun i => i.vfun f t m sat d a) r.words r.flags := by
  unfold Iss.vfunResult at e
  unfold Iss.vfun
  by_cases ht : t = .f32
  · rw [if_pos ht] at e
    subst e
    simp only [if_pos ht]
    exact lanesF_done hr (need3_covers1 h t d a) rfl
  · rw [if_neg ht] at e
    subst e
    simp only [if_neg ht]
    exact lanesR_done hr (need3_covers1 h t d a) rfl

/-- FRND gives typed words with flags and always rounds (R154). -/
theorem frnd_done {ex : Bool} {t : RType} {m : RMode} (hr : s.Ready c w h (regsOf t a ++ regsOf t d)) :
    Done s c w (issue s (need3 h t d [a]) fun i => i.frnd ex t m d a) ((s.issOf c w h).rintResult ex h t m d a).words
      ((s.issOf c w h).rintResult ex h t m d a).flags :=
  lanesFm_done true hr (need3_covers1 h t d a) (by
    simp only [Iss.frnd, Iss.idle, Bool.not_true, Bool.or_false]
    rfl)

/-- UNPACK writes a run of registers in each lane and no flag (R161). -/
theorem unpack_done {f : PackFmt} (hr : s.Ready c w h (a.toNat :: runOf d f.count)) :
    Done s c w (execUnpack h f d a s) ((s.issOf c w h).lanes.flatMap fun l => (List.range f.count).map fun k =>
      (d.toNat + k, l, unpackElem f (((s.issOf c w h).rd a.toNat l).toNat / 2 ^ (32 / f.count * k)))) w.flags := by
  obtain ⟨hd, hl⟩ := runWords_ok (s.issOf c w h).act d.toNat f.count fun l k =>
    unpackElem f (((s.issOf c w h).rd a.toNat l).toNat / 2 ^ (32 / f.count * k))
  unfold execUnpack
  refine plain_done (lat := 4) _ true 0 id hr (covers_plain ..) hl hd ?_
  rw [foldr_flatMap]
  exact congrArg Eff.done (State.putWords_upd ..).symm

end

/-! ### Block packing -/

section
variable {v : Iss} {code : Nat} {h : Hdr} {m : RMode} {d a : Reg}

theorem packBlock_idle (hi : v.idle = true) :
    v.packBlock code m d a = .done (v.t.putWords v.k 6 (v.packResult h code m d a).words) := by
  unfold Iss.packBlock
  rw [hi]
  rfl

theorem packBlock_active (hi : v.idle = false) :
    v.packBlock code m d a = .done (((v.t.putWords v.k 6 (v.packResult h code m d a).words).orFlagsAt v.k 6 v.path
      (blockEncode code 0 (fun l => v.rnd m l 0) (v.block a)).flags).stepSto v.k m) := by
  unfold Iss.packBlock
  rw [hi]
  rfl

theorem packResult_flags_idle (ha : v.act = 0) : (v.packResult h code m d a).flags = v.w.flags := if_pos ha

theorem packResult_flags_active (ha : v.act ≠ 0) : (v.packResult h code m d a).flags =
    v.stepped m (orFlags v.w.flags (blockEncode code 0 (fun l => v.rnd m l 0) (v.block a)).flags) := if_neg ha

/-- DXPACK and MXPACK set their block's flags and step the stochastic sequence where some lane is active (R162). -/
theorem packBlock_done {s : State} {c : Cur} {w : Wave} (hr : s.Ready c w h (regsOf .f32 a ++ regsOf .f32 d)) :
    Done s c w (issue s (need3 h .f32 d [a]) fun i => i.packBlock code m d a) ((s.issOf c w h).packResult h code m d a).words
      ((s.issOf c w h).packResult h code m d a).flags := by
  have hc := need3_covers1 h .f32 d a
  obtain ⟨hd, hl⟩ : _ ∧ ∀ x ∈ ((s.issOf c w h).packResult h code m d a).words, x.2.1 < 32 := each_ok ..
  obtain ha | ⟨ha, hi, h0⟩ := act_cases (s.issOf c w h)
  · have hi : (s.issAt c w (need3 h .f32 d [a]) (w.active s.free c.path h)).idle = true := idle_of ha
    rw [packResult_flags_idle ha]
    refine plain_done (lat := 6) _ true 0 id hr hc hl hd ((packBlock_idle (h := h) hi).trans ?_)
    exact congrArg Eff.done (State.putWords_upd ..).symm
  · have hi : (s.issAt c w (need3 h .f32 d [a]) (w.active s.free c.path h)).idle = false := hi
    have h0 : (w.active s.free c.path h == 0) = false := h0
    rw [packResult_flags_active ha]
    refine rounds_done (lat := 6) (m := m)
      (fl := (blockEncode code 0 (fun l => (s.issOf c w h).rnd m l 0) ((s.issOf c w h).block a)).flags) true hr hc hl hd
      ((packBlock_active (h := h) hi).trans ?_)
    rw [show (need3 h .f32 d [a]).h = h from rfl, h0]
    rfl

end

/-- FLAGS.take gives the masked flags that it sees to its active lanes and clears the sticky ones among them (R164). -/
theorem flagsTake_done {s : State} {c : Cur} {w : Wave} {h : Hdr} {d : Reg} {mask : BitVec 15} (hr : s.Ready c w h [d.toNat]) :
    let v := s.issOf c w h
    let seen := w.seenFlags s.free &&& mask.setWidth 32
    Done s c w (execFlagsTake h d mask s) (v.lanes.map fun l => (d.toNat, l, seen))
      (if v.act = 0 then w.flags else w.flags &&& ~~~(seen &&& 0x7F)) := by
  intro v seen
  have hc : Covers (needFlags h [d.toNat]) [d.toNat] [] := covers_plain h [] [d.toNat]
  obtain ⟨hd, hl⟩ := each_ok v.act d.toNat fun _ => seen
  obtain ha | ⟨ha, hi, -⟩ := act_cases v
  · rw [if_pos ha]
    refine plain_done (lat := 1) _ true 0 id hr hc hl hd (congrArg Eff.done ((if_pos (idle_of ha)).trans ?_))
    exact (State.putWords_upd ..).symm
  · rw [if_neg ha]
    exact plain_done (lat := 1) _ false (seen &&& 0x7F) (fun f => f &&& ~~~(seen &&& 0x7F)) hr hc hl hd
      (congrArg Eff.done (if_neg (Bool.eq_false_iff.1 hi)))

/-! ### The tables -/

/-- Settles O12: each row is one typed word or one exact integer per element of each active lane. -/
theorem integerInstructionsDeliver : Obligations.IntegerInstructionsDeliver := by
  intro s c w ins r hr hready hok
  cases ins <;> cases hr
  case mov.refl h t d a => exact lanesT_done hready (need3_covers1 h t d a) rfl
  case movi.refl h t d imm => exact lanesT_done hready (need3_covers0 h t d) rfl
  case movih.refl h d imm => exact each_done hready (movih_covers h d) rfl
  case add.refl h t sat d a b | sub.refl h t sat d a b | mul.refl h t sat d a b =>
    exact lanesF_done hready (need3_covers h t d [a, b]) rfl
  case min.refl h t d a b | max.refl h t d a b | mulh.refl h t d a b =>
    exact lanesF_done hready (need3_covers h t d [a, b]) rfl
  case addi.refl h t sat d a imm | neg.refl h t sat d a | abs.refl h t sat d a =>
    exact lanesF_done hready (need3_covers1 h t d a) rfl
  case clamp.refl h t d a b e | mad.refl h t sat d a b e =>
    exact lanesF_done hready (need3_covers h t d [a, b, e]) rfl
  case madw.refl h t sat d a b e => exact lanesF_done (t := wideOf t) hready (madw_covers h t d a b e) rfl
  case div.refl h t sat d a b | rem.refl h t d a b =>
    exact lanesF_done hready (need3_covers h t d [a, b]) (zeros_go hok)
  case lea.refl h t d a b sh => exact lanesF_done hready (covers_plain ..) rfl

/-- Settles O13: each row moves bits, and a count is one word. -/
theorem logicInstructionsDeliver : Obligations.LogicInstructionsDeliver := by
  intro s c w ins r hr hready hok
  cases ins <;> cases hr
  case and.refl h t d a b | or.refl h t d a b | xor.refl h t d a b =>
    exact lanesT_done hready (need3_covers h t d [a, b]) rfl
  case not.refl h t d a => exact lanesT_done hready (need3_covers1 h t d a) rfl
  case bool3.refl h t d a b e fn => exact lanesT_done hready (need3_covers h t d [a, b, e]) rfl
  case funsh.refl h d a b e => exact lanesT_done hready (need3_covers h .z32 d [a, b, e]) rfl
  case shl.refl h t d a n | shr.refl h t d a n | sar.refl h t d a n | rot.refl h t d a n =>
    exact lanesT_done hready (covers_plain ..) rfl
  case bfx.refl h t d a sp | bfi.refl h t d a b sp => exact lanesT_done hready (covers_plain ..) rfl
  case popc.refl h t d a | clz.refl h t d a | ctz.refl h t d a => exact each_done hready (covers_plain ..) rfl

/-- Settles O14: a comparison has flags, a selection moves bits, a vote is one word; its mask test is the test of its
lanes. -/
theorem compareInstructionsDeliver : Obligations.CompareInstructionsDeliver := by
  intro s c w ins r hr hready hok
  cases ins <;> cases hr
  case cmp.refl h cc t d a b | cmpi.refl h cc t d a imm => exact lanesF_done hready (covers_plain ..) rfl
  case sel.refl h t d a b e => exact lanesT_done hready (covers_plain ..) rfl
  case ballot.refl h d a | active.refl h d | activePath.refl h d | activeLive.refl h d =>
    exact each_done hready (covers_plain ..) rfl
  case vany.refl h d a => exact lanesW_done hready (covers_plain ..) rfl fun _ => congrArg boolWord (votes_any _ a)
  case vall.refl h d a => exact lanesW_done hready (covers_plain ..) rfl fun _ => congrArg boolWord (votes_all _ a)
  case veq.refl h t d a => exact lanesW_done hready (covers_plain ..) rfl fun _ => congrArg boolWord differ_lanes

/-- Settles O15: arithmetic rounds its exact value once, the exact operations set flags alone, a vector function is one or
the other by its type. -/
theorem floatInstructionsDeliver : Obligations.FloatInstructionsDeliver := by
  intro s c w ins r hr hready hok
  cases ins <;> cases hr
  case fadd.refl h t m sat d a b | fsub.refl h t m sat d a b | fmul.refl h t m sat d a b | fdiv.refl h t m sat d a b =>
    exact lanesR_done hready (need3_covers h t d [a, b]) rfl
  case ffma.refl h t m sat d a b e => exact lanesR_done hready (need3_covers h t d [a, b, e]) rfl
  case fsqrt.refl h t m d a => exact lanesR_done hready (need3_covers1 h t d a) rfl
  case fscale.refl h t m sat d a b | dot2.refl h t m sat d a b e => exact lanesR_done hready (covers_plain ..) rfl
  case fmin.refl h t d a b | fmax.refl h t d a b => exact lanesF_done hready (need3_covers h t d [a, b]) rfl
  case fneg.refl h t d a | fabs.refl h t d a => exact lanesF_done hready (need3_covers1 h t d a) rfl
  case frcp.refl | frsq.refl | fexp2.refl | flog2.refl | fsin.refl | fcos.refl | ftanh.refl => exact vfun_done rfl hready
  case frnd.refl | frndExact.refl => exact frnd_done hready
  case fclass.refl h t d a => exact each_done hready (covers_plain ..) rfl

/-- Settles O16: a conversion rounds where one of its types is a float type, block packing in any active lane. -/
theorem convertInstructionsDeliver : Obligations.ConvertInstructionsDeliver := by
  intro s c w ins r hr hready hok
  cases ins <;> cases hr
  case cvt.refl h td ts m sat d a => exact lanesFm_done (cvtRounds td ts) hready (covers_plain ..) rfl
  case pack.refl h f m sat d a => exact lanesFm_done (packIsFloat f) hready (covers_plain ..) rfl
  case unpack.refl => exact unpack_done hready
  case dxpack.refl | mxpack.refl => exact packBlock_done hready
  case dxunpk.refl h f d a | mxunpk.refl h f d a => exact lanesF_done hready (need3_covers1 h .f32 d a) rfl
  case flagsClr.refl | flagsSet.refl | flagsRm.refl => exact flagsOnly_done _ _ hready
  case flagsTake.refl => exact flagsTake_done hready

end Sys2Proof.Machine

/-! PROOFS. SWR: what it reaches is one predicate, which the advance of the path begins and each write of a special register
continues. -/

namespace Sys2Proof.Machine

/-- What SWR may not touch of a state: memory, devices, what is in flight, launches, clusters, vaults, turns and the L2. -/
def State.remote (s : State) : Memory × Device × Flight × Tab Launch × Tab Cluster × Tab Vault × List Turn × Tab L2Line :=
  (s.mem, s.dev, s.fly, s.launches, s.clusters, s.vaults, s.agenda, s.l2)

/-- SWR has got from `s` to `t`: the path of its wave has passed, FLAGS is `fl`, the trap registers are `tr`, its block is
`b`, its core, energy apart, is `co`, and nothing else has changed but energy (R179). -/
structure Swr (s t : State) (c : Cur) (w : Wave) (fl : Word) (tr : TrapRegs) (b : Block) (co : Core) : Prop where
  own : ∃ x, Tab.find t.waves c.wave = some x ∧
    (∀ l, l < 32 → x.pc l = if c.path.getLsbD l then nextPc c.pc else w.pc l) ∧ (∀ r l, x.cell r l = w.cell r l) ∧
    x.flags = fl ∧ x.rest = { w.rest with trap := tr }
  others : ∀ j, j ≠ c.wave → t.wave j = s.wave j
  block : Tab.find t.blocks w.block = some b
  blocks : ∀ n, n ≠ w.block → t.block n = s.block n
  core : (t.core (s.coreOf c.wave)).rest = co
  cores : ∀ n, n ≠ s.coreOf c.wave → (t.core n).rest = (s.core n).rest
  ctxs : ∀ n, (t.ctx n).rest = (s.ctx n).rest
  remote : t.remote = s.remote

section
variable {s t : State} {c : Cur} {w : Wave} {fl : Word} {tr : TrapRegs} {b : Block} {co : Core}

theorem Swr.advance {nd : Need} (act : Mask) (hw : Tab.find s.waves c.wave = some w) (hb : Tab.find s.blocks w.block = some b)
    (he : ∀ r ∈ nd.looks, Tab.get 0 w.ecc r = 0) :
    Swr s (s.advance nd c.wave c.path c.pc act) c w w.flags w.trap b (s.core (s.coreOf c.wave)).rest := by
  obtain ⟨h1, h2, h3, h4⟩ := State.advance_clean (nd := nd) c.path c.pc act hw he
  simp only [State.frameOf, Prod.mk.injEq] at h2
  obtain ⟨f1, f2, f3, f4, f5, f6, f7, f8, f9⟩ := h2
  refine ⟨⟨w.advanced nd c.path c.pc, ?_, fun l hl => w.advanced_pc nd c.path c.pc l hl,
    fun r l => w.advanced_cell nd c.path c.pc r l, w.advanced_flags nd c.path c.pc, w.advanced_rest nd c.path c.pc⟩,
    fun j hj => ?_, ?_, fun n _ => ?_, h3 _, fun n _ => h3 n, h4, ?_⟩
  · simp [h1, Tab.find_upd, hw]
  · simp only [State.wave, Tab.get, h1, Tab.find_upd, if_neg hj]
  · rw [f7]; exact hb
  · simp only [State.block, f7]
  · simp only [State.remote, f1, f2, f3, f4, f5, f6, f8, f9]

/-- A change of the wave that keeps its counters and words. -/
theorem Swr.updWave {fl' : Word} {tr' : TrapRegs} (h : Swr s t c w fl tr b co) (g : Wave → Wave)
    (hpc : ∀ x l, (g x).pc l = x.pc l) (hc : ∀ x r l, (g x).cell r l = x.cell r l)
    (hf : ∀ x, x.flags = fl → (g x).flags = fl')
    (hr : ∀ x, x.rest = { w.rest with trap := tr } → (g x).rest = { w.rest with trap := tr' }) :
    Swr s (t.updWave c.wave g) c w fl' tr' b co := by
  obtain ⟨x, hx, h1, h2, h3, h4⟩ := h.own
  have hg : Tab.find (t.updWave c.wave g).waves c.wave = some (g x) := by simp [Tab.find_upd, hx]
  refine { h with
    own := ⟨g x, hg, fun l hl => (hpc x l).trans (h1 l hl), fun r l => (hc x r l).trans (h2 r l), hf x h3, hr x h4⟩
    others := fun j hj => ?_ }
  exact (t.wave_updWave_other _ g hj).trans (h.others j hj)

theorem Swr.trap (h : Swr s t c w fl tr b co) (f : TrapRegs → TrapRegs) :
    Swr s (t.updWave c.wave fun x => { x with trap := f x.trap }) c w fl (f tr) b co :=
  h.updWave _ (fun _ _ => rfl) (fun _ _ _ => rfl) (fun _ h => h) fun x hx => by
    have ht : x.trap = tr := congrArg Wave.trap hx
    show { x.rest with trap := f x.trap } = _
    rw [hx, ht]

theorem Swr.flags (h : Swr s t c w fl tr b co) (m : Word) (f : Word → Word) :
    Swr s (t.updWave c.wave fun x => x.putFlags m f) c w (f fl) tr b co :=
  h.updWave _ (fun x => (flagOnly_put m f x).2.1) (fun x => (flagOnly_put m f x).2.2) (fun x hx => by rw [putFlags_flags, hx])
    fun x hx => (flagOnly_put m f x).1.trans hx

theorem Swr.park (h : Swr s t c w fl tr b co) (mark : Bool) : Swr s (t.park c.wave mark) c w fl tr b co := by
  unfold State.park
  split
  · exact h.updWave _ (fun _ _ => rfl) (fun _ _ _ => rfl) (fun _ h => h) fun _ h => h
  · exact h

theorem Swr.wave_block (h : Swr s t c w fl tr b co) : (t.wave c.wave).block = w.block := by
  obtain ⟨x, hx, -, -, -, hr⟩ := h.own
  have hb : x.rest.block = w.block := by rw [hr]; rfl
  rw [State.wave_of_find hx]
  exact hb

theorem Swr.broken (h : Swr s t c w fl tr b co) (f : Recovery → Recovery) :
    Swr s (t.updRcv (t.wave c.wave).block f) c w fl tr { b with rcv := f b.rcv } co := by
  rw [h.wave_block]
  refine { h with block := ?_, blocks := fun n hn => ?_ }
  · simp [Tab.find_upd, h.block]
  · exact (t.block_updBlock_other _ _ hn).trans (h.blocks n hn)

theorem Swr.grants (h : Swr s t c w fl tr b co) (hc : b.core = s.coreOf c.wave) (n : Nat) :
    Swr s (t.updCore (t.coreOf c.wave) fun x => { x with grants := n, written := n }) c w fl tr b
      { co with grants := n, written := n } := by
  have hk : t.coreOf c.wave = s.coreOf c.wave := by
    rw [← hc, State.coreOf, h.wave_block, State.block_of_find h.block]
  rw [hk]
  refine { h with core := ?_, cores := fun j hj => ?_ }
  · rw [State.core_updCore, if_pos rfl]
    exact congrArg (fun x : Core => { x with grants := n, written := n }) h.core
  · rw [State.core_updCore, if_neg hj]
    exact h.cores j hj

end

/-- What SWR leaves of the special register `n`: `v` of the lowest lane, or `f` of each lane of `ls` (R50, R112 to R116, R179). -/
def SwrOf (s t : State) (c : Cur) (w : Wave) (n : Nat) (v : DWord) (ls : List Nat) (f : Nat → DWord) : Prop :=
  Swr s t c w (if n = 0x020 then writeFlags w.flags (v.setWidth 32) else w.flags) (w.trap.swr n v ls f)
    (if n = 0x021 then { s.block w.block with rcv := { (s.block w.block).rcv with broken := v.getLsbD 0 } } else s.block w.block)
    (if n = 0x080 then { (s.core (s.coreOf c.wave)).rest with grants := grantsOf v.toNat, written := grantsOf v.toNat }
      else (s.core (s.coreOf c.wave)).rest)

section
variable {s t : State} {c : Cur} {w : Wave} {n : Nat} {v : DWord} {ls : List Nat} {f : Nat → DWord}

/-- A register of each lane: its trap bank's saved counters are written (R112, R179). -/
theorem Swr.putLaneSpecial (h : Swr s t c w w.flags w.trap (s.block w.block) (s.core (s.coreOf c.wave)).rest)
    (hn : n = 0x033 ∨ n = 0x034) : SwrOf s (t.updWave c.wave fun x => x.putLaneSpecial n ls f) c w n v ls f := by
  obtain rfl | rfl := hn
  · exact h.trap fun x => { x with a := x.a.putEpc ls f }
  · exact h.trap fun x => { x with b := x.b.putEpc ls f }

/-- Any other register: one value is written, and a number that no register has writes nothing. -/
theorem Swr.putSpecial (h : Swr s t c w w.flags w.trap (s.block w.block) (s.core (s.coreOf c.wave)).rest)
    (hc : (s.block w.block).core = s.coreOf c.wave) (hn : ¬ (n = 0x033 ∨ n = 0x034)) :
    SwrOf s (t.putSpecial c.wave n v) c w n v ls f := by
  obtain ⟨ha, hb⟩ := not_or.1 hn
  unfold State.putSpecial
  dsimp only
  split
  · exact h.flags _ _
  · exact h.broken _
  · exact h.trap fun x => { x with a := { x.a with addr := v } }
  · exact h.trap fun x => { x with b := { x.b with addr := v } }
  · exact h.trap fun x => { x with a := { x.a with mask := v.setWidth 32 } }
  · exact h.trap fun x => { x with b := { x.b with mask := v.setWidth 32 } }
  · exact h.trap fun x => { x with vec := v }
  · exact h.trap fun x => { x with save := v }
  · exact h.grants hc _
  · have e : w.trap.swr n v ls f = w.trap := by
      unfold TrapRegs.swr
      split
      case h_9 => rfl
      all_goals contradiction
    rw [SwrOf, if_neg ‹_›, if_neg ‹_›, if_neg ‹_›, e]
    exact h

end

/-- What SWR needs: BANK_GRANTS is for context 0 alone (R116, R179). -/
def swrNeed (h : Hdr) (wide : Bool) (num : BitVec 12) (a : Reg) : Need :=
  { h := h, srcs := if wide then pairOf a else [a.toNat], dsts := [], sup := num == 0x080 }

/-- SWR's own part. -/
def Iss.swr (v : Iss) (wide : Bool) (num : BitVec 12) (a : Reg) : Eff :=
  if v.idle then .done v.t
  else if num = 0x033 ∨ num = 0x034 then
    .done (v.t.updWave v.k fun x => x.putLaneSpecial num.toNat v.lanes (v.swrValue wide a))
  else v.uniform (v.differ (v.swrValue wide a)) (.done (v.t.putSpecial v.k num.toNat (v.swrValue wide a v.low)))

theorem execSwr_eq (h : Hdr) (wide : Bool) (num : BitVec 12) (a : Reg) (s : State) :
    execSwr h wide num a s = issue s (swrNeed h wide num a) fun i => i.swr wide num a := rfl

theorem Iss.swr_lane {v : Iss} {wide : Bool} {num : BitVec 12} {a : Reg} (hi : v.idle = false)
    (hn : num = 0x033 ∨ num = 0x034) :
    v.swr wide num a = .done (v.t.updWave v.k fun x => x.putLaneSpecial num.toNat v.lanes (v.swrValue wide a)) := by
  unfold Iss.swr
  rw [if_neg (Bool.eq_false_iff.1 hi), if_pos hn]

theorem Iss.swr_one {v : Iss} {wide : Bool} {num : BitVec 12} {a : Reg} (hi : v.idle = false)
    (hn : ¬ (num = 0x033 ∨ num = 0x034)) (hu : (v.lanes.all fun l => v.swrValue wide a l == v.swrValue wide a v.low) = true) :
    v.swr wide num a = .done (v.t.putSpecial v.k num.toNat (v.swrValue wide a v.low)) := by
  unfold Iss.swr
  rw [if_neg (Bool.eq_false_iff.1 hi), if_neg hn, uniform_go hu]

/-- SWR completes where its wave may issue it, some lane is active, and its value, but for a register of each lane, is
the same in every active lane. -/
theorem swr_goes {s : State} {c : Cur} {w : Wave} {h : Hdr} {wide : Bool} {num : BitVec 12} {a : Reg}
    (hr : s.Ready c w h (if wide then pairOf a else [a.toNat])) (hctx : num = 0x080 → w.ctx = 0)
    (hact : (s.issOf c w h).act ≠ 0)
    (hu : ¬ (num = 0x033 ∨ num = 0x034) → ((s.issOf c w h).lanes.all fun l =>
      (s.issOf c w h).swrValue wide a l == (s.issOf c w h).swrValue wide a (s.issOf c w h).low) = true)
    (hb : (Tab.find s.blocks w.block).isSome) :
    ∃ t, execSwr h wide num a s = .next t ∧ SwrOf s t c w num.toNat ((s.issOf c w h).swrValue wide a (s.issOf c w h).low)
      (s.issOf c w h).lanes ((s.issOf c w h).swrValue wide a) := by
  have hsrc : ∀ r ∈ (swrNeed h wide num a).srcs ++ (swrNeed h wide num a).dsts, r ∈ if wide then pairOf a else [a.toNat] :=
    fun r hr => by simpa [swrNeed] using hr
  have hn : ∀ r ∈ (swrNeed h wide num a).cross ++ (swrNeed h wide num a).names ++ (swrNeed h wide num a).spans,
    r ∈ (if wide then pairOf a else [a.toNat]) ∨ r ∈ [] := fun r hr => by simp [swrNeed] at hr
  have hv := State.Ready.verdict (nd := swrNeed h wide num a) hr (fun e => hctx (eq_of_beq e)) hsrc hn
  have he := State.Ready.looks_clean (nd := swrNeed h wide num a) hr hsrc hn
  obtain ⟨b, hb⟩ := Option.isSome_iff_exists.1 hb
  have hcore : (s.block w.block).core = s.coreOf c.wave := by rw [State.coreOf, State.wave_of_find hr.1.2]
  have h0 := Swr.advance (w.active s.free c.path h) hr.1.2 (State.block_of_find hb ▸ hb) he
  have hi : (s.issAt c w (swrNeed h wide num a) (w.active s.free c.path h)).idle = false := beq_false_of_ne hact
  rw [execSwr_eq, issue_go hr.1 hv]
  refine ⟨_, rfl, ?_⟩
  by_cases hnum : num = 0x033 ∨ num = 0x034
  · have hown := Iss.swr_lane (wide := wide) (a := a) hi hnum
    rw [show (swrNeed h wide num a).h = h from rfl, hown]
    exact Swr.park (h0.putLaneSpecial (hnum.imp (congrArg BitVec.toNat) (congrArg BitVec.toNat))) _
  · have hown := Iss.swr_one (wide := wide) (a := a) hi hnum (hu hnum)
    rw [show (swrNeed h wide num a).h = h from rfl, hown]
    exact Swr.park (h0.putSpecial hcore (by simpa [BitVec.toNat_eq] using hnum)) _

/-- SWR's half of O26: what `SwrOf` holds of is what the statement lists. -/
theorem swrGoes : SwrGoes := by
  intro s c w h wide num a hr hctx v f hact hu hb x
  obtain ⟨t, ht, hs⟩ := swr_goes hr hctx hact (or_assoc.2 hu).resolve_left hb
  obtain ⟨y, hy, hpc, hcell, hflags, hrest⟩ := hs.own
  have hsw := State.wave_of_find hr.1.2
  have htw := State.wave_of_find hy
  have hremote := hs.remote
  simp only [State.remote, Prod.mk.injEq] at hremote
  obtain ⟨hmem, hdev, hfly, hlaunches, hclusters, hvaults, hagenda, hl2⟩ := hremote
  have hnum : ∀ k : BitVec 12, num = k ↔ num.toNat = k.toNat := fun k => BitVec.toNat_inj.symm
  refine ⟨t, ht, fun l hl => ?_, ⟨fun x h => absurd h List.not_mem_nil, fun r l _ _ => ?_⟩, ?_, htw ▸ hrest, ?_, hs.blocks,
    ?_, hs.cores, hs.ctxs, hs.others, hmem, hdev, hfly, hlaunches, hclusters, hvaults, hagenda, hl2⟩
  · rw [htw, hsw]
    exact hpc l hl
  · rw [htw, hsw]
    exact hcell r l
  · simp only [hnum, htw]
    exact hflags
  · simp only [hnum, State.block_of_find hs.block]
    rfl
  · simp only [hnum]
    exact hs.core

end Sys2Proof.Machine

/-! PROOFS. FRAME: the path passes, a scope may record the slot, and the slot is written in the block. -/

namespace Sys2Proof.Machine

/-- Records by key agree in what their tables agree in. -/
theorem Tab.get_of_map_find {α β : Type} (d : α) (f : α → β) {m m' : Tab α} {k : Nat}
    (h : (Tab.find m' k).map f = (Tab.find m k).map f) : f (Tab.get d m' k) = f (Tab.get d m k) := by
  have hget : ∀ t : Tab α, f (Tab.get d t k) = ((Tab.find t k).map f).getD (f d) := fun _ => (Option.getD_map ..).symm
  rw [hget, hget, h]

theorem Calm.flags {o : Option Nat} {s t : State} (h : Calm o s t) (k : Nat) : (t.wave k).flags = (s.wave k).flags :=
  (congrArg Wave.flags (h.wave k) :)

section
variable {s t : State} {c : Cur} {w : Wave} {p : Nat → Mask}

theorem Began.wave_body (h : Began none s t c w p) {j : Nat} (hj : j ≠ c.wave) : (t.wave j).body = (s.wave j).body :=
  Tab.get_of_map_find _ Wave.body (h.others j hj)

theorem Began.block_still (h : Began none s t c w p) (n : Nat) : (t.block n).still = (s.block n).still :=
  Tab.get_of_map_find _ Block.still (h.blocks n)

theorem Began.find_block (h : Began none s t c w p) {n : Nat} (hb : (Tab.find s.blocks n).isSome) :
    Tab.find t.blocks n = some (t.block n) := by
  have hs : (Tab.find t.blocks n).isSome := by
    have := congrArg Option.isSome (h.blocks n)
    rw [Option.isSome_map, Option.isSome_map] at this
    exact this.trans hb
  obtain ⟨b, hb⟩ := Option.isSome_iff_exists.1 hs
  rw [hb, State.block_of_find hb]

end

/-- A write of a frame slot is a record of the slot, then a change of the block in its frame table and the old values
that it keeps (R109, R180, R377). -/
theorem State.putFrame_eq (s : State) (blk wib n : Nat) (v : BitVec 128) :
    ∃ (g : Block → Block) (loc : RecLoc) (val : RecVal),
      s.putFrame blk wib n v = (s.record blk wib loc val).updBlock blk g ∧ ∀ b,
        (g b).frames = Tab.set 0 b.frames n v ∧
        { (g b).still with frames := [], frameOld := [] } = { b.still with frames := [], frameOld := [] } :=
  ⟨_, _, _, rfl, fun _ => ⟨rfl, rfl⟩⟩

theorem State.park_updBlock (s : State) (k blk : Nat) (g : Block → Block) (mark : Bool) :
    (s.updBlock blk g).park k mark = (s.park k mark).updBlock blk g := by
  unfold State.park
  split <;> rfl

theorem State.park_mem (s : State) (k : Nat) (mark : Bool) : (s.park k mark).mem = s.mem := by
  unfold State.park
  split <;> rfl

theorem State.park_flags (s : State) (k j : Nat) (mark : Bool) : ((s.park k mark).wave j).flags = (s.wave j).flags := by
  unfold State.park
  split
  · by_cases h : j = k
    · subst h
      unfold State.wave Tab.get
      rw [State.updWave_waves, Tab.find_upd, if_pos rfl]
      cases Tab.find s.waves j <;> rfl
    · rw [State.wave_updWave_other _ _ _ h]
  · rfl

/-- What FRAME needs (R180). -/
def frameNeed (h : Hdr) (a : Reg) : Need := { h := h, srcs := runOf a 4, dsts := [] }

/-- FRAME's own part (R180). -/
def Iss.writeFrame (v : Iss) (slot : BitVec 4) (a : Reg) : Eff :=
  if v.idle then .done v.t
  else v.uniform (v.differ fun l => (List.range 4).map fun j => v.rd (a.toNat + j) l)
    (.done (v.t.putFrame v.w.block v.w.wib slot.toNat (v.frameValue a v.low)))

theorem execFrame_eq (h : Hdr) (slot : BitVec 4) (a : Reg) (s : State) :
    execFrame h slot a s = issue s (frameNeed h a) fun i => i.writeFrame slot a := rfl

theorem Iss.writeFrame_active {v : Iss} {slot : BitVec 4} {a : Reg} (hi : v.idle = false)
    (hu : (v.lanes.all fun l => (List.range 4).all fun j => v.rd (a.toNat + j) l == v.rd (a.toNat + j) v.low) = true) :
    v.writeFrame slot a = .done (v.t.putFrame v.w.block v.w.wib slot.toNat (v.frameValue a v.low)) := by
  unfold Iss.writeFrame
  rw [if_neg (Bool.eq_false_iff.1 hi), uniform_go]
  simpa [List.range_succ] using hu

/-- What is left of a state after its issuing wave has passed FRAME, short of the write of the slot itself. -/
theorem frame_began {s : State} {c : Cur} {w : Wave} {nd : Need} (act : Mask) (blk wib : Nat) (loc : RecLoc)
    (val : RecVal) (mark : Bool) (hw : Tab.find s.waves c.wave = some w) (he : ∀ r ∈ nd.looks, Tab.get 0 w.ecc r = 0) :
    let u := ((s.advance nd c.wave c.path c.pc act).record blk wib loc val).park c.wave mark
    Began none s u c w (fun r => Tab.get 0 w.pend r) ∧ (u.wave c.wave).flags = w.flags ∧ Memory.Grew s.mem u.mem := by
  intro u
  have hrec : Calm none (s.advance nd c.wave c.path c.pc act) ((s.advance nd c.wave c.path c.pc act).record blk wib loc val) :=
    calm_record ..
  obtain ⟨hwaves, hframe, -, -⟩ := State.advance_clean (nd := nd) c.path c.pc act hw he
  have hadv : (s.advance nd c.wave c.path c.pc act).wave c.wave = w.advanced nd c.path c.pc :=
    State.wave_of_find (by rw [hwaves, Tab.find_upd, if_pos rfl, hw]; rfl)
  refine ⟨((began_advance act hw he).calm hrec).park mark, ?_, ?_⟩
  · rw [State.park_flags, hrec.flags, hadv]
    exact w.advanced_flags nd c.path c.pc
  · rw [State.park_mem, ← show (s.advance nd c.wave c.path c.pc act).mem = s.mem from congrArg Prod.fst hframe]
    exact grew_recordAt _ _ _ _ _ _

/-- FRAME's next state is one that `frame_began` speaks of, with the slot written last of all. -/
theorem frame_next {s : State} {c : Cur} {w : Wave} {h : Hdr} {slot : BitVec 4} {a : Reg} (hr : s.Ready c w h (runOf a 4))
    (hact : (s.issOf c w h).act ≠ 0) (hu : ((s.issOf c w h).lanes.all fun l => (List.range 4).all fun j =>
      (s.issOf c w h).rd (a.toNat + j) l == (s.issOf c w h).rd (a.toNat + j) (s.issOf c w h).low) = true) :
    ∃ (u : State) (g : Block → Block), execFrame h slot a s = .next (u.updBlock w.block g) ∧
      Began none s u c w (fun r => Tab.get 0 w.pend r) ∧ (u.wave c.wave).flags = w.flags ∧ Memory.Grew s.mem u.mem ∧
      ∀ b, (g b).frames = Tab.set 0 b.frames slot.toNat ((s.issOf c w h).frameValue a (s.issOf c w h).low) ∧
        { (g b).still with frames := [], frameOld := [] } = { b.still with frames := [], frameOld := [] } := by
  obtain ⟨hsup, hsrc, hn⟩ : Covers (frameNeed h a) (runOf a 4) [] := covers_list rfl (List.append_nil _) rfl rfl rfl
  have hv := State.Ready.verdict (nd := frameNeed h a) hr (by rw [hsup]; simp) hsrc hn
  have he := State.Ready.looks_clean (nd := frameNeed h a) hr hsrc hn
  have hi : (s.issAt c w (frameNeed h a) (w.active s.free c.path h)).idle = false := beq_false_of_ne hact
  have hown := Iss.writeFrame_active (slot := slot) hi hu
  obtain ⟨g, loc, val, hput, hg⟩ := State.putFrame_eq (s.advance (frameNeed h a) c.wave c.path c.pc (w.active s.free c.path h))
    w.block w.wib slot.toNat ((s.issOf c w h).frameValue a (s.issOf c w h).low)
  obtain ⟨hbegan, hflags, hgrew⟩ := frame_began (w.active s.free c.path h) w.block w.wib loc val h.mark hr.1.2 he
  refine ⟨_, g, ?_, hbegan, hflags, hgrew, hg⟩
  rw [execFrame_eq, issue_go hr.1 hv, show (frameNeed h a).h = h from rfl, hown]
  exact congrArg Host.Outcome.next ((congrArg (State.park · c.wave h.mark) hput).trans (State.park_updBlock ..))

/-- FRAME's half of O26. -/
theorem frameGoes : FrameGoes := by
  intro s c w h slot a hr v hact hu hb
  obtain ⟨u, g, hnext, hbegan, hflags, hgrew, hg⟩ := frame_next (slot := slot) hr hact hu
  obtain ⟨hpass, hholds, hquiet⟩ := hbegan.facts hr.1.2
  have hself := u.block_updBlock_self _ g (hbegan.find_block hb)
  have hstill := hbegan.block_still w.block
  have hframes : (u.block w.block).frames = (s.block w.block).frames := (congrArg Block.frames hstill :)
  refine ⟨_, hnext, hpass, hholds, hbegan.pends_none hr.1.2, hquiet.trans ?_, hflags, fun n => ?_, ?_, fun n hne => ?_,
    fun j hj => hbegan.wave_body hj, hgrew, hbegan.dev, hbegan.clusters, hbegan.agenda⟩
  · rw [State.wave_of_find hr.1.2]
  · rw [hself, (hg _).1, Tab.get_set, hframes]
  · rw [hself, (hg _).2, hstill]
  · rw [u.block_updBlock_other _ g hne]
    exact hbegan.block_still n

/-- Settles O26: SWR and FRAME each reach what their rules give. -/
theorem specialRegistersAndFramesWritten : Obligations.SpecialRegistersAndFramesWritten := ⟨swrGoes, frameGoes⟩

end Sys2Proof.Machine
